-- ==== Sys2Proof/Word.lean ====
section
/-!
DEFINITION. The machine's word types: a byte, a 32-bit instruction word, and the 64-bit container that holds every
register (`00_scope.md` R7, R8). A register narrower than 64 bits is held with the bits above its width zero, except
`x1`..`x31` and `pc`, which are held sign-extended to the widest supported XLEN (`10_state.md` R25).
-/

namespace Sys2Proof

/-- One byte of memory. -/
abbrev Byte := BitVec 8

/-- One instruction word (`30_encoding.md` R620). -/
abbrev IWord := BitVec 32

/-- A register container. -/
abbrev Word := BitVec 64

end Sys2Proof
end

