-- ==== Sys2Proof/Config.lean ====
section
/-!
DEFINITION. What an implementation fixes (`00_scope.md` section 4), as plain data, and the free values: opaque constants
that stand for what the architecture leaves UNSPECIFIED (`00_scope.md` R9 `UNSPEC`, `93_implementation_defined.md`).
-/

namespace Sys2Proof

/-- The two register widths of this specification (`11_state_machine_csrs.md` R81). -/
inductive Xlen where
  | x32
  | x64
  deriving DecidableEq, Repr

/-- Which widths an XLEN field may hold (`SXL_SET`, `UXL_SET`, `VSXL_SET`, `VUXL_SET`). -/
structure XlenSet where
  has32 : Bool
  has64 : Bool
  deriving DecidableEq, Repr

/-- Which values an endianness bit may hold (`MBE_SET`, `SBE_SET`, `UBE_SET`, `VSBE_SET`). -/
structure EndSet where
  little : Bool
  big : Bool
  deriving DecidableEq, Repr

/-- Main memory or I/O; an address in no region is vacant (`20_memory.md` R416). -/
inductive RegionKind where
  | main
  | io
  deriving DecidableEq, Repr

/-- AMO classes of a region (`20_memory.md` R418, Table 3.9). -/
inductive AmoClass where
  | none
  | swap
  | logical
  | arithmetic
  deriving DecidableEq, Repr

/-- Reservability of a region (`20_memory.md` R424). -/
inductive RsrvClass where
  | none
  | nonEventual
  | eventual
  deriving DecidableEq, Repr

/-- Memory-ordering attribute of a region (`20_memory.md` R426). -/
inductive OrderClass where
  | rvwmo
  | rvtso
  | relaxedIo
  | strongIo (channel : Nat)
  deriving DecidableEq, Repr

/-- A kind of data access, for the misaligned accesses an implementation performs (`92_eei_decisions.md` D19). -/
inductive DataKind where
  | load
  | store
  | amo
  deriving DecidableEq, Repr

/-- Misaligned accesses of a kind and width that are performed: those that cross no multiple of `block` bytes, or all where
`block` is 0 (`MISALIGNED_OK`, a predicate on address, width and kind). -/
structure MisalignedOk where
  kind : DataKind
  width : Nat
  block : Nat
  deriving DecidableEq, Repr

/-- A region of the physical memory attribute map (`20_memory.md` R415-R428). -/
structure PmaRegion where
  base : Nat
  size : Nat
  kind : RegionKind
  /-- access widths in bytes supported for read, for write and for execute (`20_memory.md` R417) -/
  readWidths : List Nat
  writeWidths : List Nat
  execWidths : List Nat
  /-- misaligned accesses performed here (`MISALIGNED_OK`) -/
  misaligned : List MisalignedOk
  /-- the AMO class of each supported AMO width in bytes (`20_memory.md` R418) -/
  amo : List (Nat × AmoClass)
  rsrv : RsrvClass
  order : OrderClass
  cacheable : Bool
  coherent : Bool
  idempotentRead : Bool
  idempotentWrite : Bool
  deriving DecidableEq, Repr

/-- WARL legalisation of a trap-vector register (`MTVEC_LEGAL`, `STVEC_LEGAL`, `VSTVEC_LEGAL`;
`11_state_machine_csrs.md` R120): a read-only value, or the supported modes with the alignment (as a power of two) each
puts on the base, the implemented bits of the base, and whether a base that is not legal is rounded down to one or replaced
by the implementation's pick (`Config.basePick`). -/
structure TvecLegal where
  readOnly : Bool
  value : Word
  direct : Bool
  vectored : Bool
  directAlign : Nat
  vectoredAlign : Nat
  baseMask : Word
  rounds : Bool
  deriving DecidableEq, Repr

/-- Which guest physical addresses, shifted right by 2, `mtval2` or `htval` can hold beside zero: all, those that
`Config.gpaHolds` selects, or none (`13_state_hypervisor_csrs.md` R338, R394). -/
inductive GpaHold where
  | all
  | some
  | none
  deriving DecidableEq, Repr

/-- `MTVAL2_LEGAL` or `HTVAL_LEGAL`: what the register can hold, and the causes (bit c) for which a trap writes the guest
physical address where it can be held (`61_exceptions_hypervisor.md` R948). -/
structure GpaLegal where
  hold : GpaHold
  causes : Word
  deriving DecidableEq, Repr

/-- The implementation parameters of `00_scope.md` section 4. -/
structure Config where
  /-- widest supported MXLEN, and whether `misa.MXL` is writable -/
  mxlMax : Xlen
  mxlWritable : Bool
  /-- `MISA_ZERO`, `MISA_EXT_RESET`, `MISA_WRITABLE` -/
  misaZero : Bool
  extMax : BitVec 26
  extWritable : BitVec 26
  sxlSet : XlenSet
  uxlSet : XlenSet
  vsxlSet : XlenSet
  vuxlSet : XlenSet
  mbeSet : EndSet
  sbeSet : EndSet
  ubeSet : EndSet
  vsbeSet : EndSet
  mtvecLegal : TvecLegal
  stvecLegal : TvecLegal
  vstvecLegal : TvecLegal
  medelegMask : Word
  midelegMask : Word
  /-- bits of `mideleg` for lower-level interrupts that are read-only one (`11_state_machine_csrs.md` R126) -/
  midelegFixed : Word
  hedelegMask : Word
  hidelegMask : Word
  /-- `MIP_IMPL`, `MIE_IMPL`: which of SSI (bit 1), STI (bit 5) and SEI (bit 9) are implemented
  (`12_state_supervisor_csrs.md` R233) -/
  mipImpl : Word
  /-- platform interrupts (bits 16 and above): which exist, which are writable, and their priority order -/
  platIrq : Word
  platIrqWritable : Word
  platPriority : List Nat
  /-- `MSIP_IMPL`: the software-interrupt register exists -/
  hasMsip : Bool
  hpmImpl : BitVec 32
  mcounterenMask : BitVec 32
  scounterenMask : BitVec 32
  hcounterenMask : BitVec 32
  hasCountinhibit : Bool
  mcountinhibitMask : BitVec 32
  hasTime : Bool
  /-- `XTVAL_POLICY`: bit c says that exception c writes its informative value -/
  xtvalPolicy : Word
  mtval2Legal : GpaLegal
  htvalLegal : GpaLegal
  /-- `XTINST_POLICY`: transformed instructions are written -/
  xtinstTransformed : Bool
  /-- an illegal value written to a WLRL field raises an illegal instruction exception; otherwise the field keeps its value, or
  takes the implementation's pick `Config.wlrlPick` (`92_eei_decisions.md` D45) -/
  wlrlTraps : Bool
  wlrlKeeps : Bool
  /-- `XCAUSE_LEGAL`: ranges of legal Exception Codes, first and last -/
  xcauseLegal : List (Nat × Nat)
  /-- `XEPC_LEGAL`, `XTVAL_LEGAL`: every address is held, or the valid ones and those `Config.xepcHolds`, `Config.xtvalHolds`
  select (`92_eei_decisions.md` D8; entry 42) -/
  xepcAll : Bool
  xtvalAll : Bool
  /-- `ILEN` in bits -/
  ilen : Nat
  mvendorid : BitVec 32
  marchid : Word
  mimpid : Word
  mhartid : Word
  mconfigptr : Word
  pmpN : Nat
  pmpG : Nat
  /-- the `pmpaddr` registers beyond `PMP_N` do not exist (`40_csr_access.md` R671); otherwise they read zero (`20_memory.md`
  R430; entry 22) -/
  pmpAddrAbsent : Bool
  /-- `PMPCFG_LEGAL`: further bytes that `pmpNcfg` cannot hold, and whether a write of an illegal byte leaves the old one or
  stores the implementation's pick `Config.pmpCfgPick` (`92_eei_decisions.md` D21) -/
  pmpCfgUnsupported : List Byte
  pmpCfgKeeps : Bool
  /-- `PMP_RESET`: platform-mandated A and L bits of `pmpNcfg` at reset -/
  pmpReset : List (Nat × Byte)
  palen : Nat
  pma : List PmaRegion
  /-- `SATP_MODES`: Sv32, and how many of Sv39, Sv48, Sv57 -/
  sv32 : Bool
  svLevels : Nat
  asidLen : Nat
  /-- `HGATP_MODES` -/
  sv32x4 : Bool
  sv39x4 : Bool
  sv48x4 : Bool
  sv57x4 : Bool
  vmidLen : Nat
  geilen : Nat
  /-- `ADUPDATE` = hardware -/
  adHardware : Bool
  svnapot : Bool
  svpbmt : Bool
  svinval : Bool
  /-- `MISALIGNED_PRIORITY` = before_translation -/
  misalignedBefore : Bool
  wfiTimeout : Nat
  resetVector : Word
  nmiVector : Word
  resetCause : Word
  nmiCause : Word
  mtimeAddr : Nat
  mtimecmpAddr : Nat
  msipAddr : Nat
  /-- `VSATP_V0_BAD_MODE` = ignore -/
  vsatpBadModeIgnored : Bool
  sfenceBareIllegal : Bool
  /-- FS (VS) is read-only zero when S-mode is present and the unit is not (`11_state_machine_csrs.md` R110, R111) -/
  fsReadOnlyZero : Bool
  vsReadOnlyZero : Bool
  /-- dirtiness is not tracked: FS, or apart from it VS, holds only Off and Dirty (`11_state_machine_csrs.md` R116) -/
  fsCoarse : Bool
  vsCoarse : Bool
  deriving DecidableEq, Repr

/-! ### Letters of `misa` (`11_state_machine_csrs.md` R83) -/

def letterA : Nat := 0
def letterC : Nat := 2
def letterD : Nat := 3
def letterE : Nat := 4
def letterF : Nat := 5
def letterH : Nat := 7
def letterI : Nat := 8
def letterQ : Nat := 16
def letterS : Nat := 18
def letterU : Nat := 20
def letterV : Nat := 21

/-- The letters to which R83 gives a meaning; all others read zero. -/
def definedLetters : BitVec 26 := 0xB5B3BF

/-- A letter cleared unless the letter it depends on is set. -/
def needs (e : BitVec 26) (x y : Nat) : BitVec 26 := if e.getLsbD y then e else e &&& ~~~(BitVec.ofNat 26 (2 ^ x))

/-- The dependencies of `11_state_machine_csrs.md` R85: a letter is cleared with the one it depends on. -/
def closeLetters (e : BitVec 26) : BitVec 26 :=
  needs (needs (needs (needs (needs e letterS letterU) letterH letterS) letterH letterI) letterD letterF) letterQ letterD

namespace Config

/-- A paged MODE of `satp` exists at the width: Sv32, or at least Sv39. -/
def pagedAt (c : Config) (x : Xlen) : Bool :=
  match x with
  | .x32 => c.sv32
  | .x64 => decide (0 < c.svLevels)

/-- The letters closed at a width: beside the dependencies among them, the hypervisor extension needs page-based address
translation, Sv32 for RV32 or at least Sv39 for RV64 (`00_scope.md` R3). -/
def closeAt (c : Config) (x : Xlen) (e : BitVec 26) : BitVec 26 :=
  closeLetters (if c.pagedAt x then e else e &&& ~~~(BitVec.ofNat 26 (2 ^ letterH)))

/-- The letters at reset: the maximal set of supported extensions, only those R83 defines, I selected over E, whose bit is
computed (`11_state_machine_csrs.md` R83-R85). -/
def letters (c : Config) : BitVec 26 :=
  c.closeAt c.mxlMax (c.extMax &&& definedLetters &&& ~~~(BitVec.ofNat 26 (2 ^ letterE)))

/-- A mode below M can have 32-bit registers beside a 64-bit one. -/
def mixed (c : Config) : Bool :=
  c.mxlWritable || c.sxlSet.has32 || c.uxlSet.has32 || c.vsxlSet.has32 || c.vuxlSet.has32

/-- Both base ISAs are supported: I may be cleared to select RV32E (`11_state_machine_csrs.md` R84). -/
def hasBothBases (c : Config) : Bool :=
  c.extMax.getLsbD letterI && c.extMax.getLsbD letterE && c.extWritable.getLsbD letterI

/-- Sv39 is implemented: a scheme of RV64, of a hart with S-mode whose SXLEN can be 64. -/
def hasSv39 (c : Config) : Bool :=
  decide (0 < c.svLevels) && decide (c.mxlMax = .x64) && c.sxlSet.has64 && c.letters.getLsbD letterS

/-- Svnapot and Svpbmt depend on Sv39 (`00_scope.md` R3). -/
def hasSvnapot (c : Config) : Bool := c.svnapot && c.hasSv39

def hasSvpbmt (c : Config) : Bool := c.svpbmt && c.hasSv39

/-- The parameters have values that `00_scope.md` R3 and its section 4 allow. The model runs with any; a value that is not
allowed describes no hardware. -/
def legal (c : Config) : Bool :=
  (c.extMax.getLsbD letterI || c.extMax.getLsbD letterE) && (c.extMax.getLsbD letterI || decide (c.mxlMax = .x32)) &&
  decide (c.letters = c.extMax &&& ~~~(BitVec.ofNat 26 (2 ^ letterE))) &&
  [0, 16, 64].contains c.pmpN && decide (c.svLevels ≤ 3) && (decide (c.svLevels = 0) || c.hasSv39) &&
  (!c.sv32 || c.letters.getLsbD letterS) && (!c.svnapot || c.hasSv39) && (!c.svpbmt || c.hasSv39) && decide (32 ≤ c.ilen) &&
  decide (c.palen ≤ match c.mxlMax with | .x32 => 34 | .x64 => 56) &&
  decide (c.asidLen ≤ match c.mxlMax with | .x32 => 9 | .x64 => 16) &&
  decide (c.vmidLen ≤ match c.mxlMax with | .x32 => 7 | .x64 => 14) &&
  decide (c.geilen ≤ match c.mxlMax with | .x32 => 31 | .x64 => 63) &&
  decide (c.hedelegMask &&& ~~~(0xB1FF : Word) = 0) && decide (c.mipImpl &&& ~~~(0x222 : Word) = 0)

/-- Every legal value of an XLEN set. -/
def xlens (x : XlenSet) : List Xlen :=
  (if x.has32 then [Xlen.x32] else []) ++ (if x.has64 then [Xlen.x64] else [])

/-- Every legal value of an endianness bit. -/
def ends (e : EndSet) : List Bool :=
  (if e.little then [false] else []) ++ (if e.big then [true] else [])

/-- The main memory of the default platform (entry 1). -/
def defaultRam : PmaRegion :=
  { base := 0x80000000, size := 0x80000000, kind := .main, readWidths := [1, 2, 4, 8], writeWidths := [1, 2, 4, 8],
    execWidths := [1, 2, 4, 8],
    misaligned := [], amo := [(4, .arithmetic), (8, .arithmetic)], rsrv := .eventual, order := .rvwmo,
    cacheable := true, coherent := true, idempotentRead := true, idempotentWrite := true }

/-- The timer and software-interrupt registers of the default platform: a strongly ordered I/O region
(`60_exceptions.md` R895; entry 1). -/
def defaultTimer : PmaRegion :=
  { base := 0x02000000, size := 0x10000, kind := .io, readWidths := [1, 2, 4, 8], writeWidths := [1, 2, 4, 8],
    execWidths := [], misaligned := [], amo := [], rsrv := .none, order := .strongIo 0,
    cacheable := false, coherent := true, idempotentRead := true, idempotentWrite := true }

/-- A writable trap vector supporting both modes at four-byte alignment. -/
def defaultTvec : TvecLegal :=
  { readOnly := false, value := 0, direct := true, vectored := true, directAlign := 2, vectoredAlign := 2
    baseMask := 0xFFFFFFFFFFFFFFFF, rounds := true }

/-- The configuration at reset: RV64 with M, S, U, H, A and F, and the defaults of `92_eei_decisions.md`
(DESIGN CHOICE, entry 1). Statements hold for every configuration. -/
def default : Config :=
  { mxlMax := .x64, mxlWritable := false, misaZero := false
    extMax := 0x01401A1
    extWritable := 0x00000A0
    sxlSet := ⟨false, true⟩, uxlSet := ⟨false, true⟩, vsxlSet := ⟨false, true⟩, vuxlSet := ⟨false, true⟩
    mbeSet := ⟨true, true⟩, sbeSet := ⟨true, true⟩, ubeSet := ⟨true, true⟩, vsbeSet := ⟨true, true⟩
    mtvecLegal := defaultTvec, stvecLegal := defaultTvec, vstvecLegal := defaultTvec
    medelegMask := 0xF0B7FF, midelegMask := 0x222, midelegFixed := 0, hedelegMask := 0xB1FF, hidelegMask := 0x444
    mipImpl := 0x222, platIrq := 0, platIrqWritable := 0, platPriority := []
    hasMsip := true
    hpmImpl := 0, mcounterenMask := 7, scounterenMask := 7, hcounterenMask := 7
    hasCountinhibit := true, mcountinhibitMask := 5, hasTime := true
    xtvalPolicy := 0xFFFFFFFFFFFFFFFF, mtval2Legal := ⟨.all, 0xF00000⟩, htvalLegal := ⟨.all, 0xF00000⟩
    xtinstTransformed := true, wlrlTraps := false
    wlrlKeeps := true, xcauseLegal := [(0, 63)], xepcAll := true, xtvalAll := true, ilen := 32
    mvendorid := 0, marchid := 0, mimpid := 0, mhartid := 0, mconfigptr := 0
    pmpN := 16, pmpAddrAbsent := false, pmpG := 0, pmpCfgUnsupported := [], pmpCfgKeeps := true, pmpReset := [], palen := 56
    pma := [defaultRam, defaultTimer]
    sv32 := false, svLevels := 3, asidLen := 16
    sv32x4 := false, sv39x4 := true, sv48x4 := true, sv57x4 := true, vmidLen := 14, geilen := 8
    adHardware := false, svnapot := true, svpbmt := true, svinval := true
    misalignedBefore := false, wfiTimeout := 0
    resetVector := 0x80000000, nmiVector := 0x80000040, resetCause := 0, nmiCause := 0
    mtimeAddr := 0x0200BFF8, mtimecmpAddr := 0x02004000, msipAddr := 0x02000000
    vsatpBadModeIgnored := true, sfenceBareIllegal := false
    fsReadOnlyZero := false, vsReadOnlyZero := true, fsCoarse := false, vsCoarse := false }

/-! ### Free values

Nothing can evaluate these: a claim that mentions one is true whatever it is. -/

/-- The WARL fields whose value after an illegal write the architecture leaves to the implementation. -/
inductive WarlField where
  | mxl
  | mpp
  | sxl
  | uxl
  | vsxl
  | vuxl
  | tvecMode
  | mbe
  | sbe
  | ube
  | vsbe
  deriving DecidableEq, Repr

/-- Which legal value a WARL field takes after an illegal write, as a function of the field, the value written and the
value before (`10_state.md` R42; entry 14). -/
opaque warlPick : WarlField → Nat → Nat → Nat

/-- The WLRL fields (`10_state.md` R41). -/
inductive WlrlField where
  | mcause
  | scause
  | vscause
  | vgein
  deriving DecidableEq, Repr

/-- The bit pattern a WLRL field takes after an illegal write, as a function of the field, the value written and the value
before: `f` of `10_state.md` R41 (entry 15). -/
opaque wlrlPick : WlrlField → Nat → Nat → Nat

/-- The base a trap vector takes when the base written is not legal (entry 18). -/
opaque basePick : Nat → Nat → Nat

/-- The byte `pmpNcfg` takes when the byte written is not legal (entry 41). -/
opaque pmpCfgPick : Byte → Byte → Byte

/-- The invalid addresses that `mepc`, `sepc` and `vsepc` hold, and the one held in place of another (`XEPC_LEGAL`; entry 42).
-/
opaque xepcHolds : Word → Bool

opaque xepcInstead : Word → Word

/-- The same of `mtval`, `stval` and `vstval` (`XTVAL_LEGAL`; entry 42). -/
opaque xtvalHolds : Word → Bool

opaque xtvalInstead : Word → Word

/-- The registers that hold guest physical addresses. -/
inductive GpaReg where
  | mtval2
  | htval
  deriving DecidableEq, Repr

/-- The values `mtval2` and `htval` hold, and the one held in place of another that is written (`MTVAL2_LEGAL`, `HTVAL_LEGAL`;
entry 44). -/
opaque gpaHolds : GpaReg → Word → Bool

opaque gpaInstead : GpaReg → Word → Word

/-- The n-th UNSPECIFIED value drawn in a run (`00_scope.md` R9; entry 5). -/
opaque draw : Nat → Word

/-- The n-th UNSPECIFIED choice among alternatives (entry 5). -/
opaque choice : Nat → Nat

end Config

end Sys2Proof
end

