-- ==== Sys2Proof/Machine/State.lean ====
section
/-!
DEFINITION. The state of one hart and its platform, as plain data (`10_state.md` sections 1, 2, 6 and rule R37), the reasons
a step can stop, and the machine right after reset (`70_reset_and_hazards.md` R980-R987).

Every CSR but `mepc`, `sepc` and `vsepc` is held once, in a 64-bit container with the bits above its width zero; views
(`sstatus`, `sip`, `hip`, `vsip`, the counter shadows) are computed in `Machine/Csr.lean`.
-/

namespace Sys2Proof.Machine

/-- A nominal privilege mode (`10_state.md` R20). -/
inductive Priv where
  | u
  | s
  | m
  deriving DecidableEq, Repr

/-- `misa`: MXL and the Extensions field (`11_state_machine_csrs.md` R80). -/
structure Misa where
  mxl : Xlen
  ext : BitVec 26
  deriving DecidableEq, Repr

/-- The writable fields of `mstatus` and `mstatush` (`11_state_machine_csrs.md` R96, R98; `13_state_hypervisor_csrs.md`
R386). XS is read-only zero and SD is computed (R112, R113). -/
structure Mstatus where
  sie : Bool
  mie : Bool
  spie : Bool
  ube : Bool
  mpie : Bool
  spp : Bool
  vs : BitVec 2
  mpp : Priv
  fs : BitVec 2
  mprv : Bool
  sum : Bool
  mxr : Bool
  tvm : Bool
  tw : Bool
  tsr : Bool
  uxl : Xlen
  sxl : Xlen
  sbe : Bool
  mbe : Bool
  gva : Bool
  mpv : Bool
  deriving DecidableEq, Repr

/-- The writable fields of `vsstatus` (`13_state_hypervisor_csrs.md` R360). -/
structure Vsstatus where
  sie : Bool
  spie : Bool
  ube : Bool
  spp : Bool
  vs : BitVec 2
  fs : BitVec 2
  sum : Bool
  mxr : Bool
  uxl : Xlen
  deriving DecidableEq, Repr

/-- The fields of `hstatus` (`13_state_hypervisor_csrs.md` R290). -/
structure Hstatus where
  vsbe : Bool
  gva : Bool
  spv : Bool
  spvp : Bool
  hu : Bool
  vgein : BitVec 6
  vtvm : Bool
  vtw : Bool
  vtsr : Bool
  vsxl : Xlen
  deriving DecidableEq, Repr

/-- Machine-level trap and configuration registers (`11_state_machine_csrs.md` R120-R197; `13_state_hypervisor_csrs.md`
R394, R396). `mepc`, `sepc` and `vsepc` are held with bit 0 clear (R159), sign-extended to the widest supported XLEN
(`60_exceptions.md` R851). -/
structure MCsrs where
  tvec : Word
  edeleg : Word
  ideleg : Word
  /-- all of `mie`; `sie`, `hie` and `vsie` are views of it -/
  ie : Word
  scratch : Word
  epc : Word
  cause : Word
  tval : Word
  tval2 : Word
  tinst : Word
  fiom : Bool
  pbmte : Bool
  deriving DecidableEq, Repr

/-- Supervisor-level (HS-level) registers (`12_state_supervisor_csrs.md` R228-R270). -/
structure SCsrs where
  tvec : Word
  scratch : Word
  epc : Word
  cause : Word
  tval : Word
  atp : Word
  fiom : Bool
  deriving DecidableEq, Repr

/-- Hypervisor registers (`13_state_hypervisor_csrs.md` R300-R346). -/
structure HCsrs where
  edeleg : Word
  ideleg : Word
  gei : Word
  fiom : Bool
  pbmte : Bool
  timedelta : Word
  tval : Word
  tinst : Word
  gatp : Word
  deriving DecidableEq, Repr

/-- Virtual-supervisor registers (`13_state_hypervisor_csrs.md` R370-R380). -/
structure VsCsrs where
  tvec : Word
  scratch : Word
  epc : Word
  cause : Word
  tval : Word
  atp : Word
  deriving DecidableEq, Repr

/-- Counters, event selectors and the registers that enable or inhibit them (`11_state_machine_csrs.md` R140-R152,
`12_state_supervisor_csrs.md` R240, `13_state_hypervisor_csrs.md` R330). `hpmcounter` and `hpmevent` hold numbers 3..31. -/
structure Counters where
  cycle : Word
  instret : Word
  hpmcounter : Vector Word 29
  hpmevent : Vector Word 29
  mcounteren : BitVec 32
  scounteren : BitVec 32
  hcounteren : BitVec 32
  inhibit : BitVec 32
  deriving DecidableEq, Repr

/-- The physical memory protection registers (`20_memory.md` R430-R436). -/
structure Pmp where
  cfg : Vector Byte 64
  addr : Vector Word 64
  deriving DecidableEq, Repr

/-- Interrupt-pending bits that software writes (`11_state_machine_csrs.md` R134-R138; `13_state_hypervisor_csrs.md`
R306), and MTIP and MSIP as the hart sees them (`92_eei_decisions.md` D25). -/
structure Pending where
  /-- the software-writable bit B of `mip.SEIP` -/
  seipB : Bool
  stip : Bool
  ssip : Bool
  vssip : Bool
  vstip : Bool
  vseip : Bool
  /-- platform bits 16 and above written by software -/
  plat : Word
  mtip : Bool
  msip : Bool
  /-- changes of the timer comparison and of the MSIP register on their way to MTIP and MSIP, oldest first
  (`92_eei_decisions.md` D25) -/
  mtipDue : List Bool
  msipDue : List Bool
  deriving DecidableEq, Repr

/-- Interrupt input signals of the hart (`10_state.md` R50). -/
structure Wires where
  meip : Bool
  /-- the supervisor external signal E -/
  seip : Bool
  /-- platform VS-level external and timer signals -/
  vsei : Bool
  vsti : Bool
  hgeip : Word
  plat : Word
  deriving DecidableEq, Repr

/-- The memory-mapped registers (`60_exceptions.md` R890-R893). -/
structure Timer where
  mtime : Word
  mtimecmp : Word
  msip : Bool
  deriving DecidableEq, Repr

/-- The population a cached translation record belongs to (`22_two_stage_translation.md` R601). -/
inductive TlbSpace where
  /-- HS-level (`satp`) -/
  | hs
  /-- VS-stage of a virtual machine -/
  | vs (vmid : Nat)
  /-- G-stage of a virtual machine -/
  | g (vmid : Nat)
  deriving DecidableEq, Repr

/-- A paged scheme: levels, bits of a page number, bytes of an entry, and how much wider the top page number is
(`21_virtual_memory.md` R501; `22_two_stage_translation.md` R585). -/
structure Scheme where
  levels : Nat
  vpnBits : Nat
  pteSize : Nat
  topExtra : Nat
  deriving DecidableEq, Repr

/-- A record of the address-translation cache (`21_virtual_memory.md` R552, R563). -/
structure TlbRec where
  space : TlbSpace
  /-- the scheme and byte order of the walk that made it -/
  scheme : Scheme
  big : Bool
  /-- the PTE address it answers for: guest-physical in the VS-stage, else supervisor-physical -/
  key : Nat
  /-- the PTE's bytes as a little-endian number -/
  raw : Nat
  /-- the PTE address it was read from (another slot of the same NAPOT group, `21_virtual_memory.md` R563) -/
  src : Nat
  /-- the supervisor-physical address it was read from -/
  phys : Nat
  asid : Nat
  global : Bool
  level : Nat
  /-- va.vpn[LEVELS-1:level] -/
  prefixBits : Nat
  /-- invalidated by a SINVAL or HINVAL that is not complete (`42_supervisor_instructions.md` R748) -/
  doomed : Bool
  deriving DecidableEq, Repr

/-- What a memory-management fence covers: the structures of `satp`, those of `vsatp` of a virtual machine, or those of `hgatp`,
by address and by ASID or VMID (`42_supervisor_instructions.md` R742, R747; `43_hypervisor_instructions.md` R790, R794). -/
inductive Scope where
  | hs (va : Option Nat) (asid : Option Nat)
  | vs (vmid : Nat) (va : Option Nat) (asid : Option Nat)
  | g (gpa : Option Nat) (vmid : Option Nat)
  deriving DecidableEq, Repr

/-- What has happened to the structures that govern address translation: a change, with what was in force before it, which may
be used until a fence that covers it; or a fence (`20_memory.md` R446, R472, R475; `42_supervisor_instructions.md` R745, R748;
`43_hypervisor_instructions.md` R794). -/
inductive Hist where
  /-- bytes in memory changed from these -/
  | store (addr : Nat) (old : List Byte)
  /-- the PMP settings changed from these -/
  | pmp (p : Pmp)
  /-- `mstatus.SBE` changed -/
  | sbe
  /-- `hstatus.VSBE` changed -/
  | vsbe
  /-- `menvcfg.PBMTE` changed -/
  | pbmte
  /-- `henvcfg.PBMTE` changed -/
  | hpbmte
  /-- `hgatp` changed from this value, at this SXLEN -/
  | gatp (x : Xlen) (w : Word)
  /-- stores so far are ordered before later invalidations (`42_supervisor_instructions.md` R749) -/
  | order
  /-- a fence -/
  | fence (p : Scope)
  /-- a SINVAL or HINVAL, and whether a later fence has completed it (`42_supervisor_instructions.md` R748) -/
  | inval (p : Scope) (done : Bool)
  deriving DecidableEq, Repr

/-- What address translation may still use: the cached records, and the history since reset, the latest first
(`21_virtual_memory.md` R552; `42_supervisor_instructions.md` R745; entry 11). -/
structure Xlat where
  tlb : List TlbRec
  hist : List Hist
  deriving DecidableEq, Repr

/-- A WFI stall: how many more steps it may last and the exception code raised at its end, if any
(`41_machine_instructions.md` R712). -/
structure Wait where
  left : Nat
  guard : Option Nat
  deriving DecidableEq, Repr

/-- Which translation a speculative walk executes (`21_virtual_memory.md` R558, `22_two_stage_translation.md` R594). -/
inductive SpecKind where
  | hs
  | guest
  deriving DecidableEq, Repr

/-- What an agent other than the hart's instruction stream does (`00_scope.md` R6; `10_state.md` R50, R55; entry 4). -/
inductive Event where
  /-- the hart takes its next step -/
  | hart
  /-- the platform drives the interrupt inputs -/
  | wires (w : Wires)
  /-- `mtime` advances (`60_exceptions.md` R890) -/
  | tick (n : Nat)
  /-- `mcycle` advances unless inhibited (`11_state_machine_csrs.md` R141) -/
  | cycles (n : Nat)
  /-- `mhpmcounter k` advances unless inhibited (`11_state_machine_csrs.md` R142) -/
  | hpm (k n : Nat)
  /-- another agent stores a byte to main memory; none writes `mtimecmp` or `mtime` (entry 4) -/
  | store (addr : Nat) (b : Byte)
  /-- another agent writes the MSIP register (`60_exceptions.md` R893) -/
  | msip (b : Bool)
  /-- the interrupt controller sets `mip.SSIP` (`11_state_machine_csrs.md` R136) -/
  | setSsip
  /-- MTIP keeps its value for n steps (`92_eei_decisions.md` D25) -/
  | holdMtip (n : Nat)
  /-- MSIP keeps its value for n steps -/
  | holdMsip (n : Nat)
  /-- the next WFI may stall for n steps (`41_machine_instructions.md` R713) -/
  | stall (n : Nat)
  /-- a non-maskable interrupt (`60_exceptions.md` R871) -/
  | nmi
  /-- the reset input (`70_reset_and_hazards.md` R980) -/
  | reset
  /-- FS, VS become Dirty (`11_state_machine_csrs.md` R116) -/
  | dirtyFs
  | dirtyVs
  /-- the reservation is set or broken (`10_state.md` R52) -/
  | reserve (r : Option (Nat × Nat))
  /-- a speculative address-translation walk (`21_virtual_memory.md` R558) -/
  | walk (k : SpecKind) (fetch : Bool) (va : Nat)
  /-- the SINVAL and HINVAL instructions so far are complete, as they may be before a fence requires it
  (`42_supervisor_instructions.md` R748; entry 12) -/
  | finish
  deriving DecidableEq, Repr

/-- The state of the machine. -/
structure State where
  /-- `x0`..`x31`; slot 0 is never read or written (`10_state.md` R23) -/
  x : Vector Word 32
  pc : Word
  priv : Priv
  /-- virtualization mode V (`10_state.md` R21) -/
  v : Bool
  misa : Misa
  mst : Mstatus
  vst : Vsstatus
  hst : Hstatus
  m : MCsrs
  sc : SCsrs
  h : HCsrs
  vs : VsCsrs
  cnt : Counters
  pmp : Pmp
  pend : Pending
  wires : Wires
  timer : Timer
  /-- accrued flags in bits 4:0, rounding mode in bits 7:5 (`10_state.md` R27) -/
  fcsr : BitVec 8
  /-- the load reservation: address and size (`10_state.md` R52) -/
  resv : Option (Nat × Nat)
  /-- stalled in WFI (`10_state.md` R54) -/
  wait : Option Wait
  xlat : Xlat
  /-- bytes stored over since the last FENCE.I, which a fetch may still see: address and old value (`20_memory.md` R474) -/
  codeOld : List Host.Cell
  /-- physical memory in canonical form; an unlisted byte reads zero (entry 3) -/
  mem : List Host.Cell
  /-- implementation parameters, fixed for a run (entry 1) -/
  cfg : Config
  /-- the MODEL's own: the schedule of the other agents (entry 4) -/
  inputs : List Event
  /-- the MODEL's own: how many free values have been drawn (entry 5) -/
  draws : Nat
  /-- the MODEL's own: how long the next WFI may stall (entry 8) -/
  stallHint : Nat
  /-- the MODEL's own: for how many steps MTIP keeps its value (entry 7) -/
  mtipHold : Nat
  /-- the MODEL's own: for how many steps MSIP keeps its value (entry 7) -/
  msipHold : Nat
  deriving DecidableEq, Repr

/-- Why the machine stops with a fault. -/
inductive Fault where
  /-- Raised by a memory access to an I/O region whose device the specification does not describe: any I/O address other
  than `mtime`, `mtimecmp` and MSIP (`20_memory.md` R404, R416). Safe: a run ends where hardware goes on. -/
  | device (addr : Nat)
  deriving DecidableEq, Repr

/-- Why the machine has no meaning for what it fetched. -/
inductive Refusal where
  /-- Raised by an arm of `exec` whose instruction has no meaning yet; no arm does. Safe. -/
  | notModelled (mnemonic : String)
  /-- Raised by a 32-bit word of the unprivileged ISA, which the specification leaves to Volume I (`00_scope.md` R5). Safe. -/
  | unprivileged (word : IWord)
  /-- Raised by a 16-bit parcel when the C extension is enabled: also Volume I's. Safe. -/
  | compressed (parcel : BitVec 16)
  deriving DecidableEq, Repr

/-! ### Reset -/

/-- The first legal value of a set of widths, the widest first. -/
def widest (x : XlenSet) : Xlen := if x.has64 then .x64 else .x32

/-- An endianness bit at reset: little-endian where that is legal. -/
def resetEnd (e : EndSet) : Bool := !e.little

/-- A trap-vector register at reset: base zero, MODE Direct where that is supported. -/
def resetTvec (t : TvecLegal) : Word := if t.readOnly then t.value else if t.direct then 0 else 1

/-- MPP at reset: the least-privileged mode the hart has. -/
def resetMpp (c : Config) : Priv := if c.letters.getLsbD letterU then .u else .m

/-- `pmpNcfg` at reset (`70_reset_and_hazards.md` R981): A and L zero, or the platform's `PMP_RESET`. -/
def resetPmpCfg (l : List (Nat × Byte)) : Vector Byte 64 :=
  l.foldl (fun acc p => acc.setIfInBounds p.1 (p.2 &&& 0x98)) (Vector.replicate 64 0)

/-- The machine right after reset, for any implementation parameters. -/
def resetWith (c : Config) : State :=
  { x := Vector.replicate 32 0
    pc := c.resetVector
    priv := .m
    v := false
    misa := { mxl := c.mxlMax, ext := c.letters }
    mst :=
      { sie := false, mie := false, spie := false, ube := resetEnd c.ubeSet && c.letters.getLsbD letterU, mpie := false
        spp := false, vs := 0, mpp := resetMpp c, fs := 0, mprv := false, sum := false, mxr := false, tvm := false
        tw := false, tsr := false, uxl := widest c.uxlSet, sxl := widest c.sxlSet
        sbe := resetEnd c.sbeSet && c.letters.getLsbD letterS, mbe := resetEnd c.mbeSet, gva := false, mpv := false }
    vst :=
      { sie := false, spie := false, ube := resetEnd c.ubeSet, spp := false, vs := 0, fs := 0, sum := false, mxr := false
        uxl := widest c.vuxlSet }
    hst :=
      { vsbe := resetEnd c.vsbeSet, gva := false, spv := false, spvp := false, hu := false, vgein := 0, vtvm := false
        vtw := false, vtsr := false, vsxl := widest c.vsxlSet }
    m :=
      { tvec := resetTvec c.mtvecLegal, edeleg := 0, ideleg := 0, ie := 0, scratch := 0, epc := 0
        cause := c.resetCause, tval := 0, tval2 := 0, tinst := 0, fiom := false, pbmte := false }
    sc :=
      { tvec := resetTvec c.stvecLegal, scratch := 0, epc := 0, cause := 0, tval := 0, atp := 0, fiom := false }
    h :=
      { edeleg := 0, ideleg := 0, gei := 0, fiom := false, pbmte := false, timedelta := 0, tval := 0, tinst := 0, gatp := 0 }
    vs := { tvec := resetTvec c.vstvecLegal, scratch := 0, epc := 0, cause := 0, tval := 0, atp := 0 }
    cnt :=
      { cycle := 0, instret := 0, hpmcounter := Vector.replicate 29 0, hpmevent := Vector.replicate 29 0, mcounteren := 0
        scounteren := 0, hcounteren := 0, inhibit := 0 }
    pmp := { cfg := resetPmpCfg c.pmpReset, addr := Vector.replicate 64 0 }
    pend :=
      { seipB := false, stip := false, ssip := false, vssip := false, vstip := false, vseip := false, plat := 0
        mtip := true, msip := false, mtipDue := [], msipDue := [] }
    wires := { meip := false, seip := false, vsei := false, vsti := false, hgeip := 0, plat := 0 }
    timer := { mtime := 0, mtimecmp := 0, msip := false }
    fcsr := 0
    resv := none
    wait := none
    xlat := { tlb := [], hist := [] }
    codeOld := []
    mem := []
    cfg := c
    inputs := []
    draws := 0
    stallHint := 0
    mtipHold := 0
    msipHold := 0 }

/-- The machine right after reset. -/
def State.reset : State := resetWith Config.default

end Sys2Proof.Machine
end

