-- ==== Sys2Proof/Machine/Basic.lean ====
section
/-!
DEFINITION. Modes and widths (`10_state.md` R20-R25), the drawing of free values (`00_scope.md` R9), and the result of a
piece of an instruction: a value and the state it leaves, an exception to take, or a stop.
-/

namespace Sys2Proof.Machine

/-! ### Extensions and modes -/

/-- Letter k of `misa` is enabled (`11_state_machine_csrs.md` R83, R87). -/
def State.has (s : State) (k : Nat) : Bool := s.misa.ext.getLsbD k

/-- U-mode is implemented and enabled. -/
def State.hasU (s : State) : Bool := s.has letterU

/-- S-mode is implemented and enabled; it needs U-mode (`10_state.md` R20). -/
def State.hasS (s : State) : Bool := s.has letterS && s.hasU

/-- The base is RV32I or RV64I; otherwise it is RV32E (`11_state_machine_csrs.md` R84). -/
def State.hasI (s : State) : Bool := s.has letterI

/-- The hypervisor extension is implemented and enabled; it needs S-mode and a base with 32 registers
(`11_state_machine_csrs.md` R85, `00_scope.md` R3). -/
def State.hasH (s : State) : Bool := s.has letterH && s.hasS && s.hasI

/-- An integer register of the base: RV32E has `x0` to `x15` (`10_state.md` R23). -/
def State.hasReg (s : State) (n : Nat) : Bool := s.hasI || decide (n < 16)

/-- The A extension, which brings the load reservation (`10_state.md` R52). -/
def State.hasA (s : State) : Bool := s.has letterA

/-- The F extension, which brings `fflags`, `frm` and `fcsr` (`10_state.md` R37). -/
def State.hasF (s : State) : Bool := s.has letterF

/-- IALIGN is 16 iff the C extension is enabled (`20_memory.md` R413). -/
def State.hasC (s : State) : Bool := s.has letterC

/-- Page-based virtual memory is implemented (`20_memory.md` R446). -/
def paging (c : Config) : Bool := c.extMax.getLsbD letterS && (c.sv32 || decide (0 < c.svLevels))

/-- The number of a privilege mode (`10_state.md` R20). -/
def Priv.num : Priv → Nat
  | .u => 0
  | .s => 1
  | .m => 3

/-- The nominal privilege as one bit: 0 from U, 1 from S (`60_exceptions.md` R850). -/
def Priv.bit0 : Priv → Bool
  | .u => false
  | .s => true
  | .m => true

/-- The mode a one-bit xPP names (`12_state_supervisor_csrs.md` R221). -/
def privOfSpp (b : Bool) : Priv := if b then .s else .u

/-! ### Widths -/

/-- XLEN in bits. -/
def xlenBits : Xlen → Nat
  | .x32 => 32
  | .x64 => 64

/-- XLEN in M-mode. -/
def State.mxlen (s : State) : Xlen := s.misa.mxl

/-- SXLEN (HSXLEN) (`11_state_machine_csrs.md` R103). -/
def State.sxlen (s : State) : Xlen := if s.misa.mxl = .x32 then .x32 else s.mst.sxl

/-- UXLEN (`12_state_supervisor_csrs.md` R224). -/
def State.uxlen (s : State) : Xlen :=
  if s.misa.mxl = .x32 then .x32 else if s.hasS && decide (s.mst.sxl = .x32) then .x32 else s.mst.uxl

/-- VSXLEN (`13_state_hypervisor_csrs.md` R292). -/
def State.vsxlen (s : State) : Xlen := if s.sxlen = .x32 then .x32 else s.hst.vsxl

/-- XLEN of VU-mode (`13_state_hypervisor_csrs.md` R362). -/
def State.vuxlen (s : State) : Xlen := if s.vsxlen = .x32 then .x32 else s.vst.uxl

/-- XLEN of a mode (`10_state.md` R24). -/
def State.xlenOf (s : State) (p : Priv) (v : Bool) : Xlen :=
  match p, v with
  | .m, _ => s.mxlen
  | .s, false => s.sxlen
  | .s, true => s.vsxlen
  | .u, false => s.uxlen
  | .u, true => s.vuxlen

/-- The current XLEN. -/
def State.xlen (s : State) : Xlen := s.xlenOf s.priv s.v

/-- The low XLEN bits of a container, zero above. -/
def maskX (x : Xlen) (w : Word) : Word :=
  match x with
  | .x32 => (w.setWidth 32).setWidth 64
  | .x64 => w

/-- The low XLEN bits of a container, sign-extended. -/
def sextX (x : Xlen) (w : Word) : Word :=
  match x with
  | .x32 => (w.setWidth 32).signExtend 64
  | .x64 => w

/-- A value of width XLEN sign-extended to the widest supported XLEN (`10_state.md` R25). -/
def extendTo (c : Config) (x : Xlen) (w : Word) : Word :=
  match c.mxlMax with
  | .x32 => maskX .x32 w
  | .x64 => sextX x w

/-- A result of width XLEN as an integer register or `pc` stores it (`10_state.md` R25). -/
def State.toReg (s : State) (x : Xlen) (w : Word) : Word := extendTo s.cfg x w

/-- The address of the instruction after the current one, modulo 2^XLEN (`10_state.md` R26). -/
def State.nextPc (s : State) : Word := s.toReg s.xlen (s.pc + 4)

/-! ### Free values -/

/-- An UNSPECIFIED choice among n alternatives; no draw where there is one (entry 5). -/
def State.choose (s : State) (n : Nat) : Nat × State :=
  if n ≤ 1 then (0, s) else (Config.choice s.draws % n, { s with draws := s.draws + 1 })

/-- A list without its repeats. -/
def dedup {α : Type} [BEq α] : List α → List α
  | [] => []
  | a :: l => if l.contains a then dedup l else a :: dedup l

/-- An UNSPECIFIED choice among candidate values; no draw where all agree (entry 5). -/
def State.pick {α : Type} [BEq α] (s : State) (d : α) (l : List α) : α × State :=
  let c := dedup l
  let r := s.choose c.length
  (c.getD r.1 d, r.2)

/-- An UNSPECIFIED word (entry 5). -/
def State.drawWord (s : State) : Word × State := (Config.draw s.draws, { s with draws := s.draws + 1 })

/-- The legal value a WARL field takes when the bits `w` are written: the value they encode where it is legal, otherwise a legal
value the implementation picks (`10_state.md` R42; entry 14). -/
def warl {α : Type} [BEq α] (f : Config.WarlField) (legal : List α) (enc : α → Nat) (w : Nat) (old : α) : α :=
  match legal.find? fun a => enc a == w with
  | some a => a
  | none =>
    match dedup legal with
    | [] => old
    | [a] => a
    | l => l.getD (Config.warlPick f w (enc old) % l.length) old

/-- The encoding of an XLEN field (`11_state_machine_csrs.md` R81). -/
def xlenCode : Xlen → Nat
  | .x32 => 1
  | .x64 => 2

/-- The encoding of a one-bit field. -/
def boolCode : Bool → Nat
  | false => 0
  | true => 1

/-! ### Addresses a trap register can hold (`11_state_machine_csrs.md` R160, `12_state_supervisor_csrs.md` R257) -/

/-- An address that some mode can use: within the physical addresses, within the guest physical addresses of a supported
scheme, sign-extended from the width of a supported scheme, or one of a 32-bit mode, sign-extended as `pc` is held or
zero-extended. At XLEN 32 every address is valid. -/
def validAddr (c : Config) (x : Xlen) (w : Word) : Bool :=
  match x with
  | .x32 => true
  | .x64 =>
    let fits (n : Nat) := decide (w.toNat < 2 ^ n)
    let n := 30 + 9 * c.svLevels
    fits c.palen || (c.sv39x4 && fits 41) || (c.sv48x4 && fits 50) || (c.sv57x4 && fits 59) ||
    (c.mixed && (fits 32 || decide (sextX .x32 w = w))) ||
    (decide (0 < c.svLevels) &&
      (decide (w.toNat / 2 ^ (n - 1) = 0) || decide (w.toNat / 2 ^ (n - 1) = 2 ^ (65 - n) - 1)))

/-- A value that is legal stays; an invalid address that is not legal becomes the legal invalid address `r`, where it is one. -/
def holdAddr (valid legal : Word → Bool) (w r : Word) : Word :=
  if legal w then w else if legal r && !valid r then r else w

/-- The legal values of `mepc`, `sepc` and `vsepc` (`XEPC_LEGAL`). -/
def epcLegal (c : Config) (x : Xlen) (w : Word) : Bool := c.xepcAll || validAddr c x w || Config.xepcHolds w

/-- `xepc` as a write or a trap stores it: bit 0 clear, a legal value, sign-extended (`60_exceptions.md` R851). -/
def epcWord (c : Config) (x : Xlen) (pc : Word) : Word :=
  extendTo c x
    (holdAddr (validAddr c x) (epcLegal c x) (maskX x (pc &&& ~~~(1 : Word)))
      (maskX x (Config.xepcInstead (maskX x (pc &&& ~~~(1 : Word))) &&& ~~~(1 : Word))))

/-- The legal values of `mtval`, `stval` and `vstval`: zero, the valid addresses and, where instruction bits are reported,
every value of that many bits (`XTVAL_LEGAL`). -/
def tvalLegal (c : Config) (x : Xlen) (w : Word) : Bool :=
  c.xtvalAll || validAddr c x w || decide (w = 0) ||
  ((c.xtvalPolicy.getLsbD 2 || c.xtvalPolicy.getLsbD 22) && decide (w.toNat < 2 ^ min (xlenBits x) c.ilen)) ||
  Config.xtvalHolds w

/-- `xtval` as a write or a trap stores it. -/
def tvalWord (c : Config) (x : Xlen) (w : Word) : Word :=
  holdAddr (validAddr c x) (tvalLegal c x) (maskX x w) (maskX x (Config.xtvalInstead (maskX x w)))

/-- The values of `mtval2` or `htval`: zero is one (`13_state_hypervisor_csrs.md` R338, R394). -/
def gpaHeld (l : GpaLegal) (r : Config.GpaReg) (w : Word) : Bool :=
  decide (w = 0) ||
  match l.hold with
  | .all => true
  | .some => Config.gpaHolds r w
  | .none => false

/-- `mtval2` or `htval` as an instruction or a change of width stores it: in place of a value it cannot hold, one the
implementation picks, else zero (entry 44). -/
def gpaWord (l : GpaLegal) (r : Config.GpaReg) (x : Xlen) (w : Word) : Word :=
  let i := maskX x (Config.gpaInstead r (maskX x w))
  if gpaHeld l r (maskX x w) then maskX x w else if gpaHeld l r i then i else 0

/-- What a trap writes there for a guest-page fault: the address, or zero where it cannot be held or the implementation does not
report it for the cause (`61_exceptions_hypervisor.md` R948). -/
def gpaTrap (l : GpaLegal) (r : Config.GpaReg) (x : Xlen) (cause : Nat) (w : Word) : Word :=
  if l.causes.getLsbD cause && gpaHeld l r (maskX x w) then maskX x w else 0

/-! ### Results -/

/-- A synchronous exception about to be taken (`60_exceptions.md` R850): its code, the informative trap value, whether that is
a guest virtual address, and what `mtval2` and `mtinst` receive (`61_exceptions_hypervisor.md` R944-R962). -/
structure Exc where
  cause : Nat
  tval : Word
  gva : Bool
  tval2 : Word
  tinst : Word
  deriving DecidableEq, Repr

/-- The result of a piece of an instruction. -/
inductive Res (α : Type) where
  | ok (a : α) (s : State)
  | trap (e : Exc) (s : State)
  | fault (f : Fault)
  deriving DecidableEq, Repr

/-- Go on with a result's value. -/
def Res.bind {α β : Type} (r : Res α) (k : α → State → Res β) : Res β :=
  match r with
  | .ok a s => k a s
  | .trap e s => .trap e s
  | .fault f => .fault f

/-- The outcome of one step. -/
abbrev Out := Host.Outcome State Fault Refusal

end Sys2Proof.Machine
end

