-- ==== Sys2Proof/Machine/Flags.lean ====
section
/-!
DEFINITION. The status fields FS, VS, XS and SD, the only flags of the privileged architecture (`10_state.md` R27;
`11_state_machine_csrs.md` R110-R116; `13_state_hypervisor_csrs.md` R363, R364).
-/

namespace Sys2Proof.Machine

/-- SD: some status field is Dirty; XS is read-only zero (`11_state_machine_csrs.md` R112, R113). -/
def sdBit (fs vs : BitVec 2) : Bool := decide (fs = 3) || decide (vs = 3)

/-- The floating-point unit is Off for the current mode: with V=1 both fields are in effect
(`11_state_machine_csrs.md` R114; `13_state_hypervisor_csrs.md` R363, `90_conflicts.md` C7). -/
def State.fsOff (s : State) : Bool := decide (s.mst.fs = 0) || (s.v && decide (s.vst.fs = 0))

/-- The floating-point state has been modified: FS becomes Dirty, with V=1 both fields
(`11_state_machine_csrs.md` R115; `13_state_hypervisor_csrs.md` R363). -/
def State.dirtyFs (s : State) : State :=
  if s.v then { s with mst := { s.mst with fs := 3 }, vst := { s.vst with fs := 3 } }
  else { s with mst := { s.mst with fs := 3 } }

/-- An instruction has written the floating-point state: Dirty where its contents changed; where they did not, whether the
status becomes Dirty is the implementation's (`11_state_machine_csrs.md` R116), a draw. -/
def State.touchFs (s : State) (changed : Bool) : State :=
  if changed || (decide (s.mst.fs = 3) && (!s.v || decide (s.vst.fs = 3))) then s.dirtyFs
  else
    let d := s.pick true [true, false]
    if d.1 then d.2.dirtyFs else d.2

/-- The vector unit is Off for the current mode. -/
def State.vsOff (s : State) : Bool := decide (s.mst.vs = 0) || (s.v && decide (s.vst.vs = 0))

/-- The vector state has been modified: VS becomes Dirty, with V=1 both fields. -/
def State.dirtyVs (s : State) : State :=
  if s.v then { s with mst := { s.mst with vs := 3 }, vst := { s.vst with vs := 3 } }
  else { s with mst := { s.mst with vs := 3 } }

/-- FS is read-only zero: without the F extension, when S-mode is absent or the implementation so chooses
(`11_state_machine_csrs.md` R110). -/
def State.fsFixed (s : State) : Bool := !s.hasF && (!s.hasS || s.cfg.fsReadOnlyZero)

/-- VS is read-only zero (`11_state_machine_csrs.md` R111). -/
def State.vsFixed (s : State) : Bool := !s.has letterV && (!s.hasS || s.cfg.vsReadOnlyZero)

/-- FS or VS after a write of `w`: an implementation that does not track dirtiness turns Initial and Clean into Dirty
(`11_state_machine_csrs.md` R116). -/
def statusField (fixed coarse : Bool) (w : BitVec 2) : BitVec 2 :=
  if fixed then 0 else if coarse && decide (w ≠ 0) then 3 else w

end Sys2Proof.Machine
end

