-- ==== Sys2Proof/Machine/Operands.lean ====
section
/-!
DEFINITION. Operands: integer registers at the current XLEN (`10_state.md` R23, R25), immediates (`40_csr_access.md` R666),
and the address and identifier operands of the fences (`42_supervisor_instructions.md` R743, `43_hypervisor_instructions.md`
R790, R794).
-/

namespace Sys2Proof.Machine

/-- The stored value of an integer register; `x0` reads zero. -/
def State.rawX (s : State) (n : Nat) : Word := if n = 0 then 0 else (s.x[n]?).getD 0

/-- An integer register as a source operand: the low XLEN bits; zero where the base has no such register, which no instruction
that executes names (`State.regsOk`). -/
def State.readX (s : State) (n : Nat) : Word := if s.hasReg n then maskX s.xlen (s.rawX n) else 0

/-- An integer register as a destination: the result sign-extended to the widest supported XLEN; `x0` discards it. -/
def State.writeX (s : State) (n : Nat) (v : Word) : State :=
  if n = 0 ∨ s.hasReg n = false then s else { s with x := s.x.setIfInBounds n (s.toReg s.xlen v) }

/-- The registers an instruction names exist: an encoding that names `x16` to `x31` is reserved under RV32E (`10_state.md` R23;
entry 19). -/
def State.regsOk (s : State) (l : List Nat) : Bool := l.all s.hasReg

/-- A five-bit immediate, zero-extended. -/
def uimmWord (u : Nat) : Word := BitVec.ofNat 64 u

/-- The address operand of a fence: none when the register is `x0` by number. -/
def State.fenceAddr (s : State) (rs1 : Nat) : Option Word := if rs1 = 0 then none else some (s.readX rs1)

/-- The ASID operand of a fence: its implemented bits (`12_state_supervisor_csrs.md` R273: at most 9 for Sv32). -/
def State.fenceAsid (s : State) (x : Xlen) (rs2 : Nat) : Option Nat :=
  if rs2 = 0 then none
  else some ((s.readX rs2).toNat % 2 ^ (match x with | .x32 => min s.cfg.asidLen 9 | .x64 => min s.cfg.asidLen 16))

/-- The VMID operand of a fence: its implemented bits (`13_state_hypervisor_csrs.md` R349). -/
def State.fenceVmid (s : State) (rs2 : Nat) : Option Nat :=
  if rs2 = 0 then none
  else some ((s.readX rs2).toNat % 2 ^ (match s.sxlen with | .x32 => min s.cfg.vmidLen 7 | .x64 => min s.cfg.vmidLen 14))

/-- The effective address of a virtual-machine load or store: the register's value at the XLEN of the access
(`43_hypervisor_instructions.md` R770, R772). -/
def State.hlsvAddr (s : State) (rs1 : Nat) : Word :=
  maskX (s.xlenOf (privOfSpp s.hst.spvp) true) (s.readX rs1)

end Sys2Proof.Machine
end

