-- ==== Sys2Proof/Machine/Ops.lean ====
section
/-!
DEFINITION. Named operations: memory, byte order, PMP and PMA checks, physical accesses, taking a trap, returning from one,
retiring an instruction.
-/

namespace Sys2Proof.Machine

/-! ### Memory (`20_memory.md` R402, R404) -/

/-- The canonical form: addresses strictly rising, no byte listed that equals what an unlisted address reads as. -/
def Memory.wf : List Host.Cell → Bool
  | [] => true
  | [(_, b)] => decide (b ≠ 0)
  | (a, b) :: (a', b') :: m => decide (b ≠ 0) && decide (a < a') && Memory.wf ((a', b') :: m)

/-- The byte at an address; an unlisted byte reads zero (DESIGN CHOICE, entry 3). -/
def Memory.read : List Host.Cell → Nat → Byte
  | [], _ => 0
  | (k, b) :: m, a => if a < k then 0 else if a = k then b else Memory.read m a

/-- Store a byte, keeping the canonical form. -/
def Memory.write : List Host.Cell → Nat → Byte → List Host.Cell
  | [], a, b => if b = 0 then [] else [(a, b)]
  | (k, c) :: m, a, b =>
    if a < k then (if b = 0 then (k, c) :: m else (a, b) :: (k, c) :: m)
    else if a = k then (if b = 0 then m else (a, b) :: m)
    else (k, c) :: Memory.write m a b

/-- n bytes from an address, lowest address first. -/
def Memory.bytes (m : List Host.Cell) (a : Nat) : Nat → List Byte
  | 0 => []
  | n + 1 => Memory.read m a :: Memory.bytes m (a + 1) n

/-- Store bytes from an address, lowest address first. -/
def Memory.writeAll (m : List Host.Cell) (a : Nat) : List Byte → List Host.Cell
  | [] => m
  | b :: l => Memory.writeAll (Memory.write m a b) (a + 1) l

/-- The old values that stores of `l` at `a` overwrite with something else. -/
def Memory.overwritten (m : List Host.Cell) (a : Nat) : List Byte → List Host.Cell
  | [] => []
  | b :: l =>
    (if Memory.read m a = b then [] else [(a, Memory.read m a)]) ++ Memory.overwritten m (a + 1) l

/-- The elements of the first list not already in the second, in front of it. -/
def addNew {α : Type} [BEq α] (l acc : List α) : List α := l.foldr (fun x a => if a.contains x then a else x :: a) acc

/-- Something has happened to the structures that govern address translation. -/
def State.note (s : State) (h : Hist) : State := { s with xlat := { s.xlat with hist := h :: s.xlat.hist } }

/-- Bytes in memory change. A fetch may still see the old ones (`20_memory.md` R474), and so may an implicit read of address
translation until a fence that covers it (R472). -/
def State.storeMem (s : State) (a : Nat) (l : List Byte) : State :=
  let old := Memory.overwritten s.mem a l
  let t : State := { s with mem := Memory.writeAll s.mem a l, codeOld := addNew old s.codeOld }
  if old = [] then t else t.note (.store a (Memory.bytes s.mem a l.length))

/-! ### What address translation may still use (entry 11) -/

/-- The changes in a history, the latest first, each with the scopes fenced since. A completed SINVAL or HINVAL counts as a
fence at the last point before it at which stores were ordered (`42_supervisor_instructions.md` R748, R754); `waiting` holds
those for which that point has not been reached. -/
def Hist.scan (acc waiting : List Scope) : List Hist → List (Hist × List Scope)
  | [] => []
  | .fence p :: l => Hist.scan (p :: acc) waiting l
  | .order :: l => Hist.scan (waiting ++ acc) [] l
  | .inval p done :: l => Hist.scan acc (if done then p :: waiting else waiting) l
  | h :: l => (h, acc) :: Hist.scan acc waiting l

/-- The changes of a machine's history. -/
def State.changes (s : State) : List (Hist × List Scope) := Hist.scan [] [] s.xlat.hist

/-- A fence of all HS-level translation: SFENCE.VMA `x0`, `x0` with V=0. -/
def Scope.allHs : Scope → Bool
  | .hs none none => true
  | _ => false

/-- A fence of all of the VS-stage of a virtual machine. -/
def Scope.allVs (vmid : Nat) : Scope → Bool
  | .vs n none none => decide (n = vmid)
  | _ => false

/-- A fence of all guest translation: HFENCE.GVMA `x0`, `x0` (`43_hypervisor_instructions.md` R792). -/
def Scope.allG : Scope → Bool
  | .g none none => true
  | _ => false

/-- A control has changed since the last fence of a kind. -/
def State.staleSince (s : State) (h : Hist) (by' : Scope → Bool) : Bool :=
  s.changes.any fun c => decide (c.1 = h) && !c.2.any by'

/-! ### Byte order (`20_memory.md` R406) -/

/-- The number whose bytes are given, least significant first. -/
def leNat : List Byte → Nat
  | [] => 0
  | b :: l => b.toNat + 256 * leNat l

/-- The n bytes of a number, least significant first. -/
def leBytes : Nat → Nat → List Byte
  | 0, _ => []
  | n + 1, v => BitVec.ofNat 8 v :: leBytes n (v / 256)

/-- Bytes in memory order as a number, in the given byte order. -/
def assemble (big : Bool) (l : List Byte) : Nat := leNat (if big then l.reverse else l)

/-- A number as bytes in memory order. -/
def disassemble (big : Bool) (n v : Nat) : List Byte := if big then (leBytes n v).reverse else leBytes n v

/-- An explicit access is big-endian (`20_memory.md` R405). -/
def State.bigEndian (s : State) (p : Priv) (v : Bool) : Bool :=
  match p, v with
  | .m, _ => s.mst.mbe
  | .s, false => s.mst.sbe
  | .s, true => s.hst.vsbe
  | .u, false => s.mst.ube
  | .u, true => s.vst.ube

/-! ### Access types (`20_memory.md` R410) -/

/-- The original access type; `hlvx` is the load of HLVX. -/
inductive Acc where
  | fetch
  | load
  | store
  | hlvx
  deriving DecidableEq, Repr

/-- The access-fault code of an access type. -/
def Acc.accessFault : Acc → Nat
  | .fetch => 1
  | .load => 5
  | .hlvx => 5
  | .store => 7

/-- The page-fault code. -/
def Acc.pageFault : Acc → Nat
  | .fetch => 12
  | .load => 13
  | .hlvx => 13
  | .store => 15

/-- The guest-page-fault code. -/
def Acc.guestPageFault : Acc → Nat
  | .fetch => 20
  | .load => 21
  | .hlvx => 21
  | .store => 23

/-- The address-misaligned code of a load or store. -/
def Acc.misaligned : Acc → Nat
  | .fetch => 0
  | .load => 4
  | .hlvx => 4
  | .store => 6

/-! ### Physical memory protection (`20_memory.md` section 5) -/

/-- A field of `pmpNcfg` (`20_memory.md` R431). -/
def pmpR (c : Byte) : Bool := c.getLsbD 0
def pmpW (c : Byte) : Bool := c.getLsbD 1
def pmpX (c : Byte) : Bool := c.getLsbD 2
def pmpA (c : Byte) : Nat := c.toNat / 8 % 4
def pmpL (c : Byte) : Bool := c.getLsbD 7

/-- `pmpNcfg` of an entry. -/
def Pmp.cfgAt (p : Pmp) (i : Nat) : Byte := (p.cfg[i]?).getD 0

/-- `pmpaddrN` as it reads (`20_memory.md` R436). -/
def Pmp.addrRead (p : Pmp) (g i : Nat) : Nat :=
  let st := ((p.addr[i]?).getD 0).toNat
  if 2 ≤ pmpA (p.cfgAt i) then (if 2 ≤ g then st ||| (2 ^ (g - 1) - 1) else st)
  else st / 2 ^ g * 2 ^ g

/-- The number of consecutive one bits from bit 0, at most `n`. -/
def trailingOnes : Nat → Nat → Nat
  | 0, _ => 0
  | n + 1, v => if v % 2 = 1 then trailingOnes n (v / 2) + 1 else 0

/-- The bytes an entry matches, from inclusive to exclusive (`20_memory.md` R433-R436). -/
def Pmp.range (p : Pmp) (g xlen i : Nat) : Option (Nat × Nat) :=
  match pmpA (p.cfgAt i) with
  | 0 => none
  | 1 =>
    let lo := if i = 0 then 0 else p.addrRead g (i - 1) / 2 ^ g * 2 ^ g
    let hi := p.addrRead g i / 2 ^ g * 2 ^ g
    if lo < hi then some (lo * 4, hi * 4) else none
  | 2 => some (p.addrRead g i * 4, p.addrRead g i * 4 + 4)
  | _ =>
    let t := trailingOnes xlen (p.addrRead g i)
    let lo := p.addrRead g i / 2 ^ (t + 1) * 2 ^ (t + 1) * 4
    some (lo, lo + 2 ^ (t + 3))

/-- The permission bits an access needs: R, W, X, or for HLVX both R and X (`20_memory.md` R431;
`43_hypervisor_instructions.md` R776). -/
def pmpGrants (acc : Acc) (c : Byte) : Bool :=
  match acc with
  | .fetch => pmpX c
  | .load => pmpR c
  | .store => pmpW c
  | .hlvx => pmpR c && pmpX c

/-- The decision over the entries from number i on (`20_memory.md` R444): the first entry that matches any byte decides. -/
def Pmp.scan (p : Pmp) (g xlen : Nat) (acc : Acc) (m : Bool) (a n : Nat) : Nat → Nat → Bool
  | 0, _ => m
  | k + 1, i =>
    match p.range g xlen i with
    | none => p.scan g xlen acc m a n k (i + 1)
    | some (lo, hi) =>
      if a < hi ∧ lo < a + n then
        if lo ≤ a ∧ a + n ≤ hi then (m && !pmpL (p.cfgAt i)) || pmpGrants acc (p.cfgAt i) else false
      else p.scan g xlen acc m a n k (i + 1)

/-- The PMP check of one access of n bytes (`20_memory.md` R444). -/
def State.pmpCheck (s : State) (p : Pmp) (acc : Acc) (priv : Priv) (a n : Nat) : Bool :=
  if s.cfg.pmpN = 0 then true
  else p.scan s.cfg.pmpG (xlenBits s.mxlen) acc (decide (priv = .m)) a n s.cfg.pmpN 0

/-- The PMP settings in force and those before writes not yet fenced, for HS-level and M-mode accesses or for a guest's
(`20_memory.md` R446). -/
def State.pmps (s : State) (guest : Bool) : List Pmp :=
  s.pmp :: s.changes.filterMap fun c =>
    match c.1 with
    | .pmp p => if c.2.any (if guest then Scope.allG else Scope.allHs) then none else some p
    | _ => none

/-- The PMP check with the settings in force or, before the fence, earlier ones (`20_memory.md` R446; entry 10). -/
def State.pmpOk (s : State) (guest : Bool) (acc : Acc) (priv : Priv) (a n : Nat) : Bool × State :=
  s.pick true ((s.pmps guest).map fun p => s.pmpCheck p acc priv a n)

/-! ### Physical memory attributes (`20_memory.md` section 4) -/

/-- The region that holds all n bytes from an address; none: vacant (`20_memory.md` R416). Bytes that lie in two regions are
in none (DESIGN CHOICE, entry 26: R450 looks at the attributes of the first byte's address). -/
def findRegion (l : List PmaRegion) (a n : Nat) : Option PmaRegion :=
  l.find? fun r => decide (r.base ≤ a) && decide (a + n ≤ r.base + r.size)

/-- The region of an access within the physical address space (`21_virtual_memory.md` R550). -/
def State.region (s : State) (a n : Nat) : Option PmaRegion :=
  if a + n ≤ 2 ^ s.cfg.palen then findRegion s.cfg.pma a n else none

/-- The region supports the access type and width (`20_memory.md` R417). -/
def PmaRegion.supports (r : PmaRegion) (acc : Acc) (n : Nat) : Bool :=
  match acc with
  | .fetch => r.execWidths.contains n
  | .load => r.readWidths.contains n
  | .store => r.writeWidths.contains n
  | .hlvx => r.readWidths.contains n && r.execWidths.contains n

/-- The attributes of a page whose entry has the memory type `pbmt` (1: NC, 2: IO), those it does not name inherited
(`21_virtual_memory.md` R567). IO gives strong channel 0, which R569 says of main memory; that it does so for a region that is
I/O already is the model's choice (DESIGN CHOICE, entry 35). -/
def PmaRegion.withPbmt (r : PmaRegion) (pbmt : Nat) : PmaRegion :=
  match pbmt with
  | 1 => { r with kind := .main, order := .rvwmo, cacheable := false, idempotentRead := true, idempotentWrite := true }
  | 2 => { r with kind := .io, order := .strongIo 0, cacheable := false, idempotentRead := false, idempotentWrite := false }
  | _ => r

/-- The PMA check of one access (`20_memory.md` R415-R417). -/
def State.pmaOk (s : State) (acc : Acc) (a n : Nat) : Bool :=
  match s.region a n with
  | none => false
  | some r => PmaRegion.supports r acc n

/-- The location supports load reservations: it is in no region that is RsrvNone (`20_memory.md` R424). -/
def State.rsrvOk (s : State) (pa n : Nat) : Bool :=
  match s.region pa n with
  | some r => decide (r.rsrv ≠ .none)
  | none => false

/-- A reservation may lie at a location: one that supports it, within one base page (`20_memory.md` R424). -/
def State.reservable (s : State) (pa n : Nat) : Bool := s.rsrvOk pa n && decide (pa % 4096 + n ≤ 4096)

/-! ### Memory-mapped registers (`60_exceptions.md` R890-R895; entry 30) -/

/-- A memory-mapped register of the machine. -/
inductive DevReg where
  | mtime
  | mtimecmp
  | msip
  deriving DecidableEq, Repr

/-- The register that holds all n bytes from an address, and the offset in it. -/
def State.devAt (s : State) (a n : Nat) : Option (DevReg × Nat) :=
  if s.cfg.mtimeAddr ≤ a ∧ a + n ≤ s.cfg.mtimeAddr + 8 then some (.mtime, a - s.cfg.mtimeAddr)
  else if s.cfg.mtimecmpAddr ≤ a ∧ a + n ≤ s.cfg.mtimecmpAddr + 8 then some (.mtimecmp, a - s.cfg.mtimecmpAddr)
  else if s.cfg.hasMsip ∧ s.cfg.msipAddr ≤ a ∧ a + n ≤ s.cfg.msipAddr + 4 then some (.msip, a - s.cfg.msipAddr)
  else none

/-- The value of a memory-mapped register. -/
def State.devValue (s : State) : DevReg → Nat
  | .mtime => s.timer.mtime.toNat
  | .mtimecmp => s.timer.mtimecmp.toNat
  | .msip => if s.timer.msip then 1 else 0

/-- Replace bytes of an eight-byte value from an offset. -/
def patchBytes (v : Nat) (off : Nat) (l : List Byte) : Nat :=
  leNat ((leBytes 8 v).take off ++ l ++ (leBytes 8 v).drop (off + l.length))

/-- Write bytes of a memory-mapped register; of MSIP only bit 0 exists (`60_exceptions.md` R893). -/
def State.devWrite (s : State) (r : DevReg) (off : Nat) (l : List Byte) : State :=
  match r with
  | .mtime => { s with timer := { s.timer with mtime := BitVec.ofNat 64 (patchBytes s.timer.mtime.toNat off l) } }
  | .mtimecmp =>
    { s with timer := { s.timer with mtimecmp := BitVec.ofNat 64 (patchBytes s.timer.mtimecmp.toNat off l) } }
  | .msip =>
    { s with
      timer := { s.timer with msip := decide (patchBytes (if s.timer.msip then 1 else 0) off l % 2 = 1) } }

/-- An address is in an I/O region (`20_memory.md` R416). -/
def State.isIo (s : State) (a n : Nat) : Bool :=
  match s.region a n with
  | some r => decide (r.kind = .io)
  | none => false

/-- Read n bytes at a physical address that passed its checks. -/
def State.physRead (s : State) (a n : Nat) : Except Fault (List Byte) :=
  match s.devAt a n with
  | some (r, off) => .ok (((leBytes 8 (s.devValue r)).drop off).take n)
  | none => if s.isIo a n then .error (.device a) else .ok (Memory.bytes s.mem a n)

/-- Write bytes at a physical address that passed its checks. -/
def State.physWrite (s : State) (a : Nat) (l : List Byte) : Except Fault State :=
  match s.devAt a l.length with
  | some (r, off) => .ok (s.devWrite r off l)
  | none => if s.isIo a l.length then .error (.device a) else .ok (s.storeMem a l)

/-! ### Taking a trap (`60_exceptions.md` R846, R850-R856; `61_exceptions_hypervisor.md` R940-R946) -/

/-- Bits 16 and above that the platform has, of a register of MXLEN bits (`11_state_machine_csrs.md` R130, R138). -/
def State.platMask (s : State) : Word := maskX s.mxlen (s.cfg.platIrq &&& ~~~(0xFFFF : Word))

/-- The guest external interrupt bit exists (`13_state_hypervisor_csrs.md` R390). -/
def State.hasSgei (s : State) : Bool := s.hasH && decide (s.cfg.geilen ≠ 0)

/-- The bits of `mideleg` that are read-only one: with the hypervisor extension those of VS-level interrupts
(`13_state_hypervisor_csrs.md` R390), and those of lower-level interrupts that the implementation fixes, as it may
(`11_state_machine_csrs.md` R126). -/
def State.midelegOnes (s : State) : Word :=
  (if s.hasS then s.cfg.midelegFixed &&& (0x222 ||| s.platMask) else 0) |||
  (if s.hasH then (if s.hasSgei then 0x1444 else 0x444) else 0)

/-- The writable bits of `mideleg`; a bit that is neither writable nor read-only one is read-only zero
(`11_state_machine_csrs.md` R126). -/
def State.midelegMask (s : State) : Word :=
  if s.hasS then s.cfg.midelegMask &&& (0xAAA ||| s.platMask) else 0

/-- `mideleg` as it reads. -/
def State.mideleg (s : State) : Word := (s.m.ideleg &&& s.midelegMask) ||| s.midelegOnes

/-- The exceptions that can be delegated, at any width: 11 never, the hypervisor's only with it (`11_state_machine_csrs.md` R124,
`13_state_hypervisor_csrs.md` R398). -/
def State.delegable (s : State) : Word :=
  if s.hasS then
    s.cfg.medelegMask &&& ~~~(0x800 : Word) &&& (if s.hasH then ~~~(0 : Word) else ~~~(0xF00400 : Word))
  else 0

/-- The writable bits of `medeleg`, of MXLEN bits. -/
def State.medelegMask (s : State) : Word := maskX s.mxlen s.delegable

/-- `medeleg` as it reads. -/
def State.medeleg (s : State) : Word := s.m.edeleg &&& s.medelegMask

/-- The exceptions that HS-mode can delegate, at any width (`13_state_hypervisor_csrs.md` R300, Table 8.2). -/
def State.delegableVs (s : State) : Word :=
  if s.hasH then (s.cfg.hedelegMask ||| 0xB1FE ||| (if s.hasC then 0 else 1)) &&& ~~~(0xF00E00 : Word) else 0

/-- The writable bits of `hedeleg`, of HSXLEN bits. -/
def State.hedelegMask (s : State) : Word := maskX s.sxlen s.delegableVs

/-- `hedeleg` as it reads. -/
def State.hedeleg (s : State) : Word := s.h.edeleg &&& s.hedelegMask

/-- The writable bits of `hideleg`, of HSXLEN bits (`13_state_hypervisor_csrs.md` R302). -/
def State.hidelegMask (s : State) : Word :=
  if s.hasH then maskX s.sxlen ((0x444 ||| (s.cfg.hidelegMask &&& s.platMask)) &&& s.mideleg) else 0

/-- `hideleg` as it reads. -/
def State.hideleg (s : State) : Word := s.h.ideleg &&& s.hidelegMask

/-- The mode a trap is taken into. -/
inductive Dest where
  | m
  | s
  | vs
  deriving DecidableEq, Repr

/-- Where a trap goes, by the delegation registers (`60_exceptions.md` R846). -/
def State.destination (s : State) (intr : Bool) (cause : Nat) : Dest :=
  if s.priv = .m ∨ (if intr then s.mideleg else s.medeleg).getLsbD cause = false then .m
  else if s.v && (if intr then s.hideleg else s.hedeleg).getLsbD cause then .vs
  else .s

/-- `xcause` after a trap: the Interrupt bit on top of the code (`60_exceptions.md` R852). -/
def causeWord (x : Xlen) (intr : Bool) (cause : Nat) : Word :=
  BitVec.ofNat 64 (cause + (if intr then 2 ^ (xlenBits x - 1) else 0))

/-- Where control goes (`60_exceptions.md` R856). -/
def vector (tvec : Word) (intr : Bool) (cause : Nat) : Word :=
  let base := tvec &&& ~~~(3 : Word)
  if intr ∧ (tvec &&& 3) = 1 then base + BitVec.ofNat 64 (4 * cause) else base

/-- The implementation writes an informative trap value for this exception (`XTVAL_POLICY`, `92_eei_decisions.md` D9). -/
def State.informs (s : State) (cause : Nat) : Bool := s.cfg.xtvalPolicy.getLsbD cause

/-- A pseudoinstruction value of `mtinst` or `htinst`: bits 1:0 are 00 (`61_exceptions_hypervisor.md` R952, R960). -/
def isPseudo (w : Word) : Bool := decide (w ≠ 0) && decide (w &&& 3 = 0)

/-- The guest physical address that the register of the mode trapped into is written with (`61_exceptions_hypervisor.md` R948). -/
def State.gpaReported (s : State) (e : Exc) : Word :=
  match s.destination false e.cause with
  | .m => gpaTrap s.cfg.mtval2Legal .mtval2 s.mxlen e.cause e.tval2
  | .s => gpaTrap s.cfg.htvalLegal .htval s.sxlen e.cause e.tval2
  | .vs => 0

/-- The trap value is written as it is: the register of the mode trapped into holds it. -/
def State.tvalExact (s : State) (e : Exc) : Bool :=
  let x := match s.destination false e.cause with
    | .m => s.mxlen
    | .s => s.sxlen
    | .vs => s.vsxlen
  decide (tvalWord s.cfg x e.tval = maskX x e.tval)

/-- The exception with the values the implementation's policy lets it write (`92_eei_decisions.md` D9, D13;
`61_exceptions_hypervisor.md` R948, R959, R960). A pseudoinstruction goes with a guest physical address that is not zero. Where
the trap value is zero, so are GVA and, but for a fault of an implicit access, the guest physical address and the transformed
instruction that go with it. These two are zero also where another address is written in place of the one that faulted, for
they correspond to the exact address written (`22_two_stage_translation.md` R599). -/
def State.applyPolicy (s : State) (e : Exc) : Exc :=
  let exact := isPseudo e.tinst || s.tvalExact e
  let a := if exact then s.gpaReported e else 0
  let i := if !exact || (isPseudo e.tinst && decide (a = 0)) then 0 else e.tinst
  if s.informs e.cause then { e with tval2 := a, tinst := i }
  else if isPseudo e.tinst then { e with tval := 0, gva := false, tval2 := a, tinst := i }
  else { e with tval := 0, gva := false, tval2 := 0, tinst := 0 }

/-- A trap into M-mode (`60_exceptions.md` R850, `61_exceptions_hypervisor.md` R944). -/
def State.trapM (s : State) (intr : Bool) (e : Exc) : State :=
  { s with
    m := { s.m with
      epc := epcWord s.cfg s.mxlen s.pc
      cause := causeWord s.mxlen intr e.cause
      tval := tvalWord s.cfg s.mxlen e.tval
      tval2 := if s.hasH then maskX s.mxlen e.tval2 else s.m.tval2
      tinst := if s.hasH then e.tinst else s.m.tinst }
    mst := { s.mst with
      mpie := s.mst.mie
      mie := false
      mpp := s.priv
      mpv := if s.hasH then s.v else s.mst.mpv
      gva := if s.hasH then e.gva else s.mst.gva }
    priv := .m
    v := false
    pc := s.toReg s.mxlen (vector s.m.tvec intr e.cause) }

/-- A trap into S-mode or HS-mode (`60_exceptions.md` R850, `61_exceptions_hypervisor.md` R945). -/
def State.trapS (s : State) (intr : Bool) (e : Exc) : State :=
  { s with
    sc := { s.sc with
      epc := epcWord s.cfg s.sxlen s.pc
      cause := causeWord s.sxlen intr e.cause
      tval := tvalWord s.cfg s.sxlen e.tval }
    mst := { s.mst with spie := s.mst.sie, sie := false, spp := s.priv.bit0 }
    hst := if s.hasH then
        { s.hst with spv := s.v, spvp := if s.v then s.priv.bit0 else s.hst.spvp, gva := e.gva }
      else s.hst
    h := if s.hasH then { s.h with tval := maskX s.sxlen e.tval2, tinst := e.tinst } else s.h
    priv := .s
    v := false
    pc := s.toReg s.sxlen (vector s.sc.tvec intr e.cause) }

/-- The code of an interrupt as VS-mode sees it (`13_state_hypervisor_csrs.md` R303). -/
def vsCause (intr : Bool) (cause : Nat) : Nat :=
  if intr ∧ (cause = 10 ∨ cause = 6 ∨ cause = 2) then cause - 1 else cause

/-- A trap into VS-mode (`61_exceptions_hypervisor.md` R946). -/
def State.trapVs (s : State) (intr : Bool) (e : Exc) : State :=
  let c := vsCause intr e.cause
  { s with
    vs := { s.vs with
      epc := epcWord s.cfg s.vsxlen s.pc
      cause := causeWord s.vsxlen intr c
      tval := tvalWord s.cfg s.vsxlen e.tval }
    vst := { s.vst with spie := s.vst.sie, sie := false, spp := s.priv.bit0 }
    priv := .s
    v := true
    pc := s.toReg s.vsxlen (vector s.vs.tvec intr c) }

/-- TAKING A TRAP: an exception of the instruction at `pc`, or an interrupt before it (`60_exceptions.md` R850). -/
def State.takeTrap (s : State) (intr : Bool) (e : Exc) : State :=
  match s.destination intr e.cause with
  | .m => s.trapM intr e
  | .s => s.trapS intr e
  | .vs => s.trapVs intr e

/-- Take a synchronous exception, with the values the policy lets it write. -/
def State.raise (s : State) (e : Exc) : State := s.takeTrap false (s.applyPolicy e)

/-- An interrupt's trap values are all zero (`60_exceptions.md` R853, `61_exceptions_hypervisor.md` R950). -/
def intrExc (cause : Nat) : Exc := { cause := cause, tval := 0, gva := false, tval2 := 0, tinst := 0 }

/-- An illegal-instruction exception on an instruction word: its bits are the trap value (`60_exceptions.md` R853). -/
def illegalExc (w : IWord) : Exc := { cause := 2, tval := w.setWidth 64, gva := false, tval2 := 0, tinst := 0 }

/-- A virtual-instruction exception (`61_exceptions_hypervisor.md` R932). -/
def virtualExc (w : IWord) : Exc := { cause := 22, tval := w.setWidth 64, gva := false, tval2 := 0, tinst := 0 }

/-- A non-maskable interrupt (`60_exceptions.md` R871): a trap into M-mode at the NMI vector. -/
def State.takeNmi (s : State) : State :=
  let t := s.trapM true (intrExc 0)
  { t with
    m := { t.m with cause := causeWord s.mxlen true 0 ||| maskX s.mxlen s.cfg.nmiCause }
    pc := s.toReg s.mxlen s.cfg.nmiVector
    wait := none }

/-! ### Returning from a trap (`41_machine_instructions.md` R704, R706; `61_exceptions_hypervisor.md` R947)

The return address takes the width of the mode returned to (`10_state.md` R25). -/

/-- An `xepc` as it reads: bit 1 masked when IALIGN is 32 (`11_state_machine_csrs.md` R159). -/
def State.epcRead (s : State) (w : Word) : Word := if s.hasC then w &&& ~~~(1 : Word) else w &&& ~~~(3 : Word)

/-- An xRET may clear the load reservation (`41_machine_instructions.md` R708; entry 27). -/
def State.maybeClearResv (s : State) : State :=
  if s.hasA ∧ s.resv ≠ none then
    let r := s.pick s.resv [s.resv, none]
    { r.2 with resv := r.1 }
  else s

/-- MRET's effect on the stack, the mode and `pc`. -/
def State.returnM (s : State) : State :=
  let y := s.mst.mpp
  { s with
    mst := { s.mst with
      mie := s.mst.mpie
      mpie := true
      mpp := if s.hasU then .u else .m
      mpv := if s.hasH then false else s.mst.mpv
      mprv := if y = .m then s.mst.mprv else false }
    priv := y
    v := s.hasH && decide (y ≠ .m) && s.mst.mpv
    pc := s.toReg (s.xlenOf y (s.hasH && decide (y ≠ .m) && s.mst.mpv)) (s.epcRead s.m.epc) }

/-- SRET with V=0. -/
def State.returnS (s : State) : State :=
  { s with
    mst := { s.mst with sie := s.mst.spie, spie := true, spp := false, mprv := false }
    hst := if s.hasH then { s.hst with spv := false } else s.hst
    priv := privOfSpp s.mst.spp
    v := s.hasH && s.hst.spv
    pc := s.toReg (s.xlenOf (privOfSpp s.mst.spp) (s.hasH && s.hst.spv)) (s.epcRead s.sc.epc) }

/-- SRET with V=1. -/
def State.returnVs (s : State) : State :=
  { s with
    vst := { s.vst with sie := s.vst.spie, spie := true, spp := false }
    mst := { s.mst with mprv := false }
    priv := privOfSpp s.vst.spp
    pc := s.toReg (s.xlenOf (privOfSpp s.vst.spp) true) (s.epcRead s.vs.epc) }

/-! ### Retiring -/

/-- Count a retired instruction unless `mcountinhibit.IR` is set (`11_state_machine_csrs.md` R140, R152). -/
def State.countInstret (s : State) : State :=
  if s.cnt.inhibit.getLsbD 2 then s else { s with cnt := { s.cnt with instret := s.cnt.instret + 1 } }

/-- The instruction retires and the next one follows it. -/
def State.retire (s : State) : State := { s.countInstret with pc := s.nextPc }

end Sys2Proof.Machine
end

