-- ==== Sys2Proof/Machine/Translate.lean ====
section
/-!
DEFINITION. Address translation: the page-table walk (`21_virtual_memory.md` R540), the address-translation cache it may use
(R552), the two stages of the hypervisor extension (`22_two_stage_translation.md` R590), speculative walks (R558).
-/

namespace Sys2Proof.Machine

/-! ### Schemes and page-table entries -/

/-- MODE of an `satp`-like register (`12_state_supervisor_csrs.md` R270). -/
def atpMode (x : Xlen) (w : Word) : Nat :=
  match x with
  | .x32 => w.toNat / 2 ^ 31 % 2
  | .x64 => w.toNat / 2 ^ 60

/-- ASID of `satp` or `vsatp`. -/
def atpAsid (x : Xlen) (w : Word) : Nat :=
  match x with
  | .x32 => w.toNat / 2 ^ 22 % 2 ^ 9
  | .x64 => w.toNat / 2 ^ 44 % 2 ^ 16

/-- VMID of `hgatp` (`13_state_hypervisor_csrs.md` R346). -/
def gatpVmid (x : Xlen) (w : Word) : Nat :=
  match x with
  | .x32 => w.toNat / 2 ^ 22 % 2 ^ 7
  | .x64 => w.toNat / 2 ^ 44 % 2 ^ 14

/-- PPN of an `satp`-like register. -/
def atpPpn (x : Xlen) (w : Word) : Nat :=
  match x with
  | .x32 => w.toNat % 2 ^ 22
  | .x64 => w.toNat % 2 ^ 44

/-- The scheme a MODE value selects; none: Bare (`12_state_supervisor_csrs.md` R271, `13_state_hypervisor_csrs.md` R347). -/
def schemeOf (x : Xlen) (extra mode : Nat) : Option Scheme :=
  match x, mode with
  | .x32, 1 => some ⟨2, 10, 4, extra⟩
  | .x64, 8 => some ⟨3, 9, 8, extra⟩
  | .x64, 9 => some ⟨4, 9, 8, extra⟩
  | .x64, 10 => some ⟨5, 9, 8, extra⟩
  | _, _ => none

/-- The width of the addresses a scheme translates. -/
def Scheme.addrBits (c : Scheme) : Nat := 12 + c.vpnBits * c.levels + c.topExtra

/-- The page-number field of a level. -/
def Scheme.vpn (c : Scheme) (addr i : Nat) : Nat :=
  addr / 2 ^ (12 + c.vpnBits * i) % 2 ^ (c.vpnBits + (if i + 1 = c.levels then c.topExtra else 0))

/-- The page-number fields from the top down to a level. -/
def Scheme.prefixOf (c : Scheme) (addr i : Nat) : Nat := addr % 2 ^ c.addrBits / 2 ^ (12 + c.vpnBits * i)

/-- A virtual address is valid: Sv32 takes every one, the others need the sign extension (`21_virtual_memory.md` R512). The
operand of a fence executed with XLEN=64 while the scheme is Sv32 (SXLEN=32) counts as valid whatever its bits above 31, and
its low 32 bits are the address (`42_supervisor_instructions.md` R743 speaks of 32-bit values only: DESIGN CHOICE, entry 39).
-/
def Scheme.canonical (c : Scheme) (va : Word) : Bool :=
  decide (c.vpnBits = 10) ||
  decide (va.toNat / 2 ^ (c.addrBits - 1) = 0) || decide (va.toNat / 2 ^ (c.addrBits - 1) = 2 ^ (65 - c.addrBits) - 1)

/-- An address is one that the scheme translates: any of its width, for an `satp` scheme wider than 32 bits a valid virtual
address. -/
def Scheme.takes (c : Scheme) (a : Word) : Bool :=
  if c.vpnBits = 10 ∨ c.topExtra ≠ 0 then decide (a.toNat < 2 ^ c.addrBits) else c.canonical a

/-- Bits of a page-table entry (`21_virtual_memory.md` R503, R514). -/
def pteV (p : Nat) : Bool := p.testBit 0
def pteR (p : Nat) : Bool := p.testBit 1
def pteW (p : Nat) : Bool := p.testBit 2
def pteX (p : Nat) : Bool := p.testBit 3
def pteU (p : Nat) : Bool := p.testBit 4
def pteG (p : Nat) : Bool := p.testBit 5
def pteA (p : Nat) : Bool := p.testBit 6
def pteD (p : Nat) : Bool := p.testBit 7
def pteN (p : Nat) : Bool := p.testBit 63
def ptePbmt (p : Nat) : Nat := p / 2 ^ 61 % 4
def pteRes (p : Nat) : Nat := p / 2 ^ 54 % 128

/-- The physical page number of an entry. -/
def ptePpn (size p : Nat) : Nat := if size = 4 then p / 1024 % 2 ^ 22 else p / 1024 % 2 ^ 44

/-- Neither readable, writable nor executable: a pointer (`21_virtual_memory.md` R506). -/
def ptePointer (p : Nat) : Bool := !pteR p && !pteW p && !pteX p

/-- The N encoding of Table 5.1: a 64 KiB region at level 0 (`21_virtual_memory.md` R562). -/
def pteNapotOk (i p : Nat) : Bool := decide (i = 0) && decide (ptePpn 8 p % 16 = 8)

/-- A bit pattern that raises a page fault (`21_virtual_memory.md` R530). -/
def pteBad (size i : Nat) (svnapot svpbmt : Bool) (p : Nat) : Bool :=
  !pteV p || (!pteR p && pteW p) || (ptePointer p && (pteD p || pteA p || pteU p)) ||
  (decide (size = 8) &&
    (decide (pteRes p ≠ 0) ||
     (pteN p && (!svnapot || ptePointer p || !pteNapotOk i p)) ||
     (decide (ptePbmt p ≠ 0) && (!svpbmt || ptePointer p)) ||
     decide (ptePbmt p = 3)))

/-- The entry's bytes in the other byte order. -/
def swapPte (size raw : Nat) : Nat := assemble true (leBytes size raw)

/-- The value of an entry whose bytes are `raw`, in the byte order of the walk. -/
def pteOf (big : Bool) (size raw : Nat) : Nat := if big then swapPte size raw else raw

/-- Step 5's privilege test on the U bit (`21_virtual_memory.md` R544). -/
def pteUserOk (priv : Priv) (sum : Bool) (p : Nat) : Bool :=
  match priv with
  | .u => pteU p
  | _ => !pteU p || sum

/-- Step 5 for a leaf of the first or only stage (`21_virtual_memory.md` R544; HLVX: `43_hypervisor_instructions.md` R776). -/
def permitted (acc : Acc) (priv : Priv) (sum mxr : Bool) (p : Nat) : Bool :=
  match acc with
  | .fetch => pteX p && (match priv with | .u => pteU p | _ => !pteU p)
  | .load => (pteR p || (mxr && pteX p)) && pteUserOk priv sum p
  | .hlvx => pteX p && pteUserOk priv sum p
  | .store => pteW p && pteUserOk priv sum p

/-- Step 5 for a G-stage leaf: always as though from U-mode (`22_two_stage_translation.md` R588, R590). -/
def permittedG (acc : Acc) (mxr : Bool) (p : Nat) : Bool :=
  pteU p &&
  match acc with
  | .fetch => pteX p
  | .load => pteR p || (mxr && pteX p)
  | .hlvx => pteX p
  | .store => pteW p

/-! ### The cache and the history of an entry -/

/-- The value of a record's entry. -/
def TlbRec.pte (r : TlbRec) : Nat := pteOf r.big r.scheme.pteSize r.raw

/-- Not a pointer to a next level: a leaf or an invalid entry (`42_supervisor_instructions.md` R745). -/
def TlbRec.leafLike (r : TlbRec) : Bool := !pteV r.pte || !ptePointer r.pte

/-- The record is of a leaf for the address; every record, where no address is given. -/
def TlbRec.isFor (r : TlbRec) (a : Option Nat) : Bool :=
  match a with
  | none => true
  | some a => r.leafLike && decide (r.scheme.prefixOf a r.level = r.prefixBits)

/-- The record is of the address space; global ones are of none (`42_supervisor_instructions.md` R742). -/
def TlbRec.inAsid (r : TlbRec) (asid : Option Nat) : Bool :=
  match asid with
  | none => true
  | some n => decide (r.asid = n) && !r.global

/-- A record of the G-stage, of the VMID where one is given. -/
def TlbRec.inVmid (r : TlbRec) (vmid : Option Nat) : Bool :=
  match r.space, vmid with
  | .g _, none => true
  | .g n, some k => decide (n = k)
  | _, _ => false

/-- The records a fence removes: `inScope` of `42_supervisor_instructions.md` R745; of HFENCE.GVMA with both operands `x0`
those of both guest stages (`43_hypervisor_instructions.md` R792, R794). -/
def Scope.covers (p : Scope) (r : TlbRec) : Bool :=
  match p with
  | .hs va asid => decide (r.space = .hs) && r.inAsid asid && r.isFor va
  | .vs n va asid => decide (r.space = .vs n) && r.inAsid asid && r.isFor va
  | .g none none => decide (r.space ≠ .hs)
  | .g gpa vmid => r.inVmid vmid && r.isFor gpa

/-- The values an entry had, with the scopes fenced since: stores of the history undone, the latest first, the whole entry at
one time (`20_memory.md` R472; `21_virtual_memory.md` R542). -/
def pastEntries (size phys : Nat) : List Host.Cell → List (Hist × List Scope) → List (Nat × List Scope)
  | _, [] => []
  | m, (.store a old, acc) :: l =>
    let m' := Memory.writeAll m a old
    if a < phys + size ∧ phys < a + old.length then
      (leNat (Memory.bytes m' phys size), acc) :: pastEntries size phys m' l
    else pastEntries size phys m' l
  | m, _ :: l => pastEntries size phys m l

/-! ### The walk -/

/-- What the walk does about the A and D bits (`21_virtual_memory.md` R547, R548): raise a page fault; set A, but not D, as a
speculative walk may; set both. -/
inductive AdMode where
  | fault
  | accessed
  | both
  deriving DecidableEq, Repr

/-- What a translation gives: the address, the memory type of the leaf (0 where there is none), and whether the path to it is
global. -/
structure Target where
  addr : Nat
  pbmt : Nat
  global : Bool
  deriving DecidableEq, Repr

/-- What a walk needs beside the state. The functions are how it reads an entry's bytes from memory, giving them and where
they lie, where an A or D update of an entry must be stored, and how it reads the bytes there. -/
structure Walk where
  scheme : Scheme
  space : TlbSpace
  asid : Nat
  /-- the address translated, within the scheme's width -/
  addr : Nat
  svpbmt : Bool
  big : Bool
  setD : Bool
  ad : AdMode
  /-- the G bit means global (not in the G-stage: `22_two_stage_translation.md` R586) -/
  useG : Bool
  permits : Nat → Bool
  pageFault : Exc
  readMem : Nat → State → Res (Nat × Nat)
  locate : Nat → State → Res Nat
  readAt : Nat → State → Res (Nat × Nat)

/-- Put a record into the cache unless the same one is there and not doomed. -/
def addRec (r : TlbRec) (l : List TlbRec) : List TlbRec := if l.contains r then l else r :: l

/-- The record of an entry read. -/
def Walk.mkRec (w : Walk) (i key slot pre raw phys : Nat) (global : Bool) : TlbRec :=
  { space := w.space, scheme := w.scheme, big := w.big, key := slot, raw := raw, src := key, phys := phys, asid := w.asid
    global := w.useG && (global || (pteV (pteOf w.big w.scheme.pteSize raw) && pteG (pteOf w.big w.scheme.pteSize raw)))
    level := i, prefixBits := pre, doomed := false }

/-- The records the read of an entry may create: its own and, for a NAPOT leaf, those of the other slots of its group
(`21_virtual_memory.md` R552, R563). -/
def Walk.records (w : Walk) (svnapot : Bool) (i key raw phys : Nat) (global : Bool) : List TlbRec :=
  let pte := pteOf w.big w.scheme.pteSize raw
  let pre := w.scheme.prefixOf w.addr i
  if svnapot && decide (w.scheme.pteSize = 8) && pteN pte && pteNapotOk i pte && !(pteV pte && ptePointer pte) then
    w.mkRec i key key pre raw phys global ::
      (List.range 16).map fun j => w.mkRec i key (key / 128 * 128 + 8 * j) (pre / 16 * 16 + j) raw phys global
  else [w.mkRec i key key pre raw phys global]

/-- A record made in the scope of a SINVAL or HINVAL that is not complete goes with the records it invalidates: what led to it
may be one of them (`42_supervisor_instructions.md` R748, R754; entry 12). -/
def State.underInval (s : State) (r : TlbRec) : TlbRec :=
  { r with
    doomed := s.xlat.hist.any fun h =>
      match h with
      | .inval p false => p.covers r
      | _ => false }

/-- Step 2 from memory. -/
def Walk.readFresh (w : Walk) (i key : Nat) (global : Bool) (s : State) : Res (Nat × Nat) :=
  (w.readMem key s).bind fun r s1 =>
    .ok (r.1, key)
      { s1 with xlat := { s1.xlat with
          tlb := ((w.records s1.cfg.hasSvnapot i key r.1 r.2 global).map s1.underInval).foldr addRec s1.xlat.tlb } }

/-- The cached entries that may satisfy a step-2 read (`21_virtual_memory.md` R552, `22_two_stage_translation.md` R601). A record
gives the value it was read with, whatever byte order the walk has: the bytes that have this value in the walk's order. -/
def Walk.cached (w : Walk) (key : Nat) (s : State) : List (Nat × Nat) :=
  (s.xlat.tlb.filter fun r =>
    decide (r.space = w.space) && decide (r.key = key) && (decide (r.asid = w.asid) || r.global)).map
      fun r => (pteOf w.big w.scheme.pteSize r.pte, r.src)

/-- The earlier values of an entry at a physical address that no fence since covers (`20_memory.md` R472). -/
def Walk.past (w : Walk) (i key phys : Nat) (global : Bool) (s : State) : List (Nat × Nat) :=
  ((pastEntries w.scheme.pteSize phys s.mem s.changes).filter fun c =>
    !c.2.any fun p => p.covers (w.mkRec i key key (w.scheme.prefixOf w.addr i) c.1 phys global)).map fun c => (c.1, key)

/-- What a step-2 read may give beside what memory holds. -/
def Walk.others (w : Walk) (i key : Nat) (global : Bool) (s : State) : List (Nat × Nat) :=
  match w.readMem key s with
  | .ok r _ => (dedup (w.cached key s ++ w.past i key r.2 global s)).filter fun c => decide (c ≠ (r.1, key))
  | _ => dedup (w.cached key s)

/-- Step 2: the entry's bytes and the slot they came from, from memory or an earlier read; which one is a draw. -/
def Walk.readPte (w : Walk) (i key : Nat) (global : Bool) (s : State) : Res (Nat × Nat) :=
  let other := w.others i key global s
  match other with
  | [] => w.readFresh i key global s
  | _ =>
    let d := s.choose (other.length + 1)
    match d.1 with
    | 0 => w.readFresh i key global d.2
    | k + 1 => .ok (other.getD k (0, key)) d.2

/-- The physical address a leaf gives (`21_virtual_memory.md` R549, R563). -/
def Walk.target (w : Walk) (i pte : Nat) : Nat :=
  let span := 2 ^ (12 + w.scheme.vpnBits * i)
  let ppn := ptePpn w.scheme.pteSize pte
  let ppn' := if decide (w.scheme.pteSize = 8) && pteN pte then ppn / 16 * 16 + w.scheme.vpn w.addr 0 % 16 else ppn
  ppn' / 2 ^ (w.scheme.vpnBits * i) * span + w.addr % span

/-- The bytes of an entry with A set, and D for a store, in the byte order of the walk. -/
def Walk.updated (w : Walk) (raw : Nat) : Nat :=
  let pte := pteOf w.big w.scheme.pteSize raw
  pteOf w.big w.scheme.pteSize (pte ||| (if w.setD then 0xC0 else 0x40))

/-- The A and D bits may be set as the access needs: D never by a walk that may set A only. -/
def Walk.maySet (w : Walk) (pte : Nat) : Bool :=
  match w.ad with
  | .fault => false
  | .accessed => pteD pte || !w.setD
  | .both => true

/-- Steps 5 to 8 at a leaf; none: the compare of step 7 failed and the walk goes back to step 2. -/
def Walk.leaf (w : Walk) (i raw src : Nat) (s : State) : Res (Option Nat) :=
  let pte := pteOf w.big w.scheme.pteSize raw
  if !w.permits pte then .trap w.pageFault s
  else if decide (0 < i) && decide (ptePpn w.scheme.pteSize pte % 2 ^ (w.scheme.vpnBits * i) ≠ 0) then
    .trap w.pageFault s
  else if pteA pte && (pteD pte || !w.setD) then .ok (some (w.target i pte)) s
  else if !w.maySet pte then .trap w.pageFault s
  else
    (w.locate src s).bind fun phys s1 =>
      match s1.physRead phys w.scheme.pteSize with
      | .error f => .fault f
      | .ok now =>
        if leNat now = raw then
          match s1.physWrite phys (leBytes w.scheme.pteSize (w.updated raw)) with
          | .error f => .fault f
          | .ok s2 => .ok (some (w.target i pte)) s2
        else .ok none s1

/-- What a level of a walk gives: the translated address, or the table of the next level and whether the path is global. -/
inductive Found where
  | done (t : Target)
  | down (base : Nat) (global : Bool)
  deriving DecidableEq, Repr

/-- Steps 3 to 8 for the entry read; none: the compare of step 7 failed (`21_virtual_memory.md` R540). -/
def Walk.entry (w : Walk) (i raw src : Nat) (global : Bool) (s : State) : Res (Option Found) :=
  let pte := pteOf w.big w.scheme.pteSize raw
  if pteBad w.scheme.pteSize i s.cfg.hasSvnapot w.svpbmt pte then .trap w.pageFault s
  else if ptePointer pte then .ok (some (.down (ptePpn w.scheme.pteSize pte * 4096) (global || pteG pte))) s
  else
    (w.leaf i raw src s).bind fun o t =>
      .ok (o.map fun a =>
        .done { addr := a, pbmt := if w.scheme.pteSize = 8 then ptePbmt pte else 0, global := w.useG && (global || pteG pte) }) t

/-- The entry read at the address its update is stored to, so that the compare of step 7 is of the entry with itself: what any
number of returns to step 2 comes to (entry 9). -/
def Walk.settle (w : Walk) (i key : Nat) (global : Bool) (s : State) : Res Found :=
  (w.locate key s).bind fun phys t =>
    (w.readAt phys t).bind fun r u =>
      ({ w with locate := fun _ v => .ok phys v }.entry i r.1 key global u).bind fun o v =>
        match o with
        | some f => .ok f v
        | none => .trap w.pageFault v

/-- The entry read again from memory after a failed compare (step 7 goes back to step 2). -/
def Walk.retry (w : Walk) (i key : Nat) (global : Bool) (s : State) : Res Found :=
  (w.readFresh i key global s).bind fun r t =>
    (w.entry i r.1 key global t).bind fun o u =>
      match o with
      | some f => .ok f u
      | none => w.settle i key global u

/-- Steps 2 to 8 at one level (`21_virtual_memory.md` R540). -/
def Walk.level (w : Walk) (i base : Nat) (global : Bool) (s : State) : Res Found :=
  (w.readPte i (base + w.scheme.vpn w.addr i * w.scheme.pteSize) global s).bind fun r t =>
    (w.entry i r.1 r.2 global t).bind fun o u =>
      match o with
      | some f => .ok f u
      | none => w.retry i (base + w.scheme.vpn w.addr i * w.scheme.pteSize) global u

/-- The walk from a level down; a pointer at level 0 is a page fault (step 4). -/
def Walk.from (w : Walk) : Nat → Nat → Bool → State → Res Target
  | 0, base, global, s =>
    (w.level 0 base global s).bind fun f t =>
      match f with
      | .done p => .ok p t
      | .down _ _ => .trap w.pageFault t
  | j + 1, base, global, s =>
    (w.level (j + 1) base global s).bind fun f t =>
      match f with
      | .done p => .ok p t
      | .down b g => w.from j b g t

/-- The walk from its root. -/
def Walk.run (w : Walk) (ppn : Nat) (s : State) : Res Target := w.from (w.scheme.levels - 1) (ppn * 4096) false s

/-! ### Accesses to page tables -/

/-- A speculative access must not reach a region whose attributes, as a memory type modifies them, are not idempotent for it
(`20_memory.md` R428, R429). Nothing there is read early: no access of the model reads the bytes around its own, which R428
lets a non-speculative implicit read do (DESIGN CHOICE, entry 34). -/
def State.maySpeculate (s : State) (write : Bool) (pbmt a n : Nat) : Bool :=
  match s.region a n with
  | none => false
  | some r => if write then (PmaRegion.withPbmt r pbmt).idempotentWrite else (PmaRegion.withPbmt r pbmt).idempotentRead

/-- Who reads page tables: for a guest's translation, and speculatively. -/
structure Walker where
  guest : Bool
  spec : Bool
  deriving DecidableEq, Repr

/-- Read a page-table entry's bytes at a supervisor-physical address of memory type `pbmt`: an S-mode read
(`21_virtual_memory.md` R542). -/
def readPtePhys (size : Nat) (k : Walker) (fault : Exc) (pbmt a : Nat) (s : State) : Res (Nat × Nat) :=
  let d := s.pmpOk k.guest .load .s a size
  if d.1 && d.2.pmaOk .load a size && (!k.spec || d.2.maySpeculate false pbmt a size) then
    match d.2.physRead a size with
    | .ok l => .ok (leNat l, a) d.2
    | .error f => .fault f
  else .trap fault d.2

/-- A page-table entry at a supervisor-physical address may be written: an S-mode store (`21_virtual_memory.md` R548). -/
def locatePtePhys (size : Nat) (k : Walker) (fault : Exc) (pbmt a : Nat) (s : State) : Res Nat :=
  let d := s.pmpOk k.guest .store .s a size
  if d.1 && d.2.pmaOk .store a size && (!k.spec || d.2.maySpeculate true pbmt a size) then .ok a d.2 else .trap fault d.2

/-- A control bit as a walk may see it: its value, or before the fence also the other one (`92_eei_decisions.md` D28;
entry 11). -/
def State.maybeStale (s : State) (stale now : Bool) : Bool × State :=
  s.pick now (if stale then [now, !now] else [now])

/-! ### Translations that are cached

"An implicit read ... may return any translation for an address that was valid at any time since the most recent SFENCE.VMA
that subsumes that address" (`42_supervisor_instructions.md` R745): a cached leaf is used although the root in force, of another
PPN or paged MODE, does not lead to it (`70_reset_and_hazards.md` R1001, R1002; entry 11). -/

/-- The record gives a translation of the address, or a fault for it, without another read and without an update of its entry:
step 7 is of the tables of the root in force (`21_virtual_memory.md` R548, R559). -/
def TlbRec.answers (r : TlbRec) (a : Word) (ad : AdMode) (store : Bool) : Bool :=
  r.leafLike && r.scheme.takes a && decide (r.scheme.prefixOf a.toNat r.level = r.prefixBits) &&
  (decide (ad = .fault) || !pteV r.pte || (pteA r.pte && (pteD r.pte || !store)))

/-- The cached translations of an address that its address space, or a global mapping, may use (`21_virtual_memory.md` R552,
R555). -/
def State.cachedFor (s : State) (space : TlbSpace) (asid : Nat) (a : Word) (ad : AdMode) (store : Bool) : List TlbRec :=
  s.xlat.tlb.filter fun r =>
    decide (r.space = space) && (decide (r.asid = asid) || r.global) && r.answers a ad store

/-- Steps 3 to 8 with a cached leaf. -/
def Walk.hit (w : Walk) (r : TlbRec) (s : State) : Res Target :=
  (w.entry r.level r.raw r.src r.global s).bind fun o t =>
    match o with
    | some (.done p) => .ok p t
    | _ => .trap w.pageFault t

/-- A walk, or one of the cached translations; which one is a draw. -/
def orCached (l : List TlbRec) (hit : TlbRec → State → Res Target) (walk : State → Res Target) (s : State) : Res Target :=
  match l with
  | [] => walk s
  | l =>
    let d := s.choose (l.length + 1)
    match d.1 with
    | 0 => walk d.2
    | k + 1 =>
      match l[k]? with
      | some r => hit r d.2
      | none => walk d.2

/-! ### The G-stage (`22_two_stage_translation.md` R584-R590) -/

/-- How an access is reported: the original access type, the virtual address in the trap value, and whether that is a guest
virtual address. -/
structure Origin where
  acc : Acc
  va : Word
  gva : Bool
  deriving DecidableEq, Repr

/-- An address that is not translated. -/
def Origin.bare (o : Origin) : Target := { addr := o.va.toNat, pbmt := 0, global := false }

/-- The access fault of an access. -/
def Origin.accessFault (o : Origin) : Exc :=
  { cause := o.acc.accessFault, tval := o.va, gva := o.gva, tval2 := 0, tinst := 0 }

/-- The page fault of an access. -/
def Origin.pageFault (o : Origin) : Exc :=
  { cause := o.acc.pageFault, tval := o.va, gva := o.gva, tval2 := 0, tinst := 0 }

/-- The pseudoinstruction of an implicit VS-stage access (`61_exceptions_hypervisor.md` R960). -/
def pseudoInst (x : Xlen) (write : Bool) : Word :=
  match x, write with
  | .x32, false => 0x2000
  | .x32, true => 0x2020
  | .x64, false => 0x3000
  | .x64, true => 0x3020

/-- The guest-page fault of an access at a guest physical address; what the trap writes of the address and of the
pseudoinstruction is `State.applyPolicy`'s (`61_exceptions_hypervisor.md` R948, R960). -/
def guestPageFault (vsxlen : Xlen) (o : Origin) (gpa : Nat) (implicit write : Bool) : Exc :=
  { cause := o.acc.guestPageFault, tval := o.va, gva := o.gva, tval2 := BitVec.ofNat 64 (gpa / 4)
    tinst := if implicit then pseudoInst vsxlen write else 0 }

/-- Guest physical addresses of the current virtual machine were supervisor physical ones, MODE of `hgatp` being Bare, and no
fence covers the change since (`43_hypervisor_instructions.md` R794, `70_reset_and_hazards.md` R1002; entry 11). -/
def State.wasBare (s : State) : Bool :=
  s.changes.any fun c =>
    match c.1 with
    | .gatp x w =>
      decide (atpMode x w = 0) && decide (gatpVmid x w = gatpVmid s.sxlen s.h.gatp) &&
      !c.2.any fun p => match p with
        | .g none none => true
        | .g none (some k) => decide (k = gatpVmid x w)
        | _ => false
    | _ => false

/-- The VMID of the current virtual machine. -/
def State.vmid (s : State) : Nat := gatpVmid s.sxlen s.h.gatp

/-- SBE as a walk may see it: SFENCE.VMA `x0`, `x0` brings it up to date for every table, HFENCE.GVMA `x0`, `x0` for those of
the G-stage (`11_state_machine_csrs.md` R108; `20_memory.md` R475). -/
def State.walkSbe (s : State) (g : Bool) : Bool × State :=
  s.maybeStale (s.staleSince .sbe fun p => p.allHs || (g && p.allG)) s.mst.sbe

/-- `menvcfg.PBMTE` as a walk may see it (`92_eei_decisions.md` D28). -/
def State.walkPbmte (s : State) (g : Bool) : Bool × State :=
  s.maybeStale (s.staleSince .pbmte fun p => if g then p.allG else p.allHs) s.m.pbmte

/-- VSBE and `henvcfg.PBMTE` as a walk may see them. -/
def State.walkVsbe (s : State) : Bool × State := s.maybeStale (s.staleSince .vsbe fun p => p.allVs s.vmid) s.hst.vsbe

def State.walkHpbmte (s : State) : Bool × State := s.maybeStale (s.staleSince .hpbmte fun p => p.allVs s.vmid) s.h.pbmte

/-- The walk of the G-stage for a guest physical address; `implicit` for an access to a VS-stage page table. -/
def State.gatpWalk (s : State) (o : Origin) (acc : Acc) (implicit spec : Bool) (ad : AdMode) (gpa : Nat) (c : Scheme)
    (big pbmte : Bool) : Walk :=
  let k : Walker := { guest := true, spec := spec }
  { scheme := c, space := .g s.vmid, asid := 0, addr := gpa
    svpbmt := s.cfg.hasSvpbmt && pbmte, big := big, setD := decide (acc = .store), ad := ad
    useG := false, permits := permittedG acc s.mst.mxr
    pageFault := guestPageFault s.vsxlen o gpa implicit (decide (acc = .store))
    readMem := readPtePhys c.pteSize k o.accessFault 0
    locate := locatePtePhys c.pteSize k o.accessFault 0
    readAt := readPtePhys c.pteSize k o.accessFault 0 }

/-- Translate a guest physical address by the tables of `hgatp`. -/
def gWalk (o : Origin) (acc : Acc) (implicit spec : Bool) (ad : AdMode) (gpa : Nat) (s : State) : Res Target :=
  let x := s.sxlen
  match schemeOf x 2 (atpMode x s.h.gatp) with
  | none => .ok { addr := gpa, pbmt := 0, global := false } s
  | some c =>
    if 2 ^ c.addrBits ≤ gpa then .trap (guestPageFault s.vsxlen o gpa implicit (decide (acc = .store))) s
    else
      let b := s.walkSbe true
      let p := b.2.walkPbmte true
      (s.gatpWalk o acc implicit spec ad gpa c b.1 p.1).run (atpPpn x s.h.gatp) p.2

/-- The G-stage: a guest physical address becomes a supervisor physical one. -/
def gStage (o : Origin) (acc : Acc) (implicit spec : Bool) (ad : AdMode) (gpa : Nat) (s : State) : Res Target :=
  let d := s.pick false (if s.wasBare then [false, true] else [false])
  if d.1 then .ok { addr := gpa, pbmt := 0, global := false } d.2
  else
    orCached (s.cachedFor (.g s.vmid) 0 (BitVec.ofNat 64 gpa) ad (decide (acc = .store)))
      (fun r t =>
        let p := t.walkPbmte true
        (s.gatpWalk o acc implicit spec ad gpa r.scheme r.big p.1).hit r p.2)
      (gWalk o acc implicit spec ad gpa) d.2

/-! ### Whole translations -/

/-- The walk through `satp`. -/
def State.satpWalk (s : State) (o : Origin) (permits : Nat → Bool) (spec : Bool) (ad : AdMode) (c : Scheme)
    (big pbmte : Bool) : Walk :=
  let k : Walker := { guest := false, spec := spec }
  { scheme := c, space := .hs, asid := atpAsid s.sxlen s.sc.atp, addr := o.va.toNat % 2 ^ c.addrBits
    svpbmt := s.cfg.hasSvpbmt && pbmte, big := big, setD := decide (o.acc = .store), ad := ad
    useG := true, permits := permits, pageFault := o.pageFault
    readMem := readPtePhys c.pteSize k o.accessFault 0
    locate := locatePtePhys c.pteSize k o.accessFault 0
    readAt := readPtePhys c.pteSize k o.accessFault 0 }

/-- Translation through `satp` (`21_virtual_memory.md` R500, R540). -/
def singleStage (o : Origin) (permits : Nat → Bool) (spec : Bool) (ad : AdMode) (s : State) : Res Target :=
  let x := s.sxlen
  match schemeOf x 0 (atpMode x s.sc.atp) with
  | none => .ok o.bare s
  | some c =>
    if !c.canonical o.va then .trap o.pageFault s
    else
      orCached (s.cachedFor .hs (atpAsid x s.sc.atp) o.va ad (decide (o.acc = .store)))
        (fun r t =>
          let p := t.walkPbmte false
          (s.satpWalk o permits spec ad r.scheme r.big p.1).hit r p.2)
        (fun t =>
          let b := t.walkSbe false
          let p := b.2.walkPbmte false
          (s.satpWalk o permits spec ad c b.1 p.1).run (atpPpn x s.sc.atp) p.2)
        s

/-- The walk of the VS-stage, whose tables the G-stage translates. -/
def State.vsatpWalk (s : State) (o : Origin) (permits : Nat → Bool) (spec : Bool) (ad adG : AdMode) (c : Scheme)
    (big pbmte : Bool) : Walk :=
  let k : Walker := { guest := true, spec := spec }
  { scheme := c, space := .vs s.vmid, asid := atpAsid s.vsxlen s.vs.atp, addr := o.va.toNat % 2 ^ c.addrBits
    svpbmt := s.cfg.hasSvpbmt && pbmte, big := big, setD := decide (o.acc = .store), ad := ad
    useG := true, permits := permits, pageFault := o.pageFault
    readMem := fun key t =>
      (gStage o .load true spec adG key t).bind fun g t1 => readPtePhys c.pteSize k o.accessFault g.pbmt g.addr t1
    locate := fun key t =>
      (gStage o .store true spec adG key t).bind fun g t1 => locatePtePhys c.pteSize k o.accessFault g.pbmt g.addr t1
    readAt := readPtePhys c.pteSize k o.accessFault 0 }

/-- The VS-stage: a guest virtual address becomes a guest physical one (`22_two_stage_translation.md` R590). `adG` is what the
G-stage may do about A and D. -/
def vsStage (o : Origin) (permits : Nat → Bool) (spec : Bool) (ad adG : AdMode) (s : State) : Res Target :=
  let x := s.vsxlen
  match schemeOf x 0 (atpMode x s.vs.atp) with
  | none => .ok o.bare s
  | some c =>
    if !c.canonical o.va then .trap o.pageFault s
    else
      orCached (s.cachedFor (.vs s.vmid) (atpAsid x s.vs.atp) o.va ad (decide (o.acc = .store)))
        (fun r t =>
          let p := t.walkHpbmte
          (s.vsatpWalk o permits spec ad adG r.scheme r.big p.1).hit r p.2)
        (fun t =>
          let b := t.walkVsbe
          let p := b.2.walkHpbmte
          (s.vsatpWalk o permits spec ad adG c b.1 p.1).run (atpPpn x s.vs.atp) p.2)
        s

/-- The memory type of a page translated by two stages: that of the VS-stage where it names one (`21_virtual_memory.md` R571).
-/
def combinePbmt (vs g : Nat) : Nat := if vs = 0 then g else vs

/-- Both stages. -/
def twoStage (o : Origin) (permits : Nat → Bool) (spec : Bool) (ad adG : AdMode) (s : State) : Res Target :=
  (vsStage o permits spec ad adG s).bind fun p s1 =>
    (gStage o o.acc false spec adG p.addr s1).bind fun q s2 =>
      .ok { q with pbmt := combinePbmt p.pbmt q.pbmt } s2

/-- What an executed access does about A and D (`ADUPDATE`). -/
def State.adMode (s : State) : AdMode := if s.cfg.adHardware then .both else .fault

/-- Translate an effective address for an access (`20_memory.md` R400 stage 4). -/
def translateAddr (o : Origin) (priv : Priv) (v : Bool) (s : State) : Res Target :=
  match priv with
  | .m => .ok o.bare s
  | _ =>
    if v then twoStage o (permitted o.acc priv s.vst.sum (s.vst.mxr || s.mst.mxr)) false s.adMode s.adMode s
    else if !s.hasS then .ok o.bare s
    else singleStage o (permitted o.acc priv s.mst.sum s.mst.mxr) false s.adMode s

/-- The mode of explicit accesses: the current one or, with MPRV, MPP and MPV (`20_memory.md` R401). -/
def State.effective (s : State) : Priv × Bool :=
  if s.mst.mprv then (s.mst.mpp, s.hasH && s.mst.mpv && decide (s.mst.mpp ≠ .m)) else (s.priv, s.v)

/-- `satp` is active (`12_state_supervisor_csrs.md` R274): speculative walks through it may begin. -/
def State.satpActive (s : State) : Bool :=
  s.hasS && decide (s.effective.1 ≠ .m) && !s.effective.2

/-- `vsatp` and `hgatp` are active (`22_two_stage_translation.md` R594). -/
def State.guestActive (s : State) : Bool :=
  s.hasH && (s.effective.2 || decide (s.effective.1 ≠ .u) || s.hst.hu)

/-- A speculative walk: it fills the cache, may set A where the scheme is in hardware but never D, raises nothing, and reads no
region that is not idempotent (`21_virtual_memory.md` R558; `20_memory.md` R428; VS-stage A bits:
`22_two_stage_translation.md` R594). It begins and completes in one step, so no walk is in progress when `satp` becomes
inactive, where `12_state_supervisor_csrs.md` R274 leaves open whether one completes (DESIGN CHOICE, entry 34). -/
def State.specWalk (s : State) (k : SpecKind) (fetch : Bool) (va : Nat) : State :=
  let o : Origin := { acc := if fetch then .fetch else .load, va := BitVec.ofNat 64 va, gva := false }
  let leafOk : Nat → Bool := fun _ => true
  let ad : AdMode := if s.cfg.adHardware then .accessed else .fault
  let r := match k with
    | .hs => if s.satpActive then singleStage o leafOk true ad s else .ok o.bare s
    | .guest =>
      if s.guestActive then twoStage o leafOk true (if s.effective.2 then ad else .fault) ad s else .ok o.bare s
  match r with
  | .ok _ t => t
  | .trap _ t => t
  | .fault _ => s

end Sys2Proof.Machine
end

