-- ==== Sys2Proof/Machine/Access.lean ====
section
/-!
DEFINITION. Explicit loads and stores and the instruction fetch (`20_memory.md` R400, R412, R450, R451).
-/

namespace Sys2Proof.Machine

/-- The kind of a misaligned access (`92_eei_decisions.md` D19). -/
def Acc.dataKind : Acc → DataKind
  | .fetch => .load
  | .load => .load
  | .hlvx => .load
  | .store => .store

/-- A region performs a misaligned access of n bytes at a virtual address (`20_memory.md` R412, `MISALIGNED_OK`). -/
def PmaRegion.misalignedOk (r : PmaRegion) (kind : DataKind) (va : Word) (n : Nat) : Bool :=
  r.misaligned.any fun m =>
    decide (m.kind = kind) && decide (m.width = n) &&
    (decide (m.block = 0) || decide (va.toNat % m.block + n ≤ m.block))

/-- The region of a part of an access of n bytes performs it although it is misaligned. -/
def State.misalignedHere (s : State) (kind : DataKind) (va : Word) (n pa len : Nat) : Bool :=
  match s.region pa len with
  | some r => PmaRegion.misalignedOk r kind va n
  | none => false

/-- The PMA check of a part of an access of n bytes. -/
def State.partPma (s : State) (acc : Acc) (pa len n : Nat) : Bool :=
  match s.region pa len with
  | none => false
  | some r => PmaRegion.supports r acc n

/-- Translate and check one part, of `len` bytes, of an access of n bytes (`20_memory.md` R400 stages 4 to 6). -/
def checkPart (o : Origin) (priv : Priv) (v : Bool) (len n : Nat) (s : State) : Res Nat :=
  (translateAddr o priv v s).bind fun p s1 =>
    let d := s1.pmpOk v o.acc priv p.addr len
    if d.1 && d.2.partPma o.acc p.addr len n then .ok p.addr d.2 else .trap o.accessFault d.2

/-- The address-misaligned exception of a load or store. -/
def Origin.misaligned (o : Origin) : Exc :=
  { cause := o.acc.misaligned, tval := o.va, gva := o.gva, tval2 := 0, tinst := 0 }

/-- A misaligned access crosses a page: the bytes before the boundary (`20_memory.md` R412, R450). -/
def splitLen (va : Word) (n : Nat) : Option Nat :=
  if va.toNat % 4096 + n ≤ 4096 then none else some (4096 - va.toNat % 4096)

/-- The second part of an access: at the page boundary, modulo 2^XLEN. -/
def Origin.second (o : Origin) (x : Xlen) (k : Nat) : Origin := { o with va := maskX x (o.va + BitVec.ofNat 64 k) }

/-- A misaligned access that the implementation refuses before translation: no region performs it (`20_memory.md` R412,
`92_eei_decisions.md` D19). -/
def State.refusedEarly (s : State) (kind : DataKind) (va : Word) (n : Nat) : Bool :=
  decide (va.toNat % n ≠ 0) && s.cfg.misalignedBefore &&
  !s.cfg.pma.any fun r => PmaRegion.misalignedOk r kind va n

/-- An explicit load of n bytes in the mode given (`20_memory.md` R450). Of one that crosses a page the lower part is checked
first, and where both parts fault the exception of the lower one is reported (DESIGN CHOICE, entry 26). -/
def memRead (acc : Acc) (priv : Priv) (v : Bool) (va : Word) (n : Nat) (s : State) : Res Nat :=
  let o : Origin := { acc := acc, va := va, gva := v }
  let big := s.bigEndian priv v
  if s.refusedEarly acc.dataKind va n then .trap o.misaligned s
  else match splitLen va n with
    | none =>
      (checkPart o priv v n n s).bind fun pa s1 =>
        if decide (va.toNat % n ≠ 0) && !s1.misalignedHere acc.dataKind va n pa n then .trap o.misaligned s1
        else match s1.physRead pa n with
          | .ok l => .ok (assemble big l) s1
          | .error f => .fault f
    | some k =>
      (checkPart o priv v k n s).bind fun pa s1 =>
        (checkPart (o.second (s.xlenOf priv v) k) priv v (n - k) n s1).bind fun pb s2 =>
          if s2.misalignedHere acc.dataKind va n pa k && s2.misalignedHere acc.dataKind va n pb (n - k) then
            match s2.physRead pa k, s2.physRead pb (n - k) with
            | .ok l, .ok l' => .ok (assemble big (l ++ l')) s2
            | .error f, _ => .fault f
            | _, .error f => .fault f
          else .trap o.misaligned s2

/-- A part of a split store may become visible although the other part faults (`20_memory.md` R412; entry 26). -/
def maybeVisible (va : Word) (n pa : Nat) (l : List Byte) (e : Exc) (s : State) : Res Unit :=
  if s.misalignedHere .store va n pa l.length then
    let d := s.pick false [false, true]
    if d.1 then
      match d.2.physWrite pa l with
      | .ok t => .trap e t
      | .error f => .fault f
    else .trap e d.2
  else .trap e s

/-- An explicit store of n bytes in the mode given (`20_memory.md` R450). Where both parts of one that crosses a page fault, the
exception of the lower one is reported (DESIGN CHOICE, entry 26). An aligned one is a single access, also a floating-point
store wider than XLEN, which R411 lets be decomposed (DESIGN CHOICE, entry 26). -/
def memWrite (priv : Priv) (v : Bool) (va : Word) (n : Nat) (value : Nat) (s : State) : Res Unit :=
  let o : Origin := { acc := .store, va := va, gva := v }
  let l := disassemble (s.bigEndian priv v) n value
  if s.refusedEarly .store va n then .trap o.misaligned s
  else match splitLen va n with
    | none =>
      (checkPart o priv v n n s).bind fun pa s1 =>
        if decide (va.toNat % n ≠ 0) && !s1.misalignedHere .store va n pa n then .trap o.misaligned s1
        else match s1.physWrite pa l with
          | .ok t => .ok () t
          | .error f => .fault f
    | some k =>
      let o2 := o.second (s.xlenOf priv v) k
      match checkPart o priv v k n s with
      | .fault f => .fault f
      | .trap e s1 =>
        match checkPart o2 priv v (n - k) n s1 with
        | .ok pb s2 => maybeVisible va n pb (l.drop k) e s2
        | _ => .trap e s1
      | .ok pa s1 =>
        match checkPart o2 priv v (n - k) n s1 with
        | .fault f => .fault f
        | .trap e s2 => maybeVisible va n pa (l.take k) e s2
        | .ok pb s2 =>
          if s2.misalignedHere .store va n pa k && s2.misalignedHere .store va n pb (n - k) then
            match s2.physWrite pa (l.take k) with
            | .error f => .fault f
            | .ok s3 =>
              match s3.physWrite pb (l.drop k) with
              | .ok t => .ok () t
              | .error f => .fault f
          else .trap o.misaligned s2

/-! ### The transformed instruction (`61_exceptions_hypervisor.md` R950-R959) -/

/-- The kinds of instruction that a transformation is defined for: basic loads, basic stores, atomics, and the virtual-machine
loads and stores. -/
inductive AccessKind where
  | load
  | store
  | atomic
  | virtualMachine
  deriving DecidableEq, Repr

/-- An instruction that makes an explicit access: its kind, its word, of a compressed one that of the 32-bit equivalent, and
whether it is compressed. Expanding a compressed instruction is Volume I's (`61_exceptions_hypervisor.md` R959). -/
structure AccessInst where
  kind : AccessKind
  word : IWord
  compressed : Bool
  deriving DecidableEq, Repr

/-- The bits of the word that a transformation keeps: all but 19:15, of a basic load or store without its immediate (R954, R955,
R956, R958). -/
def AccessKind.keeps : AccessKind → IWord
  | .load => 0x00007FFF
  | .store => 0x01F0707F
  | .atomic => 0xFFF07FFF
  | .virtualMachine => 0xFFF07FFF

/-- The word as it appears in `mtinst` or `htinst`: bits 19:15 hold the offset of the faulting address from the original one,
and bit 1 is 0 for a compressed instruction (R959). -/
def transformed (i : AccessInst) (off : Nat) : Word :=
  let w := (i.word &&& i.kind.keeps) ||| BitVec.ofNat 32 (off % 32 * 2 ^ 15)
  (if i.compressed then w &&& ~~~(2 : IWord) else w).setWidth 64

/-- The exceptions whose trap instruction may be a transformed one (R950, Table 8.11). -/
def transformable : List Nat := [4, 5, 6, 7, 13, 15, 21, 23]

/-- The exception of an instruction's access at an effective address, with its transformed word where the implementation writes
one (`XTINST_POLICY`, R951; entry 40). -/
def State.withInst (s : State) (i : AccessInst) (va : Word) (e : Exc) : Exc :=
  if s.cfg.xtinstTransformed && decide (e.tinst = 0) && transformable.contains e.cause then
    { e with tinst := transformed i (e.tval - va).toNat }
  else e

/-- The result of an access, its exception with the transformed instruction. -/
def Res.byInst {α : Type} (r : Res α) (i : AccessInst) (va : Word) : Res α :=
  match r with
  | .trap e s => .trap (s.withInst i va e) s
  | .ok a s => .ok a s
  | .fault f => .fault f

/-! ### Entry points for the instructions of Volume I (entry 28) -/

/-- An effective address at the XLEN of explicit accesses. -/
def State.effectiveAddr (s : State) (va : Word) : Word := maskX (s.xlenOf s.effective.1 s.effective.2) va

/-- A load of the base ISA at an effective address, under MPRV (`20_memory.md` R401, R402; `11_state_machine_csrs.md` R105;
`13_state_hypervisor_csrs.md` R388). -/
def explicitLoad (word : IWord) (compressed : Bool) (va : Word) (n : Nat) (s : State) : Res Nat :=
  (memRead .load s.effective.1 s.effective.2 (s.effectiveAddr va) n s).byInst ⟨.load, word, compressed⟩ (s.effectiveAddr va)

/-- A store of the base ISA at an effective address. -/
def explicitStore (word : IWord) (compressed : Bool) (va : Word) (n value : Nat) (s : State) : Res Unit :=
  (memWrite s.effective.1 s.effective.2 (s.effectiveAddr va) n value s).byInst ⟨.store, word, compressed⟩ (s.effectiveAddr va)

/-! ### Atomic accesses (`20_memory.md` R418, R424, R425, R450) -/

/-- The operations of Table 3.9. -/
inductive AmoOp where
  | swap
  | logical
  | arithmetic
  deriving DecidableEq, Repr

/-- The class supports the operation (`20_memory.md` R418, Table 3.9). -/
def amoAllows (c : AmoClass) (op : AmoOp) : Bool :=
  match c, op with
  | .none, _ => false
  | .swap, .swap => true
  | .swap, _ => false
  | .logical, .arithmetic => false
  | .logical, _ => true
  | .arithmetic, _ => true

/-- The region supports an AMO of n bytes. -/
def PmaRegion.amoOk (r : PmaRegion) (op : AmoOp) (n : Nat) : Bool :=
  r.amo.any fun c => decide (c.1 = n) && amoAllows c.2 op

/-- The location of a part of an AMO of n bytes supports it. -/
def State.amoOk (s : State) (op : AmoOp) (n pa len : Nat) : Bool :=
  match s.region pa len with
  | some r => PmaRegion.amoOk r op n
  | none => false

/-- Every load, store and AMO of n bytes at a misaligned address is refused before translation. -/
def State.allRefusedEarly (s : State) (va : Word) (n : Nat) : Bool :=
  [DataKind.load, .store, .amo].all fun k => s.refusedEarly k va n

/-- Translate and check one part of an atomic access, whose region must support it (`20_memory.md` R418, R424). -/
def checkAtomicPart (o : Origin) (priv : Priv) (v : Bool) (ok : State → Nat → Nat → Bool) (len n : Nat) (s : State) : Res Nat :=
  (checkPart o priv v len n s).bind fun pa s1 => if ok s1 pa len then .ok pa s1 else .trap o.accessFault s1

/-- The physical parts, address and length, of an atomic access of n bytes: one, or one in each page of two, the lower checked
first (`21_virtual_memory.md` R560; `20_memory.md` R450; entry 26). -/
def atomicParts (o : Origin) (priv : Priv) (v : Bool) (ok : State → Nat → Nat → Bool) (n : Nat) (s : State) :
    Res (List (Nat × Nat)) :=
  match splitLen o.va n with
  | none => (checkAtomicPart o priv v ok n n s).bind fun pa s1 => .ok [(pa, n)] s1
  | some k =>
    (checkAtomicPart o priv v ok k n s).bind fun pa s1 =>
      (checkAtomicPart (o.second (s.xlenOf priv v) k) priv v ok (n - k) n s1).bind fun pb s2 =>
        .ok [(pa, k), (pb, n - k)] s2

/-- The regions of all parts perform a misaligned access. -/
def State.misalignedAll (s : State) (kind : DataKind) (va : Word) (n : Nat) (ps : List (Nat × Nat)) : Bool :=
  ps.all fun p => s.misalignedHere kind va n p.1 p.2

/-- The exception of a misaligned atomic access that is not performed: address-misaligned only where no load, store or AMO of
that address and width is performed (`20_memory.md` R425). -/
def State.atomicRefusal (s : State) (o : Origin) (n : Nat) (ps : List (Nat × Nat)) : Exc :=
  if [DataKind.load, .store, .amo].any fun k => s.misalignedAll k o.va n ps then o.accessFault else o.misaligned

/-- Read the bytes of physical parts that passed their checks. -/
def State.readParts (s : State) : List (Nat × Nat) → Except Fault (List Byte)
  | [] => .ok []
  | p :: ps =>
    match s.physRead p.1 p.2, s.readParts ps with
    | .ok l, .ok r => .ok (l ++ r)
    | .error f, _ => .error f
    | _, .error f => .error f

/-- Write bytes to physical parts that passed their checks. -/
def State.writeParts (s : State) (l : List Byte) : List (Nat × Nat) → Except Fault State
  | [] => .ok s
  | p :: ps =>
    match s.physWrite p.1 (l.take p.2) with
    | .ok t => t.writeParts (l.drop p.2) ps
    | .error f => .error f

/-- An AMO of n bytes in the mode given: a read and a write of one location in one step, checked as a store, whose result is the
old value (`20_memory.md` R410, R450). A misaligned one is performed where the regions of all its parts do so (R412, R425). -/
def memAmo (op : AmoOp) (priv : Priv) (v : Bool) (va : Word) (n : Nat) (f : Nat → Nat) (s : State) : Res Nat :=
  let o : Origin := { acc := .store, va := va, gva := v }
  let big := s.bigEndian priv v
  if s.allRefusedEarly va n then .trap o.misaligned s
  else
    (atomicParts o priv v (fun t => t.amoOk op n) n s).bind fun ps s1 =>
      if decide (va.toNat % n ≠ 0) && !s1.misalignedAll .amo va n ps then .trap (s1.atomicRefusal o n ps) s1
      else match s1.readParts ps with
        | .error e => .fault e
        | .ok l =>
          match s1.writeParts (disassemble big n (f (assemble big l))) ps with
          | .ok t => .ok (assemble big l) t
          | .error e => .fault e

/-- The location of an LR (`acc` a load) or SC (a store) of n bytes in the mode given: the region must support reservations, and
misaligned ones raise an exception (`20_memory.md` R412, R424, R425, R450). -/
def reservedAt (acc : Acc) (priv : Priv) (v : Bool) (va : Word) (n : Nat) (s : State) : Res Nat :=
  let o : Origin := { acc := acc, va := va, gva := v }
  if s.allRefusedEarly va n then .trap o.misaligned s
  else
    (atomicParts o priv v State.rsrvOk n s).bind fun ps s1 =>
      match ps with
      | [(pa, _)] => if va.toNat % n ≠ 0 then .trap (s1.atomicRefusal o n ps) s1 else .ok pa s1
      | _ => .trap (s1.atomicRefusal o n ps) s1

/-- An AMO of the A extension at an effective address. -/
def explicitAmo (word : IWord) (op : AmoOp) (va : Word) (n : Nat) (f : Nat → Nat) (s : State) : Res Nat :=
  (memAmo op s.effective.1 s.effective.2 (s.effectiveAddr va) n f s).byInst ⟨.atomic, word, false⟩ (s.effectiveAddr va)

/-- The location of an LR or SC of the A extension at an effective address. -/
def reservedAddr (word : IWord) (acc : Acc) (va : Word) (n : Nat) (s : State) : Res Nat :=
  (reservedAt acc s.effective.1 s.effective.2 (s.effectiveAddr va) n s).byInst ⟨.atomic, word, false⟩ (s.effectiveAddr va)

/-! ### Instruction fetch (`20_memory.md` R451) -/

/-- A fetched byte: what memory holds or, before a FENCE.I, what it held (`20_memory.md` R474; entry 13). -/
def State.fetchByte (s : State) (a : Nat) (b : Byte) : Byte × State :=
  s.pick b (b :: (s.codeOld.filter fun c => decide (c.1 = a)).map fun c => c.2)

/-- The fetched bytes from an address. -/
def fetchOld (a : Nat) : List Byte → State → List Byte × State
  | [], s => ([], s)
  | b :: l, s =>
    let d := s.fetchByte a b
    let r := fetchOld (a + 1) l d.2
    (d.1 :: r.1, r.2)

/-- Fetch n bytes at a virtual address, within one page. -/
def fetchBytes (va : Word) (n : Nat) (s : State) : Res (List Byte) :=
  (checkPart { acc := .fetch, va := va, gva := s.v } s.priv s.v n n s).bind fun pa s1 =>
    match s1.physRead pa n with
    | .error f => .fault f
    | .ok l =>
      let r := fetchOld pa l s1
      .ok r.1 r.2

/-- What a fetch brings: a 32-bit instruction word, or a 16-bit parcel that is none. -/
inductive Fetched where
  | word (w : IWord)
  | parcel (p : BitVec 16)
  deriving DecidableEq, Repr

/-- The word of fetched bytes: little-endian (`20_memory.md` R407). -/
def wordOf (l : List Byte) : IWord := BitVec.ofNat 32 (leNat l)

/-- Fetch the instruction at `pc`: one word, or with IALIGN=16 parcel by parcel. A parcel whose bits 1:0 are 11 begins a 32-bit
word and any other is an instruction of its own (PRESUMED from Volume I, entry 28: `91_not_in_source.md` N9 finds no length
rule in the source). -/
def fetch (s : State) : Res Fetched :=
  let va := maskX s.xlen s.pc
  if !s.hasC && decide (va.toNat % 4 = 0) then
    (fetchBytes va 4 s).bind fun l s1 => .ok (.word (wordOf l)) s1
  else
    (fetchBytes va 2 s).bind fun l s1 =>
      let p := BitVec.ofNat 16 (leNat l)
      if p.toNat % 4 = 3 then
        (fetchBytes (maskX s.xlen (va + 2)) 2 s1).bind fun l' s2 => .ok (.word (wordOf (l ++ l'))) s2
      else .ok (.parcel p) s1

end Sys2Proof.Machine
end

