-- ==== Sys2Proof/Machine/Interrupts.lean ====
section
/-!
DEFINITION. Interrupts: `mip` and `mie` as they read, which interrupt is taken, and the delay of MTIP and MSIP
(`60_exceptions.md` section 4; `61_exceptions_hypervisor.md` R942).
-/

namespace Sys2Proof.Machine

/-- A bit in its place. -/
def bitAt (k : Nat) (b : Bool) : Word := if b then BitVec.ofNat 64 (2 ^ k) else 0

/-- `hgeip` (`13_state_hypervisor_csrs.md` R320). -/
def State.geiMask (s : State) : Word := maskX s.sxlen (BitVec.ofNat 64 (2 ^ (s.cfg.geilen + 1) - 2))

def State.hgeip (s : State) : Word := s.wires.hgeip &&& s.geiMask

/-- `hgeie`. -/
def State.hgeie (s : State) : Word := s.h.gei &&& s.geiMask

/-- `hip` (`13_state_hypervisor_csrs.md` R309). -/
def State.hip (s : State) : Word :=
  if s.hasH then
    bitAt 12 (decide (s.hgeip &&& s.hgeie ≠ 0)) |||
    bitAt 10 (s.pend.vseip || s.hgeip.getLsbD s.hst.vgein.toNat || s.wires.vsei) |||
    bitAt 6 (s.pend.vstip || s.wires.vsti) |||
    bitAt 2 s.pend.vssip
  else 0

/-- The standard S-level interrupts that are implemented (`12_state_supervisor_csrs.md` R233). -/
def State.sImpl (s : State) : Word := if s.hasS then s.cfg.mipImpl &&& 0x222 else 0

/-- `mip` as it reads (`11_state_machine_csrs.md` R130-R138, `13_state_hypervisor_csrs.md` R392). -/
def State.mip (s : State) : Word :=
  bitAt 11 s.wires.meip ||| bitAt 7 s.pend.mtip ||| bitAt 3 (s.cfg.hasMsip && s.pend.msip) |||
  ((bitAt 9 (s.pend.seipB || s.wires.seip) ||| bitAt 5 s.pend.stip ||| bitAt 1 s.pend.ssip) &&& s.sImpl) |||
  s.hip ||| ((s.wires.plat ||| s.pend.plat) &&& s.platMask)

/-- The enable bits that exist (`11_state_machine_csrs.md` R130-R138, `13_state_hypervisor_csrs.md` R310). -/
def State.mieMask (s : State) : Word :=
  0x880 ||| (if s.cfg.hasMsip then 8 else 0) ||| s.sImpl |||
  (if s.hasH then 0x444 else 0) ||| (if s.hasSgei then 0x1000 else 0) ||| s.platMask

/-- `mie` as it reads. -/
def State.mie (s : State) : Word := s.m.ie &&& s.mieMask

/-! ### The views of lower levels -/

/-- The interrupts visible in `sip` and `sie`, of SXLEN bits (`12_state_supervisor_csrs.md` R232). -/
def State.sipVisible (s : State) : Word := maskX s.sxlen (s.mideleg &&& (s.sImpl ||| s.platMask))

def State.sip (s : State) : Word := s.mip &&& s.sipVisible

def State.sie (s : State) : Word := s.mie &&& s.sipVisible

/-- The interrupts of `hie` (`13_state_hypervisor_csrs.md` R308, R310). -/
def State.hieMask (s : State) : Word := s.mideleg &&& s.mieMask &&& 0x1444

def State.hie (s : State) : Word := s.mie &&& s.hieMask

/-- The platform interrupts that `hideleg` passes on, of VSXLEN bits (`13_state_hypervisor_csrs.md` R302; entry 32). -/
def State.vsPlat (s : State) : Word := maskX s.vsxlen (s.sipVisible &&& s.hideleg &&& s.platMask)

/-- A VS-level view: bits 10, 6, 2 that `hideleg` passes on, one place down (`13_state_hypervisor_csrs.md` R366); platform
bits in their place, of the S-level register. -/
def State.vsView (s : State) (h m : Word) : Word := ((h &&& s.hideleg &&& 0x444) >>> 1) ||| (m &&& s.vsPlat)

def State.vsip (s : State) : Word := s.vsView s.hip s.mip

def State.vsie (s : State) : Word := s.vsView s.hie s.mie

/-! ### The interrupt to take -/

/-- The first interrupt of an order that is in a set. -/
def firstOf (order : List Nat) (w : Word) : Option Nat := order.find? fun i => w.getLsbD i

/-- Platform interrupts in their order, before the standard ones (`60_exceptions.md` R842). -/
def State.platOrder (s : State) : List Nat := s.cfg.platPriority ++ (List.range 64).drop 16

/-- The order among the standard interrupts for M-mode: `M_ORDER` (`60_exceptions.md` R842, R843; `11_state_machine_csrs.md`
R137). -/
def orderM : List Nat := [11, 3, 7, 9, 1, 5, 12, 10, 2, 6]

/-- The order for S-mode or HS-mode: `HS_ORDER` (`60_exceptions.md` R843, `61_exceptions_hypervisor.md` R942), and after it 11, 3
and 7, which stand in it nowhere: one of these is taken where it is delegated and none of the order is there (DESIGN CHOICE,
entry 32). -/
def orderS : List Nat := [9, 1, 5, 12, 10, 2, 6, 11, 3, 7]

/-- The order for VS-mode, by HS-level codes: `VS_ORDER` (`61_exceptions_hypervisor.md` R942). -/
def orderVs : List Nat := [10, 2, 6]

/-- Pending and individually enabled interrupts. -/
def State.pendingEnabled (s : State) : Word := s.mip &&& s.mie

/-- Those for M-mode that its conditions let through (`60_exceptions.md` R841, `61_exceptions_hypervisor.md` R942). -/
def State.forM (s : State) : Word :=
  if s.priv ≠ .m ∨ s.mst.mie then s.pendingEnabled &&& ~~~s.mideleg else 0

/-- Those for S-mode or HS-mode: delegated, and not delegated further (`60_exceptions.md` R841). -/
def State.forS (s : State) : Word :=
  if s.priv ≠ .m ∧ (s.v ∨ s.priv = .u ∨ s.mst.sie) then s.pendingEnabled &&& s.mideleg &&& ~~~s.hideleg else 0

/-- Those for VS-mode, by their HS-level codes (`60_exceptions.md` R841). -/
def State.forVs (s : State) : Word :=
  if s.v ∧ (s.priv = .u ∨ s.vst.sie) then s.pendingEnabled &&& s.mideleg &&& s.hideleg else 0

/-- The interrupt to take, if any (`60_exceptions.md` R841-R843, `61_exceptions_hypervisor.md` R942). -/
def State.takeable (s : State) : Option Nat :=
  if s.forM ≠ 0 then firstOf (s.platOrder ++ orderM) s.forM
  else if s.forS ≠ 0 then firstOf (s.platOrder ++ orderS) s.forS
  else if s.forVs ≠ 0 then firstOf (s.platOrder ++ orderVs) s.forVs
  else none

/-- A stalled hart must resume (`41_machine_instructions.md` R714). -/
def State.wakes (s : State) : Bool := decide (s.pendingEnabled ≠ 0)

/-- The timer comparison (`60_exceptions.md` R891). -/
def State.timerFires (s : State) : Bool := decide (s.timer.mtimecmp.toNat ≤ s.timer.mtime.toNat)

/-- The changes on their way when the source is `now`: one more where it differs from the last one. -/
def queued (due : List Bool) (seen now : Bool) : List Bool := if due.getLastD seen = now then due else due ++ [now]

/-- A pending bit takes the oldest change on its way to it, unless the schedule holds it: the bit, what is still on its way,
and how long it is held. -/
def delivered (due : List Bool) (seen : Bool) : Nat → Bool × List Bool × Nat
  | 0 => (due.headD seen, due.tail, 0)
  | n + 1 => (seen, due, n)

/-- MTIP and MSIP follow their sources, each change in its turn, none lost; the schedule may hold each of them for a number of
steps (`92_eei_decisions.md` D25; entry 7). -/
def State.syncIrq (s : State) : State :=
  let t := delivered (queued s.pend.mtipDue s.pend.mtip s.timerFires) s.pend.mtip s.mtipHold
  let m := delivered (queued s.pend.msipDue s.pend.msip s.timer.msip) s.pend.msip s.msipHold
  { s with
    pend := { s.pend with mtip := t.1, mtipDue := t.2.1, msip := m.1, msipDue := m.2.1 }
    mtipHold := t.2.2
    msipHold := m.2.2 }

end Sys2Proof.Machine
end

