-- ==== Sys2Proof/Machine/CsrMap.lean ====
section
/-!
DEFINITION. The CSR address space: which numbers are allocated (`10_state.md` R37), which CSRs exist (`40_csr_access.md` R671),
and who may access them (R670, R673).
-/

namespace Sys2Proof.Machine

/-- The CSRs of `10_state.md` R37; an index is the number in the register's name. -/
inductive Csr where
  | fflags | frm | fcsr
  | cycle | time | instret | hpmcounter (k : Nat)
  | cycleh | timeh | instreth | hpmcounterh (k : Nat)
  | sstatus | sie | stvec | scounteren | senvcfg | sscratch | sepc | scause | stval | sip | satp
  | hstatus | hedeleg | hideleg | hie | htimedelta | hcounteren | hgeie | henvcfg | htimedeltah | henvcfgh
  | htval | hip | hvip | htinst | hgatp | hgeip
  | vsstatus | vsie | vstvec | vsscratch | vsepc | vscause | vstval | vsip | vsatp
  | mvendorid | marchid | mimpid | mhartid | mconfigptr
  | mstatus | misa | medeleg | mideleg | mie | mtvec | mcounteren | mstatush | mscratch | mepc | mcause | mtval | mip
  | mtinst | mtval2 | menvcfg | menvcfgh
  | pmpcfg (k : Nat) | pmpaddr (k : Nat)
  | mcycle | minstret | mhpmcounter (k : Nat) | mcycleh | minstreth | mhpmcounterh (k : Nat)
  | mcountinhibit | mhpmevent (k : Nat)
  deriving DecidableEq, Repr

/-- The CSR of a number below 0x800. -/
def csrLow (n : Nat) : Option Csr :=
  match n with
  | 0x001 => some .fflags
  | 0x002 => some .frm
  | 0x003 => some .fcsr
  | 0x100 => some .sstatus
  | 0x104 => some .sie
  | 0x105 => some .stvec
  | 0x106 => some .scounteren
  | 0x10A => some .senvcfg
  | 0x140 => some .sscratch
  | 0x141 => some .sepc
  | 0x142 => some .scause
  | 0x143 => some .stval
  | 0x144 => some .sip
  | 0x180 => some .satp
  | 0x200 => some .vsstatus
  | 0x204 => some .vsie
  | 0x205 => some .vstvec
  | 0x240 => some .vsscratch
  | 0x241 => some .vsepc
  | 0x242 => some .vscause
  | 0x243 => some .vstval
  | 0x244 => some .vsip
  | 0x280 => some .vsatp
  | 0x600 => some .hstatus
  | 0x602 => some .hedeleg
  | 0x603 => some .hideleg
  | 0x604 => some .hie
  | 0x605 => some .htimedelta
  | 0x606 => some .hcounteren
  | 0x607 => some .hgeie
  | 0x60A => some .henvcfg
  | 0x615 => some .htimedeltah
  | 0x61A => some .henvcfgh
  | 0x643 => some .htval
  | 0x644 => some .hip
  | 0x645 => some .hvip
  | 0x64A => some .htinst
  | 0x680 => some .hgatp
  | _ => none

/-- The machine-level CSR of a number in 0x300..0x3FF. -/
def csrMachine (n : Nat) : Option Csr :=
  match n with
  | 0x300 => some .mstatus
  | 0x301 => some .misa
  | 0x302 => some .medeleg
  | 0x303 => some .mideleg
  | 0x304 => some .mie
  | 0x305 => some .mtvec
  | 0x306 => some .mcounteren
  | 0x30A => some .menvcfg
  | 0x310 => some .mstatush
  | 0x31A => some .menvcfgh
  | 0x320 => some .mcountinhibit
  | 0x340 => some .mscratch
  | 0x341 => some .mepc
  | 0x342 => some .mcause
  | 0x343 => some .mtval
  | 0x344 => some .mip
  | 0x34A => some .mtinst
  | 0x34B => some .mtval2
  | _ =>
    if 0x323 ≤ n ∧ n ≤ 0x33F then some (.mhpmevent (n - 0x320))
    else if 0x3A0 ≤ n ∧ n ≤ 0x3AF then some (.pmpcfg (n - 0x3A0))
    else if 0x3B0 ≤ n ∧ n ≤ 0x3EF then some (.pmpaddr (n - 0x3B0))
    else none

/-- The CSR of a number in 0xB00 and above. -/
def csrHigh (n : Nat) : Option Csr :=
  match n with
  | 0xB00 => some .mcycle
  | 0xB02 => some .minstret
  | 0xB80 => some .mcycleh
  | 0xB82 => some .minstreth
  | 0xC00 => some .cycle
  | 0xC01 => some .time
  | 0xC02 => some .instret
  | 0xC80 => some .cycleh
  | 0xC81 => some .timeh
  | 0xC82 => some .instreth
  | 0xE12 => some .hgeip
  | 0xF11 => some .mvendorid
  | 0xF12 => some .marchid
  | 0xF13 => some .mimpid
  | 0xF14 => some .mhartid
  | 0xF15 => some .mconfigptr
  | _ =>
    if 0xB03 ≤ n ∧ n ≤ 0xB1F then some (.mhpmcounter (n - 0xB00))
    else if 0xB83 ≤ n ∧ n ≤ 0xB9F then some (.mhpmcounterh (n - 0xB80))
    else if 0xC03 ≤ n ∧ n ≤ 0xC1F then some (.hpmcounter (n - 0xC00))
    else if 0xC83 ≤ n ∧ n ≤ 0xC9F then some (.hpmcounterh (n - 0xC80))
    else none

/-- The CSR a number is allocated to; none: no CSR of this specification (`10_state.md` R37; debug CSRs: entry 36). -/
def csrOf (n : Nat) : Option Csr :=
  if n / 0x100 = 3 then csrMachine n else if n < 0x800 then csrLow n else csrHigh n

/-- The privilege bits `csr[9:8]` (`10_state.md` R30). -/
def csrLevel (n : Nat) : Nat := n / 0x100 % 4

/-- Read-only by number: `csr[11:10]` = 11 (`10_state.md` R30). -/
def csrReadOnly (n : Nat) : Bool := decide (n / 0x400 % 4 = 3)

/-- The high-half CSRs (`40_csr_access.md` R671). -/
def Csr.highHalf : Csr → Bool
  | .cycleh => true
  | .timeh => true
  | .instreth => true
  | .hpmcounterh _ => true
  | .mstatush => true
  | .menvcfgh => true
  | .henvcfgh => true
  | .htimedeltah => true
  | .mcycleh => true
  | .minstreth => true
  | .mhpmcounterh _ => true
  | _ => false

/-- High-half CSRs exist when MXLEN is 32 or, with V=1, when the current XLEN is (`92_eei_decisions.md` D31). -/
def State.hasHigh (s : State) : Bool := if s.v then decide (s.xlen = .x32) else decide (s.mxlen = .x32)

/-- A counter's number among the enable bits (`11_state_machine_csrs.md` R150). -/
def Csr.counterBit : Csr → Option Nat
  | .cycle => some 0
  | .cycleh => some 0
  | .time => some 1
  | .timeh => some 1
  | .instret => some 2
  | .instreth => some 2
  | .hpmcounter k => some k
  | .hpmcounterh k => some k
  | _ => none

/-- The CSR's extension, mode or option is implemented and enabled (`40_csr_access.md` R671). -/
def State.hasUnit (s : State) : Csr → Bool
  | .fflags => s.hasF
  | .frm => s.hasF
  | .fcsr => s.hasF
  | .time => s.cfg.hasTime
  | .timeh => s.cfg.hasTime
  | .sstatus => s.hasS
  | .sie => s.hasS
  | .stvec => s.hasS
  | .scounteren => s.hasS
  | .senvcfg => s.hasS
  | .sscratch => s.hasS
  | .sepc => s.hasS
  | .scause => s.hasS
  | .stval => s.hasS
  | .sip => s.hasS
  | .satp => s.hasS
  | .medeleg => s.hasS
  | .mideleg => s.hasS
  | .mcounteren => s.hasU
  | .menvcfg => s.hasU
  | .menvcfgh => s.hasU
  | .mtinst => s.hasH
  | .mtval2 => s.hasH
  | .mcountinhibit => s.cfg.hasCountinhibit
  | .pmpcfg k =>
    decide (s.cfg.pmpN = 64 ∨ (s.cfg.pmpN ≠ 0 ∧ k < 4)) && (decide (s.mxlen = .x32) || decide (k % 2 = 0))
  | .pmpaddr k => decide (s.cfg.pmpN ≠ 0) && (decide (k < s.cfg.pmpN) || !s.cfg.pmpAddrAbsent)
  | .hstatus => s.hasH
  | .hedeleg => s.hasH
  | .hideleg => s.hasH
  | .hie => s.hasH
  | .htimedelta => s.hasH
  | .hcounteren => s.hasH
  | .hgeie => s.hasH
  | .henvcfg => s.hasH
  | .htimedeltah => s.hasH
  | .henvcfgh => s.hasH
  | .htval => s.hasH
  | .hip => s.hasH
  | .hvip => s.hasH
  | .htinst => s.hasH
  | .hgatp => s.hasH
  | .hgeip => s.hasH
  | .vsstatus => s.hasH
  | .vsie => s.hasH
  | .vstvec => s.hasH
  | .vsscratch => s.hasH
  | .vsepc => s.hasH
  | .vscause => s.hasH
  | .vstval => s.hasH
  | .vsip => s.hasH
  | .vsatp => s.hasH
  | _ => true

/-- The CSR is implemented (`40_csr_access.md` R671). -/
def State.implemented (s : State) (c : Csr) : Bool := s.hasUnit c && (!c.highHalf || s.hasHigh)

/-- The answer of an access check. -/
inductive Verdict where
  | ok
  | illegal
  | virtual
  deriving DecidableEq, Repr

/-- The counter-enable chain (`12_state_supervisor_csrs.md` R240, `13_state_hypervisor_csrs.md` R330). -/
def State.counterVerdict (s : State) (n : Nat) : Verdict :=
  if s.priv = .m then .ok
  else if !s.cnt.mcounteren.getLsbD n then .illegal
  else if s.v then
    if !s.cnt.hcounteren.getLsbD n then .virtual
    else if decide (s.priv = .u) && !s.cnt.scounteren.getLsbD n then .illegal
    else .ok
  else if decide (s.priv = .u) && s.hasS && !s.cnt.scounteren.getLsbD n then .illegal
  else .ok

/-- The per-CSR conditions (`40_csr_access.md` R673). -/
def State.csrCondition (s : State) (c : Csr) : Verdict :=
  match c.counterBit with
  | some n => s.counterVerdict n
  | none =>
    match c with
    | .satp =>
      if s.priv = .s then
        if s.v then (if s.hst.vtvm then .virtual else .ok) else (if s.mst.tvm then .illegal else .ok)
      else .ok
    | .hgatp => if s.priv = .s ∧ s.mst.tvm then .illegal else .ok
    | .fflags => if s.fsOff then .illegal else .ok
    | .frm => if s.fsOff then .illegal else .ok
    | .fcsr => if s.fsOff then .illegal else .ok
    | _ => .ok

/-- The mode number of the access check with V=0 (`40_csr_access.md` R670). -/
def State.modeLevel (s : State) : Nat :=
  match s.priv with
  | .m => 3
  | .s => if s.hasH then 2 else 1
  | .u => 0

/-- The access check (`40_csr_access.md` R670). -/
def State.csrVerdict (s : State) (n : Nat) (c : Csr) (write : Bool) : Verdict :=
  if !s.implemented c then .illegal
  else if write && csrReadOnly n then .illegal
  else if s.v then
    if csrLevel n = 3 then .illegal
    else if csrLevel n = 2 ∨ (csrLevel n = 1 ∧ s.priv = .u) then .virtual
    else s.csrCondition c
  else if s.modeLevel < csrLevel n then .illegal
  else s.csrCondition c

/-- The register an allowed access reaches: with V=1 a supervisor CSR's VS twin (`10_state.md` R33). -/
def State.redirect (s : State) (c : Csr) : Csr :=
  if s.v then
    match c with
    | .sstatus => .vsstatus
    | .sie => .vsie
    | .stvec => .vstvec
    | .sscratch => .vsscratch
    | .sepc => .vsepc
    | .scause => .vscause
    | .stval => .vstval
    | .sip => .vsip
    | .satp => .vsatp
    | c => c
  else c

end Sys2Proof.Machine
end

