-- ==== Sys2Proof/Machine/Csr.lean ====
section
/-!
DEFINITION. Reading and writing CSRs (`40_csr_access.md` R672-R678; fields: files 11, 12, 13 and `20_memory.md` section 5).
-/

namespace Sys2Proof.Machine

/-! ### Words of fields -/

/-- Bit k of a word. -/
def bitOf (w : Word) (k : Nat) : Bool := w.getLsbD k

/-- A field of a word: `len` bits from bit `lo`. -/
def fieldOf (w : Word) (lo len : Nat) : Nat := w.toNat / 2 ^ lo % 2 ^ len

/-- A number in its place. -/
def fieldAt (lo v : Nat) : Word := BitVec.ofNat 64 (v * 2 ^ lo)

/-- Replace the bits of a word that a mask selects. -/
def mergeW (mask old new : Word) : Word := (old &&& ~~~mask) ||| (new &&& mask)

/-- The high 32 bits of a 64-bit register (`11_state_machine_csrs.md` R144). -/
def hiHalf (w : Word) : Word := w >>> 32

/-- A write to a 64-bit register at the width of the CSR: 32-bit CSRs reach its low half. -/
def putLow (x : Xlen) (old new : Word) : Word :=
  match x with
  | .x32 => mergeW 0xFFFFFFFF old new
  | .x64 => new

/-- A write to the high half. -/
def putHigh (old new : Word) : Word := mergeW 0xFFFFFFFF00000000 old (new <<< 32)

/-! ### `mstatus` and its views -/

/-- SD in the top bit of a register of width XLEN (`11_state_machine_csrs.md` R113). -/
def sdWord (x : Xlen) (sd : Bool) : Word := bitAt (xlenBits x - 1) sd

/-- The `sstatus` fields below bit 32 (`12_state_supervisor_csrs.md` R220). -/
def Mstatus.sLow (t : Mstatus) : Word :=
  bitAt 1 t.sie ||| bitAt 5 t.spie ||| bitAt 6 t.ube ||| bitAt 8 t.spp ||| fieldAt 9 t.vs.toNat ||| fieldAt 13 t.fs.toNat |||
  bitAt 18 t.sum ||| bitAt 19 t.mxr

/-- The UXL field as it reads. -/
def State.uxlWord (s : State) : Word := if s.hasU then fieldAt 32 (xlenCode s.mst.uxl) else 0

/-- `mstatus` (`11_state_machine_csrs.md` R96). -/
def State.mstatus (s : State) : Word :=
  let t := s.mst
  let low := t.sLow ||| bitAt 3 t.mie ||| bitAt 7 t.mpie ||| fieldAt 11 t.mpp.num ||| bitAt 17 t.mprv ||| bitAt 20 t.tvm |||
    bitAt 21 t.tw ||| bitAt 22 t.tsr
  sdWord s.mxlen (sdBit t.fs t.vs) ||| low |||
  match s.mxlen with
  | .x32 => 0
  | .x64 =>
    s.uxlWord ||| (if s.hasS then fieldAt 34 (xlenCode t.sxl) else 0) ||| bitAt 36 t.sbe ||| bitAt 37 t.mbe |||
    bitAt 38 t.gva ||| bitAt 39 t.mpv

/-- `mstatush` (`11_state_machine_csrs.md` R98, `13_state_hypervisor_csrs.md` R386). -/
def State.mstatush (s : State) : Word :=
  bitAt 4 s.mst.sbe ||| bitAt 5 s.mst.mbe ||| bitAt 6 s.mst.gva ||| bitAt 7 s.mst.mpv

/-- `sstatus` (`12_state_supervisor_csrs.md` R220). -/
def State.sstatus (s : State) : Word :=
  sdWord s.sxlen (sdBit s.mst.fs s.mst.vs) ||| s.mst.sLow |||
  match s.sxlen with
  | .x32 => 0
  | .x64 => s.uxlWord

/-- `vsstatus` (`13_state_hypervisor_csrs.md` R360, R364). -/
def State.vsstatus (s : State) : Word :=
  let t := s.vst
  sdWord s.vsxlen (sdBit t.fs t.vs) |||
  bitAt 1 t.sie ||| bitAt 5 t.spie ||| bitAt 6 t.ube ||| bitAt 8 t.spp ||| fieldAt 9 t.vs.toNat ||| fieldAt 13 t.fs.toNat |||
  bitAt 18 t.sum ||| bitAt 19 t.mxr |||
  match s.vsxlen with
  | .x32 => 0
  | .x64 => fieldAt 32 (xlenCode t.uxl)

/-- `hstatus` (`13_state_hypervisor_csrs.md` R290). -/
def State.hstatus (s : State) : Word :=
  let t := s.hst
  bitAt 5 t.vsbe ||| bitAt 6 t.gva ||| bitAt 7 t.spv ||| bitAt 8 t.spvp ||| bitAt 9 t.hu ||| fieldAt 12 t.vgein.toNat |||
  bitAt 20 t.vtvm ||| bitAt 21 t.vtw ||| bitAt 22 t.vtsr |||
  match s.sxlen with
  | .x32 => 0
  | .x64 => fieldAt 32 (xlenCode t.vsxl)

/-- The values MPP may hold (`11_state_machine_csrs.md` R102). -/
def State.mppSet (s : State) : List Priv :=
  if s.hasS then [.u, .s, .m] else if s.hasU then [.u, .m] else [.m]

/-- SUM is read-only zero in a status register whose `satp` or `vsatp` has the width given (`11_state_machine_csrs.md` R107). -/
def State.sumFixed (s : State) (x : Xlen) : Bool := !s.hasS || !s.cfg.pagedAt x

/-- The fields of `sstatus` after a write (`12_state_supervisor_csrs.md` R220). UBE has storage of its own, with the values of
`UBE_SET`; it is no read-only copy of the endianness of S-mode, as `12_state_supervisor_csrs.md` R226 lets it be, nor of MBE
(DESIGN CHOICE, entry 43). UXL has storage of its own, with the values of `UXL_SET`; it is no read-only field that follows
SXLEN, as `11_state_machine_csrs.md` R103 and `12_state_supervisor_csrs.md` R224 let it be (DESIGN CHOICE, entry 43). -/
def State.sstatusFields (s : State) (x : Xlen) (w : Word) : Mstatus :=
  let t := s.mst
  { t with
    sie := bitOf w 1 && s.hasS
    spie := bitOf w 5 && s.hasS
    ube := if s.hasU then warl .ube (Config.ends s.cfg.ubeSet) boolCode (fieldOf w 6 1) t.ube else false
    spp := bitOf w 8 && s.hasS
    vs := statusField s.vsFixed s.cfg.vsCoarse (BitVec.ofNat 2 (fieldOf w 9 2))
    fs := statusField s.fsFixed s.cfg.fsCoarse (BitVec.ofNat 2 (fieldOf w 13 2))
    sum := bitOf w 18 && !s.sumFixed s.sxlen
    mxr := bitOf w 19 && s.hasS
    uxl := if s.hasU ∧ x = .x64 then warl .uxl (Config.xlens s.cfg.uxlSet) xlenCode (fieldOf w 32 2) t.uxl else t.uxl }

/-- SBE, MBE, GVA and MPV from their four bits (`11_state_machine_csrs.md` R108; `13_state_hypervisor_csrs.md` R386). SBE has
storage of its own, with the values of `SBE_SET`; it is no read-only copy of MBE, as R108 lets it be (DESIGN CHOICE, entry 43).
-/
def State.upperFields (s : State) (t : Mstatus) (sbe mbe gva mpv : Bool) : Mstatus :=
  { t with
    sbe := if s.hasS then warl .sbe (Config.ends s.cfg.sbeSet) boolCode (boolCode sbe) t.sbe else false
    mbe := warl .mbe (Config.ends s.cfg.mbeSet) boolCode (boolCode mbe) t.mbe
    gva := gva && s.hasH
    mpv := mpv && s.hasH }

/-- The fields of `mstatus` below bit 32 after a write (`11_state_machine_csrs.md` R96-R118). -/
def State.mstatusLow (s : State) (w : Word) : Mstatus :=
  { s.sstatusFields s.mxlen w with
    mie := bitOf w 3
    mpie := bitOf w 7
    mpp := warl .mpp s.mppSet Priv.num (fieldOf w 11 2) s.mst.mpp
    mprv := bitOf w 17 && s.hasU
    tvm := bitOf w 20 && s.hasS
    tw := bitOf w 21 && s.hasU
    tsr := bitOf w 22 && s.hasS }

/-- The fields of `mstatus` after a write (`11_state_machine_csrs.md` R96-R118). -/
def State.mstatusFields (s : State) (w : Word) : Mstatus :=
  let t := s.mstatusLow w
  match s.mxlen with
  | .x32 => t
  | .x64 =>
    { s.upperFields t (bitOf w 36) (bitOf w 37) (bitOf w 38) (bitOf w 39) with
      sxl := if s.hasS then warl .sxl (Config.xlens s.cfg.sxlSet) xlenCode (fieldOf w 34 2) t.sxl else t.sxl }

/-- The fields of `vsstatus` after a write (`13_state_hypervisor_csrs.md` R360-R364). UBE has storage of its own, with the
values of `UBE_SET`; it is no copy of `hstatus.VSBE` (DESIGN CHOICE, entry 43). -/
def State.vsstatusFields (s : State) (w : Word) : Vsstatus :=
  let t := s.vst
  { sie := bitOf w 1
    spie := bitOf w 5
    ube := warl .ube (Config.ends s.cfg.ubeSet) boolCode (fieldOf w 6 1) t.ube
    spp := bitOf w 8
    vs := statusField s.vsFixed s.cfg.vsCoarse (BitVec.ofNat 2 (fieldOf w 9 2))
    fs := statusField s.fsFixed s.cfg.fsCoarse (BitVec.ofNat 2 (fieldOf w 13 2))
    sum := bitOf w 18 && !s.sumFixed s.vsxlen
    mxr := bitOf w 19
    uxl := match s.vsxlen with
      | .x32 => t.uxl
      | .x64 => warl .vuxl (Config.xlens s.cfg.vuxlSet) xlenCode (fieldOf w 32 2) t.uxl }

/-- The fields of `hstatus` but VGEIN after a write (`13_state_hypervisor_csrs.md` R290-R299). VSBE has storage of its own, with
the values of `VSBE_SET`; it is no read-only field that follows the endianness of HS-mode, as R299 lets it be (DESIGN CHOICE,
entry 43). -/
def State.hstatusFields (s : State) (w : Word) : Hstatus :=
  let t := s.hst
  { vsbe := warl .vsbe (Config.ends s.cfg.vsbeSet) boolCode (fieldOf w 5 1) t.vsbe
    gva := bitOf w 6
    spv := bitOf w 7
    spvp := bitOf w 8
    hu := bitOf w 9
    vgein := t.vgein
    vtvm := bitOf w 20
    vtw := bitOf w 21
    vtsr := bitOf w 22
    vsxl := match s.sxlen with
      | .x32 => t.vsxl
      | .x64 => warl .vsxl (Config.xlens s.cfg.vsxlSet) xlenCode (fieldOf w 32 2) t.vsxl }

/-! ### Changes of width (`10_state.md` R45; `11_state_machine_csrs.md` R104; `13_state_hypervisor_csrs.md` R292, R362) -/

/-- A supported MODE of `satp` or `vsatp` (`SATP_MODES`; `12_state_supervisor_csrs.md` R271). -/
def satpModeOk (c : Config) (x : Xlen) (mode : Nat) : Bool :=
  match x, mode with
  | _, 0 => true
  | .x32, 1 => c.sv32
  | .x64, 8 => decide (1 ≤ c.svLevels)
  | .x64, 9 => decide (2 ≤ c.svLevels)
  | .x64, 10 => decide (3 ≤ c.svLevels)
  | _, _ => false

/-- A supported MODE of `hgatp` (`HGATP_MODES`; `13_state_hypervisor_csrs.md` R347). -/
def hgatpModeOk (c : Config) (x : Xlen) (mode : Nat) : Bool :=
  match x, mode with
  | _, 0 => true
  | .x32, 1 => c.sv32x4
  | .x64, 8 => c.sv39x4
  | .x64, 9 => c.sv48x4
  | .x64, 10 => c.sv57x4
  | _, _ => false

/-- The MODE field in its place. -/
def modeWord (x : Xlen) (mode : Nat) : Word :=
  match x with
  | .x32 => fieldAt 31 mode
  | .x64 => fieldAt 60 mode

/-- The implemented bits of `satp` below MODE: ASIDLEN bits of ASID and every bit of the PPN (`12_state_supervisor_csrs.md`
R270, R273; the PPN: DESIGN CHOICE, entry 43). -/
def satpMask (c : Config) (x : Xlen) : Word :=
  match x with
  | .x32 => fieldAt 22 (2 ^ min c.asidLen 9 - 1) ||| fieldAt 0 (2 ^ 22 - 1)
  | .x64 => fieldAt 44 (2 ^ min c.asidLen 16 - 1) ||| fieldAt 0 (2 ^ 44 - 1)

/-- The implemented bits of `hgatp` below MODE: VMIDLEN bits of VMID, and the PPN without its two low bits
(`13_state_hypervisor_csrs.md` R348, R349; entry 17). -/
def hgatpMask (c : Config) (x : Xlen) : Word :=
  match x with
  | .x32 => fieldAt 22 (2 ^ min c.vmidLen 7 - 1) ||| fieldAt 0 (2 ^ 22 - 4)
  | .x64 => fieldAt 44 (2 ^ min c.vmidLen 14 - 1) ||| fieldAt 0 (2 ^ 44 - 4)

/-- `satp` or `vsatp` narrowed to 32 bits, its fields made legal. -/
def narrowAtp (c : Config) (w : Word) : Word :=
  let n := maskX .x32 w
  (if satpModeOk c .x32 (atpMode .x32 n) then modeWord .x32 (atpMode .x32 n) else 0) ||| (n &&& satpMask c .x32)

/-- `hgatp` narrowed to 32 bits, its fields made legal. -/
def narrowGatp (c : Config) (w : Word) : Word :=
  let n := maskX .x32 w
  (if hgatpModeOk c .x32 (atpMode .x32 n) then modeWord .x32 (atpMode .x32 n) else 0) ||| (n &&& hgatpMask c .x32)

/-- Put new PMP registers in force; with paging the old ones may still be used until a fence (`20_memory.md` R446). -/
def State.setPmp (s : State) (p : Pmp) : State :=
  let t := if paging s.cfg ∧ p ≠ s.pmp then s.note (.pmp s.pmp) else s
  { t with pmp := p }

/-- Put a value into `henvcfg.PBMTE` (`92_eei_decisions.md` D28). -/
def State.putHPbmte (s : State) (b : Bool) : State :=
  let t := if b = s.h.pbmte then s else s.note .hpbmte
  { t with h := { t.h with pbmte := b } }

/-- Write `menvcfg.PBMTE`: it gates `henvcfg.PBMTE`, which becomes UNSPECIFIED when it becomes writable (`10_state.md` R43,
`11_state_machine_csrs.md` R197). -/
def State.setMPbmte (s : State) (b : Bool) : State :=
  let b' := b && s.cfg.hasSvpbmt
  if b' = s.m.pbmte then s
  else
    let t := { s.note .pbmte with m := { s.m with pbmte := b' } }
    if b' then
      let d := t.pick false [false, true]
      d.2.putHPbmte d.1
    else t.putHPbmte false

/-- Write `henvcfg.PBMTE`: read-only zero while `menvcfg.PBMTE` is zero. -/
def State.setHPbmte (s : State) (b : Bool) : State := s.putHPbmte (b && s.m.pbmte)

/-- A function of each element of a bank of registers. -/
def mapBank {n : Nat} (f : Word → Word) (v : Vector Word n) : Vector Word n :=
  (List.range n).foldl (fun v i => v.setIfInBounds i (f ((v[i]?).getD 0))) v

/-- The machine-level CSRs when MXLEN becomes 32. SBE, MBE, GVA and MPV move to `mstatush`, PBMTE to `menvcfgh`, and the bytes
of the upper halves of the `pmpcfg` registers to the odd ones: they keep their values. A read-only `mtvec` is cut to 32 bits
and stays so when MXLEN becomes 64 again; R45 speaks of writable fields only (DESIGN CHOICES, entry 20). -/
def State.narrowM (s : State) : State :=
  let n := maskX .x32
  ({ s with
    m := { s.m with
      tvec := n s.m.tvec, edeleg := n s.m.edeleg, ideleg := n s.m.ideleg, ie := n s.m.ie, scratch := n s.m.scratch
      epc := epcWord s.cfg .x32 s.m.epc, cause := n s.m.cause, tval := n s.m.tval
      tval2 := gpaWord s.cfg.mtval2Legal .mtval2 .x32 s.m.tval2, tinst := n s.m.tinst }
    cnt := { s.cnt with hpmevent := mapBank n s.cnt.hpmevent }
    pend := { s.pend with plat := n s.pend.plat } } : State).setPmp { s.pmp with addr := mapBank n s.pmp.addr }

/-- The bytes of the upper halves of the even `pmpcfg` registers are zero, but for locked ones (`20_memory.md` R440). -/
def widenPmpCfg (v : Vector Byte 64) : Vector Byte 64 :=
  (List.range 64).foldl
    (fun v i => if 4 ≤ i % 8 ∧ pmpL ((v[i]?).getD 0) = false then v.setIfInBounds i 0 else v) v

/-- The machine-level CSRs when MXLEN becomes 64: SXL and UXL are the widest, other bits above bit 31 zero
(`10_state.md` R45, `11_state_machine_csrs.md` R104). -/
def State.widenM (s : State) : State :=
  let sbe := s.mst.sbe && !s.cfg.sbeSet.little
  let t := if sbe = s.mst.sbe then s else s.note .sbe
  let u : State :=
    { t with
      mst := { t.mst with
        sxl := widest s.cfg.sxlSet, uxl := widest s.cfg.uxlSet, sbe := sbe
        mbe := t.mst.mbe && !s.cfg.mbeSet.little, gva := false, mpv := false }
      m := { t.m with
        epc := epcWord s.cfg .x64 (maskX .x32 t.m.epc), tval := tvalWord s.cfg .x64 t.m.tval } }
  (u.setMPbmte false).setPmp { u.pmp with cfg := widenPmpCfg u.pmp.cfg }

/-- The supervisor and hypervisor CSRs when SXLEN becomes 32. PBMTE moves to `henvcfgh`, and a read-only `stvec` is cut for good
(entry 20). -/
def State.narrowS (s : State) : State :=
  let n := maskX .x32
  { s.note (.gatp .x64 s.h.gatp) with
    sc := { s.sc with
      tvec := n s.sc.tvec, scratch := n s.sc.scratch, epc := epcWord s.cfg .x32 s.sc.epc, cause := n s.sc.cause
      tval := n s.sc.tval, atp := narrowAtp s.cfg s.sc.atp }
    h := { s.h with
      edeleg := n s.h.edeleg, ideleg := n s.h.ideleg, gei := n s.h.gei
      tval := gpaWord s.cfg.htvalLegal .htval .x32 s.h.tval, tinst := n s.h.tinst, gatp := narrowGatp s.cfg s.h.gatp } }

/-- Those CSRs when SXLEN becomes 64: VSXL is the widest, other bits above bit 31 zero (`10_state.md` R45;
`13_state_hypervisor_csrs.md` R292, R334). -/
def State.widenS (s : State) : State :=
  ({ s.note (.gatp .x32 s.h.gatp) with
    hst := { s.hst with vsxl := widest s.cfg.vsxlSet }
    h := { s.h with timedelta := maskX .x32 s.h.timedelta }
    sc := { s.sc with
      epc := epcWord s.cfg .x64 (maskX .x32 s.sc.epc), tval := tvalWord s.cfg .x64 s.sc.tval } } : State).setHPbmte false

/-- The VS CSRs when VSXLEN becomes 32. A read-only `vstvec` is cut for good (entry 20). -/
def State.narrowVs (s : State) : State :=
  let n := maskX .x32
  { s with
    vs := { s.vs with
      tvec := n s.vs.tvec, scratch := n s.vs.scratch, epc := epcWord s.cfg .x32 s.vs.epc, cause := n s.vs.cause
      tval := n s.vs.tval, atp := narrowAtp s.cfg s.vs.atp } }

/-- Those CSRs when VSXLEN becomes 64 (`13_state_hypervisor_csrs.md` R362). -/
def State.widenVs (s : State) : State :=
  { s with
    vst := { s.vst with uxl := widest s.cfg.vuxlSet }
    vs := { s.vs with
      epc := epcWord s.cfg .x64 (maskX .x32 s.vs.epc), tval := tvalWord s.cfg .x64 s.vs.tval } }

/-- A width has become wider. -/
def widenDone (a b : Xlen) : Bool := decide (a = .x32) && decide (b = .x64)

/-- A width has become narrower. -/
def narrowed (a b : Xlen) : Bool := decide (a = .x64) && decide (b = .x32)

/-- SUM when the paged modes of the width decide anew whether it is read-only zero: zero, or UNSPECIFIED where it becomes
writable (`10_state.md` R43; `11_state_machine_csrs.md` R107). -/
def State.redrawSum (s : State) (before now b : Bool) : Bool × State :=
  if now then (false, s) else if before then s.pick false [false, true] else (b, s)

/-- What a change of MXLEN from `m0` does to the other registers. -/
def State.modulateM (s : State) (m0 : Xlen) : State :=
  if narrowed m0 s.mxlen then s.narrowM
  else if widenDone m0 s.mxlen then s.widenM
  else s

/-- What a change of SXLEN from `s0` does. -/
def State.modulateS (s : State) (s0 : Xlen) : State :=
  if s0 = s.sxlen then s
  else
    let t := if narrowed s0 s.sxlen then s.narrowS else s.widenS
    let d := t.redrawSum (t.sumFixed s0) (t.sumFixed t.sxlen) t.mst.sum
    { d.2 with mst := { d.2.mst with sum := d.1 } }

/-- What a change of VSXLEN from `v0` does. -/
def State.modulateVs (s : State) (v0 : Xlen) : State :=
  if v0 = s.vsxlen then s
  else
    let t := if narrowed v0 s.vsxlen then s.narrowVs else s.widenVs
    let d := t.redrawSum (t.sumFixed v0) (t.sumFixed t.vsxlen) t.vst.sum
    { d.2 with vst := { d.2.vst with sum := d.1 } }

/-- What changes of MXLEN, SXLEN and VSXLEN do to the other registers, given the widths before. -/
def State.modulate (s : State) (m0 s0 v0 : Xlen) : State := ((s.modulateM m0).modulateS s0).modulateVs v0

/-- Put new `mstatus` fields in force: widths change, and a change of SBE may be seen late (`20_memory.md` R475). -/
def State.setMst (s : State) (t : Mstatus) : State :=
  let u := if t.sbe = s.mst.sbe then s else s.note .sbe
  ({ u with mst := t } : State).modulate s.mxlen s.sxlen s.vsxlen

/-- Put new `hstatus` fields in force. -/
def State.setHst (s : State) (t : Hstatus) : State :=
  let u := if t.vsbe = s.hst.vsbe then s else s.note .vsbe
  ({ u with hst := t } : State).modulate s.mxlen s.sxlen s.vsxlen

/-! ### Trap vectors, causes, configuration -/

/-- A trap vector after a write: a base that is not legal is rounded down to a legal one, or the implementation picks one
(`11_state_machine_csrs.md` R120, R121; `12_state_supervisor_csrs.md` R228; entry 18). -/
def tvecWrite (l : TvecLegal) (x : Xlen) (old w : Word) : Word :=
  if l.readOnly then old
  else
    let modes := (if l.direct then [0] else []) ++ (if l.vectored then [1] else [])
    let mode := warl .tvecMode modes id (fieldOf w 0 2) (fieldOf old 0 2)
    let align := max 2 (if mode = 1 then l.vectoredAlign else l.directAlign)
    let round (b : Word) := maskX x (fieldAt align (fieldOf b align (64 - align)) &&& l.baseMask)
    let base := maskX x w &&& ~~~(3 : Word)
    (if round base = base || l.rounds then round base
      else round (BitVec.ofNat 64 (Config.basePick base.toNat (old &&& ~~~(3 : Word)).toNat))) ||| fieldAt 0 mode

/-- The Exception Codes that the implementation can raise, of exceptions or interrupts (`60_exceptions.md` R820, R822;
`61_exceptions_hypervisor.md` R920), and those that reset and NMI leave in `mcause`. -/
def causeRaised (c : Config) (f : Config.WlrlField) (code : Nat) : Bool :=
  let has := c.letters.getLsbD
  [0, 1, 2, 3, 4, 5, 6, 7, 11].contains code ||
  (has letterU && decide (code = 8)) ||
  (has letterS && [1, 5, 9].contains code) ||
  (paging c && [12, 13, 15].contains code) ||
  (has letterH && [2, 6, 10, 12, 20, 21, 22, 23].contains code) ||
  (decide (16 ≤ code) && c.platIrq.getLsbD code) ||
  (decide (f = .mcause) && (decide (code = fieldOf c.resetCause 0 63) || decide (code = fieldOf c.nmiCause 0 63)))

/-- A legal Exception Code: one that can be raised (`60_exceptions.md` R852) or another of `XCAUSE_LEGAL`; `scause` and
`vscause` hold 0 to 31 (`12_state_supervisor_csrs.md` R250, `13_state_hypervisor_csrs.md` R376). -/
def causeLegal (c : Config) (f : Config.WlrlField) (code : Nat) : Bool :=
  causeRaised c f code || (decide (f ≠ .mcause) && decide (code < 32)) ||
  c.xcauseLegal.any fun r => decide (r.1 ≤ code) && decide (code ≤ r.2)

/-- The bits a WLRL field of `n` bits takes when an illegal value is written and no exception raised (`10_state.md` R41;
`92_eei_decisions.md` D45; entry 15). -/
def wlrlBits (c : Config) (f : Config.WlrlField) (n w old : Nat) : Nat :=
  if c.wlrlKeeps then old else Config.wlrlPick f w old % 2 ^ n

/-- An `xcause` after a write: the Interrupt bit is free, the Exception Code is WLRL. None: the implementation raises an illegal
instruction exception. -/
def causeWrite (c : Config) (f : Config.WlrlField) (x : Xlen) (old w : Word) : Option Word :=
  let b := xlenBits x - 1
  let code := fieldOf w 0 b
  if causeLegal c f code then some (maskX x w)
  else if c.wlrlTraps then none
  else some (bitAt b (bitOf w b) ||| fieldAt 0 (wlrlBits c f b code (fieldOf old 0 b)))

/-- A trap-instruction register after a write: where the policy is the minimal one it holds zero and the pseudoinstructions, and
takes zero in place of anything else (`61_exceptions_hypervisor.md` R962). -/
def tinstWrite (c : Config) (x : Xlen) (w : Word) : Word :=
  let v := maskX x w
  if c.xtinstTransformed || [0, 0x2000, 0x2020, 0x3000, 0x3020].contains v then v else 0

/-- `satp` or `vsatp` after a write of a supported MODE: with MODE=Bare and other bits nonzero those bits are UNSPECIFIED
(`12_state_supervisor_csrs.md` R271, R272; `92_eei_decisions.md` D12). None: the MODE is not supported. -/
def State.atpWrite (s : State) (x : Xlen) (w : Word) : Option (Word × State) :=
  let v := maskX x w
  let mode := atpMode x v
  let rest := v &&& satpMask s.cfg x
  if !satpModeOk s.cfg x mode then none
  else if decide (mode = 0) && decide (v ≠ 0) then
    let d := s.drawWord
    some (d.1 &&& satpMask s.cfg x, d.2)
  else some (modeWord x mode ||| rest, s)

/-- `hgatp` after a write: an unsupported MODE keeps the old one (`92_eei_decisions.md` D15); with MODE=Bare the other fields
are stored as written, zero or not (`13_state_hypervisor_csrs.md` R347; DESIGN CHOICE, entry 17). -/
def State.hgatpWord (s : State) (w : Word) : Word :=
  let x := s.sxlen
  let v := maskX x w
  let mode := if hgatpModeOk s.cfg x (atpMode x v) then atpMode x v else atpMode x s.h.gatp
  modeWord x mode ||| (v &&& hgatpMask s.cfg x)

/-- Put a value into `hgatp`; the MODE before may still be used until it is fenced (`43_hypervisor_instructions.md` R794). -/
def State.setHgatp (s : State) (w : Word) : State :=
  let v := s.hgatpWord w
  let t := if v = s.h.gatp then s else s.note (.gatp s.sxlen s.h.gatp)
  { t with h := { t.h with gatp := v } }

/-! ### Counters -/

/-- `mhpmcounter k` or `mhpmevent k` (`11_state_machine_csrs.md` R142). A counter that is implemented holds all of its 64 bits,
where R142 says "up to 64", and a selector every value (DESIGN CHOICE, entry 23). -/
def hpmGet (c : Config) (v : Vector Word 29) (k : Nat) : Word :=
  if c.hpmImpl.getLsbD k then (v[k - 3]?).getD 0 else 0

def hpmSet (c : Config) (v : Vector Word 29) (k : Nat) (w : Word) : Vector Word 29 :=
  if c.hpmImpl.getLsbD k then v.setIfInBounds (k - 3) w else v

/-- The `time` counter as the current mode reads it (`13_state_hypervisor_csrs.md` R334). -/
def State.timeNow (s : State) : Word := if s.v then s.timer.mtime + s.h.timedelta else s.timer.mtime

/-- A 32-bit register as a CSR value. -/
def word32 (b : BitVec 32) : Word := b.setWidth 64

/-- The low 32 bits written. -/
def low32 (w : Word) : BitVec 32 := w.setWidth 32

/-- The bits of `mcounteren` that are writable; TM is read-only zero without `time` (`11_state_machine_csrs.md` R147, R150). -/
def State.counterenMask (s : State) (m : BitVec 32) : BitVec 32 := if s.cfg.hasTime then m else m &&& ~~~(2 : BitVec 32)

/-! ### PMP registers (`20_memory.md` R430-R440) -/

/-- `pmpNcfg` as it reads: zero beyond the implemented entries. -/
def State.pmpCfgRead (s : State) (i : Nat) : Byte := if i < s.cfg.pmpN then s.pmp.cfgAt i else 0

/-- `n` bytes of `pmpcfg` from entry `i`. -/
def State.pmpCfgWord (s : State) (i n : Nat) : Word :=
  BitVec.ofNat 64 (leNat ((List.range n).map fun j => s.pmpCfgRead (i + j)))

/-- `pmpaddrN` as it reads (`20_memory.md` R436). -/
def State.pmpAddrWord (s : State) (i : Nat) : Word :=
  if i < s.cfg.pmpN then BitVec.ofNat 64 (s.pmp.addrRead s.cfg.pmpG i) else 0

/-- A configuration byte that may be stored (`PMPCFG_LEGAL`, `92_eei_decisions.md` D21; entry 41). -/
def pmpCfgLegal (c : Config) (b : Byte) : Bool :=
  (pmpR b || !pmpW b) && !(decide (pmpA b = 2) && decide (1 ≤ c.pmpG)) && !c.pmpCfgUnsupported.contains b

/-- One configuration byte after a write: a locked one is unchanged; in place of an illegal one the old byte stays, or the
implementation picks a legal one. -/
def State.pmpCfgByte (s : State) (old new : Byte) : Byte :=
  let b := new &&& 0x9F
  let p := Config.pmpCfgPick old b &&& 0x9F
  if pmpL old then old
  else if pmpCfgLegal s.cfg b then b
  else if s.cfg.pmpCfgKeeps || !pmpCfgLegal s.cfg p then old
  else p

/-- Write n configuration bytes from entry `i`. -/
def State.pmpCfgSet (s : State) (i n : Nat) (w : Word) : Vector Byte 64 :=
  (List.range n).foldl
    (fun v j =>
      if i + j < s.cfg.pmpN then
        v.setIfInBounds (i + j) (s.pmpCfgByte (s.pmp.cfgAt (i + j)) (BitVec.ofNat 8 (fieldOf w (8 * j) 8)))
      else v)
    s.pmp.cfg

/-- `pmpaddrN` is locked: its entry is, or the next one is and matches top-of-range (`20_memory.md` R440). -/
def State.pmpAddrLocked (s : State) (i : Nat) : Bool :=
  pmpL (s.pmp.cfgAt i) ||
  (decide (i + 1 < s.cfg.pmpN) && pmpL (s.pmp.cfgAt (i + 1)) && decide (pmpA (s.pmp.cfgAt (i + 1)) = 1))

/-- The address bits that exist (`20_memory.md` R432). -/
def State.pmpAddrMask (s : State) : Word :=
  maskX s.mxlen (BitVec.ofNat 64 (2 ^ (min 54 (s.cfg.palen - 2)) - 1))

/-- Write `pmpaddrN`. -/
def State.setPmpAddr (s : State) (i : Nat) (w : Word) : State :=
  if s.cfg.pmpN ≤ i ∨ s.pmpAddrLocked i then s
  else s.setPmp { s.pmp with addr := s.pmp.addr.setIfInBounds i (w &&& s.pmpAddrMask) }

/-! ### `misa` (`11_state_machine_csrs.md` R80-R87) -/

/-- `misa` as it reads: E is the complement of I (`11_state_machine_csrs.md` R84). -/
def State.misaWord (s : State) : Word :=
  if s.cfg.misaZero then 0
  else
    s.misa.ext.setWidth 64 ||| bitAt letterE (!s.hasI) |||
    match s.misa.mxl with
    | .x32 => fieldAt 30 1
    | .x64 => fieldAt 62 2

/-- The Extensions field after a write of `e` with the new MXL: unwritable letters keep their value, then the dependencies of
`11_state_machine_csrs.md` R85. I may be cleared where both bases are supported and MXLEN is 32 (R84); MXLEN 64 has the one base
(entry 19). Where the hypervisor extension is not writable it is there at the widths that have page-based address translation
(`00_scope.md` R3), and so comes back with what it needs; any other unwritable letter that was cleared with the letter it needs
stays clear until reset, which R85 leaves open (DESIGN CHOICE, entry 19). -/
def State.extWritten (s : State) (mxl : Xlen) (e : BitVec 26) : BitVec 26 :=
  let base := BitVec.ofNat 26 (2 ^ letterI)
  let hyp := BitVec.ofNat 26 (2 ^ letterH)
  let m := s.cfg.extWritable &&& s.cfg.letters
  let k := if s.cfg.hasBothBases && decide (mxl = .x32) then m else m &&& ~~~base
  let n := (s.misa.ext &&& ~~~k) ||| (e &&& k) ||| (s.cfg.letters &&& ~~~m &&& hyp)
  s.cfg.closeAt mxl (if s.cfg.hasBothBases && decide (mxl = .x64) then n ||| base else n)

/-- A letter goes from disabled to enabled. -/
def turnedOn (old new : BitVec 26) (k : Nat) : Bool := !old.getLsbD k && new.getLsbD k

end Sys2Proof.Machine
end

