-- ==== Sys2Proof/Machine/Fences.lean ====
section
/-!
DEFINITION. What the memory-management fences do to the address-translation cache (`42_supervisor_instructions.md` R742-R750,
`43_hypervisor_instructions.md` R790-R796), and FENCE and FENCE.I (`20_memory.md` R474, R477, R478).
-/

namespace Sys2Proof.Machine

/-! ### Fencing and invalidating -/

/-- A SINVAL or HINVAL that a later fence completes. -/
def Hist.complete : Hist → Hist
  | .inval p _ => .inval p true
  | h => h

/-- Complete earlier SINVAL and HINVAL instructions: the records they invalidate are gone (`42_supervisor_instructions.md` R748,
R750). -/
def State.complete (s : State) : State :=
  { s with xlat := { tlb := s.xlat.tlb.filter fun r => !r.doomed, hist := s.xlat.hist.map Hist.complete } }

/-- Remove the records in scope and order earlier stores and settings before later implicit reads; complete earlier SINVAL and
HINVAL instructions (`42_supervisor_instructions.md` R745, R748). -/
def State.fence (s : State) (p : Scope) : State :=
  let t := s.complete
  ({ t with xlat := { t.xlat with tlb := t.xlat.tlb.filter fun r => !p.covers r } } : State).note (.fence p)

/-- Schedule the removal of the records in scope: complete at the next SFENCE.INVAL.IR or fence
(`42_supervisor_instructions.md` R748; entry 12). -/
def State.doom (s : State) (p : Scope) : State :=
  ({ s with
    xlat := { s.xlat with
      tlb := s.xlat.tlb.map fun r => if p.covers r then { r with doomed := true } else r } } : State).note (.inval p false)

/-- Stores so far are ordered before later invalidations (`42_supervisor_instructions.md` R749). -/
def State.orderStores (s : State) : State := s.note .order

/-! ### Operands and scopes -/

/-- The address operand of a fence is a valid virtual address of the scheme; every one is with Bare
(`42_supervisor_instructions.md` R743). -/
def validVa (x : Xlen) (atp : Word) (a : Option Word) : Bool :=
  match a, schemeOf x 0 (atpMode x atp) with
  | some w, some c => c.canonical w
  | _, _ => true

/-- The guest physical address operand is one of the scheme (`43_hypervisor_instructions.md` R794). -/
def validGpa (x : Xlen) (gatp : Word) (a : Option Nat) : Bool :=
  match a, schemeOf x 2 (atpMode x gatp) with
  | some g, some c => decide (g < 2 ^ c.addrBits)
  | _, _ => true

/-- The guest physical address operand: the register's value shifted left by 2 bits (`43_hypervisor_instructions.md` R794). -/
def State.fenceGpa (s : State) (rs1 : Nat) : Option Nat := (s.fenceAddr rs1).map fun w => w.toNat * 4

/-- What a fence of HS-level translation covers; none: the address is not valid, and it has no effect
(`42_supervisor_instructions.md` R742, R743, R747). -/
def State.hsScope (s : State) (rs1 rs2 : Nat) : Option Scope :=
  if validVa s.sxlen s.sc.atp (s.fenceAddr rs1) then
    some (.hs ((s.fenceAddr rs1).map BitVec.toNat) (s.fenceAsid s.sxlen rs2))
  else none

/-- What a fence of the VS-stage of the current virtual machine covers (`43_hypervisor_instructions.md` R790). -/
def State.vsScope (s : State) (rs1 rs2 : Nat) : Option Scope :=
  if validVa s.vsxlen s.vs.atp (s.fenceAddr rs1) then
    some (.vs s.vmid ((s.fenceAddr rs1).map BitVec.toNat) (s.fenceAsid s.vsxlen rs2))
  else none

/-- What a fence of the G-stage covers (`43_hypervisor_instructions.md` R792, R794). -/
def State.gScope (s : State) (rs1 rs2 : Nat) : Option Scope :=
  if validGpa s.sxlen s.h.gatp (s.fenceGpa rs1) then some (.g (s.fenceGpa rs1) (s.fenceVmid rs2)) else none

/-- What SFENCE.VMA and SINVAL.VMA cover (`42_supervisor_instructions.md` R747). -/
def State.sfenceScope (s : State) (rs1 rs2 : Nat) : Option Scope := if s.v then s.vsScope rs1 rs2 else s.hsScope rs1 rs2

/-- The effect of an SFENCE.VMA: it also orders stores before later invalidations (`42_supervisor_instructions.md` R742,
R748). -/
def State.sfence (s : State) (p : Option Scope) : State :=
  match p with
  | some p => s.orderStores.fence p
  | none => s

/-- The effect of an HFENCE (`43_hypervisor_instructions.md` R790, R794). -/
def State.hfence (s : State) (p : Option Scope) : State :=
  match p with
  | some p => s.fence p
  | none => s

/-- The effect of a SINVAL or HINVAL. -/
def State.sinval (s : State) (p : Option Scope) : State :=
  match p with
  | some p => s.doom p
  | none => s

/-! ### FENCE and FENCE.I -/

/-- The FIOM bit in effect for a FENCE of the current mode (`20_memory.md` R478). -/
def State.effectiveFiom (s : State) : Bool :=
  match s.priv, s.v with
  | .m, _ => false
  | .s, false => s.m.fiom
  | .u, false => s.m.fiom || s.sc.fiom
  | .s, true => s.m.fiom || s.h.fiom
  | .u, true => s.m.fiom || s.h.fiom || s.sc.fiom

/-- The predecessor and successor sets of a FENCE word, I, O, R, W from the top, as FIOM modifies them (`20_memory.md`
R477, R478). With one hart in program order they order nothing that can be seen (entry 35). -/
def State.fenceSets (s : State) (w : IWord) : BitVec 8 :=
  let b : BitVec 8 := w.extractLsb' 20 8
  if s.effectiveFiom then b ||| ((b &&& 0xCC) >>> 2) else b

/-- FENCE.I: later fetches see earlier stores (`20_memory.md` R474; `92_eei_decisions.md` D24). -/
def State.fenceI (s : State) : State := { s with codeOld := [] }

end Sys2Proof.Machine
end

