-- ==== Sys2Proof/Syntax.lean ====
section
/-!
DEFINITION. The instructions: one constructor for each of the 32 rows of `opcode_table.json` (`30_encoding.md` R622,
R624, R625). Operands are the numbers in the encoding's fields; `WellFormed` bounds them.
-/

namespace Sys2Proof

/-- The instructions of the privileged architecture. Register operands are register numbers, `csr` is the 12-bit CSR
number, `uimm` the 5-bit immediate. -/
inductive Instr where
  | ecall
  | ebreak
  | sret
  | mret
  | wfi
  | sfenceVma (rs1 rs2 : Nat)
  | sinvalVma (rs1 rs2 : Nat)
  | sfenceWInval
  | sfenceInvalIr
  | hfenceVvma (rs1 rs2 : Nat)
  | hfenceGvma (rs1 rs2 : Nat)
  | hinvalVvma (rs1 rs2 : Nat)
  | hinvalGvma (rs1 rs2 : Nat)
  | hlvB (rd rs1 : Nat)
  | hlvBu (rd rs1 : Nat)
  | hlvH (rd rs1 : Nat)
  | hlvHu (rd rs1 : Nat)
  | hlvW (rd rs1 : Nat)
  | hlvWu (rd rs1 : Nat)
  | hlvD (rd rs1 : Nat)
  | hlvxHu (rd rs1 : Nat)
  | hlvxWu (rd rs1 : Nat)
  | hsvB (rs2 rs1 : Nat)
  | hsvH (rs2 rs1 : Nat)
  | hsvW (rs2 rs1 : Nat)
  | hsvD (rs2 rs1 : Nat)
  | csrrw (rd csr rs1 : Nat)
  | csrrs (rd csr rs1 : Nat)
  | csrrc (rd csr rs1 : Nat)
  | csrrwi (rd csr uimm : Nat)
  | csrrsi (rd csr uimm : Nat)
  | csrrci (rd csr uimm : Nat)
  deriving DecidableEq, Repr

end Sys2Proof
end

