-- ==== Sys2Proof/WellFormed.lean ====
section
/-!
DEFINITION. Well-formed instructions: every operand fits the field that encodes it (`30_encoding.md` R621, R625):
register numbers and immediates five bits, CSR numbers twelve.
-/

namespace Sys2Proof

/-- A register number or a five-bit immediate fits its field. -/
def fits5 (n : Nat) : Bool := decide (n < 32)

/-- A CSR number fits its field. -/
def fits12 (n : Nat) : Bool := decide (n < 4096)

/-- Every operand of the instruction fits its encoding field. -/
def Instr.wellFormed : Instr → Bool
  | .ecall => true
  | .ebreak => true
  | .sret => true
  | .mret => true
  | .wfi => true
  | .sfenceVma rs1 rs2 => fits5 rs1 && fits5 rs2
  | .sinvalVma rs1 rs2 => fits5 rs1 && fits5 rs2
  | .sfenceWInval => true
  | .sfenceInvalIr => true
  | .hfenceVvma rs1 rs2 => fits5 rs1 && fits5 rs2
  | .hfenceGvma rs1 rs2 => fits5 rs1 && fits5 rs2
  | .hinvalVvma rs1 rs2 => fits5 rs1 && fits5 rs2
  | .hinvalGvma rs1 rs2 => fits5 rs1 && fits5 rs2
  | .hlvB rd rs1 => fits5 rd && fits5 rs1
  | .hlvBu rd rs1 => fits5 rd && fits5 rs1
  | .hlvH rd rs1 => fits5 rd && fits5 rs1
  | .hlvHu rd rs1 => fits5 rd && fits5 rs1
  | .hlvW rd rs1 => fits5 rd && fits5 rs1
  | .hlvWu rd rs1 => fits5 rd && fits5 rs1
  | .hlvD rd rs1 => fits5 rd && fits5 rs1
  | .hlvxHu rd rs1 => fits5 rd && fits5 rs1
  | .hlvxWu rd rs1 => fits5 rd && fits5 rs1
  | .hsvB rs2 rs1 => fits5 rs2 && fits5 rs1
  | .hsvH rs2 rs1 => fits5 rs2 && fits5 rs1
  | .hsvW rs2 rs1 => fits5 rs2 && fits5 rs1
  | .hsvD rs2 rs1 => fits5 rs2 && fits5 rs1
  | .csrrw rd csr rs1 => fits5 rd && fits12 csr && fits5 rs1
  | .csrrs rd csr rs1 => fits5 rd && fits12 csr && fits5 rs1
  | .csrrc rd csr rs1 => fits5 rd && fits12 csr && fits5 rs1
  | .csrrwi rd csr uimm => fits5 rd && fits12 csr && fits5 uimm
  | .csrrsi rd csr uimm => fits5 rd && fits12 csr && fits5 uimm
  | .csrrci rd csr uimm => fits5 rd && fits12 csr && fits5 uimm

end Sys2Proof
end

