-- ==== Sys2Proof/Decode.lean ====
section
/-!
DEFINITION. The decoder (`30_encoding.md` R620-R629) and, after it, the encoder written from the same table.
Decoding is total on any list of bytes and rejects by name.
-/

namespace Sys2Proof

/-- Why a word is not one of the table's instructions. -/
inductive DecodeReject where
  /-- Fewer than four bytes. -/
  | short
  /-- Bits 1:0 are not `11`: not a 32-bit instruction word. -/
  | notWord
  /-- A 32-bit word of another major opcode: Volume I's (`00_scope.md` R5). -/
  | otherOpcode
  /-- A PRIV-group word of a `funct6` designated for custom use (`30_encoding.md` R628). -/
  | custom
  /-- Any other SYSTEM word that no row of the table matches (`30_encoding.md` R629). -/
  | reserved
  deriving DecidableEq, Repr

/-! ### Fields (`30_encoding.md` R621) -/

def fieldOpcode (w : Nat) : Nat := w % 128
def fieldRd (w : Nat) : Nat := w / 2 ^ 7 % 32
def fieldFunct3 (w : Nat) : Nat := w / 2 ^ 12 % 8
def fieldRs1 (w : Nat) : Nat := w / 2 ^ 15 % 32
def fieldRs2 (w : Nat) : Nat := w / 2 ^ 20 % 32
def fieldFunct7 (w : Nat) : Nat := w / 2 ^ 25 % 128
def fieldCsr (w : Nat) : Nat := w / 2 ^ 20 % 4096

/-- The opcode SYSTEM, `1110011` (`30_encoding.md` R620). -/
def opSystem : Nat := 0x73

/-- The eight custom values of bits 31:26 (`30_encoding.md` R628). -/
def customFunct6 : List Nat :=
  [0b100011, 0b110011, 0b100111, 0b110111, 0b101011, 0b111011, 0b101111, 0b111111]

/-- `funct3` = 000, the PRIV group (`30_encoding.md` R626). -/
def decodePriv (f7 rs2 rs1 rd : Nat) : Except DecodeReject Instr :=
  if customFunct6.contains (f7 / 2) then .error .custom
  else if rd ≠ 0 then .error .reserved
  else if f7 = 0b0001001 then .ok (.sfenceVma rs1 rs2)
  else if f7 = 0b0001011 then .ok (.sinvalVma rs1 rs2)
  else if f7 = 0b0010001 then .ok (.hfenceVvma rs1 rs2)
  else if f7 = 0b0010011 then .ok (.hinvalVvma rs1 rs2)
  else if f7 = 0b0110001 then .ok (.hfenceGvma rs1 rs2)
  else if f7 = 0b0110011 then .ok (.hinvalGvma rs1 rs2)
  else if rs1 ≠ 0 then .error .reserved
  else if f7 = 0b0000000 then
    if rs2 = 0 then .ok .ecall else if rs2 = 1 then .ok .ebreak else .error .reserved
  else if f7 = 0b0001000 then
    if rs2 = 0b00010 then .ok .sret else if rs2 = 0b00101 then .ok .wfi else .error .reserved
  else if f7 = 0b0011000 then
    if rs2 = 0b00010 then .ok .mret else .error .reserved
  else if f7 = 0b0001100 then
    if rs2 = 0 then .ok .sfenceWInval else if rs2 = 1 then .ok .sfenceInvalIr else .error .reserved
  else .error .reserved

/-- `funct3` = 100, the virtual-machine loads and stores (`30_encoding.md` R622, R623). -/
def decodeHls (f7 rs2 rs1 rd : Nat) : Except DecodeReject Instr :=
  if f7 = 0b0110000 then
    if rs2 = 0 then .ok (.hlvB rd rs1) else if rs2 = 1 then .ok (.hlvBu rd rs1) else .error .reserved
  else if f7 = 0b0110010 then
    if rs2 = 0 then .ok (.hlvH rd rs1) else if rs2 = 1 then .ok (.hlvHu rd rs1)
    else if rs2 = 3 then .ok (.hlvxHu rd rs1) else .error .reserved
  else if f7 = 0b0110100 then
    if rs2 = 0 then .ok (.hlvW rd rs1) else if rs2 = 1 then .ok (.hlvWu rd rs1)
    else if rs2 = 3 then .ok (.hlvxWu rd rs1) else .error .reserved
  else if f7 = 0b0110110 then
    if rs2 = 0 then .ok (.hlvD rd rs1) else .error .reserved
  else if rd ≠ 0 then .error .reserved
  else if f7 = 0b0110001 then .ok (.hsvB rs2 rs1)
  else if f7 = 0b0110011 then .ok (.hsvH rs2 rs1)
  else if f7 = 0b0110101 then .ok (.hsvW rs2 rs1)
  else if f7 = 0b0110111 then .ok (.hsvD rs2 rs1)
  else .error .reserved

/-- Decoding of one word, by `funct3` (`30_encoding.md` R626). -/
def decodeNat (w : Nat) : Except DecodeReject Instr :=
  if w % 4 ≠ 3 then .error .notWord
  else if fieldOpcode w ≠ opSystem then .error .otherOpcode
  else
    let rd := fieldRd w
    let rs1 := fieldRs1 w
    let csr := fieldCsr w
    match fieldFunct3 w with
    | 0 => decodePriv (fieldFunct7 w) (fieldRs2 w) rs1 rd
    | 1 => .ok (.csrrw rd csr rs1)
    | 2 => .ok (.csrrs rd csr rs1)
    | 3 => .ok (.csrrc rd csr rs1)
    | 4 => decodeHls (fieldFunct7 w) (fieldRs2 w) rs1 rd
    | 5 => .ok (.csrrwi rd csr rs1)
    | 6 => .ok (.csrrsi rd csr rs1)
    | 7 => .ok (.csrrci rd csr rs1)
    | _ => .error .reserved

/-- Decoding of an instruction word. -/
def decodeWord (w : IWord) : Except DecodeReject Instr := decodeNat w.toNat

/-- The word whose bytes, lowest address first, are given: instruction words are little-endian
(`20_memory.md` R407). -/
def wordOfBytes (b0 b1 b2 b3 : Byte) : IWord := b3 ++ b2 ++ b1 ++ b0

/-- The bytes of a word, lowest address first (`20_memory.md` R407). -/
def bytesOfWord (w : IWord) : List Byte :=
  [w.extractLsb' 0 8, w.extractLsb' 8 8, w.extractLsb' 16 8, w.extractLsb' 24 8]

/-- The decoder on a list of bytes: the instruction and the rest of the list. -/
def decodeBytes : List Byte → Except DecodeReject (Instr × List Byte)
  | b0 :: b1 :: b2 :: b3 :: rest =>
    match decodeWord (wordOfBytes b0 b1 b2 b3) with
    | .ok i => .ok (i, rest)
    | .error e => .error e
  | _ => .error .short

/-- The instruction the decoder reads from an instruction whose bits are `w`, bit 0 the least significant bit of the
first byte; bits at `nbits` and above are zero. -/
def decodeTableWord (nbits w : Nat) : Option Instr :=
  match decodeBytes (bytesOfWord (BitVec.ofNat 32 (w % 2 ^ nbits))) with
  | .ok (i, _) => some i
  | .error _ => none

/-! ### The encoder (`30_encoding.md` R622, R624, R625) -/

/-- An R-type word. -/
def encR (f7 rs2 rs1 f3 rd : Nat) : Nat :=
  f7 * 2 ^ 25 + rs2 * 2 ^ 20 + rs1 * 2 ^ 15 + f3 * 2 ^ 12 + rd * 2 ^ 7 + opSystem

/-- An I-type word with the CSR number in bits 31:20. -/
def encI (csr rs1 f3 rd : Nat) : Nat :=
  csr * 2 ^ 20 + rs1 * 2 ^ 15 + f3 * 2 ^ 12 + rd * 2 ^ 7 + opSystem

/-- The word of an instruction, as a number. -/
def encodeNat : Instr → Nat
  | .ecall => encR 0b0000000 0 0 0 0
  | .ebreak => encR 0b0000000 1 0 0 0
  | .sret => encR 0b0001000 0b00010 0 0 0
  | .mret => encR 0b0011000 0b00010 0 0 0
  | .wfi => encR 0b0001000 0b00101 0 0 0
  | .sfenceVma rs1 rs2 => encR 0b0001001 rs2 rs1 0 0
  | .sinvalVma rs1 rs2 => encR 0b0001011 rs2 rs1 0 0
  | .sfenceWInval => encR 0b0001100 0 0 0 0
  | .sfenceInvalIr => encR 0b0001100 1 0 0 0
  | .hfenceVvma rs1 rs2 => encR 0b0010001 rs2 rs1 0 0
  | .hfenceGvma rs1 rs2 => encR 0b0110001 rs2 rs1 0 0
  | .hinvalVvma rs1 rs2 => encR 0b0010011 rs2 rs1 0 0
  | .hinvalGvma rs1 rs2 => encR 0b0110011 rs2 rs1 0 0
  | .hlvB rd rs1 => encR 0b0110000 0 rs1 4 rd
  | .hlvBu rd rs1 => encR 0b0110000 1 rs1 4 rd
  | .hlvH rd rs1 => encR 0b0110010 0 rs1 4 rd
  | .hlvHu rd rs1 => encR 0b0110010 1 rs1 4 rd
  | .hlvW rd rs1 => encR 0b0110100 0 rs1 4 rd
  | .hlvWu rd rs1 => encR 0b0110100 1 rs1 4 rd
  | .hlvD rd rs1 => encR 0b0110110 0 rs1 4 rd
  | .hlvxHu rd rs1 => encR 0b0110010 3 rs1 4 rd
  | .hlvxWu rd rs1 => encR 0b0110100 3 rs1 4 rd
  | .hsvB rs2 rs1 => encR 0b0110001 rs2 rs1 4 0
  | .hsvH rs2 rs1 => encR 0b0110011 rs2 rs1 4 0
  | .hsvW rs2 rs1 => encR 0b0110101 rs2 rs1 4 0
  | .hsvD rs2 rs1 => encR 0b0110111 rs2 rs1 4 0
  | .csrrw rd csr rs1 => encI csr rs1 1 rd
  | .csrrs rd csr rs1 => encI csr rs1 2 rd
  | .csrrc rd csr rs1 => encI csr rs1 3 rd
  | .csrrwi rd csr uimm => encI csr uimm 5 rd
  | .csrrsi rd csr uimm => encI csr uimm 6 rd
  | .csrrci rd csr uimm => encI csr uimm 7 rd

/-- The word of an instruction. -/
def encode (i : Instr) : IWord := BitVec.ofNat 32 (encodeNat i)

end Sys2Proof
end

