-- ==== Sys2Proof/Machine/Wait.lean ====
section
/-!
DEFINITION. WFI (`41_machine_instructions.md` R712-R716).
-/

namespace Sys2Proof.Machine

/-- The exception code a WFI raises when it does not complete in time; none: it always completes
(`41_machine_instructions.md` R712). -/
def State.wfiGuard (s : State) : Option Nat :=
  match s.priv, s.v with
  | .m, _ => none
  | .s, false => if s.mst.tw then some 2 else none
  | .u, false => if s.mst.tw || s.hasS then some 2 else none
  | .s, true => if s.mst.tw then some 2 else if s.hst.vtw then some 22 else none
  | .u, true => if s.mst.tw then some 2 else some 22

/-- The exception of a WFI that did not complete in time. -/
def wfiExc (code : Nat) : Exc := { illegalExc (encode .wfi) with cause := code }

/-- How many steps a WFI stalls at most: the schedule's hint, under a guard at most `WFI_TIMEOUT`
(`41_machine_instructions.md` R712, R713; entry 8). -/
def State.stallLength (s : State) : Nat :=
  match s.wfiGuard with
  | none => s.stallHint
  | some _ => min s.stallHint s.cfg.wfiTimeout

/-- The end of a stall: the exception of the guard, or retirement (`41_machine_instructions.md` R712). -/
def State.endWait (s : State) (guard : Option Nat) : State :=
  let t := { s with wait := none }
  match guard with
  | none => t.retire
  | some c => t.raise (wfiExc c)

/-- WFI. A wake condition that holds already completes it, but for a guarded one whose limit is zero
(`41_machine_instructions.md` R712, R714; `11_state_machine_csrs.md` R117). -/
def execWfi (s : State) : Out :=
  let t := { s with stallHint := 0 }
  if s.wakes && (decide (s.wfiGuard = none) || decide (0 < s.cfg.wfiTimeout)) then .next t.retire
  else if s.stallLength = 0 then .next (t.endWait s.wfiGuard)
  else .next { t with wait := some { left := s.stallLength, guard := s.wfiGuard } }

/-- One step of a stall (`41_machine_instructions.md` R712, R714). -/
def State.waiting (s : State) (w : Wait) : State :=
  if s.wakes then ({ s with wait := none } : State).retire
  else
    match w.left with
    | 0 => s.endWait w.guard
    | n + 1 => { s with wait := some { w with left := n } }

end Sys2Proof.Machine
end

