-- ==== Sys2Proof/Machine/Agents.lean ====
section
/-!
DEFINITION. What the agents beside the hart's instruction stream do (`00_scope.md` R6; entry 4): time, counters, interrupt
inputs, other masters, reset and NMI, speculation.
-/

namespace Sys2Proof.Machine

/-- A number added to a counter, modulo 2^64. -/
def advance (w : Word) (n : Nat) : Word := w + BitVec.ofNat 64 n

/-- Cycles pass: `mcycle` counts them unless inhibited (`11_state_machine_csrs.md` R140, R152). -/
def State.countCycles (s : State) (n : Nat) : State :=
  if s.cnt.inhibit.getLsbD 0 then s else { s with cnt := { s.cnt with cycle := advance s.cnt.cycle n } }

/-- Events are counted by `mhpmcounter k` unless inhibited or its selector is 0, "no event" (`11_state_machine_csrs.md` R142,
R152). -/
def State.countEvents (s : State) (k n : Nat) : State :=
  if k < 3 || s.cnt.inhibit.getLsbD k || !s.cfg.hpmImpl.getLsbD k || decide ((s.cnt.hpmevent[k - 3]?).getD 0 = 0) then s
  else
    { s with
      cnt := { s.cnt with
        hpmcounter := s.cnt.hpmcounter.setIfInBounds (k - 3) (advance ((s.cnt.hpmcounter[k - 3]?).getD 0) n) } }

/-- Another agent stores a byte to main memory (`20_memory.md` R402). A store to an I/O address is dropped: that no other agent
writes `mtimecmp` or `mtime` is the model's choice (DESIGN CHOICE, entry 4: `60_exceptions.md` R891-R896 do not say). -/
def State.foreignStore (s : State) (a : Nat) (b : Byte) : State :=
  if (s.region a 1).isSome && !s.isIo a 1 then s.storeMem a [b] else s

/-- A non-maskable interrupt, between two instructions: a WFI that is stalled has completed unless an exception guards it
(`60_exceptions.md` R871, R898). -/
def State.nmi (s : State) : State :=
  match s.wait with
  | none => s.takeNmi
  | some w =>
    match w.guard with
    | none => (({ s with wait := none } : State).retire).takeNmi
    | some _ => s.takeNmi

/-- No PMP settings but those in force remain to be used: reset leaves no entry locked but by the platform's mandate
(`70_reset_and_hazards.md` R980, R981; `20_memory.md` R440; entry 10). -/
def State.dropPmps (s : State) : State :=
  { s with xlat := { s.xlat with hist := s.xlat.hist.filter fun h => match h with | .pmp _ => false | _ => true } }

/-- What governs address translation is left, as by writes of its registers: reset is no fence of translations
(`70_reset_and_hazards.md` R987). The earlier PMP settings end. -/
def State.leaveAll (s : State) : State :=
  let r := resetWith s.cfg
  let b := s.note (.gatp s.sxlen s.h.gatp)
  let c := if r.mst.sbe = s.mst.sbe then b else b.note .sbe
  let d := if r.hst.vsbe = s.hst.vsbe then c else c.note .vsbe
  let e := if r.m.pbmte = s.m.pbmte then d else d.note .pbmte
  (e.putHPbmte r.h.pbmte).dropPmps

/-- The reset input: the state of the hart is that of `resetWith`; memory, the memory-mapped registers, the input signals and
the caches stay, and MTIP and MSIP are what their sources say (`70_reset_and_hazards.md` R980, R985-R987; entry 31). -/
def State.resetInput (s : State) : State :=
  let r := resetWith s.cfg
  let o := s.leaveAll
  { r with
    mem := s.mem
    timer := s.timer
    wires := s.wires
    xlat := o.xlat
    codeOld := s.codeOld
    inputs := s.inputs
    draws := s.draws
    pend := { r.pend with mtip := s.timerFires, msip := s.timer.msip } }

/-- Volume I's load-reserved sets the reservation, within the limits of this volume; anything may break it
(`10_state.md` R52; `20_memory.md` R424). -/
def State.reserveAt (s : State) (r : Option (Nat × Nat)) : State :=
  match r with
  | none => { s with resv := none }
  | some (a, n) => if s.hasA && s.reservable a n then { s with resv := some (a, n) } else s

/-- What an event of another agent does. -/
def State.event (s : State) (e : Event) : State :=
  match e with
  | .hart => s
  | .wires w => { s with wires := w }
  | .tick n => { s with timer := { s.timer with mtime := advance s.timer.mtime n } }
  | .cycles n => s.countCycles n
  | .hpm k n => s.countEvents k n
  | .store a b => s.foreignStore a b
  | .msip b => { s with timer := { s.timer with msip := b } }
  | .setSsip => if s.sImpl.getLsbD 1 then { s with pend := { s.pend with ssip := true } } else s
  | .holdMtip n => { s with mtipHold := n }
  | .holdMsip n => { s with msipHold := n }
  | .stall n => { s with stallHint := n }
  | .nmi => s.nmi
  | .reset => s.resetInput
  | .dirtyFs => if s.fsOff then s else s.dirtyFs
  | .dirtyVs => if s.vsOff then s else s.dirtyVs
  | .reserve r => s.reserveAt r
  | .walk k fetch va => s.specWalk k fetch va
  | .finish => s.complete

end Sys2Proof.Machine
end

