-- ==== Sys2Proof/Machine/CsrAccess.lean ====
section
/-!
DEFINITION. The value a CSR read returns, the value a read-modify-write starts from, the write of each CSR, and the frame of
the six CSR instructions (`40_csr_access.md` R660, R672-R678).
-/

namespace Sys2Proof.Machine

/-- `csrRead` (`40_csr_access.md` R672). -/
def State.csrRead (s : State) : Csr → Word
  | .fflags => (s.fcsr &&& 0x1F).setWidth 64
  | .frm => (s.fcsr >>> 5).setWidth 64
  | .fcsr => s.fcsr.setWidth 64
  | .cycle => s.cnt.cycle
  | .time => s.timeNow
  | .instret => s.cnt.instret
  | .hpmcounter k => hpmGet s.cfg s.cnt.hpmcounter k
  | .cycleh => hiHalf s.cnt.cycle
  | .timeh => hiHalf s.timeNow
  | .instreth => hiHalf s.cnt.instret
  | .hpmcounterh k => hiHalf (hpmGet s.cfg s.cnt.hpmcounter k)
  | .sstatus => s.sstatus
  | .sie => s.sie
  | .stvec => s.sc.tvec
  | .scounteren => word32 s.cnt.scounteren
  | .senvcfg => bitAt 0 s.sc.fiom
  | .sscratch => s.sc.scratch
  | .sepc => maskX s.sxlen (s.epcRead s.sc.epc)
  | .scause => s.sc.cause
  | .stval => s.sc.tval
  | .sip => s.sip
  | .satp => s.sc.atp
  | .hstatus => s.hstatus
  | .hedeleg => s.hedeleg
  | .hideleg => s.hideleg
  | .hie => s.hie
  | .htimedelta => maskX s.sxlen s.h.timedelta
  | .hcounteren => word32 s.cnt.hcounteren
  | .hgeie => s.hgeie
  | .henvcfg => bitAt 0 s.h.fiom ||| (match s.sxlen with | .x32 => 0 | .x64 => bitAt 62 s.h.pbmte)
  | .htimedeltah => hiHalf s.h.timedelta
  | .henvcfgh => bitAt 30 s.h.pbmte
  | .htval => s.h.tval
  | .hip => s.hip
  | .hvip => bitAt 10 s.pend.vseip ||| bitAt 6 s.pend.vstip ||| bitAt 2 s.pend.vssip
  | .htinst => s.h.tinst
  | .hgatp => s.h.gatp
  | .hgeip => s.hgeip
  | .vsstatus => s.vsstatus
  | .vsie => s.vsie
  | .vstvec => s.vs.tvec
  | .vsscratch => s.vs.scratch
  | .vsepc => maskX s.vsxlen (s.epcRead s.vs.epc)
  | .vscause => s.vs.cause
  | .vstval => s.vs.tval
  | .vsip => s.vsip
  | .vsatp => s.vs.atp
  | .mvendorid => word32 s.cfg.mvendorid
  | .marchid => maskX s.mxlen s.cfg.marchid
  | .mimpid => maskX s.mxlen s.cfg.mimpid
  | .mhartid => maskX s.mxlen s.cfg.mhartid
  | .mconfigptr => maskX s.mxlen s.cfg.mconfigptr &&& (match s.mxlen with | .x32 => ~~~(3 : Word) | .x64 => ~~~(7 : Word))
  | .mstatus => s.mstatus
  | .misa => s.misaWord
  | .medeleg => s.medeleg
  | .mideleg => s.mideleg
  | .mie => s.mie
  | .mtvec => s.m.tvec
  | .mcounteren => word32 s.cnt.mcounteren
  | .mstatush => s.mstatush
  | .mscratch => s.m.scratch
  | .mepc => maskX s.mxlen (s.epcRead s.m.epc)
  | .mcause => s.m.cause
  | .mtval => s.m.tval
  | .mip => s.mip
  | .mtinst => s.m.tinst
  | .mtval2 => s.m.tval2
  | .menvcfg => bitAt 0 s.m.fiom ||| (match s.mxlen with | .x32 => 0 | .x64 => bitAt 62 s.m.pbmte)
  | .menvcfgh => bitAt 30 s.m.pbmte
  | .pmpcfg k => s.pmpCfgWord (4 * k) (xlenBits s.mxlen / 8)
  | .pmpaddr k => s.pmpAddrWord k
  | .mcycle => s.cnt.cycle
  | .minstret => s.cnt.instret
  | .mhpmcounter k => hpmGet s.cfg s.cnt.hpmcounter k
  | .mcycleh => hiHalf s.cnt.cycle
  | .minstreth => hiHalf s.cnt.instret
  | .mhpmcounterh k => hiHalf (hpmGet s.cfg s.cnt.hpmcounter k)
  | .mcountinhibit => word32 s.cnt.inhibit
  | .mhpmevent k => hpmGet s.cfg s.cnt.hpmevent k

/-- The value a read-modify-write starts from: the stored one (`40_csr_access.md` R664, R676). Of the bits of `mip`, `sip` and
`vsip` that a signal drives it is the software-writable part, of SEIP and of the platform bits alike
(`11_state_machine_csrs.md` R134; platform bits: DESIGN CHOICE, entry 32); of `mepc`, `sepc` and `vsepc` it has the bit 1 that
IALIGN=32 masks in reads (R159), of `pmpaddr` the bits that the granularity hides (`20_memory.md` R436). -/
def State.csrStored (s : State) (c : Csr) : Word :=
  let quiet : State := { s with wires := { s.wires with seip := false, plat := 0 } }
  match c with
  | .mip => quiet.mip
  | .sip => quiet.sip
  | .vsip => quiet.vsip
  | .mepc => maskX s.mxlen s.m.epc
  | .sepc => maskX s.sxlen s.sc.epc
  | .vsepc => maskX s.vsxlen s.vs.epc
  | .pmpaddr k => if k < s.cfg.pmpN then (s.pmp.addr[k]?).getD 0 else 0
  | c => s.csrRead c

/-- Write `misa` from an instruction whose successor is at `pc`+4: suppressed where IALIGN would grow under a misaligned
successor (`11_state_machine_csrs.md` R86). The state of re-enabled extensions is drawn in `State.redraw`. -/
def State.misaTarget (s : State) (w : Word) : Misa :=
  let x := if s.cfg.mxlWritable ∧ s.cfg.mxlMax = .x64 then
      warl .mxl [Xlen.x32, Xlen.x64] xlenCode (fieldOf w (xlenBits s.mxlen - 2) 2) s.misa.mxl
    else s.misa.mxl
  let e := s.extWritten x (w.setWidth 26)
  if s.cfg.misaZero || (turnedOn e s.misa.ext letterC && decide (s.nextPc.toNat % 4 ≠ 0)) then s.misa
  else { ext := e, mxl := x }

/-- Fields of modes and extensions that `misa` has just disabled read zero (`11_state_machine_csrs.md` R87, R102-R118); that SBE
and `henvcfg.PBMTE` change in this way may be seen late, as after any change of them (`20_memory.md` R475;
`92_eei_decisions.md` D28). -/
def State.clearAbsent (s : State) : State :=
  let t := s.mst
  let u := if t.sbe && !s.hasS then s.note .sbe else s
  { u.putHPbmte (s.h.pbmte && s.hasH) with
    mst := { t with
      sie := t.sie && s.hasS, spie := t.spie && s.hasS, spp := t.spp && s.hasS, mxr := t.mxr && s.hasS
      sum := t.sum && s.hasS, tvm := t.tvm && s.hasS, tsr := t.tsr && s.hasS, sbe := t.sbe && s.hasS
      tw := t.tw && s.hasU, ube := t.ube && s.hasU, mprv := t.mprv && s.hasU
      gva := t.gva && s.hasH, mpv := t.mpv && s.hasH
      fs := statusField s.fsFixed false t.fs, vs := statusField s.vsFixed false t.vs }
    vst := { s.vst with
      fs := statusField s.fsFixed false s.vst.fs, vs := statusField s.vsFixed false s.vst.vs }
    m := { s.m with tval := if s.cfg.xtvalPolicy = 0 ∧ s.hasH = false then 0 else s.m.tval }
    resv := if s.hasA then s.resv else none }

/-- MPP when the set of modes has changed: an UNSPECIFIED legal value (`10_state.md` R43). -/
def State.redrawMpp (s : State) (old : State) : State :=
  if s.mppSet = old.mppSet then s
  else
    let d := s.pick .m s.mppSet
    { d.2 with mst := { d.2.mst with mpp := d.1 } }

/-- `fcsr` takes a value from an instruction (`11_state_machine_csrs.md` R115, R116; entry 24). -/
def State.writeFcsr (s : State) (v : BitVec 8) : State := ({ s with fcsr := v } : State).touchFs (decide (v ≠ s.fcsr))

/-- One write of a CSR other than `misa` (`40_csr_access.md` R674); none: an illegal value of a WLRL field, where the
implementation raises an illegal instruction exception. DESIGN CHOICES: `menvcfg.FIOM` and `senvcfg.FIOM` are writable on every
implementation, also where `satp.MODE` is read-only zero (`11_state_machine_csrs.md` R195, `12_state_supervisor_csrs.md` R263;
entry 43); a MODE that `vsatp` does not support, written with V=0 where `VSATP_V0_BAD_MODE` is warl, leaves MODE and writes the
other fields (`13_state_hypervisor_csrs.md` R382; entry 17). What `mtval2` and `htval` take in place of a value they cannot
hold: entry 44. -/
def State.csrPut (s : State) (c : Csr) (w : Word) : Option State :=
  match c with
  | .fflags => some (s.writeFcsr ((s.fcsr &&& 0xE0) ||| (w.setWidth 8 &&& 0x1F)))
  | .frm => some (s.writeFcsr ((s.fcsr &&& 0x1F) ||| (w.setWidth 8 <<< 5)))
  | .fcsr => some (s.writeFcsr (w.setWidth 8))
  | .sstatus => some (s.setMst (s.sstatusFields s.sxlen w))
  | .sie => some { s with m := { s.m with ie := mergeW (s.sipVisible &&& s.mieMask) s.m.ie w } }
  | .stvec => some { s with sc := { s.sc with tvec := tvecWrite s.cfg.stvecLegal s.sxlen s.sc.tvec w } }
  | .scounteren => some { s with cnt := { s.cnt with scounteren := low32 w &&& s.counterenMask s.cfg.scounterenMask } }
  | .senvcfg => some { s with sc := { s.sc with fiom := bitOf w 0 } }
  | .sscratch => some { s with sc := { s.sc with scratch := maskX s.sxlen w } }
  | .sepc => some { s with sc := { s.sc with epc := epcWord s.cfg s.sxlen w } }
  | .scause => (causeWrite s.cfg .scause s.sxlen s.sc.cause w).map fun v => { s with sc := { s.sc with cause := v } }
  | .stval => some { s with sc := { s.sc with tval := tvalWord s.cfg s.sxlen w } }
  | .sip =>
    let k := s.sipVisible &&& (2 ||| (s.cfg.platIrqWritable &&& s.platMask))
    some { s with
      pend := { s.pend with
        ssip := if bitOf k 1 then bitOf w 1 else s.pend.ssip
        plat := mergeW (k &&& s.platMask) s.pend.plat w } }
  | .satp =>
    match s.atpWrite s.sxlen w with
    | none => some s
    | some (v, s1) => some { s1 with sc := { s1.sc with atp := v } }
  | .hstatus =>
    let t := s.hstatusFields w
    let g := fieldOf w 12 6
    if g ≤ s.cfg.geilen then some (s.setHst { t with vgein := BitVec.ofNat 6 g })
    else if s.cfg.wlrlTraps then none
    else some (s.setHst { t with vgein := BitVec.ofNat 6 (wlrlBits s.cfg .vgein 6 g t.vgein.toNat) })
  | .hedeleg => some { s with h := { s.h with edeleg := maskX s.sxlen w &&& s.hedelegMask } }
  | .hideleg => some { s with h := { s.h with ideleg := maskX s.sxlen w &&& s.hidelegMask } }
  | .hie => some { s with m := { s.m with ie := mergeW s.hieMask s.m.ie w } }
  | .htimedelta => some { s with h := { s.h with timedelta := putLow s.sxlen s.h.timedelta w } }
  | .hcounteren => some { s with cnt := { s.cnt with hcounteren := low32 w &&& s.counterenMask s.cfg.hcounterenMask } }
  | .hgeie => some { s with h := { s.h with gei := w &&& s.geiMask } }
  | .henvcfg =>
    let s1 := { s with h := { s.h with fiom := bitOf w 0 } }
    match s.sxlen with
    | .x32 => some s1
    | .x64 => some (s1.setHPbmte (bitOf w 62))
  | .htimedeltah => some { s with h := { s.h with timedelta := putHigh s.h.timedelta w } }
  | .henvcfgh => some (s.setHPbmte (bitOf w 30))
  | .htval => some { s with h := { s.h with tval := gpaWord s.cfg.htvalLegal .htval s.sxlen w } }
  | .hip => some { s with pend := { s.pend with vssip := bitOf w 2 } }
  | .hvip => some { s with pend := { s.pend with vseip := bitOf w 10, vstip := bitOf w 6, vssip := bitOf w 2 } }
  | .htinst => some { s with h := { s.h with tinst := tinstWrite s.cfg s.sxlen w } }
  | .hgatp => some (s.setHgatp w)
  | .vsstatus =>
    some (({ s with vst := s.vsstatusFields w } : State))
  | .vsie =>
    some { s with m := { s.m with ie := mergeW s.vsPlat (mergeW (s.hideleg &&& 0x444) s.m.ie (w <<< 1)) w } }
  | .vstvec => some { s with vs := { s.vs with tvec := tvecWrite s.cfg.vstvecLegal s.vsxlen s.vs.tvec w } }
  | .vsscratch => some { s with vs := { s.vs with scratch := maskX s.vsxlen w } }
  | .vsepc => some { s with vs := { s.vs with epc := epcWord s.cfg s.vsxlen w } }
  | .vscause => (causeWrite s.cfg .vscause s.vsxlen s.vs.cause w).map fun v => { s with vs := { s.vs with cause := v } }
  | .vstval => some { s with vs := { s.vs with tval := tvalWord s.cfg s.vsxlen w } }
  | .vsip =>
    some { s with
      pend := { s.pend with
        vssip := if bitOf s.hideleg 2 then bitOf w 1 else s.pend.vssip
        plat := mergeW (s.vsPlat &&& s.cfg.platIrqWritable) s.pend.plat w } }
  | .vsatp =>
    match s.atpWrite s.vsxlen w with
    | none =>
      if s.v || s.cfg.vsatpBadModeIgnored then some s
      else
        some { s with vs := { s.vs with atp := mergeW (satpMask s.cfg s.vsxlen) s.vs.atp w } }
    | some (v, s1) => some { s1 with vs := { s1.vs with atp := v } }
  | .mstatus => some (s.setMst (s.mstatusFields w))
  | .medeleg => some { s with m := { s.m with edeleg := maskX s.mxlen w &&& s.medelegMask } }
  | .mideleg =>
    let s1 := { s with m := { s.m with ideleg := maskX s.mxlen w &&& s.midelegMask } }
    let fresh := s1.hidelegMask &&& ~~~s.hidelegMask
    if fresh = 0 then some s1
    else
      let d := s1.drawWord
      some { d.2 with h := { d.2.h with ideleg := mergeW fresh d.2.h.ideleg d.1 } }
  | .mie => some { s with m := { s.m with ie := maskX s.mxlen w &&& s.mieMask } }
  | .mtvec => some { s with m := { s.m with tvec := tvecWrite s.cfg.mtvecLegal s.mxlen s.m.tvec w } }
  | .mcounteren => some { s with cnt := { s.cnt with mcounteren := low32 w &&& s.counterenMask s.cfg.mcounterenMask } }
  | .mstatush =>
    some (s.setMst (s.upperFields s.mst (bitOf w 4) (bitOf w 5) (bitOf w 6) (bitOf w 7)))
  | .mscratch => some { s with m := { s.m with scratch := maskX s.mxlen w } }
  | .mepc => some { s with m := { s.m with epc := epcWord s.cfg s.mxlen w } }
  | .mcause => (causeWrite s.cfg .mcause s.mxlen s.m.cause w).map fun v => { s with m := { s.m with cause := v } }
  | .mtval =>
    if decide (s.cfg.xtvalPolicy = 0) && !s.hasH then some s
    else some { s with m := { s.m with tval := tvalWord s.cfg s.mxlen w } }
  | .mip =>
    some { s with
      pend := { s.pend with
        seipB := if bitOf s.sImpl 9 then bitOf w 9 else s.pend.seipB
        stip := if bitOf s.sImpl 5 then bitOf w 5 else s.pend.stip
        ssip := if bitOf s.sImpl 1 then bitOf w 1 else s.pend.ssip
        vssip := if s.hasH then bitOf w 2 else s.pend.vssip
        plat := mergeW (s.cfg.platIrqWritable &&& s.platMask) s.pend.plat w } }
  | .mtinst => some { s with m := { s.m with tinst := tinstWrite s.cfg s.mxlen w } }
  | .mtval2 => some { s with m := { s.m with tval2 := gpaWord s.cfg.mtval2Legal .mtval2 s.mxlen w } }
  | .menvcfg =>
    let s1 := { s with m := { s.m with fiom := bitOf w 0 } }
    match s.mxlen with
    | .x32 => some s1
    | .x64 => some (s1.setMPbmte (bitOf w 62))
  | .menvcfgh => some (s.setMPbmte (bitOf w 30))
  | .pmpcfg k => some (s.setPmp { s.pmp with cfg := s.pmpCfgSet (4 * k) (xlenBits s.mxlen / 8) w })
  | .pmpaddr k => some (s.setPmpAddr k w)
  | .mcycle => some { s with cnt := { s.cnt with cycle := putLow s.mxlen s.cnt.cycle w } }
  | .minstret => some { s with cnt := { s.cnt with instret := putLow s.mxlen s.cnt.instret w } }
  | .mhpmcounter k =>
    some { s with
      cnt := { s.cnt with
        hpmcounter := hpmSet s.cfg s.cnt.hpmcounter k (putLow s.mxlen (hpmGet s.cfg s.cnt.hpmcounter k) w) } }
  | .mcycleh => some { s with cnt := { s.cnt with cycle := putHigh s.cnt.cycle w } }
  | .minstreth => some { s with cnt := { s.cnt with instret := putHigh s.cnt.instret w } }
  | .mhpmcounterh k =>
    some { s with
      cnt := { s.cnt with
        hpmcounter := hpmSet s.cfg s.cnt.hpmcounter k (putHigh (hpmGet s.cfg s.cnt.hpmcounter k) w) } }
  | .mcountinhibit =>
    some { s with cnt := { s.cnt with inhibit := low32 w &&& s.cfg.mcountinhibitMask &&& ~~~(2 : BitVec 32) } }
  | .mhpmevent k =>
    some { s with cnt := { s.cnt with hpmevent := hpmSet s.cfg s.cnt.hpmevent k (maskX s.mxlen w) } }
  | _ => some s

/-- The CSRs whose state belongs to S-mode, to U-mode, to the hypervisor extension. -/
def csrsOfS : List Csr := [.stvec, .scounteren, .senvcfg, .sscratch, .sepc, .scause, .stval, .satp, .medeleg, .mideleg]

def csrsOfU : List Csr := [.mcounteren, .menvcfg, .menvcfgh]

def csrsOfH : List Csr :=
  [.hstatus, .hedeleg, .hideleg, .hie, .htimedelta, .htimedeltah, .hcounteren, .hgeie, .henvcfg, .henvcfgh, .htval, .hvip,
   .htinst, .hgatp, .vsstatus, .vstvec, .vsscratch, .vsepc, .vscause, .vstval, .vsatp, .mtval2, .mtinst]

/-- The CSRs that become writable with the hypervisor extension: its own, and `mtval`, which without it is read-only zero on an
implementation that reports nothing there (`00_scope.md` R3). -/
def csrsWithH (c : Config) : List Csr := if c.xtvalPolicy = 0 then .mtval :: csrsOfH else csrsOfH

/-- Registers take UNSPECIFIED legal values (`11_state_machine_csrs.md` R87; `10_state.md` R43): none of these has a side
effect of its own when it is written. -/
def State.redraw (s : State) (l : List Csr) : State :=
  l.foldl
    (fun s c =>
      let d := s.drawWord
      match d.2.csrPut c d.1 with
      | some t => t
      | none => d.2)
    s

/-- The fields of `mstatus` and `vsstatus` that have become writable since `old` are UNSPECIFIED: those of S-mode, of U-mode
and of the hypervisor extension, SUM, FS and VS (`10_state.md` R43; `11_state_machine_csrs.md` R102-R118). -/
def State.redrawMst (s old : State) : State :=
  let d := s.drawWord
  let e := d.2.drawWord
  let t := e.2.mstatusFields d.1
  let u := e.2.vsstatusFields e.1
  let o := e.2.mst
  let sm := !old.hasS && s.hasS
  let um := !old.hasU && s.hasU
  let hy := !old.hasH && s.hasH
  let fs := old.fsFixed && !s.fsFixed
  let vs := old.vsFixed && !s.vsFixed
  let n := { o with
    sie := if sm then t.sie else o.sie, spie := if sm then t.spie else o.spie, spp := if sm then t.spp else o.spp
    mxr := if sm then t.mxr else o.mxr, sum := if sm then t.sum else o.sum, tvm := if sm then t.tvm else o.tvm
    tsr := if sm then t.tsr else o.tsr
    sbe := if sm then warl .sbe (Config.ends s.cfg.sbeSet) boolCode (fieldOf e.1 36 1) (resetEnd s.cfg.sbeSet) else o.sbe
    sxl := if sm then t.sxl else o.sxl
    tw := if um then t.tw else o.tw, mprv := if um then t.mprv else o.mprv, ube := if um then t.ube else o.ube
    uxl := if um then t.uxl else o.uxl
    gva := if hy then bitOf e.1 38 else o.gva, mpv := if hy then bitOf e.1 39 else o.mpv
    fs := if fs then t.fs else o.fs, vs := if vs then t.vs else o.vs }
  (({ e.2 with
      vst := { e.2.vst with fs := if fs then u.fs else e.2.vst.fs, vs := if vs then u.vs else e.2.vst.vs } } : State).setMst n)

/-- The enable and pending bits of S-mode are UNSPECIFIED. -/
def State.redrawSirq (s : State) : State :=
  let d := s.drawWord
  let e := d.2.drawWord
  { e.2 with
    m := { e.2.m with ie := mergeW s.sImpl e.2.m.ie d.1 }
    pend := { e.2.pend with
      seipB := bitOf (e.1 &&& s.sImpl) 9, stip := bitOf (e.1 &&& s.sImpl) 5, ssip := bitOf (e.1 &&& s.sImpl) 1 } }

/-- Bits of `medeleg` and `hedeleg` that have become writable since `old` are UNSPECIFIED; those that a wider register has
gained are zero (`10_state.md` R43, R45). -/
def State.redrawDeleg (s old : State) : State :=
  let m := s.medelegMask &&& ~~~old.delegable
  let h := s.hedelegMask &&& ~~~old.delegableVs
  let d := if m = 0 then (0, s) else s.drawWord
  let e := if h = 0 then (0, d.2) else d.2.drawWord
  { e.2 with
    m := { e.2.m with edeleg := mergeW m e.2.m.edeleg d.1 }
    h := { e.2.h with edeleg := mergeW h e.2.h.edeleg e.1 } }

/-- The registers `x16` to `x31` are UNSPECIFIED. -/
def State.redrawX (s : State) : State :=
  ((List.range 32).drop 16).foldl
    (fun s k =>
      let d := s.drawWord
      { d.2 with x := d.2.x.setIfInBounds k (s.toReg s.mxlen d.1) })
    s

/-- The load reservation is UNSPECIFIED: none, or one of four or eight bytes (`20_memory.md` R424). -/
def State.redrawResv (s : State) : State :=
  let d := s.drawWord
  let a := d.1.toNat / 4
  let n := if d.1.toNat % 2 = 0 then 4 else 8
  { d.2 with resv := if d.1.toNat / 2 % 2 = 0 ∧ s.reservable a n then some (a, n) else none }

/-- `fcsr` is UNSPECIFIED; that is no write, and FS stays (`10_state.md` R43). -/
def State.redrawFcsr (s : State) : State :=
  let d := s.drawWord
  { d.2 with fcsr := d.1.setWidth 8 }

/-- The CSRs of the modes that have been enabled since `old` are UNSPECIFIED. -/
def State.redrawModes (s old : State) : State :=
  let t := if !old.hasU && s.hasU then s.redraw csrsOfU else s
  let u := if !old.hasS && s.hasS then (t.redraw csrsOfS).redrawSirq else t
  if !old.hasH && s.hasH then u.redraw (csrsWithH s.cfg) else u

/-- Whether some field of a status register has become writable since `old`. -/
def State.statusGrew (s old : State) : Bool :=
  (!old.hasU && s.hasU) || (!old.hasS && s.hasS) || (!old.hasH && s.hasH) || (old.fsFixed && !s.fsFixed) ||
  (old.vsFixed && !s.vsFixed)

/-- The registers of the units that have been enabled since `old` are UNSPECIFIED. -/
def State.redrawUnits (s old : State) : State :=
  let on := turnedOn old.misa.ext s.misa.ext
  let t := if on letterF then s.redrawFcsr else s
  if on letterA then t.redrawResv else t

/-- State of modes and extensions that have been enabled since `old` is UNSPECIFIED (`11_state_machine_csrs.md` R87). -/
def State.redrawEnabled (s old : State) : State :=
  let t := s.redrawModes old
  let u := if t.statusGrew old then t.redrawMst old else t
  let v := u.redrawUnits old
  let w := if turnedOn old.misa.ext v.misa.ext letterI then v.redrawX else v
  w.redrawDeleg old

/-- Write `misa`: the new letters and width, fields of absent modes zero, other registers at their new width, the state of
enabled extensions UNSPECIFIED (`11_state_machine_csrs.md` R82-R87, R104; `10_state.md` R43, R45). -/
def State.setMisa (s : State) (w : Word) : State :=
  let n := s.misaTarget w
  if n = s.misa then s
  else
    let t := ({ s with misa := n } : State).clearAbsent.modulate s.mxlen s.sxlen s.vsxlen
    (t.redrawMpp s).redrawEnabled s

/-- `csrWrite` (`40_csr_access.md` R674). -/
def State.csrWrite (s : State) (c : Csr) (w : Word) : Option State :=
  match c with
  | .misa => some (s.setMisa w)
  | c => s.csrPut c w

/-- A write of the CSR sets the retired-instruction counter itself (`40_csr_access.md` R678). -/
def Csr.isInstret : Csr → Bool
  | .minstret => true
  | .minstreth => true
  | _ => false

/-- Retire a CSR instruction that started in `s0`: counted under the inhibit bit in force before it, and not at all when it
wrote the counter (`11_state_machine_csrs.md` R141, `70_reset_and_hazards.md` R1000). -/
def State.retireCsr (s s0 : State) (wroteInstret : Bool) : State :=
  let c := if wroteInstret || s0.cnt.inhibit.getLsbD 2 then s.cnt else { s.cnt with instret := s.cnt.instret + 1 }
  { s with cnt := c, pc := s0.nextPc }

/-- The common frame of the CSR instructions (`40_csr_access.md` R660): `word` is the instruction, `rd` and `src` the
registers it names, `newval` computes the value written from the stored one. -/
def csrInstr (word : IWord) (rd src csr : Nat) (doRead doWrite : Bool) (newval : Word → Word) (s : State) : Out :=
  match if s.regsOk [rd, src] then csrOf csr else none with
  | none => .next (s.raise (illegalExc word))
  | some c =>
    match s.csrVerdict csr c doWrite with
    | .illegal => .next (s.raise (illegalExc word))
    | .virtual => .next (s.raise (virtualExc word))
    | .ok =>
      let r := s.redirect c
      let t := if doRead then s.writeX rd (maskX s.xlen (s.csrRead r)) else s
      if doWrite then
        match t.csrWrite r (maskX s.xlen (newval (s.csrStored r))) with
        | some u => .next (u.retireCsr s r.isInstret)
        | none => .next (s.raise (illegalExc word))
      else .next (t.retireCsr s false)

end Sys2Proof.Machine
end

