-- ==== Sys2Proof/Machine/CsrInstr.lean ====
section
/-!
DEFINITION. The six CSR instructions (`40_csr_access.md` R660-R668): each says when it reads, when it writes, and the value
it writes.
-/

namespace Sys2Proof.Machine

/-- CSRRW (R663). -/
def execCsrrw (rd csr rs1 : Nat) (s : State) : Out :=
  csrInstr (encode (.csrrw rd csr rs1)) rd rs1 csr (decide (rd ≠ 0)) true (fun _ => s.readX rs1) s

/-- CSRRS (R664). -/
def execCsrrs (rd csr rs1 : Nat) (s : State) : Out :=
  csrInstr (encode (.csrrs rd csr rs1)) rd rs1 csr true (decide (rs1 ≠ 0)) (fun old => old ||| s.readX rs1) s

/-- CSRRC (R665). -/
def execCsrrc (rd csr rs1 : Nat) (s : State) : Out :=
  csrInstr (encode (.csrrc rd csr rs1)) rd rs1 csr true (decide (rs1 ≠ 0)) (fun old => old &&& ~~~s.readX rs1) s

/-- CSRRWI (R666). -/
def execCsrrwi (rd csr uimm : Nat) (s : State) : Out :=
  csrInstr (encode (.csrrwi rd csr uimm)) rd 0 csr (decide (rd ≠ 0)) true (fun _ => uimmWord uimm) s

/-- CSRRSI (R667). -/
def execCsrrsi (rd csr uimm : Nat) (s : State) : Out :=
  csrInstr (encode (.csrrsi rd csr uimm)) rd 0 csr true (decide (uimm ≠ 0)) (fun old => old ||| uimmWord uimm) s

/-- CSRRCI (R668). -/
def execCsrrci (rd csr uimm : Nat) (s : State) : Out :=
  csrInstr (encode (.csrrci rd csr uimm)) rd 0 csr true (decide (uimm ≠ 0)) (fun old => old &&& ~~~uimmWord uimm) s

end Sys2Proof.Machine
end

