-- ==== Sys2Proof/Machine/Environment.lean ====
section
/-!
DEFINITION. ECALL and EBREAK (`41_machine_instructions.md` R700-R703).
-/

namespace Sys2Proof.Machine

/-- The environment-call code of the current mode (`41_machine_instructions.md` R700). -/
def State.ecallCause (s : State) : Nat :=
  match s.priv, s.v with
  | .m, _ => 11
  | .s, false => 9
  | .s, true => 10
  | .u, _ => 8

/-- ECALL: an environment call; it does not retire (`41_machine_instructions.md` R700, R701). -/
def execEcall (s : State) : Out :=
  .next (s.raise { cause := s.ecallCause, tval := 0, gva := false, tval2 := 0, tinst := 0 })

/-- EBREAK: a breakpoint at its own address; it does not retire (`41_machine_instructions.md` R701, R702). -/
def execEbreak (s : State) : Out :=
  .next (s.raise { cause := 3, tval := maskX s.xlen s.pc, gva := s.v, tval2 := 0, tinst := 0 })

end Sys2Proof.Machine
end

