-- ==== Sys2Proof/Machine/Return.lean ====
section
/-!
DEFINITION. MRET and SRET (`41_machine_instructions.md` R704-R710).
-/

namespace Sys2Proof.Machine

/-- An instruction behind a permission check: the exception of a failed check, or its effect. -/
def State.guarded (s : State) (v : Verdict) (word : IWord) (k : State → Out) : Out :=
  match v with
  | .ok => k s
  | .illegal => .next (s.raise (illegalExc word))
  | .virtual => .next (s.raise (virtualExc word))

/-- MRET needs M-mode (`41_machine_instructions.md` R704). -/
def State.mretVerdict (s : State) : Verdict := if s.priv = .m then .ok else .illegal

/-- Who may execute SRET (`41_machine_instructions.md` R706). -/
def State.sretVerdict (s : State) : Verdict :=
  if !s.hasS then .illegal
  else
    match s.priv, s.v with
    | .u, false => .illegal
    | .s, false => if s.mst.tsr then .illegal else .ok
    | .m, _ => .ok
    | .u, true => .virtual
    | .s, true => if s.hst.vtsr then .virtual else .ok

/-- MRET (`41_machine_instructions.md` R704, R708). -/
def execMret (s : State) : Out :=
  s.guarded s.mretVerdict (encode .mret) fun t => .next t.countInstret.returnM.maybeClearResv

/-- SRET: from HS-mode or M-mode, or with V=1 from VS-mode (`41_machine_instructions.md` R706, R708). -/
def execSret (s : State) : Out :=
  s.guarded s.sretVerdict (encode .sret) fun t =>
    .next (if t.v then t.countInstret.returnVs else t.countInstret.returnS).maybeClearResv

end Sys2Proof.Machine
end

