-- ==== Sys2Proof/Machine/HypervisorAccess.lean ====
section
/-!
DEFINITION. HLV, HLVX and HSV (`43_hypervisor_instructions.md` R770-R789).
-/

namespace Sys2Proof.Machine

/-- `hlsvCheck`; `wide` for the forms RV32 does not have (`43_hypervisor_instructions.md` R771). -/
def State.hlsvVerdict (s : State) (wide : Bool) : Verdict :=
  if !s.hasH || (wide && decide (s.xlen = .x32)) then .illegal
  else if s.v then .virtual
  else if decide (s.priv = .u) && !s.hst.hu then .illegal
  else .ok

/-- The outcome of an access of the instruction at `pc`. -/
def finishAccess {α : Type} (r : Res α) (word : IWord) (va : Word) (k : α → State → State) : Out :=
  match r.byInst ⟨.virtualMachine, word, false⟩ va with
  | .ok a s => .next (k a s).retire
  | .trap e s => .next (s.raise e)
  | .fault f => .fault f

/-- `HLVop` (`43_hypervisor_instructions.md` R773): `conv` makes the register's value from the bytes read. -/
def hlvOp (word : IWord) (wide : Bool) (rd rs1 n : Nat) (acc : Acc) (conv : Nat → Word) (s : State) : Out :=
  s.guarded (s.hlsvVerdict wide) word fun t =>
    finishAccess (memRead acc (privOfSpp t.hst.spvp) true (t.hlsvAddr rs1) n t) word (t.hlsvAddr rs1) fun d u =>
      u.writeX rd (conv d)

/-- `HSVop` (`43_hypervisor_instructions.md` R774). -/
def hsvOp (word : IWord) (wide : Bool) (rs2 rs1 n : Nat) (s : State) : Out :=
  s.guarded (s.hlsvVerdict wide) word fun t =>
    finishAccess (memWrite (privOfSpp t.hst.spvp) true (t.hlsvAddr rs1) n (t.readX rs2).toNat t) word
      (t.hlsvAddr rs1) fun _ u => u

/-- Bytes read, sign-extended from `bits` bits. -/
def signed (bits d : Nat) : Word := (BitVec.ofNat bits d).signExtend 64

/-- Bytes read, zero-extended. -/
def unsigned (d : Nat) : Word := BitVec.ofNat 64 d

/-- HLV.B (R777). -/
def execHlvB (rd rs1 : Nat) (s : State) : Out := hlvOp (encode (.hlvB rd rs1)) false rd rs1 1 .load (signed 8) s

/-- HLV.BU (R778). -/
def execHlvBu (rd rs1 : Nat) (s : State) : Out := hlvOp (encode (.hlvBu rd rs1)) false rd rs1 1 .load unsigned s

/-- HLV.H (R779). -/
def execHlvH (rd rs1 : Nat) (s : State) : Out := hlvOp (encode (.hlvH rd rs1)) false rd rs1 2 .load (signed 16) s

/-- HLV.HU (R780). -/
def execHlvHu (rd rs1 : Nat) (s : State) : Out := hlvOp (encode (.hlvHu rd rs1)) false rd rs1 2 .load unsigned s

/-- HLV.W (R781). -/
def execHlvW (rd rs1 : Nat) (s : State) : Out := hlvOp (encode (.hlvW rd rs1)) false rd rs1 4 .load (signed 32) s

/-- HLV.WU (R782). -/
def execHlvWu (rd rs1 : Nat) (s : State) : Out := hlvOp (encode (.hlvWu rd rs1)) true rd rs1 4 .load unsigned s

/-- HLV.D (R783). -/
def execHlvD (rd rs1 : Nat) (s : State) : Out := hlvOp (encode (.hlvD rd rs1)) true rd rs1 8 .load unsigned s

/-- HLVX.HU (R784, R776). -/
def execHlvxHu (rd rs1 : Nat) (s : State) : Out := hlvOp (encode (.hlvxHu rd rs1)) false rd rs1 2 .hlvx unsigned s

/-- HLVX.WU (R785, R776). -/
def execHlvxWu (rd rs1 : Nat) (s : State) : Out := hlvOp (encode (.hlvxWu rd rs1)) false rd rs1 4 .hlvx unsigned s

/-- HSV.B (R786). -/
def execHsvB (rs2 rs1 : Nat) (s : State) : Out := hsvOp (encode (.hsvB rs2 rs1)) false rs2 rs1 1 s

/-- HSV.H (R787). -/
def execHsvH (rs2 rs1 : Nat) (s : State) : Out := hsvOp (encode (.hsvH rs2 rs1)) false rs2 rs1 2 s

/-- HSV.W (R788). -/
def execHsvW (rs2 rs1 : Nat) (s : State) : Out := hsvOp (encode (.hsvW rs2 rs1)) false rs2 rs1 4 s

/-- HSV.D (R789). -/
def execHsvD (rs2 rs1 : Nat) (s : State) : Out := hsvOp (encode (.hsvD rs2 rs1)) true rs2 rs1 8 s

end Sys2Proof.Machine
end

