-- ==== Sys2Proof/Machine/HypervisorFence.lean ====
section
/-!
DEFINITION. HFENCE.VVMA, HFENCE.GVMA, HINVAL.VVMA and HINVAL.GVMA (`43_hypervisor_instructions.md` R790-R798).
-/

namespace Sys2Proof.Machine

/-- `hfenceCheck`; TVM stops only the G-stage forms (`43_hypervisor_instructions.md` R793). -/
def State.hfenceVerdict (s : State) (gvma : Bool) : Verdict :=
  if !s.hasH then .illegal
  else if s.v then .virtual
  else
    match s.priv with
    | .u => .illegal
    | .s => if gvma && s.mst.tvm then .illegal else .ok
    | .m => .ok

/-- The same check for an instruction of Svinval (`43_hypervisor_instructions.md` R796). -/
def State.hinvalVerdict (s : State) (gvma : Bool) : Verdict :=
  if s.cfg.svinval then s.hfenceVerdict gvma else .illegal

/-- HFENCE.VVMA (`43_hypervisor_instructions.md` R790). -/
def execHfenceVvma (rs1 rs2 : Nat) (s : State) : Out :=
  s.guarded (s.hfenceVerdict false) (encode (.hfenceVvma rs1 rs2)) fun t => .next (t.hfence (t.vsScope rs1 rs2)).retire

/-- HFENCE.GVMA (`43_hypervisor_instructions.md` R792, R794). -/
def execHfenceGvma (rs1 rs2 : Nat) (s : State) : Out :=
  s.guarded (s.hfenceVerdict true) (encode (.hfenceGvma rs1 rs2)) fun t => .next (t.hfence (t.gScope rs1 rs2)).retire

/-- HINVAL.VVMA (`43_hypervisor_instructions.md` R796). -/
def execHinvalVvma (rs1 rs2 : Nat) (s : State) : Out :=
  s.guarded (s.hinvalVerdict false) (encode (.hinvalVvma rs1 rs2)) fun t => .next (t.sinval (t.vsScope rs1 rs2)).retire

/-- HINVAL.GVMA (`43_hypervisor_instructions.md` R798). -/
def execHinvalGvma (rs1 rs2 : Nat) (s : State) : Out :=
  s.guarded (s.hinvalVerdict true) (encode (.hinvalGvma rs1 rs2)) fun t => .next (t.sinval (t.gScope rs1 rs2)).retire

end Sys2Proof.Machine
end

