-- ==== Sys2Proof/Machine/SupervisorFence.lean ====
section
/-!
DEFINITION. SFENCE.VMA, SINVAL.VMA, SFENCE.W.INVAL and SFENCE.INVAL.IR (`42_supervisor_instructions.md`).
-/

namespace Sys2Proof.Machine

/-- `SFENCE_BARE_ILLEGAL` on an implementation without paging (`42_supervisor_instructions.md` R752). -/
def State.bareVerdict (s : State) : Verdict := if !paging s.cfg && s.cfg.sfenceBareIllegal then .illegal else .ok

/-- `sfenceCheck` (`42_supervisor_instructions.md` R741, R752). -/
def State.sfenceVerdict (s : State) : Verdict :=
  if !s.hasS then .illegal
  else
    match s.priv, s.v with
    | .u, false => .illegal
    | .u, true => .virtual
    | .s, true => if s.hst.vtvm then .virtual else s.bareVerdict
    | .s, false => if s.mst.tvm then .illegal else s.bareVerdict
    | .m, _ => s.bareVerdict

/-- The same check for an instruction of Svinval (`42_supervisor_instructions.md` R748). -/
def State.sinvalVerdict (s : State) : Verdict := if s.cfg.svinval then s.sfenceVerdict else .illegal

/-- Who may execute SFENCE.W.INVAL and SFENCE.INVAL.IR (`42_supervisor_instructions.md` R753). -/
def State.svinvalVerdict (s : State) : Verdict :=
  if !s.hasS || !s.cfg.svinval then .illegal
  else
    match s.priv, s.v with
    | .u, false => .illegal
    | .u, true => .virtual
    | .s, _ => .ok
    | .m, _ => .ok

/-- The verdict of an instruction that names registers: reserved where the base does not have them (`10_state.md` R23; entry
19). -/
def State.withRegs (s : State) (l : List Nat) (v : Verdict) : Verdict := if s.regsOk l then v else .illegal

/-- SFENCE.VMA: the structures of `satp`, or with V=1 those of the current virtual machine's `vsatp`
(`42_supervisor_instructions.md` R742-R748). -/
def execSfenceVma (rs1 rs2 : Nat) (s : State) : Out :=
  s.guarded (s.withRegs [rs1, rs2] s.sfenceVerdict) (encode (.sfenceVma rs1 rs2)) fun t =>
    .next (t.sfence (t.sfenceScope rs1 rs2)).retire

/-- SINVAL.VMA (`42_supervisor_instructions.md` R748). -/
def execSinvalVma (rs1 rs2 : Nat) (s : State) : Out :=
  s.guarded (s.withRegs [rs1, rs2] s.sinvalVerdict) (encode (.sinvalVma rs1 rs2)) fun t =>
    .next (t.sinval (t.sfenceScope rs1 rs2)).retire

/-- SFENCE.W.INVAL (`42_supervisor_instructions.md` R749). -/
def execSfenceWInval (s : State) : Out :=
  s.guarded s.svinvalVerdict (encode .sfenceWInval) fun t => .next t.orderStores.retire

/-- SFENCE.INVAL.IR (`42_supervisor_instructions.md` R750). -/
def execSfenceInvalIr (s : State) : Out :=
  s.guarded s.svinvalVerdict (encode .sfenceInvalIr) fun t => .next t.complete.retire

end Sys2Proof.Machine
end

