-- ==== Sys2Proof/Machine/Dispatch.lean ====
section
/-!
DEFINITION. The meaning of each instruction, one arm per constructor.
-/

namespace Sys2Proof.Machine

def exec (i : Instr) (s : State) : Host.Outcome State Fault Refusal :=
  match i with
  | .ecall => Sys2Proof.Machine.execEcall s
  | .ebreak => Sys2Proof.Machine.execEbreak s
  | .sret => Sys2Proof.Machine.execSret s
  | .mret => Sys2Proof.Machine.execMret s
  | .wfi => Sys2Proof.Machine.execWfi s
  | .sfenceVma rs1 rs2 => Sys2Proof.Machine.execSfenceVma rs1 rs2 s
  | .sinvalVma rs1 rs2 => Sys2Proof.Machine.execSinvalVma rs1 rs2 s
  | .sfenceWInval => Sys2Proof.Machine.execSfenceWInval s
  | .sfenceInvalIr => Sys2Proof.Machine.execSfenceInvalIr s
  | .hfenceVvma rs1 rs2 => Sys2Proof.Machine.execHfenceVvma rs1 rs2 s
  | .hfenceGvma rs1 rs2 => Sys2Proof.Machine.execHfenceGvma rs1 rs2 s
  | .hinvalVvma rs1 rs2 => Sys2Proof.Machine.execHinvalVvma rs1 rs2 s
  | .hinvalGvma rs1 rs2 => Sys2Proof.Machine.execHinvalGvma rs1 rs2 s
  | .hlvB rd rs1 => Sys2Proof.Machine.execHlvB rd rs1 s
  | .hlvBu rd rs1 => Sys2Proof.Machine.execHlvBu rd rs1 s
  | .hlvH rd rs1 => Sys2Proof.Machine.execHlvH rd rs1 s
  | .hlvHu rd rs1 => Sys2Proof.Machine.execHlvHu rd rs1 s
  | .hlvW rd rs1 => Sys2Proof.Machine.execHlvW rd rs1 s
  | .hlvWu rd rs1 => Sys2Proof.Machine.execHlvWu rd rs1 s
  | .hlvD rd rs1 => Sys2Proof.Machine.execHlvD rd rs1 s
  | .hlvxHu rd rs1 => Sys2Proof.Machine.execHlvxHu rd rs1 s
  | .hlvxWu rd rs1 => Sys2Proof.Machine.execHlvxWu rd rs1 s
  | .hsvB rs2 rs1 => Sys2Proof.Machine.execHsvB rs2 rs1 s
  | .hsvH rs2 rs1 => Sys2Proof.Machine.execHsvH rs2 rs1 s
  | .hsvW rs2 rs1 => Sys2Proof.Machine.execHsvW rs2 rs1 s
  | .hsvD rs2 rs1 => Sys2Proof.Machine.execHsvD rs2 rs1 s
  | .csrrw rd csr rs1 => Sys2Proof.Machine.execCsrrw rd csr rs1 s
  | .csrrs rd csr rs1 => Sys2Proof.Machine.execCsrrs rd csr rs1 s
  | .csrrc rd csr rs1 => Sys2Proof.Machine.execCsrrc rd csr rs1 s
  | .csrrwi rd csr uimm => Sys2Proof.Machine.execCsrrwi rd csr uimm s
  | .csrrsi rd csr uimm => Sys2Proof.Machine.execCsrrsi rd csr uimm s
  | .csrrci rd csr uimm => Sys2Proof.Machine.execCsrrci rd csr uimm s

end Sys2Proof.Machine
end

