-- ==== Sys2Proof/Machine/Cycle.lean ====
section
/-!
DEFINITION. One step of the hart (`00_scope.md` R6; `60_exceptions.md` R844): a stall, an interrupt, or the fetch, decoding
and execution of one instruction; and how a program's instruction is placed where the hart fetches next.
-/

namespace Sys2Proof.Machine

/-- The opcode MISC-MEM (`20_memory.md` R477). -/
def opMiscMem : Nat := 0x0F

/-- A 32-bit word that is no instruction of the table (entry 28): FENCE orders nothing one hart can see (`20_memory.md` R478),
whatever its fm, of which R477 gives 0000 alone (DESIGN CHOICE, entry 28);
FENCE.I makes stores visible to fetches (R474); another opcode is Volume I's; the rest are illegal instructions
(`92_eei_decisions.md` D30). -/
def otherWord (w : IWord) (why : DecodeReject) (s : State) : Out :=
  match why with
  | .otherOpcode =>
    if fieldOpcode w.toNat = opMiscMem ∧ fieldFunct3 w.toNat = 0 then .next s.retire
    else if fieldOpcode w.toNat = opMiscMem ∧ fieldFunct3 w.toNat = 1 then .next s.fenceI.retire
    else .refused (.unprivileged w)
  | _ => .next (s.raise (illegalExc w))

/-- A 16-bit parcel: zero is an illegal instruction, as is any without the C extension, whose instructions are Volume I's
(entry 28). -/
def runParcel (p : BitVec 16) (s : State) : Out :=
  if s.hasC ∧ p ≠ 0 then .refused (.compressed p) else .next (s.raise (illegalExc (p.setWidth 32)))

/-- Execute a fetched word. -/
def runWord (w : IWord) (s : State) : Out :=
  match decodeWord w with
  | .ok i => exec i s
  | .error e => otherWord w e s

/-- Fetch, decode and execute the instruction at `pc`. -/
def runNext (s : State) : Out :=
  match fetch s with
  | .ok (.word w) t => runWord w t
  | .ok (.parcel p) t => runParcel p t
  | .trap e t => .next (t.raise e)
  | .fault f => .fault f

/-- The hart's step (`60_exceptions.md` R844). -/
def hartAct (s : State) : Out :=
  match s.wait with
  | some w => .next (s.waiting w)
  | none =>
    match s.takeable with
    | some i => .next (s.takeTrap true (intrExc i))
    | none => runNext s

/-- One step of the machine: MTIP and MSIP move on; then the next agent of the schedule acts, the hart where the schedule is
empty (entries 4, 7). -/
def machineStep (s : State) : Out :=
  let t := s.syncIrq
  match t.inputs with
  | [] => hartAct t
  | .hart :: l => hartAct { t with inputs := l }
  | e :: l => .next (({ t with inputs := l } : State).event e)

/-- Put four bytes where the hart fetches its next instruction, the schedule left to the hart. -/
def State.placeWord (s : State) (w : IWord) : State :=
  let a := (maskX s.xlen s.pc).toNat
  { s with
    mem := Memory.writeAll s.mem a (bytesOfWord w)
    codeOld := s.codeOld.filter fun c => !(decide (a ≤ c.1) && decide (c.1 < a + 4))
    inputs := []
    wait := none }

end Sys2Proof.Machine
end

