-- ==== Sys2Proof/Machine/Step.lean ====
section
/-!
DEFINITION. The step of the machine, and the placing of an instruction where it fetches next.
-/

namespace Sys2Proof.Machine

/-- One step (`00_scope.md` R6). -/
def step (s : State) : Host.Outcome State Fault Refusal := machineStep s

/-- The state with the instruction of bits `w` where the next step fetches, bits at `nbits` and above zero (entry 4: it stands
for the loading of a program from outside the machine). -/
def State.withFetchWord (s : State) (nbits w : Nat) : State := s.placeWord (BitVec.ofNat 32 (w % 2 ^ nbits))

end Sys2Proof.Machine
end

