-- ==== Sys2Proof/Safety.lean ====
section
/-!
DEFINITION. The terms claims use: the invariants of the machine, the parts of the state a frame speaks of, and the plain
situations in which an access or a fetch succeeds.
-/

namespace Sys2Proof.Machine

/-! ### Invariants -/

/-- Memory is in canonical form. -/
def State.memOk (s : State) : Prop := Memory.wf s.mem = true

/-- V is 1 only with the hypervisor extension and outside M-mode (`10_state.md` R21). -/
def State.modeOk (s : State) : Prop := s.v = true → s.hasH = true ∧ s.priv ≠ .m

/-- MPRV is 1 only in M-mode (`41_machine_instructions.md` R707). -/
def State.mprvOk (s : State) : Prop := s.mst.mprv = true → s.priv = .m

/-- The entry points the platform chooses are aligned to an instruction. -/
def State.entriesOk (s : State) : Prop := s.cfg.resetVector.toNat % 4 = 0 ∧ s.cfg.nmiVector.toNat % 4 = 0

/-- `pc` is aligned to IALIGN (`20_memory.md` R413). -/
def State.pcOk (s : State) : Prop := if s.hasC then s.pc.toNat % 2 = 0 else s.pc.toNat % 4 = 0

/-- A mode the hart has (`10_state.md` R20). -/
def State.hasMode (s : State) : Priv → Bool
  | .m => true
  | .s => s.hasS
  | .u => s.hasU

/-- The current mode and the one MPP holds are modes the hart has (`10_state.md` R20, R21; `11_state_machine_csrs.md` R102). -/
def State.legalModes (s : State) : Prop := s.modeOk ∧ s.hasMode s.priv = true ∧ s.hasMode s.mst.mpp = true

/-- How privileged a mode is: VU below VS and U, VS below HS, HS below M (`10_state.md` R21). -/
def rank : Priv → Bool → Nat
  | .u, true => 0
  | .u, false => 1
  | .s, true => 2
  | .s, false => 3
  | .m, _ => 4

/-! ### Parts of the state

Two states agree on all but a few fields when they are equal with those fields blanked. -/

/-- No translation is cached and nothing has changed that translation may still use. -/
def noXlat : Xlat := { tlb := [], hist := [] }

/-- All but the memory system (memory, the memory-mapped registers, the caches) and the model's counter of draws. -/
def State.sansMemory (s : State) : State :=
  { s with
    mem := [], timer := { mtime := 0, mtimecmp := 0, msip := false }, xlat := noXlat, codeOld := [], draws := 0 }

/-- All but the address-translation caches. -/
def State.sansXlat (s : State) : State := { s with xlat := noXlat }

/-- All but `pc` and `minstret`. -/
def State.sansProgress (s : State) : State := { s with pc := 0, cnt := { s.cnt with instret := 0 } }

/-- All but the integer registers. -/
def State.sansX (s : State) : State := { s with x := Vector.replicate 32 0 }

/-- All but what a trap into M-mode writes (`60_exceptions.md` R850). -/
def State.sansTrapM (s : State) : State :=
  { s with
    m := { s.m with epc := 0, cause := 0, tval := 0, tval2 := 0, tinst := 0 }
    mst := { s.mst with mie := false, mpie := false, mpp := .m, mpv := false, gva := false }
    priv := .m, v := false, pc := 0 }

/-- All but what a trap into S-mode or HS-mode writes (`60_exceptions.md` R850). -/
def State.sansTrapS (s : State) : State :=
  { s with
    sc := { s.sc with epc := 0, cause := 0, tval := 0 }
    mst := { s.mst with sie := false, spie := false, spp := false }
    hst := { s.hst with spv := false, spvp := false, gva := false }
    h := { s.h with tval := 0, tinst := 0 }
    priv := .m, v := false, pc := 0 }

/-- All but what a trap into VS-mode writes (`61_exceptions_hypervisor.md` R946). -/
def State.sansTrapVs (s : State) : State :=
  { s with
    vs := { s.vs with epc := 0, cause := 0, tval := 0 }
    vst := { s.vst with sie := false, spie := false, spp := false }
    priv := .m, v := false, pc := 0 }

/-- All but what a return from a trap writes (`41_machine_instructions.md` R704, R706, R708): `pc`, `minstret`, the mode, the
load reservation, MPRV, and the model's counter of draws. -/
def State.sansReturn (s : State) : State :=
  { s.sansProgress with priv := .m, v := false, resv := none, draws := 0, mst := { s.mst with mprv := false } }

/-- All but what MRET writes. -/
def State.sansMret (s : State) : State :=
  { s.sansReturn with
    mst := { s.mst with mprv := false, mie := false, mpie := false, mpp := .m, mpv := false } }

/-- All but what SRET writes with V=0. -/
def State.sansSret (s : State) : State :=
  { s.sansReturn with
    mst := { s.mst with mprv := false, sie := false, spie := false, spp := false }
    hst := { s.hst with spv := false } }

/-- All but what SRET writes with V=1. -/
def State.sansSretVs (s : State) : State :=
  { s.sansReturn with vst := { s.vst with sie := false, spie := false, spp := false } }

/-! ### How an instruction ends -/

/-- The instruction of `s` retired: `pc` is at the next one, and `minstret` has counted it unless inhibited
(`11_state_machine_csrs.md` R140, R152). -/
def Retired (s t : State) : Prop :=
  t.pc = s.nextPc ∧ t.cnt.instret = if s.cnt.inhibit.getLsbD 2 then s.cnt.instret else s.cnt.instret + 1

/-- The reservation is as before or, where the A extension is present, gone (`41_machine_instructions.md` R708). -/
def ReservationMayClear (s t : State) : Prop := t.resv = s.resv ∨ (s.hasA = true ∧ t.resv = none)

/-- The instruction raises an illegal-instruction exception. -/
def RaisesIllegal (i : Instr) (s : State) : Prop := exec i s = .next (s.raise (illegalExc (encode i)))

/-- The instruction raises a virtual-instruction exception. -/
def RaisesVirtual (i : Instr) (s : State) : Prop := exec i s = .next (s.raise (virtualExc (encode i)))

/-- The next step of the hart fetches the word `w`; `t` is the state the fetch leaves. -/
def State.fetches (s : State) (w : IWord) (t : State) : Prop :=
  s.inputs = [] ∧ s.wait = none ∧ s.syncIrq.takeable = none ∧ fetch s.syncIrq = .ok (.word w) t

/-! ### Groups of instructions of one shape -/

/-- A load of the hypervisor extension: bytes, access type, whether RV64 only, and the register's value from the number the
bytes form (`43_hypervisor_instructions.md` R777-R785). -/
structure LoadForm where
  instr : Instr
  bytes : Nat
  acc : Acc
  wide : Bool
  value : Nat → Word

/-- The nine loads. -/
def loadForms (rd rs1 : Nat) : List LoadForm :=
  [⟨.hlvB rd rs1, 1, .load, false, fun d => (BitVec.ofNat 8 d).signExtend 64⟩,
   ⟨.hlvBu rd rs1, 1, .load, false, fun d => (BitVec.ofNat 8 d).setWidth 64⟩,
   ⟨.hlvH rd rs1, 2, .load, false, fun d => (BitVec.ofNat 16 d).signExtend 64⟩,
   ⟨.hlvHu rd rs1, 2, .load, false, fun d => (BitVec.ofNat 16 d).setWidth 64⟩,
   ⟨.hlvW rd rs1, 4, .load, false, fun d => (BitVec.ofNat 32 d).signExtend 64⟩,
   ⟨.hlvWu rd rs1, 4, .load, true, fun d => (BitVec.ofNat 32 d).setWidth 64⟩,
   ⟨.hlvD rd rs1, 8, .load, true, fun d => BitVec.ofNat 64 d⟩,
   ⟨.hlvxHu rd rs1, 2, .hlvx, false, fun d => (BitVec.ofNat 16 d).setWidth 64⟩,
   ⟨.hlvxWu rd rs1, 4, .hlvx, false, fun d => (BitVec.ofNat 32 d).setWidth 64⟩]

/-- A store of the hypervisor extension (`43_hypervisor_instructions.md` R786-R789). -/
structure StoreForm where
  instr : Instr
  bytes : Nat
  wide : Bool

/-- The four stores. -/
def storeForms (rs2 rs1 : Nat) : List StoreForm :=
  [⟨.hsvB rs2 rs1, 1, false⟩, ⟨.hsvH rs2 rs1, 2, false⟩, ⟨.hsvW rs2 rs1, 4, false⟩, ⟨.hsvD rs2 rs1, 8, true⟩]

/-- A CSR instruction in a state: the registers it names, whether it writes, and the value written from the one stored
(`40_csr_access.md` R662-R668). -/
structure CsrForm where
  instr : Instr
  regs : List Nat
  writes : Bool
  newval : Word → Word

/-- The six CSR instructions; `src` is `rs1` or the immediate. -/
def csrForms (s : State) (rd csr src : Nat) : List CsrForm :=
  [⟨.csrrw rd csr src, [rd, src], true, fun _ => s.readX src⟩,
   ⟨.csrrs rd csr src, [rd, src], decide (src ≠ 0), fun old => old ||| s.readX src⟩,
   ⟨.csrrc rd csr src, [rd, src], decide (src ≠ 0), fun old => old &&& ~~~s.readX src⟩,
   ⟨.csrrwi rd csr src, [rd], true, fun _ => BitVec.ofNat 64 src⟩,
   ⟨.csrrsi rd csr src, [rd], decide (src ≠ 0), fun old => old ||| BitVec.ofNat 64 src⟩,
   ⟨.csrrci rd csr src, [rd], decide (src ≠ 0), fun old => old &&& ~~~(BitVec.ofNat 64 src)⟩]

/-- A counter that the current mode may read (`12_state_supervisor_csrs.md` R240, `13_state_hypervisor_csrs.md` R330). -/
def State.counterOpen (s : State) (n : Nat) : Prop :=
  s.priv = .m ∨
  (s.cnt.mcounteren.getLsbD n = true ∧ (s.v = true → s.cnt.hcounteren.getLsbD n = true) ∧
   (s.priv = .u → s.v = true ∨ s.hasS = true → s.cnt.scounteren.getLsbD n = true))

/-- The current mode reaches a CSR of this number: its level is not above the mode's, with V=1 it is of VS-mode or below
(`40_csr_access.md` R670). -/
def State.reaches (s : State) (csr : Nat) : Prop :=
  if s.v then csrLevel csr ≤ 1 ∧ (csrLevel csr = 1 → s.priv ≠ .u) else csrLevel csr ≤ s.modeLevel

/-- What `mepc`, `sepc` or `vsepc` of width `x` holds when an address is written: the address with bit 0 clear or, where the
implementation does not hold every address and this one is not valid, some invalid address
(`11_state_machine_csrs.md` R160, `60_exceptions.md` R851; entry 42). -/
def EpcHolds (c : Config) (x : Xlen) (w held : Word) : Prop :=
  held = extendTo c x (w &&& ~~~(1 : Word)) ∨
  (c.xepcAll = false ∧ validAddr c x (maskX x (w &&& ~~~(1 : Word))) = false ∧
    ∃ v : Word, validAddr c x (maskX x v) = false ∧ v.getLsbD 0 = false ∧ held = extendTo c x v)

/-- What `mtval`, `stval` or `vstval` of width `x` holds when a value is written: the value or, where the implementation does
not hold every value and this one is neither zero, nor a valid address, nor as short as reported instruction bits, some
invalid address (`11_state_machine_csrs.md` R170, `12_state_supervisor_csrs.md` R257; entry 42). -/
def TvalHolds (c : Config) (x : Xlen) (w held : Word) : Prop :=
  held = maskX x w ∨
  (c.xtvalAll = false ∧ validAddr c x (maskX x w) = false ∧ maskX x w ≠ 0 ∧
    (c.xtvalPolicy.getLsbD 2 = true ∨ c.xtvalPolicy.getLsbD 22 = true → 2 ^ min (xlenBits x) c.ilen ≤ (maskX x w).toNat) ∧
    ∃ v : Word, validAddr c x (maskX x v) = false ∧ held = maskX x v)

/-- CSR numbers with the state their registers leave when a 64-bit hart writes `w` into them: the whole of it. -/
def plainWrites (s : State) (w : Word) : List (Nat × State) :=
  [(0x140, { s with sc := { s.sc with scratch := w } }),
   (0x240, { s with vs := { s.vs with scratch := w } }),
   (0x605, { s with h := { s.h with timedelta := w } })]

/-- The exception-pc registers with the state that one of them holding a value makes. -/
def epcRegisters (s : State) : List (Nat × (Word → State)) :=
  [(0x141, fun w => { s with sc := { s.sc with epc := w } }),
   (0x241, fun w => { s with vs := { s.vs with epc := w } }),
   (0x341, fun w => { s with m := { s.m with epc := w } })]

/-- The same of the trap-value registers of S-mode and VS-mode. -/
def tvalRegisters (s : State) : List (Nat × (Word → State)) :=
  [(0x143, fun w => { s with sc := { s.sc with tval := w } }),
   (0x243, fun w => { s with vs := { s.vs with tval := w } })]

/-- A PMP entry matches no byte of an access. -/
def PmpMisses (s : State) (p : Pmp) (i a n : Nat) : Prop :=
  ∀ lo hi, p.range s.cfg.pmpG (xlenBits s.mxlen) i = some (lo, hi) → ¬(a < hi ∧ lo < a + n)

/-- An instruction that fences or invalidates translations: whether it is of the G-stage, and whether it belongs to Svinval. -/
structure FenceForm where
  instr : Instr
  gStage : Bool
  svinval : Bool

/-- SFENCE.VMA and SINVAL.VMA. -/
def supervisorFences (rs1 rs2 : Nat) : List FenceForm :=
  [⟨.sfenceVma rs1 rs2, false, false⟩, ⟨.sinvalVma rs1 rs2, false, true⟩]

/-- HFENCE.VVMA, HFENCE.GVMA, HINVAL.VVMA and HINVAL.GVMA. -/
def hypervisorFences (rs1 rs2 : Nat) : List FenceForm :=
  [⟨.hfenceVvma rs1 rs2, false, false⟩, ⟨.hfenceGvma rs1 rs2, true, false⟩,
   ⟨.hinvalVvma rs1 rs2, false, true⟩, ⟨.hinvalGvma rs1 rs2, true, true⟩]

/-- Records are scheduled for removal: every one that `p` selects is marked, every other stays as it was, none is new, and
nothing that translation may still use is fenced by it. -/
def Marks (s t : State) (p : TlbRec → Prop) : Prop :=
  (∀ r ∈ s.xlat.tlb, (p r → { r with doomed := true } ∈ t.xlat.tlb) ∧ (¬p r → r ∈ t.xlat.tlb)) ∧
  (∀ r ∈ t.xlat.tlb, (p r → r.doomed = true) ∧ ∃ q ∈ s.xlat.tlb, r = q ∨ (p q ∧ r = { q with doomed := true })) ∧
  t.changes = s.changes

/-- An entry that a fence with these operands removes: of the address space where an ASID is given and not global, a leaf of the
address where one is given (`inScope` of `42_supervisor_instructions.md` R745). -/
def InScope (r : TlbRec) (addr asid : Option Nat) : Prop :=
  (asid = none ∨ (asid = some r.asid ∧ r.global = false)) ∧
  (addr = none ∨ ∃ a, addr = some a ∧ r.leafLike = true ∧ r.scheme.prefixOf a r.level = r.prefixBits)

/-- Every change that translation may still use is from before a fence of this scope. -/
def AllFenced (s : State) (p : Scope) : Prop := ∀ c ∈ s.changes, p ∈ c.2

/-! ### Plain situations -/

/-- Both stages of guest translation are Bare, no G-stage translation of the virtual machine is cached, and no earlier PMP
setting may still be used. -/
def State.guestBare (s : State) : Prop :=
  atpMode s.vsxlen s.vs.atp = 0 ∧ atpMode s.sxlen s.h.gatp = 0 ∧ s.wasBare = false ∧
  (∀ r ∈ s.xlat.tlb, r.space ≠ .g s.vmid) ∧ ∀ p ∈ s.pmps true, p = s.pmp

/-- n bytes of main memory from an address are not those of a memory-mapped register. -/
def State.mainMemory (s : State) (a n : Nat) : Prop :=
  s.devAt a n = none ∧ s.isIo a n = false

/-- An access of n bytes at a physical address passes the checks of PMP and PMA for a guest access and is one of main
memory. -/
def State.guestAccessible (s : State) (acc : Acc) (a n : Nat) : Prop :=
  s.pmpCheck s.pmp acc (privOfSpp s.hst.spvp) a n = true ∧ s.pmaOk acc a n = true ∧ s.mainMemory a n

/-- The address of a virtual-machine load or store is aligned to its size. -/
def State.hlsvAligned (s : State) (rs1 n : Nat) : Prop := (s.hlsvAddr rs1).toNat % n = 0

end Sys2Proof.Machine
end

