-- ==== Sys2Proof/Certificates/Slice0/Obligations.lean ====
section
/-!
DEFINITION. The statements about this model. Each docstring names the rules of the specification it rests on; where a
statement rests on a choice of the model it names the log entry.
-/

open Sys2Proof Sys2Proof.Machine

/-! ### Encoding -/

/-- Decoding the bytes of an encoded well-formed instruction gives the instruction and leaves the bytes after it
(`30_encoding.md` R622, R624, R625). -/
def Obligations.DecodeOfEncode : Prop :=
  ∀ (i : Instr) (rest : List Byte), i.wellFormed = true →
    decodeBytes (bytesOfWord (encode i) ++ rest) = .ok (i, rest)

/-- A word that decodes is the encoding of the well-formed instruction it decodes to: no word has a second reading
(`30_encoding.md` R622, R626). -/
def Obligations.EncodeOfDecode : Prop :=
  ∀ (w : IWord) (i : Instr), decodeWord w = .ok i → i.wellFormed = true ∧ encode i = w

/-- Words written out from the tables of `30_encoding.md` R622, R624, R625 and the examples of `42_supervisor_instructions.md`
R755, `43_hypervisor_instructions.md` R775, R796-R798 decode to their instructions. -/
def Obligations.SampleWords : Prop :=
  decodeWord 0x00000073 = .ok .ecall ∧ decodeWord 0x00100073 = .ok .ebreak ∧
  decodeWord 0x30200073 = .ok .mret ∧ decodeWord 0x10200073 = .ok .sret ∧ decodeWord 0x10500073 = .ok .wfi ∧
  decodeWord 0x12B50073 = .ok (.sfenceVma 10 11) ∧ decodeWord 0x18100073 = .ok .sfenceInvalIr ∧
  decodeWord 0x62B50073 = .ok (.hfenceGvma 10 11) ∧ decodeWord 0x26B50073 = .ok (.hinvalVvma 10 11) ∧
  decodeWord 0x6002C373 = .ok (.hlvB 6 5) ∧ decodeWord 0x6832C373 = .ok (.hlvxWu 6 5) ∧
  decodeWord 0x6E62C073 = .ok (.hsvD 6 5) ∧ decodeWord 0x30529073 = .ok (.csrrw 0 0x305 5) ∧
  decodeWord 0x30046073 = .ok (.csrrsi 0 0x300 8)

/-- A SYSTEM word that encodes no instruction of the table raises an illegal-instruction exception when it is fetched. The
source says so of no such word: of reserved words (`30_encoding.md` R629) and of those left to custom use (R628;
`41_machine_instructions.md` R720) alike it is the decision D30 of `92_eei_decisions.md`, as entry 28 (DEDUCED) reads it. -/
def Obligations.ReservedSystemWordsTrap : Prop :=
  ∀ (s t : State) (w : IWord), fieldOpcode w.toNat = opSystem → (∀ i : Instr, i.wellFormed = true → encode i ≠ w) →
    s.fetches w t → step s = .next (t.raise (illegalExc w))

/-! ### The step and interrupts -/

/-- When the word fetched decodes to an instruction, the step is that instruction's meaning in the state the fetch leaves, which
differs from the one before only in the memory system and in MTIP and MSIP, brought up to date first
(`60_exceptions.md` R844; `20_memory.md` R451; entry 7). -/
def Obligations.StepRunsDecoded : Prop :=
  ∀ (s t : State) (w : IWord) (i : Instr), s.fetches w t → decodeWord w = .ok i →
    step s = exec i t ∧ t.sansMemory = s.syncIrq.sansMemory

/-- In M-mode with four-byte instructions: when the four bytes of main memory at an aligned `pc`, fetchable under PMA and PMP
and not stored over since a FENCE.I, decode to an instruction, the step is that instruction's meaning (`20_memory.md` R451,
R474) in the state in which MTIP and MSIP have been brought up to date, which is the model's choice (entry 7, DESIGN CHOICE).
-/
def Obligations.StepInMachineMode : Prop :=
  ∀ (s : State) (i : Instr) (a : Nat), s.inputs = [] → s.wait = none → s.syncIrq.takeable = none →
    s.priv = .m → s.v = false → s.hasC = false → a = (maskX s.xlen s.pc).toNat → a % 4 = 0 →
    (∀ p ∈ s.pmps false, p = s.pmp) → s.codeOld = [] → s.pmpCheck s.pmp .fetch .m a 4 = true →
    s.pmaOk .fetch a 4 = true → s.mainMemory a 4 → decodeBytes (Memory.bytes s.mem a 4) = .ok (i, []) →
    step s = exec i s.syncIrq

/-- An interrupt that is taken is pending and individually enabled, and the mode it is taken into has it globally enabled: M
unless in M-mode with MIE=0, S (HS) only below M and from S-mode with SIE=1, VS only with V=1 and from VS-mode with SIE=1
(`60_exceptions.md` R841). -/
def Obligations.TakenInterruptIsEnabled : Prop :=
  ∀ (s : State) (i : Nat), s.modeOk → s.takeable = some i →
    s.mip.getLsbD i = true ∧ s.mie.getLsbD i = true ∧
    match s.destination true i with
    | .m => s.priv ≠ .m ∨ s.mst.mie = true
    | .s => s.priv ≠ .m ∧ (s.v = true ∨ s.priv = .u ∨ s.mst.sie = true)
    | .vs => s.v = true ∧ (s.priv = .u ∨ s.vst.sie = true)

/-- Where a pending, enabled, undelegated interrupt is globally enabled, the next step takes such an interrupt into M-mode:
its number in `mcause` under the Interrupt bit, `mtval` zero, `mepc` the address of the instruction not yet executed
(`60_exceptions.md` R841, R842, R850-R853; that the very next step takes it is the decision D37 of R844). Pending means
pending once MTIP and MSIP have been brought up to date, which the model does first in each step (entry 7, DESIGN CHOICE);
which addresses `mepc` holds: entry 42 (DESIGN CHOICE). -/
def Obligations.EnabledInterruptIsTaken : Prop :=
  ∀ s : State, s.inputs = [] → s.wait = none → (s.priv ≠ .m ∨ s.mst.mie = true) →
    s.syncIrq.mip &&& s.syncIrq.mie &&& ~~~s.syncIrq.mideleg ≠ 0 →
    ∃ (t : State) (i : Nat), step s = .next t ∧
      s.syncIrq.mip.getLsbD i = true ∧ s.syncIrq.mie.getLsbD i = true ∧ s.mideleg.getLsbD i = false ∧
      t.priv = .m ∧ t.v = false ∧ t.mst.mie = false ∧ t.mst.mpie = s.mst.mie ∧ t.mst.mpp = s.priv ∧
      EpcHolds s.cfg s.mxlen s.pc t.m.epc ∧
      t.m.cause = BitVec.ofNat 64 (2 ^ (xlenBits s.mxlen - 1) + i) ∧ t.m.tval = 0 ∧
      t.sansTrapM = s.syncIrq.sansTrapM

/-! ### Traps -/

/-- A trap that is not delegated, or is taken from M-mode, goes to M-mode and writes there what `60_exceptions.md` R850, R852,
R856 and `61_exceptions_hypervisor.md` R944 say, and nothing else; which addresses `mepc` and `mtval` hold: entry 42 (DESIGN
CHOICE). -/
def Obligations.TrapIntoM : Prop :=
  ∀ (s : State) (intr : Bool) (e : Exc),
    (s.priv = .m ∨ (if intr then s.mideleg else s.medeleg).getLsbD e.cause = false) →
    let t := s.takeTrap intr e
    t.priv = .m ∧ t.v = false ∧ t.mst.mpie = s.mst.mie ∧ t.mst.mie = false ∧ t.mst.mpp = s.priv ∧
    EpcHolds s.cfg s.mxlen s.pc t.m.epc ∧
    t.m.cause = BitVec.ofNat 64 (e.cause + if intr then 2 ^ (xlenBits s.mxlen - 1) else 0) ∧
    TvalHolds s.cfg s.mxlen e.tval t.m.tval ∧
    (s.hasH = true → t.mst.mpv = s.v ∧ t.mst.gva = e.gva ∧ t.m.tval2 = maskX s.mxlen e.tval2 ∧ t.m.tinst = e.tinst) ∧
    (s.hasH = false →
      t.mst.mpv = s.mst.mpv ∧ t.mst.gva = s.mst.gva ∧ t.m.tval2 = s.m.tval2 ∧ t.m.tinst = s.m.tinst) ∧
    t.pc = s.toReg s.mxlen ((s.m.tvec &&& ~~~(3 : Word)) +
      if intr = true ∧ s.m.tvec &&& 3 = 1 then BitVec.ofNat 64 (4 * e.cause) else 0) ∧
    t.sansTrapM = s.sansTrapM

/-- A trap from below M-mode that is delegated to S-mode but not on to VS-mode goes to S-mode (HS-mode) and writes there what
`60_exceptions.md` R850 and `61_exceptions_hypervisor.md` R945 say, and nothing else; which addresses `sepc` and `stval` hold:
entry 42 (DESIGN CHOICE). -/
def Obligations.TrapIntoS : Prop :=
  ∀ (s : State) (intr : Bool) (e : Exc),
    s.priv ≠ .m → (if intr then s.mideleg else s.medeleg).getLsbD e.cause = true →
    (s.v = false ∨ (if intr then s.hideleg else s.hedeleg).getLsbD e.cause = false) →
    let t := s.takeTrap intr e
    t.priv = .s ∧ t.v = false ∧ t.mst.spie = s.mst.sie ∧ t.mst.sie = false ∧ t.mst.spp = decide (s.priv = .s) ∧
    EpcHolds s.cfg s.sxlen s.pc t.sc.epc ∧
    t.sc.cause = BitVec.ofNat 64 (e.cause + if intr then 2 ^ (xlenBits s.sxlen - 1) else 0) ∧
    TvalHolds s.cfg s.sxlen e.tval t.sc.tval ∧
    (s.hasH = true → t.hst.spv = s.v ∧ t.hst.gva = e.gva ∧
      t.hst.spvp = (if s.v then decide (s.priv = .s) else s.hst.spvp) ∧
      t.h.tval = maskX s.sxlen e.tval2 ∧ t.h.tinst = e.tinst) ∧
    (s.hasH = false → t.hst = s.hst ∧ t.h = s.h) ∧
    t.pc = s.toReg s.sxlen ((s.sc.tvec &&& ~~~(3 : Word)) +
      if intr = true ∧ s.sc.tvec &&& 3 = 1 then BitVec.ofNat 64 (4 * e.cause) else 0) ∧
    t.sansTrapS = s.sansTrapS

/-- A trap with V=1 that both delegations pass on goes to VS-mode and writes there what `61_exceptions_hypervisor.md` R946
says, and nothing else; interrupts 10, 6, 2 are reported as 9, 5, 1 (`13_state_hypervisor_csrs.md` R303); which addresses
`vsepc` and `vstval` hold: entry 42 (DESIGN CHOICE). -/
def Obligations.TrapIntoVs : Prop :=
  ∀ (s : State) (intr : Bool) (e : Exc),
    s.priv ≠ .m → s.v = true → (if intr then s.mideleg else s.medeleg).getLsbD e.cause = true →
    (if intr then s.hideleg else s.hedeleg).getLsbD e.cause = true →
    let t := s.takeTrap intr e
    let code := if intr = true ∧ (e.cause = 10 ∨ e.cause = 6 ∨ e.cause = 2) then e.cause - 1 else e.cause
    t.priv = .s ∧ t.v = true ∧ t.vst.spie = s.vst.sie ∧ t.vst.sie = false ∧ t.vst.spp = decide (s.priv = .s) ∧
    EpcHolds s.cfg s.vsxlen s.pc t.vs.epc ∧
    t.vs.cause = BitVec.ofNat 64 (code + if intr then 2 ^ (xlenBits s.vsxlen - 1) else 0) ∧
    TvalHolds s.cfg s.vsxlen e.tval t.vs.tval ∧
    t.pc = s.toReg s.vsxlen ((s.vs.tvec &&& ~~~(3 : Word)) +
      if intr = true ∧ s.vs.tvec &&& 3 = 1 then BitVec.ofNat 64 (4 * code) else 0) ∧
    t.sansTrapVs = s.sansTrapVs

/-- A trap never goes to a less privileged mode: VU below VS and U, VS below HS, HS below M (`60_exceptions.md` R810, R846). -/
def Obligations.TrapsNeverGoDown : Prop :=
  ∀ (s : State) (intr : Bool) (e : Exc),
    let t := s.takeTrap intr e
    rank s.priv s.v ≤ rank t.priv t.v

/-- An illegal-instruction or virtual-instruction exception on a word reports the code and, where the platform's policy has it
informative, the word as trap value, else zero (`11_state_machine_csrs.md` R173, `61_exceptions_hypervisor.md` R932). -/
def Obligations.InstructionTrapValues : Prop :=
  ∀ (s : State) (w : IWord),
    s.raise (illegalExc w) =
      s.takeTrap false
        { cause := 2, tval := if s.cfg.xtvalPolicy.getLsbD 2 then w.setWidth 64 else 0, gva := false, tval2 := 0, tinst := 0 } ∧
    s.raise (virtualExc w) =
      s.takeTrap false
        { cause := 22, tval := if s.cfg.xtvalPolicy.getLsbD 22 then w.setWidth 64 else 0, gva := false, tval2 := 0
          tinst := 0 }

/-- ECALL takes the environment-call exception of its mode, with a trap value of zero (`41_machine_instructions.md` R700,
R701). -/
def Obligations.EcallTraps : Prop :=
  ∀ s : State, exec .ecall s = .next (s.takeTrap false
    { cause := if s.priv = .m then 11 else if s.priv = .s then (if s.v then 10 else 9) else 8
      tval := 0, gva := false, tval2 := 0, tinst := 0 })

/-- EBREAK takes a breakpoint exception whose trap value is its own address, or zero where the platform's policy has it so
(`41_machine_instructions.md` R701, R702). -/
def Obligations.EbreakTraps : Prop :=
  ∀ s : State, exec .ebreak s = .next (s.takeTrap false
    { cause := 3, tval := if s.cfg.xtvalPolicy.getLsbD 3 then maskX s.xlen s.pc else 0
      gva := s.cfg.xtvalPolicy.getLsbD 3 && s.v, tval2 := 0, tinst := 0 })

/-! ### Returns -/

/-- MRET in M-mode: the stack is popped, the mode is that of MPP and MPV, MPRV is cleared below M-mode, `pc` is `mepc` as it
reads, the instruction retires, and the reservation may be cleared (`41_machine_instructions.md` R704, R708). -/
def Obligations.MretReturns : Prop :=
  ∀ s : State, s.priv = .m → ∃ t, exec .mret s = .next t ∧
    t.priv = s.mst.mpp ∧ t.v = (s.hasH && decide (s.mst.mpp ≠ .m) && s.mst.mpv) ∧
    t.mst.mie = s.mst.mpie ∧ t.mst.mpie = true ∧ t.mst.mpp = (if s.hasU then .u else .m) ∧
    t.mst.mpv = (!s.hasH && s.mst.mpv) ∧ t.mst.mprv = (s.mst.mprv && decide (s.mst.mpp = .m)) ∧
    t.pc = s.toReg (s.xlenOf s.mst.mpp t.v) (if s.hasC then s.m.epc &&& ~~~(1 : Word) else s.m.epc &&& ~~~(3 : Word)) ∧
    t.cnt.instret = (if s.cnt.inhibit.getLsbD 2 then s.cnt.instret else s.cnt.instret + 1) ∧
    ReservationMayClear s t ∧ t.sansMret = s.sansMret

/-- SRET with V=0, in M-mode or in S-mode with TSR=0: the stack of `mstatus` is popped, the mode is that of SPP and SPV, MPRV
is cleared, `pc` is `sepc` as it reads (`41_machine_instructions.md` R706, R707, R708). -/
def Obligations.SretReturns : Prop :=
  ∀ s : State, s.hasS = true → s.v = false → (s.priv = .m ∨ (s.priv = .s ∧ s.mst.tsr = false)) →
    ∃ t, exec .sret s = .next t ∧
    t.priv = (if s.mst.spp then .s else .u) ∧ t.v = (s.hasH && s.hst.spv) ∧
    t.mst.sie = s.mst.spie ∧ t.mst.spie = true ∧ t.mst.spp = false ∧ t.mst.mprv = false ∧
    t.hst.spv = (!s.hasH && s.hst.spv) ∧
    t.pc = s.toReg (s.xlenOf t.priv t.v) (if s.hasC then s.sc.epc &&& ~~~(1 : Word) else s.sc.epc &&& ~~~(3 : Word)) ∧
    t.cnt.instret = (if s.cnt.inhibit.getLsbD 2 then s.cnt.instret else s.cnt.instret + 1) ∧
    ReservationMayClear s t ∧ t.sansSret = s.sansSret

/-- SRET in VS-mode with VTSR=0, whatever TSR: the stack of `vsstatus` is popped, V stays 1, `pc` is `vsepc` as it reads
(`41_machine_instructions.md` R706, R708). -/
def Obligations.SretReturnsInGuest : Prop :=
  ∀ s : State, s.hasS = true → s.v = true → s.priv = .s → s.hst.vtsr = false →
    ∃ t, exec .sret s = .next t ∧
    t.priv = (if s.vst.spp then .s else .u) ∧ t.v = true ∧
    t.vst.sie = s.vst.spie ∧ t.vst.spie = true ∧ t.vst.spp = false ∧ t.mst.mprv = false ∧
    t.pc = s.toReg (s.xlenOf t.priv true) (if s.hasC then s.vs.epc &&& ~~~(1 : Word) else s.vs.epc &&& ~~~(3 : Word)) ∧
    t.cnt.instret = (if s.cnt.inhibit.getLsbD 2 then s.cnt.instret else s.cnt.instret + 1) ∧
    ReservationMayClear s t ∧ t.sansSretVs = s.sansSretVs

/-- Where MRET and SRET may not execute, they raise the exception of `41_machine_instructions.md` R704, R706 (table R722). -/
def Obligations.ReturnPermissions : Prop :=
  ∀ s : State,
    (s.priv ≠ .m → RaisesIllegal .mret s) ∧
    (s.hasS = false → RaisesIllegal .sret s) ∧
    (s.priv = .u → s.v = false → RaisesIllegal .sret s) ∧
    (s.priv = .s → s.v = false → s.mst.tsr = true → RaisesIllegal .sret s) ∧
    (s.hasS = true → s.priv = .u → s.v = true → RaisesVirtual .sret s) ∧
    (s.hasS = true → s.priv = .s → s.v = true → s.hst.vtsr = true → RaisesVirtual .sret s)

/-! ### WFI -/

/-- A WFI that nothing guards retires at once where an enabled interrupt is pending, or where the schedule asks for no stall,
and changes nothing else; so does a guarded one with a time limit, where an enabled interrupt is pending
(`41_machine_instructions.md` R712-R714; the schedule: entry 8). -/
def Obligations.WfiCompletes : Prop :=
  ∀ s : State, s.wait = none →
    ((s.priv = .m ∨ (s.mst.tw = false ∧ s.priv = .s ∧ (s.v = false ∨ s.hst.vtw = false)) ∨
        (s.mst.tw = false ∧ s.priv = .u ∧ s.v = false ∧ s.hasS = false)) ∧
      (s.stallHint = 0 ∨ s.mip &&& s.mie ≠ 0)) ∨
    (s.mip &&& s.mie ≠ 0 ∧ 0 < s.cfg.wfiTimeout) →
    ∃ t, exec .wfi s = .next t ∧ Retired s t ∧
      { t.sansProgress with stallHint := 0 } = { s.sansProgress with stallHint := 0 }

/-- A guarded WFI that does not stall raises its exception: illegal instruction below M-mode with TW=1 and in U-mode where
S-mode exists, virtual instruction with TW=0 in VU-mode and in VS-mode with VTW=1 (`41_machine_instructions.md` R712, R716).
It does not stall with `WFI_TIMEOUT`=0, and then not even where an enabled interrupt is pending, nor where the schedule asks
for no stall and none is pending; that, and that the stall asked for is used up, is the model's choice (entry 8, DESIGN
CHOICE). -/
def Obligations.WfiTraps : Prop :=
  ∀ s : State, (s.cfg.wfiTimeout = 0 ∨ (s.stallHint = 0 ∧ s.mip &&& s.mie = 0)) → s.wait = none → s.priv ≠ .m →
    ((s.mst.tw = true ∨ (s.priv = .u ∧ s.v = false ∧ s.hasS = true)) →
      exec .wfi s = .next (({ s with stallHint := 0 } : State).raise (illegalExc (encode .wfi)))) ∧
    (s.mst.tw = false → s.v = true → (s.priv = .u ∨ s.hst.vtw = true) →
      exec .wfi s = .next (({ s with stallHint := 0 } : State).raise (virtualExc (encode .wfi))))

/-- With no enabled interrupt pending a WFI may stall for as long as the schedule asks: one that nothing guards (in M-mode, in
S-mode or HS-mode with TW=0, in VS-mode with TW=0 and VTW=0, in U-mode with TW=0 and no S-mode), and one that is guarded for
at most `WFI_TIMEOUT` steps. A stalled hart retires the WFI when an enabled interrupt is pending; otherwise, when its stall is
over, it retires it or, where it was guarded, raises the exception of the guard; until then only the stall gets shorter
(`41_machine_instructions.md` R712-R714, R716). The length of a stall (entry 8) and that MTIP and MSIP are brought up to date
first in each step (entry 7) are the model's choices (DESIGN CHOICE). -/
def Obligations.WfiStalls : Prop :=
  ∀ s : State,
    (s.mip &&& s.mie = 0 → 0 < s.stallHint →
      ((s.priv = .m ∨ (s.mst.tw = false ∧ s.priv = .s ∧ (s.v = false ∨ s.hst.vtw = false)) ∨
          (s.mst.tw = false ∧ s.priv = .u ∧ s.v = false ∧ s.hasS = false)) →
        exec .wfi s = .next { s with stallHint := 0, wait := some { left := s.stallHint, guard := none } }) ∧
      (s.priv ≠ .m → 0 < s.cfg.wfiTimeout →
        ((s.mst.tw = true ∨ (s.priv = .u ∧ s.v = false ∧ s.hasS = true)) →
          exec .wfi s =
            .next { s with
              stallHint := 0, wait := some { left := min s.stallHint s.cfg.wfiTimeout, guard := some 2 } }) ∧
        (s.mst.tw = false → s.v = true → (s.priv = .u ∨ s.hst.vtw = true) →
          exec .wfi s =
            .next { s with
              stallHint := 0, wait := some { left := min s.stallHint s.cfg.wfiTimeout, guard := some 22 } }))) ∧
    (s.inputs = [] → ∀ w : Wait, s.wait = some w →
      ((s.syncIrq.mip &&& s.syncIrq.mie ≠ 0 ∨ (w.left = 0 ∧ w.guard = none)) →
        ∃ t, step s = .next t ∧ Retired s t ∧ t.wait = none ∧
          { t.sansProgress with wait := none } = { s.syncIrq.sansProgress with wait := none }) ∧
      (s.syncIrq.mip &&& s.syncIrq.mie = 0 →
        (∀ n, w.left = n + 1 → step s = .next { s.syncIrq with wait := some { w with left := n } }) ∧
        (w.left = 0 → w.guard = some 2 →
          step s = .next (({ s.syncIrq with wait := none } : State).raise (illegalExc (encode .wfi)))) ∧
        (w.left = 0 → w.guard = some 22 →
          step s = .next (({ s.syncIrq with wait := none } : State).raise (virtualExc (encode .wfi))))))

/-! ### Fences -/

/-- SFENCE.VMA where it is permitted: it retires and changes only the caches. Unless its address is not a valid virtual
address it removes exactly the records in its scope of `satp` (with V=1 of the current virtual machine's `vsatp`) and those
that a SINVAL or HINVAL had marked, and everything that translation could still use from before is fenced in that scope; with
both operands `x0` no cached translation of that space remains, from whatever root, and with V=0 no earlier PMP setting, SBE or
PBMTE is used. An address that is not valid: no effect (`42_supervisor_instructions.md` R741-R748; `20_memory.md` R446, R475;
what may still be used: entry 11; that with XLEN 64 every address is valid where the scheme is Sv32: entry 39, DESIGN CHOICE).
-/
def Obligations.SfenceVma : Prop :=
  ∀ (s : State) (rs1 rs2 : Nat) (va asid : Option Nat), s.regsOk [rs1, rs2] = true → s.hasS = true →
    (paging s.cfg = true ∨ s.cfg.sfenceBareIllegal = false) →
    (s.priv = .m ∨ (s.priv = .s ∧ (if s.v then s.hst.vtvm else s.mst.tvm) = false)) →
    va = (if rs1 = 0 then none else some (s.readX rs1).toNat) →
    asid = s.fenceAsid (if s.v then s.vsxlen else s.sxlen) rs2 →
    ∃ t, exec (.sfenceVma rs1 rs2) s = .next t ∧ Retired s t ∧ t.sansProgress.sansXlat = s.sansProgress.sansXlat ∧
      (validVa (if s.v then s.vsxlen else s.sxlen) (if s.v then s.vs.atp else s.sc.atp) (s.fenceAddr rs1) = false →
        t.xlat = s.xlat) ∧
      (validVa (if s.v then s.vsxlen else s.sxlen) (if s.v then s.vs.atp else s.sc.atp) (s.fenceAddr rs1) = true →
        (∀ r, r ∈ t.xlat.tlb ↔ r ∈ s.xlat.tlb ∧ r.doomed = false ∧
          ¬(r.space = (if s.v then .vs s.vmid else .hs) ∧ InScope r va asid)) ∧
        AllFenced t (if s.v then .vs s.vmid va asid else .hs va asid)) ∧
      (rs1 = 0 → rs2 = 0 →
        (∀ r ∈ t.xlat.tlb, r.space ≠ (if s.v then .vs s.vmid else .hs)) ∧
        (s.v = false → (∀ p ∈ t.pmps false, p = s.pmp) ∧ (∀ g, (t.walkSbe g).1 = s.mst.sbe) ∧
          (t.walkPbmte false).1 = s.m.pbmte))

/-- SINVAL.VMA where it is permitted: it retires and changes only the caches. Unless its address is not a valid virtual
address it marks every record in its scope for removal and no other, and fences nothing yet; an address that is not valid: no
effect (`42_supervisor_instructions.md` R748; when the removal is complete: entry 12; which addresses are valid where the scheme
is Sv32: entry 39, DESIGN CHOICE). -/
def Obligations.SinvalVma : Prop :=
  ∀ (s : State) (rs1 rs2 : Nat) (va asid : Option Nat), s.regsOk [rs1, rs2] = true → s.cfg.svinval = true →
    s.hasS = true → (paging s.cfg = true ∨ s.cfg.sfenceBareIllegal = false) →
    (s.priv = .m ∨ (s.priv = .s ∧ (if s.v then s.hst.vtvm else s.mst.tvm) = false)) →
    va = (if rs1 = 0 then none else some (s.readX rs1).toNat) →
    asid = s.fenceAsid (if s.v then s.vsxlen else s.sxlen) rs2 →
    ∃ t, exec (.sinvalVma rs1 rs2) s = .next t ∧ Retired s t ∧
      { t.sansProgress with xlat := s.xlat } = s.sansProgress ∧
      (validVa (if s.v then s.vsxlen else s.sxlen) (if s.v then s.vs.atp else s.sc.atp) (s.fenceAddr rs1) = false →
        t.xlat = s.xlat) ∧
      (validVa (if s.v then s.vsxlen else s.sxlen) (if s.v then s.vs.atp else s.sc.atp) (s.fenceAddr rs1) = true →
        Marks s t (fun r => r.space = (if s.v then .vs s.vmid else .hs) ∧ InScope r va asid))

/-- SFENCE.W.INVAL and SFENCE.INVAL.IR where they are permitted: each retires and changes only the caches. The first only orders
earlier stores before later invalidations; the second only completes the invalidations that SINVAL and HINVAL instructions
scheduled, whose records go (`42_supervisor_instructions.md` R749, R750, R753). -/
def Obligations.SvinvalFences : Prop :=
  ∀ s : State, s.cfg.svinval = true → s.hasS = true → s.priv ≠ .u →
    (∃ t, exec .sfenceWInval s = .next t ∧ Retired s t ∧
      { t.sansProgress with xlat := s.xlat } = s.sansProgress ∧
      t.xlat = { s.xlat with hist := .order :: s.xlat.hist } ∧ t.changes = s.changes) ∧
    (∃ t, exec .sfenceInvalIr s = .next t ∧ Retired s t ∧
      { t.sansProgress with xlat := s.xlat } = s.sansProgress ∧
      (∀ r, r ∈ t.xlat.tlb ↔ r ∈ s.xlat.tlb ∧ r.doomed = false) ∧
      t.xlat.hist = s.xlat.hist.map fun h => match h with | .inval p _ => .inval p true | h => h)

/-- The sequence SFENCE.W.INVAL, SINVAL.VMA, SFENCE.INVAL.IR runs and does what SFENCE.VMA with the operands of the SINVAL.VMA
does: no record in its scope remains, and everything that translation could still use from before is fenced in that scope
(`42_supervisor_instructions.md` R754). -/
def Obligations.SinvalSequence : Prop :=
  ∀ (s : State) (rs1 rs2 : Nat) (va asid : Option Nat), s.regsOk [rs1, rs2] = true → s.cfg.svinval = true →
    s.hasS = true → (paging s.cfg = true ∨ s.cfg.sfenceBareIllegal = false) →
    (s.priv = .m ∨ (s.priv = .s ∧ (if s.v then s.hst.vtvm else s.mst.tvm) = false)) →
    validVa (if s.v then s.vsxlen else s.sxlen) (if s.v then s.vs.atp else s.sc.atp) (s.fenceAddr rs1) = true →
    va = (if rs1 = 0 then none else some (s.readX rs1).toNat) →
    asid = s.fenceAsid (if s.v then s.vsxlen else s.sxlen) rs2 →
    ∃ t u w, exec .sfenceWInval s = .next t ∧ exec (.sinvalVma rs1 rs2) t = .next u ∧ exec .sfenceInvalIr u = .next w ∧
      w.mem = s.mem ∧
      (∀ r, r ∈ w.xlat.tlb ↔ r ∈ s.xlat.tlb ∧ r.doomed = false ∧
        ¬(r.space = (if s.v then .vs s.vmid else .hs) ∧ InScope r va asid)) ∧
      AllFenced w (if s.v then .vs s.vmid va asid else .hs va asid)

/-- Who may execute SFENCE.VMA and SINVAL.VMA, and what they raise otherwise (`42_supervisor_instructions.md` R741, R748);
that they are illegal on an implementation without paging where `SFENCE_BARE_ILLEGAL` says so is the decision D33 of R752, and
that a word naming a register the base does not have is illegal is entry 19. -/
def Obligations.SfencePermissions : Prop :=
  ∀ (s : State) (rs1 rs2 : Nat), ∀ f ∈ supervisorFences rs1 rs2,
    (s.hasS = false → RaisesIllegal f.instr s) ∧
    (s.regsOk [rs1, rs2] = false → RaisesIllegal f.instr s) ∧
    (f.svinval = true → s.cfg.svinval = false → RaisesIllegal f.instr s) ∧
    (s.priv = .u → s.v = false → RaisesIllegal f.instr s) ∧
    (s.priv = .s → s.v = false → s.mst.tvm = true → RaisesIllegal f.instr s) ∧
    (s.regsOk [rs1, rs2] = true → (f.svinval = true → s.cfg.svinval = true) → s.hasS = true → s.v = true →
      (s.priv = .u ∨ (s.priv = .s ∧ s.hst.vtvm = true)) → RaisesVirtual f.instr s) ∧
    ((s.priv = .m ∨ (s.priv = .s ∧ (if s.v then s.hst.vtvm else s.mst.tvm) = false)) →
      (paging s.cfg = false → s.cfg.sfenceBareIllegal = true → RaisesIllegal f.instr s) ∧
      (s.regsOk [rs1, rs2] = true → (f.svinval = true → s.cfg.svinval = true) → s.hasS = true →
        (paging s.cfg = true ∨ s.cfg.sfenceBareIllegal = false) → ∃ t, exec f.instr s = .next t ∧ Retired s t))

/-- Who may execute SFENCE.W.INVAL and SFENCE.INVAL.IR, and what they raise otherwise: TVM and VTVM have no say
(`42_supervisor_instructions.md` R753); the row of U-mode is this specification's decision D34, not the source's. -/
def Obligations.SvinvalPermissions : Prop :=
  ∀ s : State, ∀ i ∈ [Instr.sfenceWInval, Instr.sfenceInvalIr],
    (s.cfg.svinval = false ∨ s.hasS = false → RaisesIllegal i s) ∧
    (s.priv = .u → s.v = false → RaisesIllegal i s) ∧
    (s.cfg.svinval = true → s.hasS = true → s.priv = .u → s.v = true → RaisesVirtual i s) ∧
    (s.cfg.svinval = true → s.hasS = true → s.priv ≠ .u → ∃ t, exec i s = .next t ∧ Retired s t)

/-- HFENCE.VVMA in M-mode or HS-mode, whatever TVM and VTVM: it retires and changes only the caches. Unless its address is not
a valid guest virtual address it removes exactly the records in its scope of the VS-stage of the current VMID and those marked
before, and everything from before is fenced in that scope; with both operands `x0` no cached VS-stage translation of that VMID
remains, from whatever root, and no earlier VSBE or `henvcfg.PBMTE` is used. That an address that is not valid has no effect is
no sentence of the source but an inference (R790 has it [derived] from `42_supervisor_instructions.md` R743; entry 39, DEDUCED)
(`43_hypervisor_instructions.md` R790, R793; what may still be used: entry 11). -/
def Obligations.HfenceVvma : Prop :=
  ∀ (s : State) (rs1 rs2 : Nat) (va : Option Nat), s.hasH = true → s.v = false → s.priv ≠ .u →
    va = (if rs1 = 0 then none else some (s.readX rs1).toNat) →
    ∃ t, exec (.hfenceVvma rs1 rs2) s = .next t ∧ Retired s t ∧ t.sansProgress.sansXlat = s.sansProgress.sansXlat ∧
      (validVa s.vsxlen s.vs.atp (s.fenceAddr rs1) = false → t.xlat = s.xlat) ∧
      (validVa s.vsxlen s.vs.atp (s.fenceAddr rs1) = true →
        (∀ r, r ∈ t.xlat.tlb ↔ r ∈ s.xlat.tlb ∧ r.doomed = false ∧
          ¬(r.space = .vs s.vmid ∧ InScope r va (s.fenceAsid s.vsxlen rs2))) ∧
        AllFenced t (.vs s.vmid va (s.fenceAsid s.vsxlen rs2))) ∧
      (rs1 = 0 → rs2 = 0 →
        (∀ r ∈ t.xlat.tlb, r.space ≠ .vs s.vmid) ∧ t.walkVsbe.1 = s.hst.vsbe ∧ t.walkHpbmte.1 = s.h.pbmte)

/-- HFENCE.GVMA in M-mode, or in HS-mode with TVM=0: it retires and changes only the caches. Unless its address is none of the
scheme it removes exactly the records of the G-stage of its VMID and guest physical address, four times the operand, and those
marked before, and everything from before is fenced in that scope; with both operands `x0` the records of both guest stages,
and no earlier Bare `hgatp`, PMP setting of guest accesses, SBE or PBMTE is used by the G-stage. That an address that is none
of the scheme has no effect is no sentence of the source but an inference (R794 has it [derived], by analogy with
`42_supervisor_instructions.md` R743; entry 39, DEDUCED) (`43_hypervisor_instructions.md` R792-R794; what may still be used:
entry 11). -/
def Obligations.HfenceGvma : Prop :=
  ∀ (s : State) (rs1 rs2 : Nat) (gpa : Option Nat), s.hasH = true → s.v = false →
    (s.priv = .m ∨ (s.priv = .s ∧ s.mst.tvm = false)) →
    gpa = (if rs1 = 0 then none else some ((s.readX rs1).toNat * 4)) →
    ∃ t, exec (.hfenceGvma rs1 rs2) s = .next t ∧ Retired s t ∧ t.sansProgress.sansXlat = s.sansProgress.sansXlat ∧
      (validGpa s.sxlen s.h.gatp gpa = false → t.xlat = s.xlat) ∧
      (validGpa s.sxlen s.h.gatp gpa = true → AllFenced t (.g gpa (s.fenceVmid rs2)) ∧
        (rs1 ≠ 0 ∨ rs2 ≠ 0 → ∀ r, r ∈ t.xlat.tlb ↔ r ∈ s.xlat.tlb ∧ r.doomed = false ∧
          ¬((∃ n, r.space = .g n ∧ (rs2 = 0 ∨ s.fenceVmid rs2 = some n)) ∧ InScope r gpa none))) ∧
      (rs1 = 0 → rs2 = 0 →
        (∀ r, r ∈ t.xlat.tlb ↔ r ∈ s.xlat.tlb ∧ r.doomed = false ∧ r.space = .hs) ∧
        t.wasBare = false ∧ (∀ p ∈ t.pmps true, p = s.pmp) ∧ (t.walkSbe true).1 = s.mst.sbe ∧
        (t.walkPbmte true).1 = s.m.pbmte)

/-- HINVAL.VVMA and HINVAL.GVMA where they are permitted: each retires, changes only the caches, and unless its address is not
valid marks for removal, as SINVAL.VMA does, exactly the records that HFENCE.VVMA and HFENCE.GVMA would remove: for
HINVAL.GVMA with both operands `x0` those of both guest stages (`43_hypervisor_instructions.md` R792, R796, R798; entry 12).
That an address that is not valid has no effect, tested against `vsatp` and `hgatp`, is no sentence of the source but an
inference (R790 and R794 have it [derived] for the fences; entry 39, DEDUCED). -/
def Obligations.HinvalSchedules : Prop :=
  ∀ (s : State) (rs1 rs2 : Nat) (va gpa : Option Nat), s.cfg.svinval = true → s.hasH = true → s.v = false →
    s.priv ≠ .u →
    va = (if rs1 = 0 then none else some (s.readX rs1).toNat) →
    gpa = (if rs1 = 0 then none else some ((s.readX rs1).toNat * 4)) →
    (∃ t, exec (.hinvalVvma rs1 rs2) s = .next t ∧ Retired s t ∧
      { t.sansProgress with xlat := s.xlat } = s.sansProgress ∧
      (validVa s.vsxlen s.vs.atp (s.fenceAddr rs1) = false → t.xlat = s.xlat) ∧
      (validVa s.vsxlen s.vs.atp (s.fenceAddr rs1) = true →
        Marks s t (fun r => r.space = .vs s.vmid ∧ InScope r va (s.fenceAsid s.vsxlen rs2)))) ∧
    (s.mst.tvm = false ∨ s.priv = .m →
      ∃ t, exec (.hinvalGvma rs1 rs2) s = .next t ∧ Retired s t ∧
        { t.sansProgress with xlat := s.xlat } = s.sansProgress ∧
        (validGpa s.sxlen s.h.gatp gpa = false → t.xlat = s.xlat) ∧
        (rs1 = 0 → rs2 = 0 → Marks s t (fun r => r.space ≠ .hs)) ∧
        (rs1 ≠ 0 ∨ rs2 ≠ 0 → validGpa s.sxlen s.h.gatp gpa = true →
          Marks s t (fun r => (∃ n, r.space = .g n ∧ (rs2 = 0 ∨ s.fenceVmid rs2 = some n)) ∧ InScope r gpa none)))

/-- Who may execute the fences of the hypervisor extension, and what they raise otherwise (`43_hypervisor_instructions.md`
R793; for HINVAL.VVMA and HINVAL.GVMA also R796, R798). -/
def Obligations.HfencePermissions : Prop :=
  ∀ (s : State) (rs1 rs2 : Nat), ∀ f ∈ hypervisorFences rs1 rs2,
    (s.hasH = false → RaisesIllegal f.instr s) ∧
    (f.svinval = true → s.cfg.svinval = false → RaisesIllegal f.instr s) ∧
    (s.v = false → s.priv = .u → RaisesIllegal f.instr s) ∧
    (s.v = false → s.priv = .s → f.gStage = true → s.mst.tvm = true → RaisesIllegal f.instr s) ∧
    ((f.svinval = true → s.cfg.svinval = true) → s.hasH = true → s.v = true → RaisesVirtual f.instr s) ∧
    ((f.svinval = true → s.cfg.svinval = true) → s.hasH = true → s.v = false →
      (s.priv = .m ∨ (s.priv = .s ∧ (f.gStage = true → s.mst.tvm = false))) → ∃ t, exec f.instr s = .next t ∧ Retired s t)

/-! ### Loads and stores of the hypervisor extension -/

/-- Each HLV and HLVX where it is permitted, with both stages Bare, at an aligned address of main memory that PMP and PMA grant
at the privilege SPVP names: the register receives the bytes read in the guest's byte order, sign- or zero-extended, `x0`
nothing, and nothing else changes (`43_hypervisor_instructions.md` R771-R773, R776-R785). -/
def Obligations.HlvLoads : Prop :=
  ∀ (s : State) (rd rs1 : Nat), rd < 32 → ∀ f ∈ loadForms rd rs1,
    s.hasH = true → s.v = false → (f.wide = true → s.xlen = .x64) → (s.priv = .u → s.hst.hu = true) →
    s.guestBare → s.hlsvAligned rs1 f.bytes → s.guestAccessible f.acc (s.hlsvAddr rs1).toNat f.bytes →
    ∃ t, exec f.instr s = .next t ∧ Retired s t ∧
      t.rawX rd = (if rd = 0 then 0 else s.toReg s.xlen (f.value (assemble
        (if s.hst.spvp then s.hst.vsbe else s.vst.ube) (Memory.bytes s.mem (s.hlsvAddr rs1).toNat f.bytes)))) ∧
      (∀ n, n < 32 → n ≠ rd → t.rawX n = s.rawX n) ∧ t.sansProgress.sansX = s.sansProgress.sansX

/-- Each HSV where it is permitted, with both stages Bare, at an aligned address of main memory that PMP and PMA grant at the
privilege SPVP names: the low bytes of the register are stored there in the guest's byte order, and no other byte, no register,
no memory-mapped register and no cached translation changes (`43_hypervisor_instructions.md` R771, R772, R774, R786-R789). -/
def Obligations.HsvStores : Prop :=
  ∀ (s : State) (rs2 rs1 : Nat), ∀ f ∈ storeForms rs2 rs1,
    s.memOk → s.hasH = true → s.v = false → (f.wide = true → s.xlen = .x64) → (s.priv = .u → s.hst.hu = true) →
    s.guestBare → s.hlsvAligned rs1 f.bytes → s.guestAccessible .store (s.hlsvAddr rs1).toNat f.bytes →
    ∃ t, exec f.instr s = .next t ∧ Retired s t ∧
      Memory.bytes t.mem (s.hlsvAddr rs1).toNat f.bytes =
        disassemble (if s.hst.spvp then s.hst.vsbe else s.vst.ube) f.bytes (s.readX rs2).toNat ∧
      (∀ k, k < (s.hlsvAddr rs1).toNat ∨ (s.hlsvAddr rs1).toNat + f.bytes ≤ k →
        Memory.read t.mem k = Memory.read s.mem k) ∧
      t.timer = s.timer ∧ t.xlat.tlb = s.xlat.tlb ∧ t.sansProgress.sansMemory = s.sansProgress.sansMemory

/-- However an HLV, HLVX or HSV that may execute ends, with any translation: it has retired, having written no register but a
load's destination, or it takes an exception of a load (4, 5, 13, 21) or of a store (6, 7, 15, 23); before that only the
memory system has changed (`43_hypervisor_instructions.md` R773, R774; `60_exceptions.md` R812). -/
def Obligations.HlsvEnds : Prop :=
  ∀ (s t : State) (rd rs2 rs1 : Nat), s.hasH = true → s.v = false → s.xlen = .x64 → (s.priv = .u → s.hst.hu = true) →
    (∀ f ∈ loadForms rd rs1, exec f.instr s = .next t →
      (Retired s t ∧ (∀ n, n < 32 → n ≠ rd → t.rawX n = s.rawX n) ∧
        t.sansProgress.sansX.sansMemory = s.sansProgress.sansX.sansMemory) ∨
      ∃ (u : State) (e : Exc), t = u.raise e ∧ u.sansMemory = s.sansMemory ∧ e.cause ∈ [4, 5, 13, 21]) ∧
    (∀ f ∈ storeForms rs2 rs1, exec f.instr s = .next t →
      (Retired s t ∧ t.sansProgress.sansMemory = s.sansProgress.sansMemory) ∨
      ∃ (u : State) (e : Exc), t = u.raise e ∧ u.sansMemory = s.sansMemory ∧ e.cause ∈ [6, 7, 15, 23])

/-- Where A and D bits are not set by hardware, no HLV or HLVX changes memory or a memory-mapped register, with any translation
and however it ends (`21_virtual_memory.md` R547, `43_hypervisor_instructions.md` R773). -/
def Obligations.HlvLeavesMemory : Prop :=
  ∀ (s t : State) (rd rs1 : Nat), s.cfg.adHardware = false → ∀ f ∈ loadForms rd rs1, exec f.instr s = .next t →
    t.mem = s.mem ∧ t.timer = s.timer

/-- HSV.D and then HLV.D of the same address gives the stored doubleword, whatever the guest's byte order
(`43_hypervisor_instructions.md` R783, R789). -/
def Obligations.StoreThenLoad : Prop :=
  ∀ (s : State) (rs2 rs1 rd : Nat), 0 < rd → rd < 32 → s.memOk → s.hasH = true → s.v = false →
    s.xlen = .x64 → (s.priv = .u → s.hst.hu = true) → s.guestBare → s.hlsvAligned rs1 8 →
    s.guestAccessible .store (s.hlsvAddr rs1).toNat 8 → s.guestAccessible .load (s.hlsvAddr rs1).toNat 8 →
    ∃ t u, exec (.hsvD rs2 rs1) s = .next t ∧ exec (.hlvD rd rs1) t = .next u ∧ u.rawX rd = s.toReg .x64 (s.readX rs2)

/-- Who may not execute HLV, HLVX and HSV, and what they raise then (`43_hypervisor_instructions.md` R771). That an RV64-only
form is illegal where the XLEN of the executing mode is 32 is the decision D29 of `30_encoding.md` R627, and that it is so
with V=1 too, before the virtual-instruction exception, is R771's own inference, marked [derived] from
`61_exceptions_hypervisor.md` R928. -/
def Obligations.HlsvPermissions : Prop :=
  ∀ (s : State) (rd rs2 rs1 : Nat),
    ∀ f ∈ (loadForms rd rs1).map (fun f => (f.instr, f.wide)) ++ (storeForms rs2 rs1).map (fun f => (f.instr, f.wide)),
    (s.hasH = false → RaisesIllegal f.1 s) ∧
    (f.2 = true → s.xlen = .x32 → RaisesIllegal f.1 s) ∧
    (s.hasH = true → (f.2 = true → s.xlen = .x64) → s.v = true → RaisesVirtual f.1 s) ∧
    (s.v = false → s.priv = .u → s.hst.hu = false → RaisesIllegal f.1 s)

/-! ### CSR instructions -/

/-- Each CSR instruction whose registers exist and that passes the access check completes: `rd` receives the value read,
zero-extended to XLEN and before the write; where the instruction writes, the CSR is written with the new value computed from
the stored one; the counter of retired instructions counts it unless it was written (`40_csr_access.md` R660-R668, R674, R676,
R678). Where the write is of an illegal value into a WLRL field on an implementation that raises an exception for it, and only
there, it is an illegal instruction (`10_state.md` R41; entry 15). What a read-modify-write starts from where a signal drives
bits: entry 32. -/
def Obligations.CsrInstructions : Prop :=
  ∀ (s : State) (rd csr src : Nat) (c : Csr) (written : Option State), csrOf csr = some c →
    ∀ f ∈ csrForms s rd csr src, s.regsOk f.regs = true → s.csrVerdict csr c f.writes = .ok →
    written = (if f.writes then (s.writeX rd (maskX s.xlen (s.csrRead (s.redirect c)))).csrWrite (s.redirect c)
        (maskX s.xlen (f.newval (s.csrStored (s.redirect c))))
      else some (s.writeX rd (maskX s.xlen (s.csrRead (s.redirect c))))) →
    (∀ u, written = some u → ∃ t, exec f.instr s = .next t ∧ t.pc = s.nextPc ∧
      t.cnt.instret = (if s.cnt.inhibit.getLsbD 2 ∨ (f.writes = true ∧ (c = .minstret ∨ c = .minstreth)) then u.cnt.instret
        else u.cnt.instret + 1) ∧
      t.sansProgress = u.sansProgress) ∧
    (written = none → RaisesIllegal f.instr s ∧ s.cfg.wlrlTraps = true ∧
      s.redirect c ∈ [Csr.mcause, .scause, .vscause, .hstatus])

/-- The access check. An instruction that names a register the base does not have (entry 19), a number allocated to no CSR, an
absent CSR, a write of a read-only CSR, too low a mode, and with V=1 a machine CSR raise an illegal-instruction exception;
with V=1 a hypervisor or VS CSR, or from VU-mode a supervisor CSR, raises a virtual-instruction exception (`40_csr_access.md`
R670). Of the CSRs that the mode reaches, R673 has conditions: `satp` with TVM=1, in VS-mode with VTVM=1; `hgatp` with TVM=1;
the floating-point CSRs with FS Off (that with V=1 either of `mstatus.FS` and `vsstatus.FS` counts alone is this
specification's reading of `13_state_hypervisor_csrs.md` R363, `90_conflicts.md` C7); a counter that is not enabled
(`12_state_supervisor_csrs.md` R240, `13_state_hypervisor_csrs.md` R330). Every other access passes the check. -/
def Obligations.CsrPermissions : Prop :=
  ∀ (s : State) (rd csr src : Nat), ∀ f ∈ csrForms s rd csr src,
    (s.regsOk f.regs = false → RaisesIllegal f.instr s) ∧
    (csrOf csr = none → RaisesIllegal f.instr s) ∧
    ∀ c, csrOf csr = some c →
      (s.implemented c = false → RaisesIllegal f.instr s) ∧
      (f.writes = true → csrReadOnly csr = true → RaisesIllegal f.instr s) ∧
      (s.v = false → s.modeLevel < csrLevel csr → RaisesIllegal f.instr s) ∧
      (s.v = true → csrLevel csr = 3 → RaisesIllegal f.instr s) ∧
      (s.regsOk f.regs = true → s.implemented c = true → (f.writes = true → csrReadOnly csr = false) →
        (s.v = true → (csrLevel csr = 2 ∨ (csrLevel csr = 1 ∧ s.priv = .u)) → RaisesVirtual f.instr s) ∧
        (s.reaches csr →
          (c = .satp → s.priv = .s → s.v = false → s.mst.tvm = true → RaisesIllegal f.instr s) ∧
          (c = .satp → s.priv = .s → s.v = true → s.hst.vtvm = true → RaisesVirtual f.instr s) ∧
          (c = .hgatp → s.priv = .s → s.mst.tvm = true → RaisesIllegal f.instr s) ∧
          (c ∈ [Csr.fflags, .frm, .fcsr] → (s.mst.fs = 0 ∨ (s.v = true ∧ s.vst.fs = 0)) → RaisesIllegal f.instr s) ∧
          (∀ n, c.counterBit = some n → ¬s.counterOpen n →
            if s.v = true ∧ s.cnt.mcounteren.getLsbD n = true ∧ s.cnt.hcounteren.getLsbD n = false then
              RaisesVirtual f.instr s
            else RaisesIllegal f.instr s) ∧
          ((c = .satp → s.priv = .s → (if s.v then s.hst.vtvm else s.mst.tvm) = false) →
            (c = .hgatp → s.priv = .s → s.mst.tvm = false) →
            (c ∈ [Csr.fflags, .frm, .fcsr] → s.mst.fs ≠ 0 ∧ (s.v = true → s.vst.fs ≠ 0)) →
            (∀ n, c.counterBit = some n → s.counterOpen n) → s.csrVerdict csr c f.writes = .ok)))

/-- A CSR instruction that passes the access check changes no integer register of the base but `rd`, no memory, no
memory-mapped register, no input signal and no mode, whatever CSR it writes, `misa` included (`40_csr_access.md` R660, R674; a
write of `misa` that selects RV32I gives the registers that it brings UNSPECIFIED values, `11_state_machine_csrs.md` R87). -/
def Obligations.CsrFrame : Prop :=
  ∀ (s t : State) (rd csr src : Nat) (c : Csr), csrOf csr = some c → s.cfg.wlrlTraps = false →
    ∀ f ∈ csrForms s rd csr src, s.regsOk f.regs = true → s.csrVerdict csr c f.writes = .ok → exec f.instr s = .next t →
      (∀ n, n < 32 → s.hasReg n = true → n ≠ rd → t.rawX n = s.rawX n) ∧ t.priv = s.priv ∧ t.v = s.v ∧ t.mem = s.mem ∧
      t.timer = s.timer ∧ t.wires = s.wires ∧ t.wait = s.wait ∧ t.codeOld = s.codeOld ∧ t.cfg = s.cfg ∧ t.inputs = s.inputs

/-- `mscratch` in M-mode: CSRRW gives its old value to `rd` and it holds all MXLEN bits written, nothing else changing
(`11_state_machine_csrs.md` R156). -/
def Obligations.MscratchHolds : Prop :=
  ∀ (s : State) (rd rs1 : Nat), rd < 32 → s.regsOk [rd, rs1] = true → s.priv = .m → s.v = false →
    ∃ t, exec (.csrrw rd 0x340 rs1) s = .next t ∧ Retired s t ∧ t.m.scratch = s.readX rs1 ∧
      t.rawX rd = (if rd = 0 then 0 else s.toReg s.mxlen (maskX s.mxlen s.m.scratch)) ∧
      (∀ n, n < 32 → n ≠ rd → t.rawX n = s.rawX n) ∧
      ({ t.sansProgress.sansX with m := { t.m with scratch := s.m.scratch } } : State) = s.sansProgress.sansX

/-- Registers that hold what is written and nothing else, written in M-mode of a 64-bit hart by CSRRW: the scratch registers
of S-mode and VS-mode and `htimedelta` every value; `sepc`, `vsepc` and `mepc` every address they can hold without its bit 0,
`stval` and `vstval` every value they can hold, and in place of another some invalid address (`12_state_supervisor_csrs.md`
R244, R246, R254, R257; `13_state_hypervisor_csrs.md` R334, R372-R378; `11_state_machine_csrs.md` R158-R160). Which addresses
can be held is the implementation's (`XEPC_LEGAL`, `XTVAL_LEGAL` of `00_scope.md` section 4; entry 42, DESIGN CHOICE). -/
def Obligations.PlainRegisters : Prop :=
  ∀ (s : State) (rs1 : Nat), s.hasReg rs1 = true → s.priv = .m → s.v = false → s.hasH = true → s.mxlen = .x64 →
    s.sxlen = .x64 → s.vsxlen = .x64 →
    (∀ p ∈ plainWrites s (s.readX rs1),
      ∃ t, exec (.csrrw 0 p.1 rs1) s = .next t ∧ Retired s t ∧ t.sansProgress = p.2.sansProgress) ∧
    (∀ p ∈ epcRegisters s,
      ∃ t held, exec (.csrrw 0 p.1 rs1) s = .next t ∧ Retired s t ∧ EpcHolds s.cfg .x64 (s.readX rs1) held ∧
        t.sansProgress = (p.2 held).sansProgress) ∧
    (∀ p ∈ tvalRegisters s,
      ∃ t held, exec (.csrrw 0 p.1 rs1) s = .next t ∧ Retired s t ∧ TvalHolds s.cfg .x64 (s.readX rs1) held ∧
        t.sansProgress = (p.2 held).sansProgress)

/-- With MXLEN=SXLEN=64 `sstatus` reads as the fields of `mstatus` that `12_state_supervisor_csrs.md` R220 lists, and a write of
it leaves the machine-level fields alone. -/
def Obligations.SstatusIsView : Prop :=
  ∀ s : State, s.mxlen = .x64 → s.sxlen = .x64 →
    s.csrRead .sstatus = s.csrRead .mstatus &&& 0x80000003000DE762 ∧
    ∀ (w : Word) (t : State), s.csrWrite .sstatus w = some t →
      t.mst.mie = s.mst.mie ∧ t.mst.mpie = s.mst.mpie ∧ t.mst.mpp = s.mst.mpp ∧ t.mst.mprv = s.mst.mprv ∧
      t.mst.tvm = s.mst.tvm ∧ t.mst.tw = s.mst.tw ∧ t.mst.tsr = s.mst.tsr ∧ t.mst.sxl = s.mst.sxl ∧
      t.mst.sbe = s.mst.sbe ∧ t.mst.mbe = s.mst.mbe ∧ t.mst.mpv = s.mst.mpv ∧ t.mst.gva = s.mst.gva

/-- A write of `satp` with a MODE that is not supported has no effect on it or on anything else
(`12_state_supervisor_csrs.md` R271). -/
def Obligations.SatpUnsupportedMode : Prop :=
  ∀ (s : State) (rs1 : Nat), s.hasReg rs1 = true → s.hasS = true → s.v = false →
    (s.priv = .m ∨ (s.priv = .s ∧ s.mst.tvm = false)) →
    satpModeOk s.cfg s.sxlen (atpMode s.sxlen (maskX s.sxlen (s.readX rs1))) = false →
    ∃ t, exec (.csrrw 0 0x180 rs1) s = .next t ∧ Retired s t ∧ t.sansProgress = s.sansProgress

/-- No CSR instruction but one of `misa`, whose change of MXLEN re-interprets registers, changes the configuration or address
register of a locked PMP entry, nor the address register before a locked top-of-range entry (`20_memory.md` R440). -/
def Obligations.PmpLockHolds : Prop :=
  ∀ (s t : State) (rd csr src i : Nat), csr ≠ 0x301 → i < s.cfg.pmpN → pmpL (s.pmp.cfgAt i) = true →
    ∀ f ∈ csrForms s rd csr src, exec f.instr s = .next t →
      t.pmp.cfgAt i = s.pmp.cfgAt i ∧ t.pmp.addr[i]? = s.pmp.addr[i]? ∧
      (0 < i → pmpA (s.pmp.cfgAt i) = 1 → t.pmp.addr[i - 1]? = s.pmp.addr[i - 1]?)

/-- The PMP check. With no entry implemented every access passes. Otherwise the lowest-numbered entry that matches any byte of
the access decides it: it fails unless the entry matches all bytes, and then it passes in M-mode where the entry is not locked
and otherwise where the entry grants the access; where no entry matches any byte, an access passes in M-mode only
(`20_memory.md` R444, whose clause for no implemented entry is this specification's own inference, marked [derived] there). -/
def Obligations.PmpFirstMatchDecides : Prop :=
  ∀ (s : State) (p : Pmp) (acc : Acc) (priv : Priv) (a n : Nat),
    (s.cfg.pmpN = 0 → s.pmpCheck p acc priv a n = true) ∧
    (∀ i lo hi, i < s.cfg.pmpN → (∀ j < i, PmpMisses s p j a n) →
      p.range s.cfg.pmpG (xlenBits s.mxlen) i = some (lo, hi) → a < hi → lo < a + n →
      s.pmpCheck p acc priv a n = (decide (lo ≤ a ∧ a + n ≤ hi) &&
        ((decide (priv = .m) && !pmpL (p.cfgAt i)) || pmpGrants acc (p.cfgAt i)))) ∧
    (0 < s.cfg.pmpN → (∀ j < s.cfg.pmpN, PmpMisses s p j a n) → s.pmpCheck p acc priv a n = decide (priv = .m))

/-- `mip.SEIP`: what is read is the OR of the software-writable bit and the signal, and CSRRW, CSRRS and CSRRC in M-mode compute
the new bit from the register operand and the software-writable bit alone (`11_state_machine_csrs.md` R134; where S-mode and the
bit are implemented). -/
def Obligations.SeipReadModifyWrite : Prop :=
  ∀ (s : State) (rd rs1 : Nat), s.priv = .m → s.v = false → s.hasS = true → s.cfg.mipImpl.getLsbD 9 = true → rd < 32 →
    s.regsOk [rd, rs1] = true →
    s.mip.getLsbD 9 = (s.pend.seipB || s.wires.seip) ∧
    ∀ f ∈ [(Instr.csrrw rd 0x344 rs1, (s.readX rs1).getLsbD 9),
           (Instr.csrrs rd 0x344 rs1, s.pend.seipB || (s.readX rs1).getLsbD 9),
           (Instr.csrrc rd 0x344 rs1, s.pend.seipB && !(s.readX rs1).getLsbD 9)],
      ∃ t, exec f.1 s = .next t ∧ (0 < rd → (t.rawX rd).getLsbD 9 = (s.pend.seipB || s.wires.seip)) ∧
        t.pend.seipB = f.2 ∧ t.wires = s.wires

/-- Counters: reading `minstret` gives the count before the instruction, which it then counts; a written `minstret` holds the
value written; `time`, where the mode may read it, reads `mtime`, with `htimedelta` added when V=1 (`40_csr_access.md` R678;
`11_state_machine_csrs.md` R141, R147; `12_state_supervisor_csrs.md` R240, `13_state_hypervisor_csrs.md` R330, R334; 64-bit
hart). -/
def Obligations.Counters : Prop :=
  ∀ (s : State) (rd rs1 : Nat), 0 < rd → rd < 32 → s.regsOk [rd, rs1] = true → s.mxlen = .x64 →
    (s.priv = .m → s.v = false →
      (∃ t, exec (.csrrs rd 0xB02 0) s = .next t ∧ Retired s t ∧ t.rawX rd = s.toReg .x64 s.cnt.instret) ∧
      (∃ t, exec (.csrrw rd 0xB02 rs1) s = .next t ∧ t.pc = s.nextPc ∧ t.cnt.instret = s.readX rs1)) ∧
    (s.cfg.hasTime = true → s.xlen = .x64 → s.counterOpen 1 →
      ∃ t, exec (.csrrs rd 0xC01 0) s = .next t ∧ Retired s t ∧
        t.rawX rd = s.toReg .x64 (if s.v then s.timer.mtime + s.h.timedelta else s.timer.mtime))

/-- Writing `fcsr` stores the eight bits it has in the layout the model presumes (entry 24, PRESUMED). Where that changes its
contents FS becomes Dirty, with V=1 both in `mstatus` and in `vsstatus` (`11_state_machine_csrs.md` R115;
`13_state_hypervisor_csrs.md` R363); where it does not, R116 leaves to the implementation whether FS does. With FS Off, or
with V=1 that of `vsstatus`, the access is an illegal instruction (`11_state_machine_csrs.md` R114; that with V=1 either field
counts is this specification's reading of R363, `90_conflicts.md` C7). -/
def Obligations.FcsrWrites : Prop :=
  ∀ (s : State) (rd rs1 : Nat), s.hasF = true →
    (s.regsOk [rd, rs1] = true → s.mst.fs ≠ 0 → (s.v = true → s.vst.fs ≠ 0) →
      ∃ t, exec (.csrrw rd 0x003 rs1) s = .next t ∧ Retired s t ∧ t.fcsr = (s.readX rs1).setWidth 8 ∧
        ((t.mst.fs = 3 ∧ t.vst.fs = if s.v then 3 else s.vst.fs) ∨
          (t.mst.fs = s.mst.fs ∧ t.vst.fs = s.vst.fs ∧ (s.readX rs1).setWidth 8 = s.fcsr))) ∧
    ((s.mst.fs = 0 ∨ (s.v = true ∧ s.vst.fs = 0)) → RaisesIllegal (.csrrw rd 0x003 rs1) s)

/-- A write of `misa` that would disable C where the next instruction is not four-byte aligned leaves `misa` and everything else
unchanged; the instruction still retires (`11_state_machine_csrs.md` R86). -/
def Obligations.MisaGuard : Prop :=
  ∀ (s : State) (rs1 : Nat), s.priv = .m → s.v = false → s.hasC = true → s.nextPc.toNat % 4 ≠ 0 →
    s.hasReg rs1 = true → s.cfg.extWritable.getLsbD letterC = true → s.cfg.extMax.getLsbD letterC = true →
    (s.readX rs1).getLsbD letterC = false →
    ∃ t, exec (.csrrw 0 0x301 rs1) s = .next t ∧ Retired s t ∧ t.sansProgress = s.sansProgress

/-! ### Translation -/

/-- Sv39 from S-mode or U-mode with no cached translation and no setting to fence: an address whose bits 63:39 are not copies
of bit 38 is a page fault; so is one whose root entry, in readable main memory, is malformed; and a root entry that is a
permitted leaf of an aligned gigapage with A, and for a store D, set gives the address, the memory type and whether it is
global (`21_virtual_memory.md` R512, R530, R540, R544, R549). -/
def Obligations.Sv39RootEntry : Prop :=
  ∀ (s : State) (o : Origin) (priv : Priv) (a pte : Nat), priv ≠ .m → s.hasS = true → s.sxlen = .x64 →
    atpMode .x64 s.sc.atp = 8 →
    (¬(o.va.toNat / 2 ^ 38 = 0 ∨ o.va.toNat / 2 ^ 38 = 2 ^ 26 - 1) → translateAddr o priv false s = .trap o.pageFault s) ∧
    ((o.va.toNat / 2 ^ 38 = 0 ∨ o.va.toNat / 2 ^ 38 = 2 ^ 26 - 1) →
      s.xlat = noXlat →
      a = atpPpn .x64 s.sc.atp * 4096 + o.va.toNat / 2 ^ 30 % 512 * 8 → s.pmpCheck s.pmp .load .s a 8 = true →
      s.pmaOk .load a 8 = true → s.mainMemory a 8 → pte = assemble s.mst.sbe (Memory.bytes s.mem a 8) →
      (pteBad 8 2 s.cfg.hasSvnapot (s.cfg.hasSvpbmt && s.m.pbmte) pte = true →
        ∃ t, translateAddr o priv false s = .trap o.pageFault t ∧ t.sansXlat = s.sansXlat) ∧
      (pteBad 8 2 s.cfg.hasSvnapot (s.cfg.hasSvpbmt && s.m.pbmte) pte = false → ptePointer pte = false →
        permitted o.acc priv s.mst.sum s.mst.mxr pte = true → ptePpn 8 pte % 2 ^ 18 = 0 → pteA pte = true →
        (o.acc = .store → pteD pte = true) →
        ∃ t, translateAddr o priv false s =
            .ok { addr := ptePpn 8 pte / 2 ^ 18 * 2 ^ 30 + o.va.toNat % 2 ^ 30, pbmt := ptePbmt pte, global := pteG pte } t ∧
          t.sansXlat = s.sansXlat))

/-! ### Invariants -/

/-- Every step keeps memory in canonical form: addresses strictly rising, no byte listed that equals what an unlisted one
reads as (entry 3: an unlisted byte reads zero). -/
def Obligations.MemoryStaysCanonical : Prop := ∀ s t : State, s.memOk → step s = .next t → t.memOk

/-- Every step keeps the modes legal: V is 1 only with the hypervisor extension and outside M-mode, and the current mode and the
one in MPP are modes the hart has (`10_state.md` R20, R21; `11_state_machine_csrs.md` R102). -/
def Obligations.ModesStayLegal : Prop := ∀ s t : State, s.legalModes → step s = .next t → t.legalModes

/-- Every step keeps it so that MPRV is 1 only in M-mode (`41_machine_instructions.md` R707). -/
def Obligations.MprvOnlyInM : Prop := ∀ s t : State, s.modeOk → s.mprvOk → step s = .next t → t.mprvOk

/-- Every step keeps `pc` aligned to IALIGN, where the platform's reset and NMI vectors are (`20_memory.md` R413). -/
def Obligations.PcStaysAligned : Prop :=
  ∀ s t : State, s.entriesOk → s.pcOk → step s = .next t → t.entriesOk ∧ t.pcOk

/-- No instruction executed below M-mode that does not trap into M-mode changes a machine-level register: the trap and
configuration registers, `misa`, the M-level fields of `mstatus` (MPRV it may clear), PMP, the machine-level counters and
their registers, but that `minstret` may count it; of `mie` and `mip` only bits that `mideleg` delegates change, and of the
pending bits below them only those of VS-level (`10_state.md` R30; `60_exceptions.md` R850; `12_state_supervisor_csrs.md`
R220, R232; `13_state_hypervisor_csrs.md` R306-R310, R390). -/
def Obligations.MachineRegistersGuarded : Prop :=
  ∀ (i : Instr) (s t : State), s.priv ≠ .m → exec i s = .next t → t.priv ≠ .m →
    { t.m with ie := 0 } = { s.m with ie := 0 } ∧ t.m.ie &&& ~~~s.mideleg = s.m.ie &&& ~~~s.mideleg ∧
    t.misa = s.misa ∧ t.pmp = s.pmp ∧
    t.mst.mie = s.mst.mie ∧ t.mst.mpie = s.mst.mpie ∧ t.mst.mpp = s.mst.mpp ∧ t.mst.tvm = s.mst.tvm ∧
    t.mst.tw = s.mst.tw ∧ t.mst.tsr = s.mst.tsr ∧ t.mst.sxl = s.mst.sxl ∧ t.mst.sbe = s.mst.sbe ∧ t.mst.mbe = s.mst.mbe ∧
    t.mst.mpv = s.mst.mpv ∧ t.mst.gva = s.mst.gva ∧ (t.mst.mprv = s.mst.mprv ∨ t.mst.mprv = false) ∧
    t.pend.seipB = s.pend.seipB ∧ t.pend.stip = s.pend.stip ∧ t.pend.mtip = s.pend.mtip ∧ t.pend.msip = s.pend.msip ∧
    t.pend.mtipDue = s.pend.mtipDue ∧ t.pend.msipDue = s.pend.msipDue ∧
    (s.mideleg.getLsbD 1 = false → t.pend.ssip = s.pend.ssip) ∧
    t.pend.plat &&& ~~~s.mideleg = s.pend.plat &&& ~~~s.mideleg ∧
    (s.hasH = false → t.pend.vssip = s.pend.vssip ∧ t.pend.vstip = s.pend.vstip ∧ t.pend.vseip = s.pend.vseip) ∧
    t.cnt.mcounteren = s.cnt.mcounteren ∧ t.cnt.inhibit = s.cnt.inhibit ∧ t.cnt.cycle = s.cnt.cycle ∧
    (t.cnt.instret = s.cnt.instret ∨ t.cnt.instret = s.cnt.instret + 1) ∧
    t.cnt.hpmcounter = s.cnt.hpmcounter ∧ t.cnt.hpmevent = s.cnt.hpmevent

/-- No instruction executed with V=1 that leaves V at 1 changes a hypervisor register (`hcounteren`, and the pending bits of
`hvip` and the enable bits of `hie` but those that `hideleg` passes on, among them), an HS-level trap register, `satp`, or a
field of the HS-level `sstatus` other than FS and VS; `scounteren` and `senvcfg`, which VS-mode shares, not from VU-mode
(`10_state.md` R33; `13_state_hypervisor_csrs.md` R287, R302, R306-R310, R330, R363, R366). -/
def Obligations.GuestLeavesHypervisorAlone : Prop :=
  ∀ (i : Instr) (s t : State), s.modeOk → s.v = true → exec i s = .next t → t.v = true →
    t.h = s.h ∧ t.hst = s.hst ∧ { t.sc with fiom := false } = { s.sc with fiom := false } ∧
    { t.mst with fs := 0, vs := 0, mprv := false } = { s.mst with fs := 0, vs := 0, mprv := false } ∧
    t.m.ie &&& ~~~s.hideleg = s.m.ie &&& ~~~s.hideleg ∧
    t.pend.vstip = s.pend.vstip ∧ t.pend.vseip = s.pend.vseip ∧
    (s.hideleg.getLsbD 2 = false → t.pend.vssip = s.pend.vssip) ∧
    t.pend.ssip = s.pend.ssip ∧ t.pend.stip = s.pend.stip ∧ t.pend.seipB = s.pend.seipB ∧
    t.pend.plat &&& ~~~s.hideleg = s.pend.plat &&& ~~~s.hideleg ∧ t.cnt.hcounteren = s.cnt.hcounteren ∧
    (s.priv = .u → t.cnt.scounteren = s.cnt.scounteren ∧ t.sc.fiom = s.sc.fiom)

/-! ### Reset -/

/-- The machine right after reset meets the invariants. The reset state is that of the default configuration, whose vectors
are the model's choice (entry 1), as are MPP at reset (entry 2) and that memory then lists nothing (entry 3), all DESIGN
CHOICES. -/
def Obligations.ResetMeetsInvariants : Prop :=
  State.reset.memOk ∧ State.reset.legalModes ∧ State.reset.mprvOk ∧ State.reset.entriesOk ∧ State.reset.pcOk

/-- What reset leaves, for any implementation parameters: M-mode with V=0 at the reset vector; MIE=0, MPRV=0 and MBE=0 where
little-endian is supported; the widest MXLEN and the maximal extensions, with I selected over E (`11_state_machine_csrs.md`
R84); the reset cause; no reservation; PMP entries unlocked and off but for those the platform sets; `hgatp` and `vsatp` Bare
(`70_reset_and_hazards.md` R980, R981). -/
def Obligations.ResetValues : Prop :=
  ∀ c : Config,
    (resetWith c).priv = .m ∧ (resetWith c).v = false ∧ (resetWith c).pc = c.resetVector ∧
    (resetWith c).mst.mie = false ∧ (resetWith c).mst.mprv = false ∧
    (c.mbeSet.little = true → (resetWith c).mst.mbe = false) ∧
    (resetWith c).misa.mxl = c.mxlMax ∧ (resetWith c).misa.ext = c.letters ∧
    (c.legal = true → (resetWith c).misa.ext = c.extMax &&& ~~~(BitVec.ofNat 26 (2 ^ letterE))) ∧
    (resetWith c).m.cause = c.resetCause ∧
    (resetWith c).resv = none ∧
    (∀ i, (∀ b, (i, b) ∉ c.pmpReset) → pmpA ((resetWith c).pmp.cfgAt i) = 0 ∧ pmpL ((resetWith c).pmp.cfgAt i) = false) ∧
    atpMode (resetWith c).sxlen (resetWith c).h.gatp = 0 ∧ atpMode (resetWith c).vsxlen (resetWith c).vs.atp = 0
end

