-- ==== Sys2Proof/Laws/Memory.lean ====
section
/-!
SUPPORT. Laws of memory: reading after writing, and the canonical form.
-/

namespace Sys2Proof.Laws

open Sys2Proof.Machine

/-! ### Reading -/

@[simp] theorem read_nil (a : Nat) : Memory.read [] a = 0 := rfl

theorem read_below {m : List Host.Cell} {k : Nat} {b : Byte} {a : Nat} (h : a < k) : Memory.read ((k, b) :: m) a = 0 := by
  simp [Memory.read, h]

theorem read_head (m : List Host.Cell) (k : Nat) (b : Byte) : Memory.read ((k, b) :: m) k = b := by
  simp [Memory.read]

theorem read_above {m : List Host.Cell} {k : Nat} {b : Byte} {a : Nat} (h : k < a) :
    Memory.read ((k, b) :: m) a = Memory.read m a := by
  have h1 : ¬a < k := by omega
  have h2 : a ≠ k := by omega
  simp [Memory.read, h1, h2]

/-- Every listed address is above `k`. -/
def above (k : Nat) : List Host.Cell → Prop
  | [] => True
  | (a, _) :: _ => k < a

theorem wf_cons {k : Nat} {b : Byte} {m : List Host.Cell} :
    Memory.wf ((k, b) :: m) = true ↔ b ≠ 0 ∧ above k m ∧ Memory.wf m = true := by
  cases m with
  | nil => simp [Memory.wf, above]
  | cons c m => simp [Memory.wf, above, and_assoc]

theorem read_not_above {m : List Host.Cell} {k a : Nat} (h : above k m) (ha : a ≤ k) : Memory.read m a = 0 := by
  cases m with
  | nil => rfl
  | cons c m =>
    have : a < c.1 := by simp only [above] at h; omega
    exact read_below this

theorem above_write {m : List Host.Cell} {k a : Nat} {b : Byte} (h : above k m) (ha : k < a) :
    Memory.wf m = true → above k (Memory.write m a b) := by
  intro hw
  cases m with
  | nil => simp only [Memory.write]; split <;> simp [above, ha]
  | cons c m =>
    obtain ⟨c, d⟩ := c
    obtain ⟨-, hm, -⟩ := wf_cons.mp hw
    simp only [above] at h
    simp only [Memory.write]
    split
    · split <;> simp [above, h, ha]
    · split
      · split
        · cases m with
          | nil => trivial
          | cons e m => simp only [above] at hm ⊢; omega
        · simp [above, ha]
      · simpa [above] using h

/-- A write keeps the canonical form. -/
theorem wf_write (m : List Host.Cell) (a : Nat) (b : Byte) (h : Memory.wf m = true) :
    Memory.wf (Memory.write m a b) = true := by
  induction m with
  | nil => simp only [Memory.write]; split <;> simp_all [Memory.wf]
  | cons c m ih =>
    obtain ⟨c, d⟩ := c
    obtain ⟨hd, hm, hw⟩ := wf_cons.mp h
    simp only [Memory.write]
    split
    · split
      · exact h
      · exact wf_cons.mpr ⟨by assumption, by assumption, h⟩
    · split
      · subst_vars
        split
        · exact hw
        · exact wf_cons.mpr ⟨by assumption, hm, hw⟩
      · exact wf_cons.mpr ⟨hd, above_write hm (by omega) hw, ih hw⟩

/-- A write gives its address the byte. -/
theorem read_write_same (m : List Host.Cell) (a : Nat) (b : Byte) (h : Memory.wf m = true) :
    Memory.read (Memory.write m a b) a = b := by
  induction m with
  | nil =>
    simp only [Memory.write]
    split
    · subst_vars; rfl
    · exact read_head _ _ _
  | cons c m ih =>
    obtain ⟨c, d⟩ := c
    obtain ⟨-, hm, hw⟩ := wf_cons.mp h
    simp only [Memory.write]
    split
    · split
      · subst_vars; exact read_below (by assumption)
      · exact read_head _ _ _
    · split
      · subst_vars
        split
        · subst_vars; exact read_not_above hm (Nat.le_refl _)
        · exact read_head _ _ _
      · rw [read_above (by omega)]; exact ih hw

/-- A write leaves every other address alone. -/
theorem read_write_other (m : List Host.Cell) (a k : Nat) (b : Byte) (h : Memory.wf m = true) (hk : k ≠ a) :
    Memory.read (Memory.write m a b) k = Memory.read m k := by
  induction m with
  | nil =>
    simp only [Memory.write]
    split
    · rfl
    · rcases Nat.lt_or_gt_of_ne hk with h1 | h1
      · rw [read_below h1]; rfl
      · rw [read_above h1]
  | cons c m ih =>
    obtain ⟨c, d⟩ := c
    obtain ⟨-, hm, hw⟩ := wf_cons.mp h
    simp only [Memory.write]
    split
    · split
      · rfl
      · rcases Nat.lt_or_gt_of_ne hk with h1 | h1
        · rw [read_below h1, read_below (by omega)]
        · rw [read_above h1]
    · split
      · subst_vars
        rcases Nat.lt_or_gt_of_ne hk with h1 | h1
        · rw [read_below h1]
          split
          · exact read_not_above hm (by omega)
          · exact read_below h1
        · rw [read_above h1]
          split
          · rfl
          · exact read_above h1
      · rcases Nat.lt_trichotomy k c with h1 | h1 | h1
        · rw [read_below h1, read_below h1]
        · subst h1; rw [read_head, read_head]
        · rw [read_above h1, read_above h1]; exact ih hw

/-- Writing bytes keeps the canonical form. -/
theorem wf_writeAll (l : List Byte) (m : List Host.Cell) (a : Nat) (h : Memory.wf m = true) :
    Memory.wf (Memory.writeAll m a l) = true := by
  induction l generalizing m a with
  | nil => exact h
  | cons b l ih => exact ih _ _ (wf_write m a b h)

/-- Writing bytes leaves every address outside them alone. -/
theorem read_writeAll_other (l : List Byte) (m : List Host.Cell) (a k : Nat) (h : Memory.wf m = true)
    (hk : k < a ∨ a + l.length ≤ k) : Memory.read (Memory.writeAll m a l) k = Memory.read m k := by
  induction l generalizing m a with
  | nil => rfl
  | cons b l ih =>
    simp only [List.length_cons] at hk
    simp only [Memory.writeAll]
    rw [ih _ _ (wf_write m a b h) (by omega), read_write_other m a k b h (by omega)]

/-- Writing bytes gives each address its byte. -/
theorem read_writeAll_at (l : List Byte) (m : List Host.Cell) (a i : Nat) (h : Memory.wf m = true) (hi : i < l.length) :
    Memory.read (Memory.writeAll m a l) (a + i) = l[i] := by
  induction l generalizing m a i with
  | nil => simp at hi
  | cons b l ih =>
    simp only [Memory.writeAll]
    cases i with
    | zero =>
      rw [read_writeAll_other l _ _ _ (wf_write m a b h) (by omega)]
      simpa using read_write_same m a b h
    | succ i =>
      have := ih (Memory.write m a b) (a + 1) i (wf_write m a b h) (by simpa using hi)
      rw [show a + (i + 1) = a + 1 + i by omega]
      simpa using this

/-- Reading back what was written. -/
theorem bytes_writeAll (l : List Byte) (m : List Host.Cell) (a : Nat) (h : Memory.wf m = true) :
    Memory.bytes (Memory.writeAll m a l) a l.length = l := by
  induction l generalizing m a with
  | nil => rfl
  | cons b l ih =>
    simp only [List.length_cons, Memory.bytes, Memory.writeAll]
    rw [ih _ _ (wf_write m a b h), read_writeAll_other l _ _ _ (wf_write m a b h) (by omega), read_write_same m a b h]

@[simp] theorem bytes_length (m : List Host.Cell) (a n : Nat) : (Memory.bytes m a n).length = n := by
  induction n generalizing a with
  | zero => rfl
  | succ n ih => simp [Memory.bytes, ih]

/-- A store of the state keeps the canonical form. -/
theorem wf_storeMem (s : State) (a : Nat) (l : List Byte) (h : Memory.wf s.mem = true) :
    Memory.wf (s.storeMem a l).mem = true := by
  unfold State.storeMem; dsimp only; split <;> exact wf_writeAll l s.mem a h

/-- The memory of the machine after reset is in canonical form. -/
theorem wf_reset : Memory.wf State.reset.mem = true := rfl

/-! ### Numbers and bytes -/

@[simp] theorem leBytes_length (n v : Nat) : (leBytes n v).length = n := by
  induction n generalizing v with
  | zero => rfl
  | succ n ih => simp [leBytes, ih]

@[simp] theorem disassemble_length (big : Bool) (n v : Nat) : (disassemble big n v).length = n := by
  cases big <;> simp [disassemble]

theorem leNat_leBytes (n v : Nat) : leNat (leBytes n v) = v % 256 ^ n := by
  induction n generalizing v with
  | zero => simp [leBytes, leNat, Nat.mod_one]
  | succ n ih =>
    have h : 256 ^ (n + 1) = 256 * 256 ^ n := Nat.pow_succ'
    rw [leBytes, leNat, ih, BitVec.toNat_ofNat, h, Nat.mod_mul]

/-- A number stored and read back in one byte order. -/
theorem assemble_disassemble (big : Bool) (n v : Nat) : assemble big (disassemble big n v) = v % 256 ^ n := by
  cases big <;> simp [assemble, disassemble, leNat_leBytes]

end Sys2Proof.Laws
end

