-- ==== Sys2Proof/Laws/State.lean ====
section
/-!
SUPPORT. One lemma for each field that an update of the state leaves alone, and equations for the updates whose text
branches; what a draw can give.
-/

namespace Sys2Proof.Laws

open Sys2Proof.Machine

/-! ### Retiring -/

theorem countInstret_eq (s : State) :
    s.countInstret =
      { s with cnt := { s.cnt with
          instret := if s.cnt.inhibit.getLsbD 2 then s.cnt.instret else s.cnt.instret + 1 } } := by
  unfold State.countInstret; split <;> rfl

theorem retire_eq (s : State) :
    s.retire =
      { s with
        pc := s.nextPc
        cnt := { s.cnt with instret := if s.cnt.inhibit.getLsbD 2 then s.cnt.instret else s.cnt.instret + 1 } } := by
  unfold State.retire; rw [countInstret_eq]

theorem retired_retire (s : State) : Retired s s.retire := by rw [retire_eq]; exact ⟨rfl, rfl⟩

theorem sansProgress_retire (s : State) : s.retire.sansProgress = s.sansProgress := by rw [retire_eq]; rfl

/-- Retiring after a change that keeps `pc`, the mode, the widths and the counters. -/
theorem retired_of_eq {s u : State} (hn : u.nextPc = s.nextPc) (hc : u.cnt = s.cnt) : Retired s u.retire := by
  rw [retire_eq]; exact ⟨hn, by rw [hc]⟩

/-- Retiring after a change of the caches only. -/
theorem retire_caches (s : State) (x : Xlat) :
    Retired s ({ s with xlat := x } : State).retire ∧
    ({ s with xlat := x } : State).retire.sansProgress.sansXlat = s.sansProgress.sansXlat ∧
    ({ s with xlat := x } : State).retire.xlat = x := by
  rw [retire_eq]; exact ⟨⟨rfl, rfl⟩, rfl, rfl⟩

/-! ### Draws -/

theorem mem_dedup {α : Type} [BEq α] [LawfulBEq α] (l : List α) (a : α) : a ∈ dedup l ↔ a ∈ l := by
  induction l with
  | nil => rfl
  | cons b l ih =>
    simp only [dedup]
    split
    · rw [ih]
      refine ⟨List.mem_cons_of_mem _, fun h => ?_⟩
      rcases List.mem_cons.mp h with rfl | h
      · rename_i h2; exact List.contains_iff_mem.mp h2
      · exact h
    · simp [ih]

theorem choose_lt (s : State) (n : Nat) (h : 0 < n) : (s.choose n).1 < n := by
  unfold State.choose; split
  · exact h
  · exact Nat.mod_lt _ h

theorem choose_state (s : State) (n : Nat) : (s.choose n).2 = { s with draws := (s.choose n).2.draws } := by
  unfold State.choose; split <;> rfl

/-- A choice gives one of the candidates. -/
theorem pick_mem {α : Type} [BEq α] [LawfulBEq α] (s : State) (d : α) (l : List α) (h : l ≠ []) : (s.pick d l).1 ∈ l := by
  have hn : dedup l ≠ [] := by
    cases l with
    | nil => exact absurd rfl h
    | cons a l =>
      intro h2
      have := (mem_dedup (a :: l) a).mpr (List.mem_cons_self ..)
      rw [h2] at this; cases this
  have hl : (s.choose (dedup l).length).1 < (dedup l).length := choose_lt _ _ (List.length_pos_iff.mpr hn)
  have : (s.pick d l).1 = (dedup l)[(s.choose (dedup l).length).1] := by
    simp [State.pick, List.getD_eq_getElem?_getD, hl]
  rw [this]
  exact (mem_dedup l _).mp (List.getElem_mem hl)

/-- A choice changes the counter of draws only. -/
theorem pick_state {α : Type} [BEq α] (s : State) (d : α) (l : List α) :
    (s.pick d l).2 = { s with draws := (s.pick d l).2.draws } := choose_state s _

/-- A choice with one candidate is no draw. -/
theorem pick_one {α : Type} [BEq α] (s : State) (d a : α) : s.pick d [a] = (a, s) := rfl

/-- An xRET leaves the reservation or, with the A extension, may clear it. -/
theorem maybeClearResv_spec (s : State) :
    ∃ r n, s.maybeClearResv = { s with resv := r, draws := n } ∧ (r = s.resv ∨ (s.hasA = true ∧ r = none)) := by
  unfold State.maybeClearResv
  split
  · rename_i h
    refine ⟨(s.pick s.resv [s.resv, none]).1, (s.pick s.resv [s.resv, none]).2.draws, ?_, ?_⟩
    · exact congrArg (fun t : State => { t with resv := (s.pick s.resv [s.resv, none]).1 })
        (pick_state s s.resv [s.resv, none])
    have := pick_mem s s.resv [s.resv, none] (by simp)
    simp only [List.mem_cons, List.not_mem_nil, or_false] at this
    rcases this with h1 | h1
    · exact .inl h1
    · exact .inr ⟨h.1, h1⟩
  · exact ⟨s.resv, s.draws, rfl, .inl rfl⟩

theorem getD_mem {α : Type} (l : List α) (i : Nat) (d : α) (h : i < l.length) : l.getD i d ∈ l := by
  rw [List.getD_eq_getElem?_getD, List.getElem?_eq_getElem h]
  exact List.getElem_mem h

/-- A WARL field takes a legal value. -/
theorem warl_mem {α : Type} [BEq α] [LawfulBEq α] (f : Config.WarlField) (l : List α) (enc : α → Nat) (w : Nat) (old : α)
    (h : l ≠ []) : warl f l enc w old ∈ l := by
  unfold warl
  split
  · rename_i h2; exact List.mem_of_find?_eq_some h2
  · have hm := mem_dedup l
    have hn : dedup l ≠ [] := by
      cases l with
      | nil => exact absurd rfl h
      | cons a l => exact fun h2 => absurd ((hm a).mpr (List.mem_cons_self ..)) (by rw [h2]; exact List.not_mem_nil)
    generalize dedup l = d at hm hn
    match d, hn with
    | [a], _ => exact (hm a).mp (List.mem_singleton.mpr rfl)
    | a :: b :: r, _ => exact (hm _).mp (getD_mem _ _ _ (Nat.mod_lt _ (by simp)))

/-! ### What translation may still use -/

/-- A store changes memory, what a fetch may still see, and the history. -/
theorem storeMem_eq (s : State) (a : Nat) (l : List Byte) :
    s.storeMem a l =
      { s with
        mem := Memory.writeAll s.mem a l
        codeOld := addNew (Memory.overwritten s.mem a l) s.codeOld
        xlat := (s.storeMem a l).xlat } := by
  unfold State.storeMem; dsimp only; split <;> rfl

/-- A store leaves the cached records alone. -/
@[simp] theorem storeMem_tlb (s : State) (a : Nat) (l : List Byte) : (s.storeMem a l).xlat.tlb = s.xlat.tlb := by
  unfold State.storeMem; dsimp only; split <;> rfl

theorem setHgatp_eq (s : State) (w : Word) :
    s.setHgatp w = { s with h := { s.h with gatp := s.hgatpWord w }, xlat := (s.setHgatp w).xlat } := by
  unfold State.setHgatp; dsimp only; split <;> rfl

theorem setPmp_eq (s : State) (p : Pmp) : s.setPmp p = { s with pmp := p, xlat := (s.setPmp p).xlat } := by
  unfold State.setPmp; dsimp only; split <;> rfl

theorem putHPbmte_eq (s : State) (b : Bool) :
    s.putHPbmte b = { s with h := { s.h with pbmte := b }, xlat := (s.putHPbmte b).xlat } := by
  unfold State.putHPbmte; dsimp only; split <;> rfl

/-! ### Fields -/

@[simp] theorem writeX_pc (s : State) (n : Nat) (w : Word) : (s.writeX n w).pc = s.pc := by unfold State.writeX; split <;> rfl
@[simp] theorem writeX_priv (s : State) (n : Nat) (w : Word) : (s.writeX n w).priv = s.priv := by unfold State.writeX; split <;> rfl
@[simp] theorem writeX_v (s : State) (n : Nat) (w : Word) : (s.writeX n w).v = s.v := by unfold State.writeX; split <;> rfl
@[simp] theorem writeX_misa (s : State) (n : Nat) (w : Word) : (s.writeX n w).misa = s.misa := by unfold State.writeX; split <;> rfl
@[simp] theorem writeX_mst (s : State) (n : Nat) (w : Word) : (s.writeX n w).mst = s.mst := by unfold State.writeX; split <;> rfl
@[simp] theorem writeX_vst (s : State) (n : Nat) (w : Word) : (s.writeX n w).vst = s.vst := by unfold State.writeX; split <;> rfl
@[simp] theorem writeX_hst (s : State) (n : Nat) (w : Word) : (s.writeX n w).hst = s.hst := by unfold State.writeX; split <;> rfl
@[simp] theorem writeX_m (s : State) (n : Nat) (w : Word) : (s.writeX n w).m = s.m := by unfold State.writeX; split <;> rfl
@[simp] theorem writeX_sc (s : State) (n : Nat) (w : Word) : (s.writeX n w).sc = s.sc := by unfold State.writeX; split <;> rfl
@[simp] theorem writeX_h (s : State) (n : Nat) (w : Word) : (s.writeX n w).h = s.h := by unfold State.writeX; split <;> rfl
@[simp] theorem writeX_vs (s : State) (n : Nat) (w : Word) : (s.writeX n w).vs = s.vs := by unfold State.writeX; split <;> rfl
@[simp] theorem writeX_cnt (s : State) (n : Nat) (w : Word) : (s.writeX n w).cnt = s.cnt := by unfold State.writeX; split <;> rfl
@[simp] theorem writeX_pmp (s : State) (n : Nat) (w : Word) : (s.writeX n w).pmp = s.pmp := by unfold State.writeX; split <;> rfl
@[simp] theorem writeX_pend (s : State) (n : Nat) (w : Word) : (s.writeX n w).pend = s.pend := by unfold State.writeX; split <;> rfl
@[simp] theorem writeX_wires (s : State) (n : Nat) (w : Word) : (s.writeX n w).wires = s.wires := by unfold State.writeX; split <;> rfl
@[simp] theorem writeX_timer (s : State) (n : Nat) (w : Word) : (s.writeX n w).timer = s.timer := by unfold State.writeX; split <;> rfl
@[simp] theorem writeX_fcsr (s : State) (n : Nat) (w : Word) : (s.writeX n w).fcsr = s.fcsr := by unfold State.writeX; split <;> rfl
@[simp] theorem writeX_resv (s : State) (n : Nat) (w : Word) : (s.writeX n w).resv = s.resv := by unfold State.writeX; split <;> rfl
@[simp] theorem writeX_wait (s : State) (n : Nat) (w : Word) : (s.writeX n w).wait = s.wait := by unfold State.writeX; split <;> rfl
@[simp] theorem writeX_xlat (s : State) (n : Nat) (w : Word) : (s.writeX n w).xlat = s.xlat := by unfold State.writeX; split <;> rfl
@[simp] theorem writeX_codeOld (s : State) (n : Nat) (w : Word) : (s.writeX n w).codeOld = s.codeOld := by unfold State.writeX; split <;> rfl
@[simp] theorem writeX_mem (s : State) (n : Nat) (w : Word) : (s.writeX n w).mem = s.mem := by unfold State.writeX; split <;> rfl
@[simp] theorem writeX_cfg (s : State) (n : Nat) (w : Word) : (s.writeX n w).cfg = s.cfg := by unfold State.writeX; split <;> rfl
@[simp] theorem writeX_inputs (s : State) (n : Nat) (w : Word) : (s.writeX n w).inputs = s.inputs := by unfold State.writeX; split <;> rfl
@[simp] theorem writeX_draws (s : State) (n : Nat) (w : Word) : (s.writeX n w).draws = s.draws := by unfold State.writeX; split <;> rfl
@[simp] theorem writeX_stallHint (s : State) (n : Nat) (w : Word) : (s.writeX n w).stallHint = s.stallHint := by unfold State.writeX; split <;> rfl
@[simp] theorem writeX_mtipHold (s : State) (n : Nat) (w : Word) : (s.writeX n w).mtipHold = s.mtipHold := by unfold State.writeX; split <;> rfl
@[simp] theorem writeX_msipHold (s : State) (n : Nat) (w : Word) : (s.writeX n w).msipHold = s.msipHold := by unfold State.writeX; split <;> rfl

@[simp] theorem note_x (s : State) (h : Hist) : (s.note h).x = s.x := rfl
@[simp] theorem note_pc (s : State) (h : Hist) : (s.note h).pc = s.pc := rfl
@[simp] theorem note_priv (s : State) (h : Hist) : (s.note h).priv = s.priv := rfl
@[simp] theorem note_v (s : State) (h : Hist) : (s.note h).v = s.v := rfl
@[simp] theorem note_misa (s : State) (h : Hist) : (s.note h).misa = s.misa := rfl
@[simp] theorem note_mst (s : State) (h : Hist) : (s.note h).mst = s.mst := rfl
@[simp] theorem note_vst (s : State) (h : Hist) : (s.note h).vst = s.vst := rfl
@[simp] theorem note_hst (s : State) (h : Hist) : (s.note h).hst = s.hst := rfl
@[simp] theorem note_m (s : State) (h : Hist) : (s.note h).m = s.m := rfl
@[simp] theorem note_sc (s : State) (h : Hist) : (s.note h).sc = s.sc := rfl
@[simp] theorem note_h (s : State) (h : Hist) : (s.note h).h = s.h := rfl
@[simp] theorem note_vs (s : State) (h : Hist) : (s.note h).vs = s.vs := rfl
@[simp] theorem note_cnt (s : State) (h : Hist) : (s.note h).cnt = s.cnt := rfl
@[simp] theorem note_pmp (s : State) (h : Hist) : (s.note h).pmp = s.pmp := rfl
@[simp] theorem note_pend (s : State) (h : Hist) : (s.note h).pend = s.pend := rfl
@[simp] theorem note_wires (s : State) (h : Hist) : (s.note h).wires = s.wires := rfl
@[simp] theorem note_timer (s : State) (h : Hist) : (s.note h).timer = s.timer := rfl
@[simp] theorem note_fcsr (s : State) (h : Hist) : (s.note h).fcsr = s.fcsr := rfl
@[simp] theorem note_resv (s : State) (h : Hist) : (s.note h).resv = s.resv := rfl
@[simp] theorem note_wait (s : State) (h : Hist) : (s.note h).wait = s.wait := rfl
@[simp] theorem note_codeOld (s : State) (h : Hist) : (s.note h).codeOld = s.codeOld := rfl
@[simp] theorem note_mem (s : State) (h : Hist) : (s.note h).mem = s.mem := rfl
@[simp] theorem note_cfg (s : State) (h : Hist) : (s.note h).cfg = s.cfg := rfl
@[simp] theorem note_inputs (s : State) (h : Hist) : (s.note h).inputs = s.inputs := rfl
@[simp] theorem note_draws (s : State) (h : Hist) : (s.note h).draws = s.draws := rfl
@[simp] theorem note_stallHint (s : State) (h : Hist) : (s.note h).stallHint = s.stallHint := rfl
@[simp] theorem note_mtipHold (s : State) (h : Hist) : (s.note h).mtipHold = s.mtipHold := rfl
@[simp] theorem note_msipHold (s : State) (h : Hist) : (s.note h).msipHold = s.msipHold := rfl

@[simp] theorem storeMem_x (s : State) (a : Nat) (l : List Byte) : (s.storeMem a l).x = s.x := by rw [storeMem_eq]
@[simp] theorem storeMem_pc (s : State) (a : Nat) (l : List Byte) : (s.storeMem a l).pc = s.pc := by rw [storeMem_eq]
@[simp] theorem storeMem_priv (s : State) (a : Nat) (l : List Byte) : (s.storeMem a l).priv = s.priv := by rw [storeMem_eq]
@[simp] theorem storeMem_v (s : State) (a : Nat) (l : List Byte) : (s.storeMem a l).v = s.v := by rw [storeMem_eq]
@[simp] theorem storeMem_misa (s : State) (a : Nat) (l : List Byte) : (s.storeMem a l).misa = s.misa := by rw [storeMem_eq]
@[simp] theorem storeMem_mst (s : State) (a : Nat) (l : List Byte) : (s.storeMem a l).mst = s.mst := by rw [storeMem_eq]
@[simp] theorem storeMem_vst (s : State) (a : Nat) (l : List Byte) : (s.storeMem a l).vst = s.vst := by rw [storeMem_eq]
@[simp] theorem storeMem_hst (s : State) (a : Nat) (l : List Byte) : (s.storeMem a l).hst = s.hst := by rw [storeMem_eq]
@[simp] theorem storeMem_m (s : State) (a : Nat) (l : List Byte) : (s.storeMem a l).m = s.m := by rw [storeMem_eq]
@[simp] theorem storeMem_sc (s : State) (a : Nat) (l : List Byte) : (s.storeMem a l).sc = s.sc := by rw [storeMem_eq]
@[simp] theorem storeMem_h (s : State) (a : Nat) (l : List Byte) : (s.storeMem a l).h = s.h := by rw [storeMem_eq]
@[simp] theorem storeMem_vs (s : State) (a : Nat) (l : List Byte) : (s.storeMem a l).vs = s.vs := by rw [storeMem_eq]
@[simp] theorem storeMem_cnt (s : State) (a : Nat) (l : List Byte) : (s.storeMem a l).cnt = s.cnt := by rw [storeMem_eq]
@[simp] theorem storeMem_pmp (s : State) (a : Nat) (l : List Byte) : (s.storeMem a l).pmp = s.pmp := by rw [storeMem_eq]
@[simp] theorem storeMem_pend (s : State) (a : Nat) (l : List Byte) : (s.storeMem a l).pend = s.pend := by rw [storeMem_eq]
@[simp] theorem storeMem_wires (s : State) (a : Nat) (l : List Byte) : (s.storeMem a l).wires = s.wires := by rw [storeMem_eq]
@[simp] theorem storeMem_timer (s : State) (a : Nat) (l : List Byte) : (s.storeMem a l).timer = s.timer := by rw [storeMem_eq]
@[simp] theorem storeMem_fcsr (s : State) (a : Nat) (l : List Byte) : (s.storeMem a l).fcsr = s.fcsr := by rw [storeMem_eq]
@[simp] theorem storeMem_resv (s : State) (a : Nat) (l : List Byte) : (s.storeMem a l).resv = s.resv := by rw [storeMem_eq]
@[simp] theorem storeMem_wait (s : State) (a : Nat) (l : List Byte) : (s.storeMem a l).wait = s.wait := by rw [storeMem_eq]
@[simp] theorem storeMem_cfg (s : State) (a : Nat) (l : List Byte) : (s.storeMem a l).cfg = s.cfg := by rw [storeMem_eq]
@[simp] theorem storeMem_inputs (s : State) (a : Nat) (l : List Byte) : (s.storeMem a l).inputs = s.inputs := by rw [storeMem_eq]
@[simp] theorem storeMem_draws (s : State) (a : Nat) (l : List Byte) : (s.storeMem a l).draws = s.draws := by rw [storeMem_eq]
@[simp] theorem storeMem_stallHint (s : State) (a : Nat) (l : List Byte) : (s.storeMem a l).stallHint = s.stallHint := by rw [storeMem_eq]
@[simp] theorem storeMem_mtipHold (s : State) (a : Nat) (l : List Byte) : (s.storeMem a l).mtipHold = s.mtipHold := by rw [storeMem_eq]
@[simp] theorem storeMem_msipHold (s : State) (a : Nat) (l : List Byte) : (s.storeMem a l).msipHold = s.msipHold := by rw [storeMem_eq]

@[simp] theorem countInstret_x (s : State) : s.countInstret.x = s.x := by rw [countInstret_eq]
@[simp] theorem countInstret_pc (s : State) : s.countInstret.pc = s.pc := by rw [countInstret_eq]
@[simp] theorem countInstret_priv (s : State) : s.countInstret.priv = s.priv := by rw [countInstret_eq]
@[simp] theorem countInstret_v (s : State) : s.countInstret.v = s.v := by rw [countInstret_eq]
@[simp] theorem countInstret_misa (s : State) : s.countInstret.misa = s.misa := by rw [countInstret_eq]
@[simp] theorem countInstret_mst (s : State) : s.countInstret.mst = s.mst := by rw [countInstret_eq]
@[simp] theorem countInstret_vst (s : State) : s.countInstret.vst = s.vst := by rw [countInstret_eq]
@[simp] theorem countInstret_hst (s : State) : s.countInstret.hst = s.hst := by rw [countInstret_eq]
@[simp] theorem countInstret_m (s : State) : s.countInstret.m = s.m := by rw [countInstret_eq]
@[simp] theorem countInstret_sc (s : State) : s.countInstret.sc = s.sc := by rw [countInstret_eq]
@[simp] theorem countInstret_h (s : State) : s.countInstret.h = s.h := by rw [countInstret_eq]
@[simp] theorem countInstret_vs (s : State) : s.countInstret.vs = s.vs := by rw [countInstret_eq]
@[simp] theorem countInstret_pmp (s : State) : s.countInstret.pmp = s.pmp := by rw [countInstret_eq]
@[simp] theorem countInstret_pend (s : State) : s.countInstret.pend = s.pend := by rw [countInstret_eq]
@[simp] theorem countInstret_wires (s : State) : s.countInstret.wires = s.wires := by rw [countInstret_eq]
@[simp] theorem countInstret_timer (s : State) : s.countInstret.timer = s.timer := by rw [countInstret_eq]
@[simp] theorem countInstret_fcsr (s : State) : s.countInstret.fcsr = s.fcsr := by rw [countInstret_eq]
@[simp] theorem countInstret_resv (s : State) : s.countInstret.resv = s.resv := by rw [countInstret_eq]
@[simp] theorem countInstret_wait (s : State) : s.countInstret.wait = s.wait := by rw [countInstret_eq]
@[simp] theorem countInstret_xlat (s : State) : s.countInstret.xlat = s.xlat := by rw [countInstret_eq]
@[simp] theorem countInstret_codeOld (s : State) : s.countInstret.codeOld = s.codeOld := by rw [countInstret_eq]
@[simp] theorem countInstret_mem (s : State) : s.countInstret.mem = s.mem := by rw [countInstret_eq]
@[simp] theorem countInstret_cfg (s : State) : s.countInstret.cfg = s.cfg := by rw [countInstret_eq]
@[simp] theorem countInstret_inputs (s : State) : s.countInstret.inputs = s.inputs := by rw [countInstret_eq]
@[simp] theorem countInstret_draws (s : State) : s.countInstret.draws = s.draws := by rw [countInstret_eq]
@[simp] theorem countInstret_stallHint (s : State) : s.countInstret.stallHint = s.stallHint := by rw [countInstret_eq]
@[simp] theorem countInstret_mtipHold (s : State) : s.countInstret.mtipHold = s.mtipHold := by rw [countInstret_eq]
@[simp] theorem countInstret_msipHold (s : State) : s.countInstret.msipHold = s.msipHold := by rw [countInstret_eq]

@[simp] theorem retire_x (s : State) : s.retire.x = s.x := by rw [retire_eq]
@[simp] theorem retire_priv (s : State) : s.retire.priv = s.priv := by rw [retire_eq]
@[simp] theorem retire_v (s : State) : s.retire.v = s.v := by rw [retire_eq]
@[simp] theorem retire_misa (s : State) : s.retire.misa = s.misa := by rw [retire_eq]
@[simp] theorem retire_mst (s : State) : s.retire.mst = s.mst := by rw [retire_eq]
@[simp] theorem retire_vst (s : State) : s.retire.vst = s.vst := by rw [retire_eq]
@[simp] theorem retire_hst (s : State) : s.retire.hst = s.hst := by rw [retire_eq]
@[simp] theorem retire_m (s : State) : s.retire.m = s.m := by rw [retire_eq]
@[simp] theorem retire_sc (s : State) : s.retire.sc = s.sc := by rw [retire_eq]
@[simp] theorem retire_h (s : State) : s.retire.h = s.h := by rw [retire_eq]
@[simp] theorem retire_vs (s : State) : s.retire.vs = s.vs := by rw [retire_eq]
@[simp] theorem retire_pmp (s : State) : s.retire.pmp = s.pmp := by rw [retire_eq]
@[simp] theorem retire_pend (s : State) : s.retire.pend = s.pend := by rw [retire_eq]
@[simp] theorem retire_wires (s : State) : s.retire.wires = s.wires := by rw [retire_eq]
@[simp] theorem retire_timer (s : State) : s.retire.timer = s.timer := by rw [retire_eq]
@[simp] theorem retire_fcsr (s : State) : s.retire.fcsr = s.fcsr := by rw [retire_eq]
@[simp] theorem retire_resv (s : State) : s.retire.resv = s.resv := by rw [retire_eq]
@[simp] theorem retire_wait (s : State) : s.retire.wait = s.wait := by rw [retire_eq]
@[simp] theorem retire_xlat (s : State) : s.retire.xlat = s.xlat := by rw [retire_eq]
@[simp] theorem retire_codeOld (s : State) : s.retire.codeOld = s.codeOld := by rw [retire_eq]
@[simp] theorem retire_mem (s : State) : s.retire.mem = s.mem := by rw [retire_eq]
@[simp] theorem retire_cfg (s : State) : s.retire.cfg = s.cfg := by rw [retire_eq]
@[simp] theorem retire_inputs (s : State) : s.retire.inputs = s.inputs := by rw [retire_eq]
@[simp] theorem retire_draws (s : State) : s.retire.draws = s.draws := by rw [retire_eq]
@[simp] theorem retire_stallHint (s : State) : s.retire.stallHint = s.stallHint := by rw [retire_eq]
@[simp] theorem retire_mtipHold (s : State) : s.retire.mtipHold = s.mtipHold := by rw [retire_eq]
@[simp] theorem retire_msipHold (s : State) : s.retire.msipHold = s.msipHold := by rw [retire_eq]

@[simp] theorem trapM_x (s : State) (i : Bool) (e : Exc) : (s.trapM i e).x = s.x := rfl
@[simp] theorem trapM_misa (s : State) (i : Bool) (e : Exc) : (s.trapM i e).misa = s.misa := rfl
@[simp] theorem trapM_vst (s : State) (i : Bool) (e : Exc) : (s.trapM i e).vst = s.vst := rfl
@[simp] theorem trapM_hst (s : State) (i : Bool) (e : Exc) : (s.trapM i e).hst = s.hst := rfl
@[simp] theorem trapM_sc (s : State) (i : Bool) (e : Exc) : (s.trapM i e).sc = s.sc := rfl
@[simp] theorem trapM_h (s : State) (i : Bool) (e : Exc) : (s.trapM i e).h = s.h := rfl
@[simp] theorem trapM_vs (s : State) (i : Bool) (e : Exc) : (s.trapM i e).vs = s.vs := rfl
@[simp] theorem trapM_cnt (s : State) (i : Bool) (e : Exc) : (s.trapM i e).cnt = s.cnt := rfl
@[simp] theorem trapM_pmp (s : State) (i : Bool) (e : Exc) : (s.trapM i e).pmp = s.pmp := rfl
@[simp] theorem trapM_pend (s : State) (i : Bool) (e : Exc) : (s.trapM i e).pend = s.pend := rfl
@[simp] theorem trapM_wires (s : State) (i : Bool) (e : Exc) : (s.trapM i e).wires = s.wires := rfl
@[simp] theorem trapM_timer (s : State) (i : Bool) (e : Exc) : (s.trapM i e).timer = s.timer := rfl
@[simp] theorem trapM_fcsr (s : State) (i : Bool) (e : Exc) : (s.trapM i e).fcsr = s.fcsr := rfl
@[simp] theorem trapM_resv (s : State) (i : Bool) (e : Exc) : (s.trapM i e).resv = s.resv := rfl
@[simp] theorem trapM_wait (s : State) (i : Bool) (e : Exc) : (s.trapM i e).wait = s.wait := rfl
@[simp] theorem trapM_xlat (s : State) (i : Bool) (e : Exc) : (s.trapM i e).xlat = s.xlat := rfl
@[simp] theorem trapM_codeOld (s : State) (i : Bool) (e : Exc) : (s.trapM i e).codeOld = s.codeOld := rfl
@[simp] theorem trapM_mem (s : State) (i : Bool) (e : Exc) : (s.trapM i e).mem = s.mem := rfl
@[simp] theorem trapM_cfg (s : State) (i : Bool) (e : Exc) : (s.trapM i e).cfg = s.cfg := rfl
@[simp] theorem trapM_inputs (s : State) (i : Bool) (e : Exc) : (s.trapM i e).inputs = s.inputs := rfl
@[simp] theorem trapM_draws (s : State) (i : Bool) (e : Exc) : (s.trapM i e).draws = s.draws := rfl
@[simp] theorem trapM_stallHint (s : State) (i : Bool) (e : Exc) : (s.trapM i e).stallHint = s.stallHint := rfl
@[simp] theorem trapM_mtipHold (s : State) (i : Bool) (e : Exc) : (s.trapM i e).mtipHold = s.mtipHold := rfl
@[simp] theorem trapM_msipHold (s : State) (i : Bool) (e : Exc) : (s.trapM i e).msipHold = s.msipHold := rfl

@[simp] theorem trapS_x (s : State) (i : Bool) (e : Exc) : (s.trapS i e).x = s.x := rfl
@[simp] theorem trapS_misa (s : State) (i : Bool) (e : Exc) : (s.trapS i e).misa = s.misa := rfl
@[simp] theorem trapS_vst (s : State) (i : Bool) (e : Exc) : (s.trapS i e).vst = s.vst := rfl
@[simp] theorem trapS_m (s : State) (i : Bool) (e : Exc) : (s.trapS i e).m = s.m := rfl
@[simp] theorem trapS_vs (s : State) (i : Bool) (e : Exc) : (s.trapS i e).vs = s.vs := rfl
@[simp] theorem trapS_cnt (s : State) (i : Bool) (e : Exc) : (s.trapS i e).cnt = s.cnt := rfl
@[simp] theorem trapS_pmp (s : State) (i : Bool) (e : Exc) : (s.trapS i e).pmp = s.pmp := rfl
@[simp] theorem trapS_pend (s : State) (i : Bool) (e : Exc) : (s.trapS i e).pend = s.pend := rfl
@[simp] theorem trapS_wires (s : State) (i : Bool) (e : Exc) : (s.trapS i e).wires = s.wires := rfl
@[simp] theorem trapS_timer (s : State) (i : Bool) (e : Exc) : (s.trapS i e).timer = s.timer := rfl
@[simp] theorem trapS_fcsr (s : State) (i : Bool) (e : Exc) : (s.trapS i e).fcsr = s.fcsr := rfl
@[simp] theorem trapS_resv (s : State) (i : Bool) (e : Exc) : (s.trapS i e).resv = s.resv := rfl
@[simp] theorem trapS_wait (s : State) (i : Bool) (e : Exc) : (s.trapS i e).wait = s.wait := rfl
@[simp] theorem trapS_xlat (s : State) (i : Bool) (e : Exc) : (s.trapS i e).xlat = s.xlat := rfl
@[simp] theorem trapS_codeOld (s : State) (i : Bool) (e : Exc) : (s.trapS i e).codeOld = s.codeOld := rfl
@[simp] theorem trapS_mem (s : State) (i : Bool) (e : Exc) : (s.trapS i e).mem = s.mem := rfl
@[simp] theorem trapS_cfg (s : State) (i : Bool) (e : Exc) : (s.trapS i e).cfg = s.cfg := rfl
@[simp] theorem trapS_inputs (s : State) (i : Bool) (e : Exc) : (s.trapS i e).inputs = s.inputs := rfl
@[simp] theorem trapS_draws (s : State) (i : Bool) (e : Exc) : (s.trapS i e).draws = s.draws := rfl
@[simp] theorem trapS_stallHint (s : State) (i : Bool) (e : Exc) : (s.trapS i e).stallHint = s.stallHint := rfl
@[simp] theorem trapS_mtipHold (s : State) (i : Bool) (e : Exc) : (s.trapS i e).mtipHold = s.mtipHold := rfl
@[simp] theorem trapS_msipHold (s : State) (i : Bool) (e : Exc) : (s.trapS i e).msipHold = s.msipHold := rfl

@[simp] theorem trapVs_x (s : State) (i : Bool) (e : Exc) : (s.trapVs i e).x = s.x := rfl
@[simp] theorem trapVs_misa (s : State) (i : Bool) (e : Exc) : (s.trapVs i e).misa = s.misa := rfl
@[simp] theorem trapVs_mst (s : State) (i : Bool) (e : Exc) : (s.trapVs i e).mst = s.mst := rfl
@[simp] theorem trapVs_hst (s : State) (i : Bool) (e : Exc) : (s.trapVs i e).hst = s.hst := rfl
@[simp] theorem trapVs_m (s : State) (i : Bool) (e : Exc) : (s.trapVs i e).m = s.m := rfl
@[simp] theorem trapVs_sc (s : State) (i : Bool) (e : Exc) : (s.trapVs i e).sc = s.sc := rfl
@[simp] theorem trapVs_h (s : State) (i : Bool) (e : Exc) : (s.trapVs i e).h = s.h := rfl
@[simp] theorem trapVs_cnt (s : State) (i : Bool) (e : Exc) : (s.trapVs i e).cnt = s.cnt := rfl
@[simp] theorem trapVs_pmp (s : State) (i : Bool) (e : Exc) : (s.trapVs i e).pmp = s.pmp := rfl
@[simp] theorem trapVs_pend (s : State) (i : Bool) (e : Exc) : (s.trapVs i e).pend = s.pend := rfl
@[simp] theorem trapVs_wires (s : State) (i : Bool) (e : Exc) : (s.trapVs i e).wires = s.wires := rfl
@[simp] theorem trapVs_timer (s : State) (i : Bool) (e : Exc) : (s.trapVs i e).timer = s.timer := rfl
@[simp] theorem trapVs_fcsr (s : State) (i : Bool) (e : Exc) : (s.trapVs i e).fcsr = s.fcsr := rfl
@[simp] theorem trapVs_resv (s : State) (i : Bool) (e : Exc) : (s.trapVs i e).resv = s.resv := rfl
@[simp] theorem trapVs_wait (s : State) (i : Bool) (e : Exc) : (s.trapVs i e).wait = s.wait := rfl
@[simp] theorem trapVs_xlat (s : State) (i : Bool) (e : Exc) : (s.trapVs i e).xlat = s.xlat := rfl
@[simp] theorem trapVs_codeOld (s : State) (i : Bool) (e : Exc) : (s.trapVs i e).codeOld = s.codeOld := rfl
@[simp] theorem trapVs_mem (s : State) (i : Bool) (e : Exc) : (s.trapVs i e).mem = s.mem := rfl
@[simp] theorem trapVs_cfg (s : State) (i : Bool) (e : Exc) : (s.trapVs i e).cfg = s.cfg := rfl
@[simp] theorem trapVs_inputs (s : State) (i : Bool) (e : Exc) : (s.trapVs i e).inputs = s.inputs := rfl
@[simp] theorem trapVs_draws (s : State) (i : Bool) (e : Exc) : (s.trapVs i e).draws = s.draws := rfl
@[simp] theorem trapVs_stallHint (s : State) (i : Bool) (e : Exc) : (s.trapVs i e).stallHint = s.stallHint := rfl
@[simp] theorem trapVs_mtipHold (s : State) (i : Bool) (e : Exc) : (s.trapVs i e).mtipHold = s.mtipHold := rfl
@[simp] theorem trapVs_msipHold (s : State) (i : Bool) (e : Exc) : (s.trapVs i e).msipHold = s.msipHold := rfl

@[simp] theorem returnM_x (s : State) : s.returnM.x = s.x := rfl
@[simp] theorem returnM_misa (s : State) : s.returnM.misa = s.misa := rfl
@[simp] theorem returnM_vst (s : State) : s.returnM.vst = s.vst := rfl
@[simp] theorem returnM_hst (s : State) : s.returnM.hst = s.hst := rfl
@[simp] theorem returnM_m (s : State) : s.returnM.m = s.m := rfl
@[simp] theorem returnM_sc (s : State) : s.returnM.sc = s.sc := rfl
@[simp] theorem returnM_h (s : State) : s.returnM.h = s.h := rfl
@[simp] theorem returnM_vs (s : State) : s.returnM.vs = s.vs := rfl
@[simp] theorem returnM_cnt (s : State) : s.returnM.cnt = s.cnt := rfl
@[simp] theorem returnM_pmp (s : State) : s.returnM.pmp = s.pmp := rfl
@[simp] theorem returnM_pend (s : State) : s.returnM.pend = s.pend := rfl
@[simp] theorem returnM_wires (s : State) : s.returnM.wires = s.wires := rfl
@[simp] theorem returnM_timer (s : State) : s.returnM.timer = s.timer := rfl
@[simp] theorem returnM_fcsr (s : State) : s.returnM.fcsr = s.fcsr := rfl
@[simp] theorem returnM_resv (s : State) : s.returnM.resv = s.resv := rfl
@[simp] theorem returnM_wait (s : State) : s.returnM.wait = s.wait := rfl
@[simp] theorem returnM_xlat (s : State) : s.returnM.xlat = s.xlat := rfl
@[simp] theorem returnM_codeOld (s : State) : s.returnM.codeOld = s.codeOld := rfl
@[simp] theorem returnM_mem (s : State) : s.returnM.mem = s.mem := rfl
@[simp] theorem returnM_cfg (s : State) : s.returnM.cfg = s.cfg := rfl
@[simp] theorem returnM_inputs (s : State) : s.returnM.inputs = s.inputs := rfl
@[simp] theorem returnM_draws (s : State) : s.returnM.draws = s.draws := rfl
@[simp] theorem returnM_stallHint (s : State) : s.returnM.stallHint = s.stallHint := rfl
@[simp] theorem returnM_mtipHold (s : State) : s.returnM.mtipHold = s.mtipHold := rfl
@[simp] theorem returnM_msipHold (s : State) : s.returnM.msipHold = s.msipHold := rfl

@[simp] theorem returnS_x (s : State) : s.returnS.x = s.x := rfl
@[simp] theorem returnS_misa (s : State) : s.returnS.misa = s.misa := rfl
@[simp] theorem returnS_vst (s : State) : s.returnS.vst = s.vst := rfl
@[simp] theorem returnS_m (s : State) : s.returnS.m = s.m := rfl
@[simp] theorem returnS_sc (s : State) : s.returnS.sc = s.sc := rfl
@[simp] theorem returnS_h (s : State) : s.returnS.h = s.h := rfl
@[simp] theorem returnS_vs (s : State) : s.returnS.vs = s.vs := rfl
@[simp] theorem returnS_cnt (s : State) : s.returnS.cnt = s.cnt := rfl
@[simp] theorem returnS_pmp (s : State) : s.returnS.pmp = s.pmp := rfl
@[simp] theorem returnS_pend (s : State) : s.returnS.pend = s.pend := rfl
@[simp] theorem returnS_wires (s : State) : s.returnS.wires = s.wires := rfl
@[simp] theorem returnS_timer (s : State) : s.returnS.timer = s.timer := rfl
@[simp] theorem returnS_fcsr (s : State) : s.returnS.fcsr = s.fcsr := rfl
@[simp] theorem returnS_resv (s : State) : s.returnS.resv = s.resv := rfl
@[simp] theorem returnS_wait (s : State) : s.returnS.wait = s.wait := rfl
@[simp] theorem returnS_xlat (s : State) : s.returnS.xlat = s.xlat := rfl
@[simp] theorem returnS_codeOld (s : State) : s.returnS.codeOld = s.codeOld := rfl
@[simp] theorem returnS_mem (s : State) : s.returnS.mem = s.mem := rfl
@[simp] theorem returnS_cfg (s : State) : s.returnS.cfg = s.cfg := rfl
@[simp] theorem returnS_inputs (s : State) : s.returnS.inputs = s.inputs := rfl
@[simp] theorem returnS_draws (s : State) : s.returnS.draws = s.draws := rfl
@[simp] theorem returnS_stallHint (s : State) : s.returnS.stallHint = s.stallHint := rfl
@[simp] theorem returnS_mtipHold (s : State) : s.returnS.mtipHold = s.mtipHold := rfl
@[simp] theorem returnS_msipHold (s : State) : s.returnS.msipHold = s.msipHold := rfl

@[simp] theorem returnVs_x (s : State) : s.returnVs.x = s.x := rfl
@[simp] theorem returnVs_v (s : State) : s.returnVs.v = s.v := rfl
@[simp] theorem returnVs_misa (s : State) : s.returnVs.misa = s.misa := rfl
@[simp] theorem returnVs_hst (s : State) : s.returnVs.hst = s.hst := rfl
@[simp] theorem returnVs_m (s : State) : s.returnVs.m = s.m := rfl
@[simp] theorem returnVs_sc (s : State) : s.returnVs.sc = s.sc := rfl
@[simp] theorem returnVs_h (s : State) : s.returnVs.h = s.h := rfl
@[simp] theorem returnVs_vs (s : State) : s.returnVs.vs = s.vs := rfl
@[simp] theorem returnVs_cnt (s : State) : s.returnVs.cnt = s.cnt := rfl
@[simp] theorem returnVs_pmp (s : State) : s.returnVs.pmp = s.pmp := rfl
@[simp] theorem returnVs_pend (s : State) : s.returnVs.pend = s.pend := rfl
@[simp] theorem returnVs_wires (s : State) : s.returnVs.wires = s.wires := rfl
@[simp] theorem returnVs_timer (s : State) : s.returnVs.timer = s.timer := rfl
@[simp] theorem returnVs_fcsr (s : State) : s.returnVs.fcsr = s.fcsr := rfl
@[simp] theorem returnVs_resv (s : State) : s.returnVs.resv = s.resv := rfl
@[simp] theorem returnVs_wait (s : State) : s.returnVs.wait = s.wait := rfl
@[simp] theorem returnVs_xlat (s : State) : s.returnVs.xlat = s.xlat := rfl
@[simp] theorem returnVs_codeOld (s : State) : s.returnVs.codeOld = s.codeOld := rfl
@[simp] theorem returnVs_mem (s : State) : s.returnVs.mem = s.mem := rfl
@[simp] theorem returnVs_cfg (s : State) : s.returnVs.cfg = s.cfg := rfl
@[simp] theorem returnVs_inputs (s : State) : s.returnVs.inputs = s.inputs := rfl
@[simp] theorem returnVs_draws (s : State) : s.returnVs.draws = s.draws := rfl
@[simp] theorem returnVs_stallHint (s : State) : s.returnVs.stallHint = s.stallHint := rfl
@[simp] theorem returnVs_mtipHold (s : State) : s.returnVs.mtipHold = s.mtipHold := rfl
@[simp] theorem returnVs_msipHold (s : State) : s.returnVs.msipHold = s.msipHold := rfl

@[simp] theorem complete_x (s : State) : s.complete.x = s.x := rfl
@[simp] theorem complete_pc (s : State) : s.complete.pc = s.pc := rfl
@[simp] theorem complete_priv (s : State) : s.complete.priv = s.priv := rfl
@[simp] theorem complete_v (s : State) : s.complete.v = s.v := rfl
@[simp] theorem complete_misa (s : State) : s.complete.misa = s.misa := rfl
@[simp] theorem complete_mst (s : State) : s.complete.mst = s.mst := rfl
@[simp] theorem complete_vst (s : State) : s.complete.vst = s.vst := rfl
@[simp] theorem complete_hst (s : State) : s.complete.hst = s.hst := rfl
@[simp] theorem complete_m (s : State) : s.complete.m = s.m := rfl
@[simp] theorem complete_sc (s : State) : s.complete.sc = s.sc := rfl
@[simp] theorem complete_h (s : State) : s.complete.h = s.h := rfl
@[simp] theorem complete_vs (s : State) : s.complete.vs = s.vs := rfl
@[simp] theorem complete_cnt (s : State) : s.complete.cnt = s.cnt := rfl
@[simp] theorem complete_pmp (s : State) : s.complete.pmp = s.pmp := rfl
@[simp] theorem complete_pend (s : State) : s.complete.pend = s.pend := rfl
@[simp] theorem complete_wires (s : State) : s.complete.wires = s.wires := rfl
@[simp] theorem complete_timer (s : State) : s.complete.timer = s.timer := rfl
@[simp] theorem complete_fcsr (s : State) : s.complete.fcsr = s.fcsr := rfl
@[simp] theorem complete_resv (s : State) : s.complete.resv = s.resv := rfl
@[simp] theorem complete_wait (s : State) : s.complete.wait = s.wait := rfl
@[simp] theorem complete_codeOld (s : State) : s.complete.codeOld = s.codeOld := rfl
@[simp] theorem complete_mem (s : State) : s.complete.mem = s.mem := rfl
@[simp] theorem complete_cfg (s : State) : s.complete.cfg = s.cfg := rfl
@[simp] theorem complete_inputs (s : State) : s.complete.inputs = s.inputs := rfl
@[simp] theorem complete_draws (s : State) : s.complete.draws = s.draws := rfl
@[simp] theorem complete_stallHint (s : State) : s.complete.stallHint = s.stallHint := rfl
@[simp] theorem complete_mtipHold (s : State) : s.complete.mtipHold = s.mtipHold := rfl
@[simp] theorem complete_msipHold (s : State) : s.complete.msipHold = s.msipHold := rfl

@[simp] theorem fence_x (s : State) (p : Scope) : (s.fence p).x = s.x := rfl
@[simp] theorem fence_pc (s : State) (p : Scope) : (s.fence p).pc = s.pc := rfl
@[simp] theorem fence_priv (s : State) (p : Scope) : (s.fence p).priv = s.priv := rfl
@[simp] theorem fence_v (s : State) (p : Scope) : (s.fence p).v = s.v := rfl
@[simp] theorem fence_misa (s : State) (p : Scope) : (s.fence p).misa = s.misa := rfl
@[simp] theorem fence_mst (s : State) (p : Scope) : (s.fence p).mst = s.mst := rfl
@[simp] theorem fence_vst (s : State) (p : Scope) : (s.fence p).vst = s.vst := rfl
@[simp] theorem fence_hst (s : State) (p : Scope) : (s.fence p).hst = s.hst := rfl
@[simp] theorem fence_m (s : State) (p : Scope) : (s.fence p).m = s.m := rfl
@[simp] theorem fence_sc (s : State) (p : Scope) : (s.fence p).sc = s.sc := rfl
@[simp] theorem fence_h (s : State) (p : Scope) : (s.fence p).h = s.h := rfl
@[simp] theorem fence_vs (s : State) (p : Scope) : (s.fence p).vs = s.vs := rfl
@[simp] theorem fence_cnt (s : State) (p : Scope) : (s.fence p).cnt = s.cnt := rfl
@[simp] theorem fence_pmp (s : State) (p : Scope) : (s.fence p).pmp = s.pmp := rfl
@[simp] theorem fence_pend (s : State) (p : Scope) : (s.fence p).pend = s.pend := rfl
@[simp] theorem fence_wires (s : State) (p : Scope) : (s.fence p).wires = s.wires := rfl
@[simp] theorem fence_timer (s : State) (p : Scope) : (s.fence p).timer = s.timer := rfl
@[simp] theorem fence_fcsr (s : State) (p : Scope) : (s.fence p).fcsr = s.fcsr := rfl
@[simp] theorem fence_resv (s : State) (p : Scope) : (s.fence p).resv = s.resv := rfl
@[simp] theorem fence_wait (s : State) (p : Scope) : (s.fence p).wait = s.wait := rfl
@[simp] theorem fence_codeOld (s : State) (p : Scope) : (s.fence p).codeOld = s.codeOld := rfl
@[simp] theorem fence_mem (s : State) (p : Scope) : (s.fence p).mem = s.mem := rfl
@[simp] theorem fence_cfg (s : State) (p : Scope) : (s.fence p).cfg = s.cfg := rfl
@[simp] theorem fence_inputs (s : State) (p : Scope) : (s.fence p).inputs = s.inputs := rfl
@[simp] theorem fence_draws (s : State) (p : Scope) : (s.fence p).draws = s.draws := rfl
@[simp] theorem fence_stallHint (s : State) (p : Scope) : (s.fence p).stallHint = s.stallHint := rfl
@[simp] theorem fence_mtipHold (s : State) (p : Scope) : (s.fence p).mtipHold = s.mtipHold := rfl
@[simp] theorem fence_msipHold (s : State) (p : Scope) : (s.fence p).msipHold = s.msipHold := rfl

@[simp] theorem doom_x (s : State) (p : Scope) : (s.doom p).x = s.x := rfl
@[simp] theorem doom_pc (s : State) (p : Scope) : (s.doom p).pc = s.pc := rfl
@[simp] theorem doom_priv (s : State) (p : Scope) : (s.doom p).priv = s.priv := rfl
@[simp] theorem doom_v (s : State) (p : Scope) : (s.doom p).v = s.v := rfl
@[simp] theorem doom_misa (s : State) (p : Scope) : (s.doom p).misa = s.misa := rfl
@[simp] theorem doom_mst (s : State) (p : Scope) : (s.doom p).mst = s.mst := rfl
@[simp] theorem doom_vst (s : State) (p : Scope) : (s.doom p).vst = s.vst := rfl
@[simp] theorem doom_hst (s : State) (p : Scope) : (s.doom p).hst = s.hst := rfl
@[simp] theorem doom_m (s : State) (p : Scope) : (s.doom p).m = s.m := rfl
@[simp] theorem doom_sc (s : State) (p : Scope) : (s.doom p).sc = s.sc := rfl
@[simp] theorem doom_h (s : State) (p : Scope) : (s.doom p).h = s.h := rfl
@[simp] theorem doom_vs (s : State) (p : Scope) : (s.doom p).vs = s.vs := rfl
@[simp] theorem doom_cnt (s : State) (p : Scope) : (s.doom p).cnt = s.cnt := rfl
@[simp] theorem doom_pmp (s : State) (p : Scope) : (s.doom p).pmp = s.pmp := rfl
@[simp] theorem doom_pend (s : State) (p : Scope) : (s.doom p).pend = s.pend := rfl
@[simp] theorem doom_wires (s : State) (p : Scope) : (s.doom p).wires = s.wires := rfl
@[simp] theorem doom_timer (s : State) (p : Scope) : (s.doom p).timer = s.timer := rfl
@[simp] theorem doom_fcsr (s : State) (p : Scope) : (s.doom p).fcsr = s.fcsr := rfl
@[simp] theorem doom_resv (s : State) (p : Scope) : (s.doom p).resv = s.resv := rfl
@[simp] theorem doom_wait (s : State) (p : Scope) : (s.doom p).wait = s.wait := rfl
@[simp] theorem doom_codeOld (s : State) (p : Scope) : (s.doom p).codeOld = s.codeOld := rfl
@[simp] theorem doom_mem (s : State) (p : Scope) : (s.doom p).mem = s.mem := rfl
@[simp] theorem doom_cfg (s : State) (p : Scope) : (s.doom p).cfg = s.cfg := rfl
@[simp] theorem doom_inputs (s : State) (p : Scope) : (s.doom p).inputs = s.inputs := rfl
@[simp] theorem doom_draws (s : State) (p : Scope) : (s.doom p).draws = s.draws := rfl
@[simp] theorem doom_stallHint (s : State) (p : Scope) : (s.doom p).stallHint = s.stallHint := rfl
@[simp] theorem doom_mtipHold (s : State) (p : Scope) : (s.doom p).mtipHold = s.mtipHold := rfl
@[simp] theorem doom_msipHold (s : State) (p : Scope) : (s.doom p).msipHold = s.msipHold := rfl

@[simp] theorem orderStores_x (s : State) : s.orderStores.x = s.x := rfl
@[simp] theorem orderStores_pc (s : State) : s.orderStores.pc = s.pc := rfl
@[simp] theorem orderStores_priv (s : State) : s.orderStores.priv = s.priv := rfl
@[simp] theorem orderStores_v (s : State) : s.orderStores.v = s.v := rfl
@[simp] theorem orderStores_misa (s : State) : s.orderStores.misa = s.misa := rfl
@[simp] theorem orderStores_mst (s : State) : s.orderStores.mst = s.mst := rfl
@[simp] theorem orderStores_vst (s : State) : s.orderStores.vst = s.vst := rfl
@[simp] theorem orderStores_hst (s : State) : s.orderStores.hst = s.hst := rfl
@[simp] theorem orderStores_m (s : State) : s.orderStores.m = s.m := rfl
@[simp] theorem orderStores_sc (s : State) : s.orderStores.sc = s.sc := rfl
@[simp] theorem orderStores_h (s : State) : s.orderStores.h = s.h := rfl
@[simp] theorem orderStores_vs (s : State) : s.orderStores.vs = s.vs := rfl
@[simp] theorem orderStores_cnt (s : State) : s.orderStores.cnt = s.cnt := rfl
@[simp] theorem orderStores_pmp (s : State) : s.orderStores.pmp = s.pmp := rfl
@[simp] theorem orderStores_pend (s : State) : s.orderStores.pend = s.pend := rfl
@[simp] theorem orderStores_wires (s : State) : s.orderStores.wires = s.wires := rfl
@[simp] theorem orderStores_timer (s : State) : s.orderStores.timer = s.timer := rfl
@[simp] theorem orderStores_fcsr (s : State) : s.orderStores.fcsr = s.fcsr := rfl
@[simp] theorem orderStores_resv (s : State) : s.orderStores.resv = s.resv := rfl
@[simp] theorem orderStores_wait (s : State) : s.orderStores.wait = s.wait := rfl
@[simp] theorem orderStores_codeOld (s : State) : s.orderStores.codeOld = s.codeOld := rfl
@[simp] theorem orderStores_mem (s : State) : s.orderStores.mem = s.mem := rfl
@[simp] theorem orderStores_cfg (s : State) : s.orderStores.cfg = s.cfg := rfl
@[simp] theorem orderStores_inputs (s : State) : s.orderStores.inputs = s.inputs := rfl
@[simp] theorem orderStores_draws (s : State) : s.orderStores.draws = s.draws := rfl
@[simp] theorem orderStores_stallHint (s : State) : s.orderStores.stallHint = s.stallHint := rfl
@[simp] theorem orderStores_mtipHold (s : State) : s.orderStores.mtipHold = s.mtipHold := rfl
@[simp] theorem orderStores_msipHold (s : State) : s.orderStores.msipHold = s.msipHold := rfl

@[simp] theorem setHgatp_x (s : State) (w : Word) : (s.setHgatp w).x = s.x := by rw [setHgatp_eq]
@[simp] theorem setHgatp_pc (s : State) (w : Word) : (s.setHgatp w).pc = s.pc := by rw [setHgatp_eq]
@[simp] theorem setHgatp_priv (s : State) (w : Word) : (s.setHgatp w).priv = s.priv := by rw [setHgatp_eq]
@[simp] theorem setHgatp_v (s : State) (w : Word) : (s.setHgatp w).v = s.v := by rw [setHgatp_eq]
@[simp] theorem setHgatp_misa (s : State) (w : Word) : (s.setHgatp w).misa = s.misa := by rw [setHgatp_eq]
@[simp] theorem setHgatp_mst (s : State) (w : Word) : (s.setHgatp w).mst = s.mst := by rw [setHgatp_eq]
@[simp] theorem setHgatp_vst (s : State) (w : Word) : (s.setHgatp w).vst = s.vst := by rw [setHgatp_eq]
@[simp] theorem setHgatp_hst (s : State) (w : Word) : (s.setHgatp w).hst = s.hst := by rw [setHgatp_eq]
@[simp] theorem setHgatp_m (s : State) (w : Word) : (s.setHgatp w).m = s.m := by rw [setHgatp_eq]
@[simp] theorem setHgatp_sc (s : State) (w : Word) : (s.setHgatp w).sc = s.sc := by rw [setHgatp_eq]
@[simp] theorem setHgatp_vs (s : State) (w : Word) : (s.setHgatp w).vs = s.vs := by rw [setHgatp_eq]
@[simp] theorem setHgatp_cnt (s : State) (w : Word) : (s.setHgatp w).cnt = s.cnt := by rw [setHgatp_eq]
@[simp] theorem setHgatp_pmp (s : State) (w : Word) : (s.setHgatp w).pmp = s.pmp := by rw [setHgatp_eq]
@[simp] theorem setHgatp_pend (s : State) (w : Word) : (s.setHgatp w).pend = s.pend := by rw [setHgatp_eq]
@[simp] theorem setHgatp_wires (s : State) (w : Word) : (s.setHgatp w).wires = s.wires := by rw [setHgatp_eq]
@[simp] theorem setHgatp_timer (s : State) (w : Word) : (s.setHgatp w).timer = s.timer := by rw [setHgatp_eq]
@[simp] theorem setHgatp_fcsr (s : State) (w : Word) : (s.setHgatp w).fcsr = s.fcsr := by rw [setHgatp_eq]
@[simp] theorem setHgatp_resv (s : State) (w : Word) : (s.setHgatp w).resv = s.resv := by rw [setHgatp_eq]
@[simp] theorem setHgatp_wait (s : State) (w : Word) : (s.setHgatp w).wait = s.wait := by rw [setHgatp_eq]
@[simp] theorem setHgatp_codeOld (s : State) (w : Word) : (s.setHgatp w).codeOld = s.codeOld := by rw [setHgatp_eq]
@[simp] theorem setHgatp_mem (s : State) (w : Word) : (s.setHgatp w).mem = s.mem := by rw [setHgatp_eq]
@[simp] theorem setHgatp_cfg (s : State) (w : Word) : (s.setHgatp w).cfg = s.cfg := by rw [setHgatp_eq]
@[simp] theorem setHgatp_inputs (s : State) (w : Word) : (s.setHgatp w).inputs = s.inputs := by rw [setHgatp_eq]
@[simp] theorem setHgatp_draws (s : State) (w : Word) : (s.setHgatp w).draws = s.draws := by rw [setHgatp_eq]
@[simp] theorem setHgatp_stallHint (s : State) (w : Word) : (s.setHgatp w).stallHint = s.stallHint := by rw [setHgatp_eq]
@[simp] theorem setHgatp_mtipHold (s : State) (w : Word) : (s.setHgatp w).mtipHold = s.mtipHold := by rw [setHgatp_eq]
@[simp] theorem setHgatp_msipHold (s : State) (w : Word) : (s.setHgatp w).msipHold = s.msipHold := by rw [setHgatp_eq]

@[simp] theorem setPmp_x (s : State) (p : Pmp) : (s.setPmp p).x = s.x := by rw [setPmp_eq]
@[simp] theorem setPmp_pc (s : State) (p : Pmp) : (s.setPmp p).pc = s.pc := by rw [setPmp_eq]
@[simp] theorem setPmp_priv (s : State) (p : Pmp) : (s.setPmp p).priv = s.priv := by rw [setPmp_eq]
@[simp] theorem setPmp_v (s : State) (p : Pmp) : (s.setPmp p).v = s.v := by rw [setPmp_eq]
@[simp] theorem setPmp_misa (s : State) (p : Pmp) : (s.setPmp p).misa = s.misa := by rw [setPmp_eq]
@[simp] theorem setPmp_mst (s : State) (p : Pmp) : (s.setPmp p).mst = s.mst := by rw [setPmp_eq]
@[simp] theorem setPmp_vst (s : State) (p : Pmp) : (s.setPmp p).vst = s.vst := by rw [setPmp_eq]
@[simp] theorem setPmp_hst (s : State) (p : Pmp) : (s.setPmp p).hst = s.hst := by rw [setPmp_eq]
@[simp] theorem setPmp_m (s : State) (p : Pmp) : (s.setPmp p).m = s.m := by rw [setPmp_eq]
@[simp] theorem setPmp_sc (s : State) (p : Pmp) : (s.setPmp p).sc = s.sc := by rw [setPmp_eq]
@[simp] theorem setPmp_h (s : State) (p : Pmp) : (s.setPmp p).h = s.h := by rw [setPmp_eq]
@[simp] theorem setPmp_vs (s : State) (p : Pmp) : (s.setPmp p).vs = s.vs := by rw [setPmp_eq]
@[simp] theorem setPmp_cnt (s : State) (p : Pmp) : (s.setPmp p).cnt = s.cnt := by rw [setPmp_eq]
@[simp] theorem setPmp_pend (s : State) (p : Pmp) : (s.setPmp p).pend = s.pend := by rw [setPmp_eq]
@[simp] theorem setPmp_wires (s : State) (p : Pmp) : (s.setPmp p).wires = s.wires := by rw [setPmp_eq]
@[simp] theorem setPmp_timer (s : State) (p : Pmp) : (s.setPmp p).timer = s.timer := by rw [setPmp_eq]
@[simp] theorem setPmp_fcsr (s : State) (p : Pmp) : (s.setPmp p).fcsr = s.fcsr := by rw [setPmp_eq]
@[simp] theorem setPmp_resv (s : State) (p : Pmp) : (s.setPmp p).resv = s.resv := by rw [setPmp_eq]
@[simp] theorem setPmp_wait (s : State) (p : Pmp) : (s.setPmp p).wait = s.wait := by rw [setPmp_eq]
@[simp] theorem setPmp_codeOld (s : State) (p : Pmp) : (s.setPmp p).codeOld = s.codeOld := by rw [setPmp_eq]
@[simp] theorem setPmp_mem (s : State) (p : Pmp) : (s.setPmp p).mem = s.mem := by rw [setPmp_eq]
@[simp] theorem setPmp_cfg (s : State) (p : Pmp) : (s.setPmp p).cfg = s.cfg := by rw [setPmp_eq]
@[simp] theorem setPmp_inputs (s : State) (p : Pmp) : (s.setPmp p).inputs = s.inputs := by rw [setPmp_eq]
@[simp] theorem setPmp_draws (s : State) (p : Pmp) : (s.setPmp p).draws = s.draws := by rw [setPmp_eq]
@[simp] theorem setPmp_stallHint (s : State) (p : Pmp) : (s.setPmp p).stallHint = s.stallHint := by rw [setPmp_eq]
@[simp] theorem setPmp_mtipHold (s : State) (p : Pmp) : (s.setPmp p).mtipHold = s.mtipHold := by rw [setPmp_eq]
@[simp] theorem setPmp_msipHold (s : State) (p : Pmp) : (s.setPmp p).msipHold = s.msipHold := by rw [setPmp_eq]

@[simp] theorem putHPbmte_x (s : State) (b : Bool) : (s.putHPbmte b).x = s.x := by rw [putHPbmte_eq]
@[simp] theorem putHPbmte_pc (s : State) (b : Bool) : (s.putHPbmte b).pc = s.pc := by rw [putHPbmte_eq]
@[simp] theorem putHPbmte_priv (s : State) (b : Bool) : (s.putHPbmte b).priv = s.priv := by rw [putHPbmte_eq]
@[simp] theorem putHPbmte_v (s : State) (b : Bool) : (s.putHPbmte b).v = s.v := by rw [putHPbmte_eq]
@[simp] theorem putHPbmte_misa (s : State) (b : Bool) : (s.putHPbmte b).misa = s.misa := by rw [putHPbmte_eq]
@[simp] theorem putHPbmte_mst (s : State) (b : Bool) : (s.putHPbmte b).mst = s.mst := by rw [putHPbmte_eq]
@[simp] theorem putHPbmte_vst (s : State) (b : Bool) : (s.putHPbmte b).vst = s.vst := by rw [putHPbmte_eq]
@[simp] theorem putHPbmte_hst (s : State) (b : Bool) : (s.putHPbmte b).hst = s.hst := by rw [putHPbmte_eq]
@[simp] theorem putHPbmte_m (s : State) (b : Bool) : (s.putHPbmte b).m = s.m := by rw [putHPbmte_eq]
@[simp] theorem putHPbmte_sc (s : State) (b : Bool) : (s.putHPbmte b).sc = s.sc := by rw [putHPbmte_eq]
@[simp] theorem putHPbmte_vs (s : State) (b : Bool) : (s.putHPbmte b).vs = s.vs := by rw [putHPbmte_eq]
@[simp] theorem putHPbmte_cnt (s : State) (b : Bool) : (s.putHPbmte b).cnt = s.cnt := by rw [putHPbmte_eq]
@[simp] theorem putHPbmte_pmp (s : State) (b : Bool) : (s.putHPbmte b).pmp = s.pmp := by rw [putHPbmte_eq]
@[simp] theorem putHPbmte_pend (s : State) (b : Bool) : (s.putHPbmte b).pend = s.pend := by rw [putHPbmte_eq]
@[simp] theorem putHPbmte_wires (s : State) (b : Bool) : (s.putHPbmte b).wires = s.wires := by rw [putHPbmte_eq]
@[simp] theorem putHPbmte_timer (s : State) (b : Bool) : (s.putHPbmte b).timer = s.timer := by rw [putHPbmte_eq]
@[simp] theorem putHPbmte_fcsr (s : State) (b : Bool) : (s.putHPbmte b).fcsr = s.fcsr := by rw [putHPbmte_eq]
@[simp] theorem putHPbmte_resv (s : State) (b : Bool) : (s.putHPbmte b).resv = s.resv := by rw [putHPbmte_eq]
@[simp] theorem putHPbmte_wait (s : State) (b : Bool) : (s.putHPbmte b).wait = s.wait := by rw [putHPbmte_eq]
@[simp] theorem putHPbmte_codeOld (s : State) (b : Bool) : (s.putHPbmte b).codeOld = s.codeOld := by rw [putHPbmte_eq]
@[simp] theorem putHPbmte_mem (s : State) (b : Bool) : (s.putHPbmte b).mem = s.mem := by rw [putHPbmte_eq]
@[simp] theorem putHPbmte_cfg (s : State) (b : Bool) : (s.putHPbmte b).cfg = s.cfg := by rw [putHPbmte_eq]
@[simp] theorem putHPbmte_inputs (s : State) (b : Bool) : (s.putHPbmte b).inputs = s.inputs := by rw [putHPbmte_eq]
@[simp] theorem putHPbmte_draws (s : State) (b : Bool) : (s.putHPbmte b).draws = s.draws := by rw [putHPbmte_eq]
@[simp] theorem putHPbmte_stallHint (s : State) (b : Bool) : (s.putHPbmte b).stallHint = s.stallHint := by rw [putHPbmte_eq]
@[simp] theorem putHPbmte_mtipHold (s : State) (b : Bool) : (s.putHPbmte b).mtipHold = s.mtipHold := by rw [putHPbmte_eq]
@[simp] theorem putHPbmte_msipHold (s : State) (b : Bool) : (s.putHPbmte b).msipHold = s.msipHold := by rw [putHPbmte_eq]

@[simp] theorem fenceI_x (s : State) : s.fenceI.x = s.x := rfl
@[simp] theorem fenceI_pc (s : State) : s.fenceI.pc = s.pc := rfl
@[simp] theorem fenceI_priv (s : State) : s.fenceI.priv = s.priv := rfl
@[simp] theorem fenceI_v (s : State) : s.fenceI.v = s.v := rfl
@[simp] theorem fenceI_misa (s : State) : s.fenceI.misa = s.misa := rfl
@[simp] theorem fenceI_mst (s : State) : s.fenceI.mst = s.mst := rfl
@[simp] theorem fenceI_vst (s : State) : s.fenceI.vst = s.vst := rfl
@[simp] theorem fenceI_hst (s : State) : s.fenceI.hst = s.hst := rfl
@[simp] theorem fenceI_m (s : State) : s.fenceI.m = s.m := rfl
@[simp] theorem fenceI_sc (s : State) : s.fenceI.sc = s.sc := rfl
@[simp] theorem fenceI_h (s : State) : s.fenceI.h = s.h := rfl
@[simp] theorem fenceI_vs (s : State) : s.fenceI.vs = s.vs := rfl
@[simp] theorem fenceI_cnt (s : State) : s.fenceI.cnt = s.cnt := rfl
@[simp] theorem fenceI_pmp (s : State) : s.fenceI.pmp = s.pmp := rfl
@[simp] theorem fenceI_pend (s : State) : s.fenceI.pend = s.pend := rfl
@[simp] theorem fenceI_wires (s : State) : s.fenceI.wires = s.wires := rfl
@[simp] theorem fenceI_timer (s : State) : s.fenceI.timer = s.timer := rfl
@[simp] theorem fenceI_fcsr (s : State) : s.fenceI.fcsr = s.fcsr := rfl
@[simp] theorem fenceI_resv (s : State) : s.fenceI.resv = s.resv := rfl
@[simp] theorem fenceI_wait (s : State) : s.fenceI.wait = s.wait := rfl
@[simp] theorem fenceI_xlat (s : State) : s.fenceI.xlat = s.xlat := rfl
@[simp] theorem fenceI_mem (s : State) : s.fenceI.mem = s.mem := rfl
@[simp] theorem fenceI_cfg (s : State) : s.fenceI.cfg = s.cfg := rfl
@[simp] theorem fenceI_inputs (s : State) : s.fenceI.inputs = s.inputs := rfl
@[simp] theorem fenceI_draws (s : State) : s.fenceI.draws = s.draws := rfl
@[simp] theorem fenceI_stallHint (s : State) : s.fenceI.stallHint = s.stallHint := rfl
@[simp] theorem fenceI_mtipHold (s : State) : s.fenceI.mtipHold = s.mtipHold := rfl
@[simp] theorem fenceI_msipHold (s : State) : s.fenceI.msipHold = s.msipHold := rfl

@[simp] theorem syncIrq_x (s : State) : s.syncIrq.x = s.x := rfl
@[simp] theorem syncIrq_pc (s : State) : s.syncIrq.pc = s.pc := rfl
@[simp] theorem syncIrq_priv (s : State) : s.syncIrq.priv = s.priv := rfl
@[simp] theorem syncIrq_v (s : State) : s.syncIrq.v = s.v := rfl
@[simp] theorem syncIrq_misa (s : State) : s.syncIrq.misa = s.misa := rfl
@[simp] theorem syncIrq_mst (s : State) : s.syncIrq.mst = s.mst := rfl
@[simp] theorem syncIrq_vst (s : State) : s.syncIrq.vst = s.vst := rfl
@[simp] theorem syncIrq_hst (s : State) : s.syncIrq.hst = s.hst := rfl
@[simp] theorem syncIrq_m (s : State) : s.syncIrq.m = s.m := rfl
@[simp] theorem syncIrq_sc (s : State) : s.syncIrq.sc = s.sc := rfl
@[simp] theorem syncIrq_h (s : State) : s.syncIrq.h = s.h := rfl
@[simp] theorem syncIrq_vs (s : State) : s.syncIrq.vs = s.vs := rfl
@[simp] theorem syncIrq_cnt (s : State) : s.syncIrq.cnt = s.cnt := rfl
@[simp] theorem syncIrq_pmp (s : State) : s.syncIrq.pmp = s.pmp := rfl
@[simp] theorem syncIrq_wires (s : State) : s.syncIrq.wires = s.wires := rfl
@[simp] theorem syncIrq_timer (s : State) : s.syncIrq.timer = s.timer := rfl
@[simp] theorem syncIrq_fcsr (s : State) : s.syncIrq.fcsr = s.fcsr := rfl
@[simp] theorem syncIrq_resv (s : State) : s.syncIrq.resv = s.resv := rfl
@[simp] theorem syncIrq_wait (s : State) : s.syncIrq.wait = s.wait := rfl
@[simp] theorem syncIrq_xlat (s : State) : s.syncIrq.xlat = s.xlat := rfl
@[simp] theorem syncIrq_codeOld (s : State) : s.syncIrq.codeOld = s.codeOld := rfl
@[simp] theorem syncIrq_mem (s : State) : s.syncIrq.mem = s.mem := rfl
@[simp] theorem syncIrq_cfg (s : State) : s.syncIrq.cfg = s.cfg := rfl
@[simp] theorem syncIrq_inputs (s : State) : s.syncIrq.inputs = s.inputs := rfl
@[simp] theorem syncIrq_draws (s : State) : s.syncIrq.draws = s.draws := rfl
@[simp] theorem syncIrq_stallHint (s : State) : s.syncIrq.stallHint = s.stallHint := rfl

end Sys2Proof.Laws
end

