-- ==== Sys2Proof/Laws/Csr.lean ====
section
/-!
SUPPORT. What a write of a CSR can do.
-/

namespace Sys2Proof.Laws

open Sys2Proof.Machine

/-- What no write of a CSR changes: the integer registers, `pc`, the mode, memory and the memory-mapped registers, the input
signals, the configuration, and the model's own schedule. -/
structure CsrBase where
  x : Vector Word 32
  pc : Word
  priv : Priv
  v : Bool
  wires : Wires
  timer : Timer
  wait : Option Wait
  mem : List Host.Cell
  codeOld : List Host.Cell
  cfg : Config
  inputs : List Event
  stallHint : Nat
  mtipHold : Nat
  msipHold : Nat

/-- That part of a state. -/
def csrBase (s : State) : CsrBase :=
  ⟨s.x, s.pc, s.priv, s.v, s.wires, s.timer, s.wait, s.mem, s.codeOld, s.cfg, s.inputs, s.stallHint,
   s.mtipHold, s.msipHold⟩

/-- The parts of `CsrBase` are the state's, once two states agree on them. -/
theorem csrBase_fields {s t : State} (h : csrBase t = csrBase s) :
    t.x = s.x ∧ t.pc = s.pc ∧ t.priv = s.priv ∧ t.v = s.v ∧ t.wires = s.wires ∧ t.timer = s.timer ∧ t.wait = s.wait ∧
      t.mem = s.mem ∧ t.codeOld = s.codeOld ∧ t.cfg = s.cfg ∧ t.inputs = s.inputs ∧ t.stallHint = s.stallHint ∧
      t.mtipHold = s.mtipHold ∧ t.msipHold = s.msipHold :=
  CsrBase.mk.inj h

/-- What every write but those of `misa` and `mstatus` leaves: the base, `misa`, MPRV and MPP. -/
def csrKept (s : State) : CsrBase × Misa × Bool × Priv := (csrBase s, s.misa, s.mst.mprv, s.mst.mpp)

/-- What every write but that of `misa` leaves. -/
def csrFrame (s : State) : CsrBase × Misa := (csrBase s, s.misa)

theorem csrFrame_of_kept {s t : State} (h : csrKept t = csrKept s) : csrFrame t = csrFrame s :=
  congrArg (fun k => (k.1, k.2.1)) h

theorem kept_draws (s : State) (n : Nat) : csrKept { s with draws := n } = csrKept s := rfl

theorem kept_choose (s : State) (n : Nat) : csrKept (s.choose n).2 = csrKept s := by
  unfold State.choose; split <;> rfl

theorem kept_pick {α : Type} [BEq α] (s : State) (d : α) (l : List α) : csrKept (s.pick d l).2 = csrKept s :=
  kept_choose s _

theorem kept_note (s : State) (h : Hist) : csrKept (s.note h) = csrKept s := rfl

theorem kept_setPmp (s : State) (p : Pmp) : csrKept (s.setPmp p) = csrKept s := by
  rw [setPmp_eq]; rfl

theorem kept_putHPbmte (s : State) (b : Bool) : csrKept (s.putHPbmte b) = csrKept s := by
  rw [putHPbmte_eq]; rfl

theorem kept_setMPbmte (s : State) (b : Bool) : csrKept (s.setMPbmte b) = csrKept s := by
  unfold State.setMPbmte
  dsimp only
  split
  · rfl
  · split
    · exact (kept_putHPbmte _ _).trans ((kept_pick _ false [false, true]).trans rfl)
    · exact (kept_putHPbmte _ _).trans rfl

theorem kept_redrawSum (s : State) (a b c : Bool) : csrKept (s.redrawSum a b c).2 = csrKept s := by
  unfold State.redrawSum; repeat' split
  · rfl
  · exact kept_pick s false [false, true]
  · rfl

theorem kept_narrowM (s : State) : csrKept s.narrowM = csrKept s := (kept_setPmp _ _).trans rfl

theorem kept_widenM (s : State) : csrKept s.widenM = csrKept s := by
  unfold State.widenM
  dsimp only
  refine (kept_setPmp _ _).trans ((kept_setMPbmte _ _).trans ?_)
  split <;> rfl

theorem kept_narrowS (s : State) : csrKept s.narrowS = csrKept s := rfl

theorem kept_widenS (s : State) : csrKept s.widenS = csrKept s := (kept_putHPbmte _ _).trans rfl

theorem kept_narrowVs (s : State) : csrKept s.narrowVs = csrKept s := rfl

theorem kept_widenVs (s : State) : csrKept s.widenVs = csrKept s := rfl

/-- A change of widths keeps all of it. -/
theorem kept_modulate (s : State) (m0 s0 v0 : Xlen) : csrKept (s.modulate m0 s0 v0) = csrKept s := by
  have h1 : csrKept (s.modulateM m0) = csrKept s := by
    unfold State.modulateM
    split
    · exact kept_narrowM s
    · split
      · exact kept_widenM s
      · rfl
  have h2 : ∀ a : State, csrKept (a.modulateS s0) = csrKept a := by
    intro a
    unfold State.modulateS
    split
    · rfl
    · have h : csrKept (if narrowed s0 a.sxlen then a.narrowS else a.widenS) = csrKept a := by
        split
        · exact kept_narrowS a
        · exact kept_widenS a
      exact Eq.trans rfl ((kept_redrawSum _ _ _ _).trans h)
  have h3 : ∀ a : State, csrKept (a.modulateVs v0) = csrKept a := by
    intro a
    unfold State.modulateVs
    split
    · rfl
    · have h : csrKept (if narrowed v0 a.vsxlen then a.narrowVs else a.widenVs) = csrKept a := by
        split
        · exact kept_narrowVs a
        · exact kept_widenVs a
      exact Eq.trans rfl ((kept_redrawSum _ _ _ _).trans h)
  exact (h3 _).trans ((h2 _).trans h1)

theorem narrowed_self (x : Xlen) : narrowed x x = false := by cases x <;> rfl

theorem widenDone_self (x : Xlen) : widenDone x x = false := by cases x <;> rfl

/-- A change of no width changes nothing. -/
theorem modulate_id (s : State) {m0 s0 v0 : Xlen} (hm : s.mxlen = m0) (hs : s.sxlen = s0) (hv : s.vsxlen = v0) :
    s.modulate m0 s0 v0 = s := by
  subst hm hs hv
  have h1 : s.modulateM s.mxlen = s := by unfold State.modulateM; simp [narrowed_self, widenDone_self]
  have h2 : s.modulateS s.sxlen = s := by unfold State.modulateS; simp
  have h3 : s.modulateVs s.vsxlen = s := by unfold State.modulateVs; simp
  unfold State.modulate
  rw [h1, h2, h3]

/-- The state in which new `mstatus` or `hstatus` fields are put into force. -/
theorem noted_eq (s : State) (p : Prop) [Decidable p] (h : Hist) :
    (if p then s else s.note h) = { s with xlat := (if p then s else s.note h).xlat } := by
  split <;> rfl

/-- `mstatus` fields that leave SXL alone are in force as they are. -/
theorem setMst_mst (s : State) (t : Mstatus) (h : t.sxl = s.mst.sxl) : (s.setMst t).mst = t := by
  unfold State.setMst
  dsimp only
  rw [noted_eq, modulate_id]
  · rfl
  · unfold State.sxlen; dsimp only; rw [h]
  · unfold State.vsxlen State.sxlen; dsimp only; rw [h]

/-- What new `mstatus` fields keep: all but MPRV and MPP, which they give. -/
theorem kept_setMst' (s : State) (t : Mstatus) : csrKept (s.setMst t) = (csrBase s, s.misa, t.mprv, t.mpp) := by
  unfold State.setMst
  dsimp only
  rw [noted_eq]
  exact (kept_modulate _ _ _ _).trans rfl

theorem frame_setMst (s : State) (t : Mstatus) : csrFrame (s.setMst t) = csrFrame s :=
  congrArg (fun k => (k.1, k.2.1)) (kept_setMst' s t)

/-- New `mstatus` fields change MPRV and MPP as they say. -/
theorem setMst_mprv (s : State) (t : Mstatus) : (s.setMst t).mst.mprv = t.mprv :=
  congrArg (fun k => k.2.2.1) (kept_setMst' s t)

theorem setMst_mpp (s : State) (t : Mstatus) : (s.setMst t).mst.mpp = t.mpp :=
  congrArg (fun k => k.2.2.2) (kept_setMst' s t)

theorem kept_setMst (s : State) (t : Mstatus) (h : t.mprv = s.mst.mprv) (h2 : t.mpp = s.mst.mpp) :
    csrKept (s.setMst t) = csrKept s := by
  rw [kept_setMst', h, h2]; rfl

theorem kept_setHst (s : State) (t : Hstatus) : csrKept (s.setHst t) = csrKept s := by
  unfold State.setHst
  dsimp only
  rw [noted_eq]
  exact (kept_modulate _ _ _ _).trans rfl

theorem kept_setPmpAddr (s : State) (i : Nat) (w : Word) : csrKept (s.setPmpAddr i w) = csrKept s := by
  unfold State.setPmpAddr; split
  · rfl
  · exact kept_setPmp s _

theorem kept_dirtyFs (s : State) : csrKept s.dirtyFs = csrKept s := by
  unfold State.dirtyFs; split <;> rfl

theorem kept_dirtyVs (s : State) : csrKept s.dirtyVs = csrKept s := by
  unfold State.dirtyVs; split <;> rfl

/-- A write of floating-point state keeps all of it. -/
theorem kept_writeFcsr (s : State) (v : BitVec 8) : csrKept (s.writeFcsr v) = csrKept s := by
  unfold State.writeFcsr State.touchFs
  split
  · exact (kept_dirtyFs _).trans rfl
  · dsimp only
    have h := kept_pick ({ s with fcsr := v } : State) true [true, false]
    split
    · exact (kept_dirtyFs _).trans (h.trans rfl)
    · exact h.trans rfl

theorem kept_setHgatp (s : State) (w : Word) : csrKept (s.setHgatp w) = csrKept s := by rw [setHgatp_eq]; rfl

theorem kept_atpWrite {s t : State} {x : Xlen} {w v : Word} (h : s.atpWrite x w = some (v, t)) : csrKept t = csrKept s := by
  unfold State.atpWrite at h
  dsimp only at h
  repeat' split at h
  · cases h
  · cases h; rfl
  · cases h; rfl

/-- A CSR write other than one of `misa` or `mstatus` keeps the base, `misa`, MPRV and MPP. -/
theorem csrPut_kept {s t : State} {c : Csr} {w : Word} (h : s.csrPut c w = some t) (hc : c ≠ .mstatus) :
    csrKept t = csrKept s := by
  have k : ∀ u : State, some u = some t → csrKept u = csrKept s → csrKept t = csrKept s := fun u e hu => by cases e; exact hu
  cases c
  case mstatus => exact absurd rfl hc
  case sstatus => exact k _ h (kept_setMst s _ rfl rfl)
  case mstatush => exact k _ h (kept_setMst s _ rfl rfl)
  case menvcfgh => exact k _ h (kept_setMPbmte s _)
  case pmpcfg n => exact k _ h (kept_setPmp s _)
  case pmpaddr n => exact k _ h (kept_setPmpAddr s n w)
  case fflags => exact k _ h (kept_writeFcsr s _)
  case frm => exact k _ h (kept_writeFcsr s _)
  case fcsr => exact k _ h (kept_writeFcsr s _)
  case hgatp => exact k _ h (kept_setHgatp s w)
  case henvcfgh => exact k _ h (kept_putHPbmte s _)
  case satp =>
    simp only [State.csrPut] at h
    split at h
    · cases h; rfl
    · rename_i v s1 h1
      exact k _ h ((rfl : _ = csrKept s1).trans (kept_atpWrite h1))
  case vsatp =>
    simp only [State.csrPut] at h
    split at h
    · split at h
      · cases h; rfl
      · exact k _ h rfl
    · rename_i v s1 h1
      exact k _ h ((rfl : _ = csrKept s1).trans (kept_atpWrite h1))
  case hstatus =>
    simp only [State.csrPut] at h
    split at h
    · exact k _ h (kept_setHst s _)
    · split at h
      · cases h
      · exact k _ h (kept_setHst s _)
  case henvcfg =>
    simp only [State.csrPut] at h
    split at h
    · exact k _ h rfl
    · exact k _ h ((kept_putHPbmte _ _).trans rfl)
  case menvcfg =>
    simp only [State.csrPut] at h
    split at h
    · exact k _ h rfl
    · exact k _ h ((kept_setMPbmte _ _).trans rfl)
  case scause =>
    simp only [State.csrPut, Option.map_eq_some_iff] at h
    obtain ⟨a, -, rfl⟩ := h
    rfl
  case vscause =>
    simp only [State.csrPut, Option.map_eq_some_iff] at h
    obtain ⟨a, -, rfl⟩ := h
    rfl
  case mcause =>
    simp only [State.csrPut, Option.map_eq_some_iff] at h
    obtain ⟨a, -, rfl⟩ := h
    rfl
  case mideleg =>
    simp only [State.csrPut] at h
    split at h <;> exact k _ h rfl
  case mtval =>
    simp only [State.csrPut] at h
    split at h <;> exact k _ h rfl
  all_goals exact k _ h rfl

/-- A write of a CSR other than `misa` keeps the base and `misa`. -/
theorem csrPut_frame {s t : State} {c : Csr} {w : Word} (h : s.csrPut c w = some t) : csrFrame t = csrFrame s := by
  by_cases hc : c = .mstatus
  · subst hc
    simp only [State.csrPut, Option.some.injEq] at h
    subst h
    exact frame_setMst s _
  · exact csrFrame_of_kept (csrPut_kept h hc)

/-! ### Writes of `misa` -/

theorem kept_drawWord (s : State) : csrKept s.drawWord.2 = csrKept s := rfl

theorem kept_foldl (l : List Csr) (hl : Csr.mstatus ∉ l) (s : State) :
    csrKept (l.foldl (fun s c => match s.drawWord.2.csrPut c s.drawWord.1 with | some t => t | none => s.drawWord.2) s) =
      csrKept s := by
  induction l generalizing s with
  | nil => rfl
  | cons c l ih =>
    rw [List.foldl_cons, ih (fun h => hl (List.mem_cons_of_mem _ h))]
    split
    · rename_i t ht
      exact (csrPut_kept ht (fun h => hl (by rw [h]; exact List.mem_cons_self ..))).trans (kept_drawWord s)
    · exact kept_drawWord s

/-- Redrawing registers keeps what their writes keep. -/
theorem kept_redraw (s : State) (l : List Csr) (hl : Csr.mstatus ∉ l) : csrKept (s.redraw l) = csrKept s :=
  kept_foldl l hl s

/-- What a write of `misa` leaves of a state whose letters are already new, but for what it draws. -/
def misaLast (s : State) : CsrBase × Misa := (csrBase s, s.misa)

theorem misaLast_of_kept {s t : State} (h : csrKept t = csrKept s) : misaLast t = misaLast s := csrFrame_of_kept h

/-- Redrawing the status registers keeps all but MPRV, which it draws where U-mode has been enabled. -/
theorem redrawMst_spec (s old : State) :
    csrFrame (s.redrawMst old) = csrFrame s ∧ (s.redrawMst old).mst.mpp = s.mst.mpp ∧
    (old.hasU = true → (s.redrawMst old).mst.mprv = s.mst.mprv) := by
  unfold State.redrawMst
  dsimp only
  refine ⟨(frame_setMst _ _).trans rfl, (setMst_mpp _ _).trans rfl, fun h => (setMst_mprv _ _).trans ?_⟩
  simp [h, State.drawWord]

/-- Redrawing the upper registers keeps the lower ones and everything else. -/
theorem redrawX_spec (s : State) :
    (∃ v n, s.redrawX = { s with x := v, draws := n }) ∧ ∀ r, r < 16 → s.redrawX.x[r]? = s.x[r]? := by
  have key : ∀ (l : List Nat), (∀ k ∈ l, 16 ≤ k) → ∀ t : State, (∃ v n, t = { s with x := v, draws := n }) →
      (∀ r, r < 16 → t.x[r]? = s.x[r]?) →
      (∃ v n, l.foldl (fun s k => { s.drawWord.2 with x := s.drawWord.2.x.setIfInBounds k (s.toReg s.mxlen s.drawWord.1) }) t =
          { s with x := v, draws := n }) ∧
        ∀ r, r < 16 →
          (l.foldl (fun s k => { s.drawWord.2 with x := s.drawWord.2.x.setIfInBounds k (s.toReg s.mxlen s.drawWord.1) }) t).x[r]? =
            s.x[r]? := by
    intro l
    induction l with
    | nil => exact fun _ t h1 h2 => ⟨h1, h2⟩
    | cons k l ih =>
      intro hl t h1 h2
      refine ih (fun j hj => hl j (List.mem_cons_of_mem _ hj)) _ ?_ fun r hr => ?_
      · obtain ⟨v, n, rfl⟩ := h1
        exact ⟨_, _, rfl⟩
      · have hk := hl k (List.mem_cons_self ..)
        rw [← h2 r hr]
        show (t.x.setIfInBounds k _)[r]? = t.x[r]?
        rw [Vector.getElem?_setIfInBounds_ne (by omega)]
  exact key _ (by decide) s ⟨s.x, s.draws, rfl⟩ fun _ _ => rfl

theorem kept_redrawSirq (s : State) : csrKept s.redrawSirq = csrKept s := rfl

theorem kept_redrawFcsr (s : State) : csrKept s.redrawFcsr = csrKept s := rfl

theorem kept_redrawResv (s : State) : csrKept s.redrawResv = csrKept s := rfl

theorem kept_redrawModes (s old : State) : csrKept (s.redrawModes old) = csrKept s := by
  have opt : ∀ (b : Bool) (u v : State), csrKept u = csrKept v → csrKept (if b = true then u else v) = csrKept v := by
    intro b u v h; cases b
    · rfl
    · exact h
  have hu : Csr.mstatus ∉ csrsOfU := by decide
  have hs : Csr.mstatus ∉ csrsOfS := by decide
  have hh : Csr.mstatus ∉ csrsWithH s.cfg := by unfold csrsWithH; split <;> decide
  unfold State.redrawModes
  dsimp only
  refine (opt _ _ _ (kept_redraw _ _ hh)).trans ((opt _ _ _ ?_).trans (opt _ _ _ (kept_redraw s _ hu)))
  exact (kept_redrawSirq _).trans (kept_redraw _ _ hs)

theorem kept_redrawUnits (s old : State) : csrKept (s.redrawUnits old) = csrKept s := by
  unfold State.redrawUnits
  dsimp only
  have h : ∀ b : Bool, csrKept (if b = true then s.redrawFcsr else s) = csrKept s := fun b => by
    cases b
    · rfl
    · exact kept_redrawFcsr s
  split
  · exact (kept_redrawResv _).trans (h _)
  · exact h _

theorem kept_redrawDeleg (s old : State) : csrKept (s.redrawDeleg old) = csrKept s := by
  unfold State.redrawDeleg
  dsimp only
  repeat' split
  all_goals rfl

/-- Drawing the state of what has been enabled: the registers of the base before, and all that no CSR write changes, stay. -/
theorem redrawEnabled_spec (s old : State) :
    (∃ v, csrBase (s.redrawEnabled old) = { csrBase s with x := v }) ∧
    (s.redrawEnabled old).misa = s.misa ∧ (s.redrawEnabled old).mst.mpp = s.mst.mpp ∧
    (old.hasU = true → (s.redrawEnabled old).mst.mprv = s.mst.mprv) ∧
    (∀ r, old.hasReg r = true → (s.redrawEnabled old).x[r]? = s.x[r]?) := by
  obtain ⟨z, e⟩ : ∃ z, z = s.redrawEnabled old := ⟨_, rfl⟩
  rw [← e]
  unfold State.redrawEnabled at e
  have k1 := kept_redrawModes s old
  generalize s.redrawModes old = t at e k1
  have k2 : csrFrame (if t.statusGrew old then t.redrawMst old else t) = csrFrame t ∧
      (if t.statusGrew old then t.redrawMst old else t).mst.mpp = t.mst.mpp ∧
      (old.hasU = true → (if t.statusGrew old then t.redrawMst old else t).mst.mprv = t.mst.mprv) := by
    split
    · exact redrawMst_spec t old
    · exact ⟨rfl, rfl, fun _ => rfl⟩
  dsimp only at e
  generalize (if t.statusGrew old then t.redrawMst old else t) = u at e k2
  have k3 := kept_redrawUnits u old
  generalize u.redrawUnits old = v at e k3
  have k4 : (∃ x n, (if turnedOn old.misa.ext v.misa.ext letterI then v.redrawX else v) = { v with x := x, draws := n }) ∧
      ∀ r, old.hasReg r = true →
        (if turnedOn old.misa.ext v.misa.ext letterI then v.redrawX else v).x[r]? = v.x[r]? := by
    split
    · rename_i ho
      have h := redrawX_spec v
      refine ⟨h.1, fun r hr => h.2 r ?_⟩
      have hi : old.hasI = false := by
        simp only [turnedOn, Bool.and_eq_true, Bool.not_eq_true'] at ho; exact ho.1
      simpa [State.hasReg, hi] using hr
    · exact ⟨⟨_, _, rfl⟩, fun _ _ => rfl⟩
  generalize (if turnedOn old.misa.ext v.misa.ext letterI then v.redrawX else v) = w at e k4
  have k5 := kept_redrawDeleg w old
  rw [← e] at k5
  clear e
  obtain ⟨⟨x, n, rfl⟩, hx⟩ := k4
  have fv : csrFrame v = csrFrame s := (csrFrame_of_kept k3).trans (k2.1.trans (csrFrame_of_kept k1))
  have bv : csrBase v = csrBase s := congrArg (·.1) fv
  refine ⟨⟨x, ?_⟩, ?_, ?_, fun h => ?_, fun r hr => ?_⟩
  · rw [← bv]; exact congrArg (·.1) k5
  · exact (congrArg (·.2.1) k5).trans (congrArg (·.2) fv)
  · exact (congrArg (·.2.2.2) k5).trans ((congrArg (·.2.2.2) k3).trans (k2.2.1.trans (congrArg (·.2.2.2) k1)))
  · exact (congrArg (·.2.2.1) k5).trans ((congrArg (·.2.2.1) k3).trans ((k2.2.2 h).trans (congrArg (·.2.2.1) k1)))
  · rw [show z.x = x from congrArg (·.1.x) k5, ← show v.x = s.x from congrArg CsrBase.x bv]; exact hx r hr

/-- MPP is legal after it is redrawn. -/
theorem redrawMpp_spec (s old : State) (h : old.hasMode old.mst.mpp = true) (hm : s.mst.mpp = old.mst.mpp) :
    misaLast (s.redrawMpp old) = misaLast s ∧ (s.redrawMpp old).hasMode (s.redrawMpp old).mst.mpp = true := by
  have hs : ∀ (u : State) (p : Priv), p ∈ u.mppSet ↔ u.hasMode p = true := by
    intro u p
    unfold State.mppSet State.hasMode
    have hsu : u.hasS = true → u.hasU = true := fun h => by simp only [State.hasS, Bool.and_eq_true] at h; exact h.2
    cases h1 : u.hasS <;> cases h2 : u.hasU <;> cases p <;> simp_all
  unfold State.redrawMpp
  split
  · rename_i he
    refine ⟨rfl, (hs _ _).mp ?_⟩
    rw [he, hm]; exact (hs _ _).mpr h
  · have h1 := kept_pick s .m s.mppSet
    have hne : s.mppSet ≠ [] := by unfold State.mppSet; repeat' split
                                   all_goals simp
    have h2 := pick_mem s .m s.mppSet hne
    refine ⟨(misaLast_of_kept h1 :), ?_⟩
    have h3 := (hs _ _).mp h2
    have h4 : ∀ (a b : State) (p : Priv), a.misa = b.misa → a.hasMode p = b.hasMode p := by
      intro a b p hab
      unfold State.hasMode State.hasS State.hasU State.has; rw [hab]
    rw [← h3]
    exact h4 _ _ _ (congrArg (fun k => k.2.1) h1)

theorem hasMode_congr {a b : State} (h : a.misa = b.misa) (p : Priv) : a.hasMode p = b.hasMode p := by
  unfold State.hasMode State.hasS State.hasU State.has; rw [h]

theorem base_clearAbsent (s : State) : csrFrame s.clearAbsent = csrFrame s := by
  unfold State.clearAbsent
  dsimp only
  refine Eq.trans (b := csrFrame ((if s.mst.sbe && !s.hasS then s.note .sbe else s).putHPbmte (s.h.pbmte && s.hasH))) rfl ?_
  refine (csrFrame_of_kept (kept_putHPbmte _ _)).trans ?_
  split <;> rfl

/-- A write of `misa` keeps the base but for registers that a new base brings, sets the letters and width its target says,
sets MPRV only where it enables U-mode, and leaves MPP legal. -/
theorem setMisa_spec (s : State) (w : Word) :
    (∃ v, csrBase (s.setMisa w) = { csrBase s with x := v }) ∧
    (∀ r, s.hasReg r = true → (s.setMisa w).x[r]? = s.x[r]?) ∧
    (s.setMisa w).misa = s.misaTarget w ∧
    ((s.setMisa w).mst.mprv = true → s.mst.mprv = true ∨ s.hasU = false) ∧
    (s.hasMode s.mst.mpp = true → (s.setMisa w).hasMode (s.setMisa w).mst.mpp = true) := by
  unfold State.setMisa
  extract_lets n t
  split
  · rename_i h; exact ⟨⟨s.x, rfl⟩, fun _ _ => rfl, h.symm, .inl, id⟩
  · have k2 : csrKept t = csrKept ({ s with misa := n } : State).clearAbsent := kept_modulate _ _ _ _
    have m2 : t.mst.mprv = (s.mst.mprv && ({ s with misa := n } : State).hasU) := (congrArg (·.2.2.1) k2).trans rfl
    have p2 : t.mst.mpp = s.mst.mpp := (congrArg (·.2.2.2) k2).trans rfl
    have f2 : csrFrame t = (csrBase s, n) := (csrFrame_of_kept k2).trans (base_clearAbsent _)
    clear_value t
    have r1 : csrFrame (t.redrawMpp s) = csrFrame t ∧ (t.redrawMpp s).mst.mprv = t.mst.mprv := by
      unfold State.redrawMpp
      split
      · exact ⟨rfl, rfl⟩
      · have h := kept_pick t .m t.mppSet
        exact ⟨(csrFrame_of_kept h :), (congrArg (·.2.2.1) h :)⟩
    have e : csrFrame (t.redrawMpp s) = (csrBase s, n) := r1.1.trans f2
    have eb : csrBase (t.redrawMpp s) = csrBase s := congrArg (·.1) e
    obtain ⟨⟨v, h1⟩, h2, h3, h4, h5⟩ := redrawEnabled_spec (t.redrawMpp s) s
    refine ⟨⟨v, h1.trans (by rw [eb])⟩, fun r hr => ?_, h2.trans (congrArg (·.2) e), fun h => ?_, fun h => ?_⟩
    · rw [h5 r hr, show (t.redrawMpp s).x = s.x from congrArg CsrBase.x eb]
    · cases hu : s.hasU
      · exact .inr rfl
      · refine .inl ?_
        rw [h4 hu, r1.2, m2, Bool.and_eq_true] at h
        exact h.1
    · have hm := (redrawMpp_spec t s h p2).2
      rw [h3, hasMode_congr h2]
      exact hm

/-! ### All writes -/

/-- A CSR write keeps the base but for registers that a write of `misa` brings. -/
theorem csrWrite_base {s t : State} {c : Csr} {w : Word} (h : s.csrWrite c w = some t) :
    (∃ v, csrBase t = { csrBase s with x := v }) ∧ ∀ r, s.hasReg r = true → t.x[r]? = s.x[r]? := by
  unfold State.csrWrite at h
  split at h
  · cases h; exact ⟨(setMisa_spec s w).1, (setMisa_spec s w).2.1⟩
  · have hb : csrBase t = csrBase s := congrArg (·.1) (csrPut_frame h)
    exact ⟨⟨s.x, hb⟩, fun r _ => by rw [show t.x = s.x from congrArg CsrBase.x hb]⟩

/-- Where illegal values of WLRL fields do not trap, every write has an effect. -/
theorem csrWrite_some (s : State) (c : Csr) (w : Word) (h : s.cfg.wlrlTraps = false) : ∃ t, s.csrWrite c w = some t := by
  have hc : ∀ f x o, ∃ v, causeWrite s.cfg f x o w = some v := by
    intro f x o; unfold causeWrite; dsimp only
    split
    · exact ⟨_, rfl⟩
    · rw [h]; exact ⟨_, rfl⟩
  cases c
  case scause => obtain ⟨v, hv⟩ := hc .scause s.sxlen s.sc.cause; exact ⟨_, by simp only [State.csrWrite, State.csrPut, hv]; rfl⟩
  case vscause => obtain ⟨v, hv⟩ := hc .vscause s.vsxlen s.vs.cause; exact ⟨_, by simp only [State.csrWrite, State.csrPut, hv]; rfl⟩
  case mcause => obtain ⟨v, hv⟩ := hc .mcause s.mxlen s.m.cause; exact ⟨_, by simp only [State.csrWrite, State.csrPut, hv]; rfl⟩
  case hstatus =>
    simp only [State.csrWrite, State.csrPut, h]
    split
    · exact ⟨_, rfl⟩
    · exact ⟨_, rfl⟩
  case satp => simp only [State.csrWrite, State.csrPut]; split <;> exact ⟨_, rfl⟩
  case vsatp =>
    simp only [State.csrWrite, State.csrPut]
    split
    · split <;> exact ⟨_, rfl⟩
    · exact ⟨_, rfl⟩
  case mideleg => simp only [State.csrWrite, State.csrPut]; split <;> exact ⟨_, rfl⟩
  case mtval => simp only [State.csrWrite, State.csrPut]; split <;> exact ⟨_, rfl⟩
  case henvcfg => simp only [State.csrWrite, State.csrPut]; split <;> exact ⟨_, rfl⟩
  case menvcfg => simp only [State.csrWrite, State.csrPut]; split <;> exact ⟨_, rfl⟩
  all_goals exact ⟨_, rfl⟩

end Sys2Proof.Laws
end

