-- ==== Sys2Proof/Laws/CsrMap.lean ====
section
/-!
SUPPORT. The privilege level in a CSR's number, register by register (`10_state.md` R30, R37).
-/

namespace Sys2Proof.Laws

open Sys2Proof.Machine

/-- The level a register's number carries. -/
def levelOf : Csr → Nat
  | .fflags | .frm | .fcsr | .cycle | .time | .instret | .hpmcounter _ | .cycleh | .timeh | .instreth | .hpmcounterh _ => 0
  | .sstatus | .sie | .stvec | .scounteren | .senvcfg | .sscratch | .sepc | .scause | .stval | .sip | .satp => 1
  | .hstatus | .hedeleg | .hideleg | .hie | .htimedelta | .hcounteren | .hgeie | .henvcfg | .htimedeltah | .henvcfgh
  | .htval | .hip | .hvip | .htinst | .hgatp | .hgeip | .vsstatus | .vsie | .vstvec | .vsscratch | .vsepc | .vscause
  | .vstval | .vsip | .vsatp => 2
  | _ => 3

theorem level_csrLow (n : Nat) (c : Csr) (h : csrLow n = some c) : csrLevel n = levelOf c := by
  unfold csrLow at h
  split at h <;> first | (cases h; rfl) | cases h

theorem level_csrMachine (n : Nat) (c : Csr) (h : csrMachine n = some c) : csrLevel n = levelOf c := by
  unfold csrMachine at h
  split at h
  all_goals first
    | (cases h; rfl)
    | (repeat' split at h
       all_goals first | (cases h; done) | (cases h; simp only [levelOf, csrLevel]; omega))

theorem level_csrHigh (n : Nat) (c : Csr) (h : csrHigh n = some c) : csrLevel n = levelOf c := by
  unfold csrHigh at h
  split at h
  all_goals first
    | (cases h; rfl)
    | (repeat' split at h
       all_goals first | (cases h; done) | (cases h; simp only [levelOf, csrLevel]; omega))

/-- The level in a CSR's number is that of the register. -/
theorem level_csrOf {n : Nat} {c : Csr} (h : csrOf n = some c) : csrLevel n = levelOf c := by
  unfold csrOf at h
  split at h
  · exact level_csrMachine n c h
  · split at h
    · exact level_csrLow n c h
    · exact level_csrHigh n c h

/-- An allowed access is from a mode at or above the register's level; with V=1 the register is of level 0 or 1. -/
theorem level_of_ok {s : State} {n : Nat} {c : Csr} {w : Bool} (hc : csrOf n = some c) (h : s.csrVerdict n c w = .ok) :
    if s.v then levelOf c ≤ 1 else levelOf c ≤ s.modeLevel := by
  rw [← level_csrOf hc]
  unfold State.csrVerdict at h
  split at h
  · cases h
  · split at h
    · cases h
    · split
      · rename_i hv
        rw [if_pos hv] at h
        split at h
        · cases h
        · split at h
          · cases h
          · have : csrLevel n < 4 := Nat.mod_lt _ (by decide)
            omega
      · rename_i hv
        rw [if_neg hv] at h
        split at h
        · cases h
        · omega

/-- `misa` and the other machine-level registers are reached from M-mode with V=0 only. -/
theorem machine_of_level {s : State} {n : Nat} {c : Csr} {w : Bool} (hc : csrOf n = some c) (h : s.csrVerdict n c w = .ok)
    (h3 : levelOf c = 3) : s.priv = .m ∧ s.v = false := by
  have := level_of_ok hc h
  split at this
  · omega
  · rename_i hv
    refine ⟨?_, by simpa using hv⟩
    unfold State.modeLevel at this
    split at this
    · assumption
    · split at this <;> omega
    · omega

end Sys2Proof.Laws
end

