-- ==== Sys2Proof/Laws/Decode.lean ====
section
/-!
SUPPORT. Laws of the encoding: the fields of an encoded word, and a word from its fields.
-/

namespace Sys2Proof.Laws

/-- The bytes of a word make the word again. -/
theorem wordOfBytes_bytes (w : IWord) :
    wordOfBytes (w.extractLsb' 0 8) (w.extractLsb' 8 8) (w.extractLsb' 16 8) (w.extractLsb' 24 8) = w := by
  apply BitVec.eq_of_toNat_eq
  simp only [wordOfBytes, BitVec.toNat_append, BitVec.extractLsb'_toNat]
  have := w.isLt
  simp only [Nat.shiftRight_eq_div_pow, Nat.shiftLeft_eq]
  have h : ∀ a b : Nat, b < 2^8 → a * 2^8 ||| b = a * 2^8 + b := fun a b hb => by
    rw [Nat.mul_comm, ← Nat.two_pow_add_eq_or_of_lt hb]
  rw [h _ _ (Nat.mod_lt _ (by decide)), h _ _ (Nat.mod_lt _ (by decide)), h _ _ (Nat.mod_lt _ (by decide))]
  omega

/-- The encoding of a well-formed instruction fits in 32 bits. -/
theorem encodeNat_lt (i : Instr) (h : i.wellFormed = true) : encodeNat i < 2^32 := by
  cases i <;> simp [Instr.wellFormed, fits5, fits12] at h <;> simp only [encodeNat, encR, encI, opSystem] <;> omega

/-- The fields of an R-type word are those it was made of. -/
theorem encR_fields {f7 r2 r1 f3 d : Nat} (h : f7 < 128 ∧ r2 < 32 ∧ r1 < 32 ∧ f3 < 8 ∧ d < 32) :
    encR f7 r2 r1 f3 d % 4 = 3 ∧ fieldOpcode (encR f7 r2 r1 f3 d) = opSystem ∧ fieldRd (encR f7 r2 r1 f3 d) = d ∧
    fieldFunct3 (encR f7 r2 r1 f3 d) = f3 ∧ fieldRs1 (encR f7 r2 r1 f3 d) = r1 ∧ fieldRs2 (encR f7 r2 r1 f3 d) = r2 ∧
    fieldFunct7 (encR f7 r2 r1 f3 d) = f7 := by
  simp only [encR, fieldOpcode, fieldRd, fieldFunct3, fieldRs1, fieldRs2, fieldFunct7, opSystem]
  omega

/-- The fields of an I-type word are those it was made of. -/
theorem encI_fields {c r1 f3 d : Nat} (h : c < 4096 ∧ r1 < 32 ∧ f3 < 8 ∧ d < 32) :
    encI c r1 f3 d % 4 = 3 ∧ fieldOpcode (encI c r1 f3 d) = opSystem ∧ fieldRd (encI c r1 f3 d) = d ∧
    fieldFunct3 (encI c r1 f3 d) = f3 ∧ fieldRs1 (encI c r1 f3 d) = r1 ∧ fieldCsr (encI c r1 f3 d) = c := by
  simp only [encI, fieldOpcode, fieldRd, fieldFunct3, fieldRs1, fieldCsr, opSystem]
  omega

/-- A word of the PRIV group is decoded by its other fields. -/
theorem decodeNat_priv {f7 r2 r1 d : Nat} (h : f7 < 128 ∧ r2 < 32 ∧ r1 < 32 ∧ d < 32) :
    decodeNat (encR f7 r2 r1 0 d) = decodePriv f7 r2 r1 d := by
  obtain ⟨h1, h2, h3, h4, h5, h6, h7⟩ := encR_fields (f3 := 0) ⟨h.1, h.2.1, h.2.2.1, by decide, h.2.2.2⟩
  simp only [decodeNat, h1, h2, h3, h4, h5, h6, h7, ne_eq, not_true_eq_false, if_false]

/-- So is a word of the virtual-machine loads and stores. -/
theorem decodeNat_hls {f7 r2 r1 d : Nat} (h : f7 < 128 ∧ r2 < 32 ∧ r1 < 32 ∧ d < 32) :
    decodeNat (encR f7 r2 r1 4 d) = decodeHls f7 r2 r1 d := by
  obtain ⟨h1, h2, h3, h4, h5, h6, h7⟩ := encR_fields (f3 := 4) ⟨h.1, h.2.1, h.2.2.1, by decide, h.2.2.2⟩
  simp only [decodeNat, h1, h2, h3, h4, h5, h6, h7, ne_eq, not_true_eq_false, if_false]

/-- A SYSTEM word is the R-type word of its fields. -/
theorem word_R (w : Nat) (hw : w < 2 ^ 32) (ho : fieldOpcode w = opSystem) :
    w = encR (fieldFunct7 w) (fieldRs2 w) (fieldRs1 w) (fieldFunct3 w) (fieldRd w) := by
  simp only [encR, fieldOpcode, fieldRd, fieldFunct3, fieldRs1, fieldRs2, fieldFunct7, opSystem] at *
  omega

/-- A SYSTEM word is the I-type word of its fields. -/
theorem word_I (w : Nat) (hw : w < 2 ^ 32) (ho : fieldOpcode w = opSystem) :
    w = encI (fieldCsr w) (fieldRs1 w) (fieldFunct3 w) (fieldRd w) := by
  simp only [encI, fieldOpcode, fieldRd, fieldFunct3, fieldRs1, fieldCsr, opSystem] at *
  omega

end Sys2Proof.Laws
end

