-- ==== Sys2Proof/Laws/Fence.lean ====
section
/-!
SUPPORT. What the fences do to the address-translation cache and to what translation may still use.
-/

namespace Sys2Proof.Laws

open Sys2Proof.Machine

/-! ### Scopes -/

theorem isFor_iff (r : TlbRec) (a : Option Nat) :
    r.isFor a = true ↔ a = none ∨ ∃ n, a = some n ∧ r.leafLike = true ∧ r.scheme.prefixOf n r.level = r.prefixBits := by
  cases a <;> simp [TlbRec.isFor]

theorem inAsid_iff (r : TlbRec) (n : Option Nat) :
    r.inAsid n = true ↔ n = none ∨ (n = some r.asid ∧ r.global = false) := by
  cases n with
  | none => simp [TlbRec.inAsid]
  | some k => simp [TlbRec.inAsid, @eq_comm _ k]

/-- A fence of HS-level translation covers the records of `satp` in its scope. -/
theorem covers_hs (va asid : Option Nat) (r : TlbRec) :
    (Scope.hs va asid).covers r = true ↔ r.space = .hs ∧ InScope r va asid := by
  simp only [Scope.covers, Bool.and_eq_true, decide_eq_true_eq, inAsid_iff, isFor_iff, InScope, and_assoc]

/-- A fence of the VS-stage covers the records of that virtual machine in its scope. -/
theorem covers_vs (n : Nat) (va asid : Option Nat) (r : TlbRec) :
    (Scope.vs n va asid).covers r = true ↔ r.space = .vs n ∧ InScope r va asid := by
  simp only [Scope.covers, Bool.and_eq_true, decide_eq_true_eq, inAsid_iff, isFor_iff, InScope, and_assoc]

/-- A fence of all guest translation covers the records of both guest stages. -/
theorem covers_allG (r : TlbRec) : (Scope.g none none).covers r = true ↔ r.space ≠ .hs := by
  simp [Scope.covers]

/-- A fence of the G-stage covers its records of the VMID and address given. -/
theorem covers_g (gpa vmid : Option Nat) (r : TlbRec) (h : gpa ≠ none ∨ vmid ≠ none) :
    (Scope.g gpa vmid).covers r = true ↔
      (∃ n, r.space = .g n ∧ (vmid = none ∨ vmid = some n)) ∧ r.isFor gpa = true := by
  have hv : r.inVmid vmid = true ↔ ∃ n, r.space = .g n ∧ (vmid = none ∨ vmid = some n) := by
    unfold TlbRec.inVmid
    cases r.space <;> cases vmid <;> simp [eq_comm]
  rw [← hv]
  cases gpa <;> cases vmid <;> simp_all [Scope.covers]

/-! ### Records -/

theorem fence_caches (s : State) (p : Scope) : ∃ x, s.fence p = { s with xlat := x } := ⟨_, rfl⟩

theorem sfence_caches (s : State) (p : Option Scope) : ∃ x, s.sfence p = { s with xlat := x } := by
  cases p <;> exact ⟨_, rfl⟩

theorem hfence_caches (s : State) (p : Option Scope) : ∃ x, s.hfence p = { s with xlat := x } := by
  cases p <;> exact ⟨_, rfl⟩

theorem sinval_caches (s : State) (p : Option Scope) : ∃ x, s.sinval p = { s with xlat := x } := by
  cases p <;> exact ⟨_, rfl⟩

/-- What remains after a fence was there, is not in its scope, and was not marked for removal. -/
theorem mem_fence (s : State) (p : Scope) (r : TlbRec) :
    r ∈ (s.fence p).xlat.tlb ↔ r ∈ s.xlat.tlb ∧ r.doomed = false ∧ p.covers r = false := by
  simp [State.fence, State.note, State.complete, List.mem_filter, and_comm (a := r.doomed = false)]

/-- What remains after SFENCE.INVAL.IR was there and was not marked for removal. -/
theorem mem_complete (s : State) (r : TlbRec) : r ∈ s.complete.xlat.tlb ↔ r ∈ s.xlat.tlb ∧ r.doomed = false := by
  simp [State.complete, List.mem_filter]

/-- Whether a scope covers a record does not depend on its mark. -/
theorem covers_doomed (p : Scope) (r : TlbRec) (b : Bool) : p.covers { r with doomed := b } = p.covers r := by
  cases p with
  | g a n => cases a <;> cases n <;> rfl
  | _ => rfl

/-- Scheduling removals marks the records covered, and fences nothing. -/
theorem doom_marks (s : State) (p : Scope) : Marks s (s.doom p) (fun r => p.covers r = true) := by
  have hm : ∀ r, r ∈ (s.doom p).xlat.tlb ↔ ∃ q ∈ s.xlat.tlb, (if p.covers q then { q with doomed := true } else q) = r :=
    fun r => by simp [State.doom, State.note, List.mem_map]
  refine ⟨fun r hr => ⟨fun h => (hm _).mpr ⟨r, hr, if_pos h⟩, fun h => (hm _).mpr ⟨r, hr, if_neg h⟩⟩, fun r hr => ?_, rfl⟩
  obtain ⟨q, hq, rfl⟩ := (hm r).mp hr
  split
  · rename_i h
    exact ⟨fun _ => rfl, q, hq, .inr ⟨h, rfl⟩⟩
  · rename_i h
    exact ⟨fun h' => absurd h' h, q, hq, .inl rfl⟩

/-- `Marks` reads of its states only the caches. -/
theorem Marks.congr {s t u : State} {p q : TlbRec → Prop} (h : Marks s t p) (hx : u.xlat = t.xlat) (hp : ∀ r, p r ↔ q r) :
    Marks s u q := by
  unfold Marks State.changes at *
  rw [hx]
  simpa only [hp] using h

/-! ### What has been fenced -/

/-- Every change of a history counts the fences after it. -/
theorem mem_scan {acc waiting : List Scope} {l : List Hist} {c : Hist × List Scope} (h : c ∈ Hist.scan acc waiting l) :
    ∀ p ∈ acc, p ∈ c.2 := by
  induction l generalizing acc waiting with
  | nil => simp [Hist.scan] at h
  | cons a l ih =>
    intro p hp
    have keep : c ∈ (a, acc) :: Hist.scan acc waiting l → p ∈ c.2 := fun h => by
      rcases List.mem_cons.mp h with rfl | h
      · exact hp
      · exact ih h p hp
    cases a with
    | fence q => exact ih h p (List.mem_cons_of_mem _ hp)
    | order => exact ih h p (List.mem_append_right _ hp)
    | inval q d => exact ih h p hp
    | _ => exact keep h

/-- A fence counts for every change before it (`42_supervisor_instructions.md` R742; `43_hypervisor_instructions.md` R794). -/
theorem allFenced_fence (s : State) (p : Scope) : AllFenced (s.fence p) p := fun _ hc =>
  mem_scan (acc := [p]) hc p (List.mem_singleton_self p)

/-- SFENCE.W.INVAL, an invalidation and SFENCE.INVAL.IR count as a fence for every change before the first
(`42_supervisor_instructions.md` R754). -/
theorem allFenced_sequence (s t u : State) (p : Scope) (ht : t.xlat = s.orderStores.xlat)
    (hu : u.xlat = (t.doom p).xlat) : AllFenced u.complete p := by
  intro c hc
  unfold State.changes State.complete at hc
  rw [hu] at hc
  simp only [State.doom, State.note, ht, State.orderStores, List.map_cons] at hc
  exact mem_scan (acc := [p]) hc p (List.mem_singleton_self p)

end Sys2Proof.Laws
end

