-- ==== Sys2Proof/Laws/PerInstr.lean ====
section
/-!
SUPPORT. Facts about every instruction, one lemma for each constructor.
-/

namespace Sys2Proof.Laws

/-- The word of a well-formed instruction fits 32 bits and has the opcode SYSTEM (`30_encoding.md` R620). -/
def EncodingFits.Statement (i : Instr) : Prop :=
  i.wellFormed = true → encodeNat i < 2 ^ 32 ∧ fieldOpcode (encodeNat i) = opSystem

theorem fits5_lt {n : Nat} (h : fits5 n = true) : n < 32 := of_decide_eq_true h

theorem fits12_lt {n : Nat} (h : fits12 n = true) : n < 4096 := of_decide_eq_true h

theorem encR_fits (f7 rs2 rs1 f3 rd : Nat) (h7 : f7 < 128) (h3 : f3 < 8) (h2 : rs2 < 32) (h1 : rs1 < 32) (hd : rd < 32) :
    encR f7 rs2 rs1 f3 rd < 2 ^ 32 ∧ fieldOpcode (encR f7 rs2 rs1 f3 rd) = opSystem := by
  unfold encR fieldOpcode opSystem
  omega

theorem encI_fits (csr rs1 f3 rd : Nat) (h3 : f3 < 8) (hc : csr < 4096) (h1 : rs1 < 32) (hd : rd < 32) :
    encI csr rs1 f3 rd < 2 ^ 32 ∧ fieldOpcode (encI csr rs1 f3 rd) = opSystem := by
  unfold encI fieldOpcode opSystem
  omega

theorem wf_two {a b : Nat} (h : (fits5 a && fits5 b) = true) : a < 32 ∧ b < 32 :=
  have h' := (Bool.and_eq_true _ _).mp h
  ⟨fits5_lt h'.1, fits5_lt h'.2⟩

theorem wf_csr {a c b : Nat} (h : (fits5 a && fits12 c && fits5 b) = true) : a < 32 ∧ c < 4096 ∧ b < 32 :=
  have h' := (Bool.and_eq_true _ _).mp h
  have h'' := (Bool.and_eq_true _ _).mp h'.1
  ⟨fits5_lt h''.1, fits12_lt h''.2, fits5_lt h'.2⟩

theorem EncodingFits.ecall : EncodingFits.Statement .ecall :=
  fun _ => by decide

theorem EncodingFits.ebreak : EncodingFits.Statement .ebreak :=
  fun _ => by decide

theorem EncodingFits.sret : EncodingFits.Statement .sret :=
  fun _ => by decide

theorem EncodingFits.mret : EncodingFits.Statement .mret :=
  fun _ => by decide

theorem EncodingFits.wfi : EncodingFits.Statement .wfi :=
  fun _ => by decide

theorem EncodingFits.sfenceVma (rs1 rs2 : Nat) : EncodingFits.Statement (.sfenceVma rs1 rs2) :=
  fun h => encR_fits _ _ _ _ _ (by decide) (by decide) (wf_two h).2 (wf_two h).1 (by decide)

theorem EncodingFits.sinvalVma (rs1 rs2 : Nat) : EncodingFits.Statement (.sinvalVma rs1 rs2) :=
  fun h => encR_fits _ _ _ _ _ (by decide) (by decide) (wf_two h).2 (wf_two h).1 (by decide)

theorem EncodingFits.sfenceWInval : EncodingFits.Statement .sfenceWInval :=
  fun _ => by decide

theorem EncodingFits.sfenceInvalIr : EncodingFits.Statement .sfenceInvalIr :=
  fun _ => by decide

theorem EncodingFits.hfenceVvma (rs1 rs2 : Nat) : EncodingFits.Statement (.hfenceVvma rs1 rs2) :=
  fun h => encR_fits _ _ _ _ _ (by decide) (by decide) (wf_two h).2 (wf_two h).1 (by decide)

theorem EncodingFits.hfenceGvma (rs1 rs2 : Nat) : EncodingFits.Statement (.hfenceGvma rs1 rs2) :=
  fun h => encR_fits _ _ _ _ _ (by decide) (by decide) (wf_two h).2 (wf_two h).1 (by decide)

theorem EncodingFits.hinvalVvma (rs1 rs2 : Nat) : EncodingFits.Statement (.hinvalVvma rs1 rs2) :=
  fun h => encR_fits _ _ _ _ _ (by decide) (by decide) (wf_two h).2 (wf_two h).1 (by decide)

theorem EncodingFits.hinvalGvma (rs1 rs2 : Nat) : EncodingFits.Statement (.hinvalGvma rs1 rs2) :=
  fun h => encR_fits _ _ _ _ _ (by decide) (by decide) (wf_two h).2 (wf_two h).1 (by decide)

theorem EncodingFits.hlvB (rd rs1 : Nat) : EncodingFits.Statement (.hlvB rd rs1) :=
  fun h => encR_fits _ _ _ _ _ (by decide) (by decide) (by decide) (wf_two h).2 (wf_two h).1

theorem EncodingFits.hlvBu (rd rs1 : Nat) : EncodingFits.Statement (.hlvBu rd rs1) :=
  fun h => encR_fits _ _ _ _ _ (by decide) (by decide) (by decide) (wf_two h).2 (wf_two h).1

theorem EncodingFits.hlvH (rd rs1 : Nat) : EncodingFits.Statement (.hlvH rd rs1) :=
  fun h => encR_fits _ _ _ _ _ (by decide) (by decide) (by decide) (wf_two h).2 (wf_two h).1

theorem EncodingFits.hlvHu (rd rs1 : Nat) : EncodingFits.Statement (.hlvHu rd rs1) :=
  fun h => encR_fits _ _ _ _ _ (by decide) (by decide) (by decide) (wf_two h).2 (wf_two h).1

theorem EncodingFits.hlvW (rd rs1 : Nat) : EncodingFits.Statement (.hlvW rd rs1) :=
  fun h => encR_fits _ _ _ _ _ (by decide) (by decide) (by decide) (wf_two h).2 (wf_two h).1

theorem EncodingFits.hlvWu (rd rs1 : Nat) : EncodingFits.Statement (.hlvWu rd rs1) :=
  fun h => encR_fits _ _ _ _ _ (by decide) (by decide) (by decide) (wf_two h).2 (wf_two h).1

theorem EncodingFits.hlvD (rd rs1 : Nat) : EncodingFits.Statement (.hlvD rd rs1) :=
  fun h => encR_fits _ _ _ _ _ (by decide) (by decide) (by decide) (wf_two h).2 (wf_two h).1

theorem EncodingFits.hlvxHu (rd rs1 : Nat) : EncodingFits.Statement (.hlvxHu rd rs1) :=
  fun h => encR_fits _ _ _ _ _ (by decide) (by decide) (by decide) (wf_two h).2 (wf_two h).1

theorem EncodingFits.hlvxWu (rd rs1 : Nat) : EncodingFits.Statement (.hlvxWu rd rs1) :=
  fun h => encR_fits _ _ _ _ _ (by decide) (by decide) (by decide) (wf_two h).2 (wf_two h).1

theorem EncodingFits.hsvB (rs2 rs1 : Nat) : EncodingFits.Statement (.hsvB rs2 rs1) :=
  fun h => encR_fits _ _ _ _ _ (by decide) (by decide) (wf_two h).1 (wf_two h).2 (by decide)

theorem EncodingFits.hsvH (rs2 rs1 : Nat) : EncodingFits.Statement (.hsvH rs2 rs1) :=
  fun h => encR_fits _ _ _ _ _ (by decide) (by decide) (wf_two h).1 (wf_two h).2 (by decide)

theorem EncodingFits.hsvW (rs2 rs1 : Nat) : EncodingFits.Statement (.hsvW rs2 rs1) :=
  fun h => encR_fits _ _ _ _ _ (by decide) (by decide) (wf_two h).1 (wf_two h).2 (by decide)

theorem EncodingFits.hsvD (rs2 rs1 : Nat) : EncodingFits.Statement (.hsvD rs2 rs1) :=
  fun h => encR_fits _ _ _ _ _ (by decide) (by decide) (wf_two h).1 (wf_two h).2 (by decide)

theorem EncodingFits.csrrw (rd csr rs1 : Nat) : EncodingFits.Statement (.csrrw rd csr rs1) :=
  fun h => encI_fits _ _ _ _ (by decide) (wf_csr h).2.1 (wf_csr h).2.2 (wf_csr h).1

theorem EncodingFits.csrrs (rd csr rs1 : Nat) : EncodingFits.Statement (.csrrs rd csr rs1) :=
  fun h => encI_fits _ _ _ _ (by decide) (wf_csr h).2.1 (wf_csr h).2.2 (wf_csr h).1

theorem EncodingFits.csrrc (rd csr rs1 : Nat) : EncodingFits.Statement (.csrrc rd csr rs1) :=
  fun h => encI_fits _ _ _ _ (by decide) (wf_csr h).2.1 (wf_csr h).2.2 (wf_csr h).1

theorem EncodingFits.csrrwi (rd csr uimm : Nat) : EncodingFits.Statement (.csrrwi rd csr uimm) :=
  fun h => encI_fits _ _ _ _ (by decide) (wf_csr h).2.1 (wf_csr h).2.2 (wf_csr h).1

theorem EncodingFits.csrrsi (rd csr uimm : Nat) : EncodingFits.Statement (.csrrsi rd csr uimm) :=
  fun h => encI_fits _ _ _ _ (by decide) (wf_csr h).2.1 (wf_csr h).2.2 (wf_csr h).1

theorem EncodingFits.csrrci (rd csr uimm : Nat) : EncodingFits.Statement (.csrrci rd csr uimm) :=
  fun h => encI_fits _ _ _ _ (by decide) (wf_csr h).2.1 (wf_csr h).2.2 (wf_csr h).1

end Sys2Proof.Laws
end

