-- ==== Sys2Proof/Laws/Pmp.lean ====
section
/-!
SUPPORT. The PMP scan passes over entries that match no byte of the access; after the reset input only the settings of reset
are checked.
-/

namespace Sys2Proof.Laws

open Sys2Proof.Machine

/-- The scan goes on behind entries that match no byte. -/
theorem scan_skip (p : Pmp) (g x : Nat) (acc : Acc) (m : Bool) (a n : Nat) (k i : Nat)
    (h : ∀ j < k, ∀ lo hi, p.range g x (i + j) = some (lo, hi) → ¬(a < hi ∧ lo < a + n)) (r : Nat) :
    p.scan g x acc m a n (k + r) i = p.scan g x acc m a n r (i + k) := by
  induction k generalizing i with
  | zero => simp
  | succ k ih =>
    have e : k + 1 + r = (k + r) + 1 := by omega
    rw [e, Pmp.scan]
    have ih' := ih (i + 1) (fun j hj => by have := h (j + 1) (by omega); rwa [show i + (j + 1) = i + 1 + j by omega] at this)
    split
    · rw [ih']; congr 1; omega
    · rename_i lo hi hr
      have := h 0 (by omega) lo hi (by simpa using hr)
      rw [if_neg this, ih']; congr 1; omega

/-- A change that a scan of a history gives is an item of the history. -/
theorem mem_of_mem_scan (h : Hist) (p : List Scope) (l : List Hist) :
    ∀ acc waiting, (h, p) ∈ Hist.scan acc waiting l → h ∈ l := by
  induction l with
  | nil => intro _ _ m; cases m
  | cons x l ih =>
    intro acc waiting m
    unfold Hist.scan at m
    split at m
    · contradiction
    all_goals first
      | (rename_i e; cases e; exact List.mem_cons_of_mem _ (ih _ _ m))
      | (rename_i e; cases e; rcases List.mem_cons.mp m with e | m
         · cases e; exact List.mem_cons_self
         · exact List.mem_cons_of_mem _ (ih _ _ m))

/-- No earlier PMP settings remain (`70_reset_and_hazards.md` R980). -/
theorem pmps_dropPmps (s : State) (guest : Bool) : s.dropPmps.pmps guest = [s.pmp] := by
  have key : ∀ c ∈ s.dropPmps.changes, ∀ p, c.1 ≠ .pmp p := by
    rintro ⟨h, q⟩ m p rfl
    have := mem_of_mem_scan _ _ _ _ _ m
    simp [State.dropPmps] at this
  unfold State.pmps
  congr 1
  refine List.filterMap_eq_nil_iff.mpr fun c m => ?_
  have := key c m
  split
  · rename_i p e; exact absurd e (this p)
  · rfl

/-- After the reset input the PMP check is with the settings of reset (`70_reset_and_hazards.md` R980, R981). -/
theorem pmps_resetInput (s : State) (guest : Bool) : s.resetInput.pmps guest = [(resetWith s.cfg).pmp] :=
  congrArg (fun l => (resetWith s.cfg).pmp :: l)
    (List.cons.inj (pmps_dropPmps _ guest : State.pmps (State.dropPmps _) guest = [_])).2

end Sys2Proof.Laws
end

