-- ==== Sys2Proof/Laws/Quiet.lean ====
section
/-!
SUPPORT. What accesses to memory can do: they leave the state without the memory system alone, and keep the canonical form
of memory.
-/

namespace Sys2Proof.Laws

open Sys2Proof.Machine

/-- Only the memory system changes, and memory keeps its canonical form. -/
def Quiet (s t : State) : Prop := t.sansMemory = s.sansMemory ∧ (s.memOk → t.memOk)

theorem Quiet.refl (s : State) : Quiet s s := ⟨rfl, id⟩

theorem Quiet.trans {s t u : State} (h : Quiet s t) (k : Quiet t u) : Quiet s u := ⟨k.1.trans h.1, k.2 ∘ h.2⟩

/-- A property of the state a result leaves. -/
def All {α : Type} (P : State → Prop) : Res α → Prop
  | .ok _ t => P t
  | .trap _ t => P t
  | .fault _ => True

theorem All.bind {α β : Type} {P : State → Prop} {r : Res α} {k : α → State → Res β} (h : All P r)
    (hk : ∀ a t, P t → All P (k a t)) : All P (r.bind k) := by
  cases r with
  | ok a t => exact hk a t h
  | trap e t => exact h
  | fault f => trivial

/-- A result all of whose states are reached quietly. -/
abbrev Still {α : Type} (s : State) (r : Res α) : Prop := All (Quiet s) r

theorem Still.bind {α β : Type} {s : State} {r : Res α} {k : α → State → Res β} (h : Still s r)
    (hk : ∀ a t, Still t (k a t)) : Still s (r.bind k) :=
  All.bind h fun a t ht => by
    have h2 := hk a t
    cases hr : k a t with
    | ok b u => rw [hr] at h2; exact ht.trans h2
    | trap e u => rw [hr] at h2; exact ht.trans h2
    | fault f => trivial

theorem Still.after {α : Type} {s t : State} {r : Res α} (h : Quiet s t) (k : Still t r) : Still s r := by
  cases r with
  | ok a u => exact h.trans k
  | trap e u => exact h.trans k
  | fault f => trivial

/-! ### Draws -/

theorem quiet_draws (s : State) (n : Nat) : Quiet s { s with draws := n } := ⟨rfl, id⟩

theorem quiet_choose (s : State) (n : Nat) : Quiet s (s.choose n).2 := by
  unfold State.choose; split
  · exact .refl s
  · exact quiet_draws s _

theorem quiet_pick {α : Type} [BEq α] (s : State) (d : α) (l : List α) : Quiet s (s.pick d l).2 := quiet_choose s _

theorem quiet_pmpOk (s : State) (guest : Bool) (acc : Acc) (p : Priv) (a n : Nat) : Quiet s (s.pmpOk guest acc p a n).2 :=
  quiet_pick s _ _

theorem quiet_maybeStale (s : State) (b c : Bool) : Quiet s (s.maybeStale b c).2 := quiet_pick s _ _

/-! ### Stores -/

theorem quiet_storeMem (s : State) (a : Nat) (l : List Byte) : Quiet s (s.storeMem a l) :=
  ⟨by unfold State.storeMem; dsimp only; split <;> rfl, wf_storeMem s a l⟩

theorem quiet_devWrite (s : State) (r : DevReg) (off : Nat) (l : List Byte) : Quiet s (s.devWrite r off l) := by
  cases r <;> exact ⟨rfl, id⟩

/-- A physical write that succeeds changes only the memory system. -/
theorem quiet_physWrite {s t : State} {a : Nat} {l : List Byte} (h : s.physWrite a l = .ok t) : Quiet s t := by
  unfold State.physWrite at h
  split at h
  · cases h; exact quiet_devWrite s _ _ _
  · split at h
    · cases h
    · cases h; exact quiet_storeMem s _ _

theorem quiet_tlb (s : State) (x : Xlat) : Quiet s { s with xlat := x } := ⟨rfl, id⟩

/-! ### Walks -/

theorem still_readPtePhys (size : Nat) (k : Walker) (e : Exc) (pbmt a : Nat) (s : State) :
    Still s (readPtePhys size k e pbmt a s) := by
  unfold readPtePhys
  have h := quiet_pmpOk s k.guest .load .s a size
  dsimp only
  split
  · split
    · exact h
    · trivial
  · exact h

theorem still_locatePtePhys (size : Nat) (k : Walker) (e : Exc) (pbmt a : Nat) (s : State) :
    Still s (locatePtePhys size k e pbmt a s) := by
  unfold locatePtePhys
  have h := quiet_pmpOk s k.guest .store .s a size
  dsimp only
  split <;> exact h

/-- How a walk reads and updates entries is quiet. -/
structure QuietWalk (w : Walk) : Prop where
  read : ∀ a s, Still s (w.readMem a s)
  locate : ∀ a s, Still s (w.locate a s)
  readAt : ∀ a s, Still s (w.readAt a s)

theorem still_readFresh {w : Walk} (hw : QuietWalk w) (i key : Nat) (g : Bool) (s : State) :
    Still s (w.readFresh i key g s) :=
  Still.bind (hw.read key s) fun _ t => quiet_tlb t _

theorem still_readPte {w : Walk} (hw : QuietWalk w) (i key : Nat) (g : Bool) (s : State) : Still s (w.readPte i key g s) := by
  unfold Walk.readPte
  dsimp only
  split
  · exact still_readFresh hw i key g s
  · split
    · exact Still.after (quiet_choose s _) (still_readFresh hw i key g _)
    · exact quiet_choose s _

theorem still_leaf {w : Walk} (hw : QuietWalk w) (i raw src : Nat) (s : State) : Still s (w.leaf i raw src s) := by
  unfold Walk.leaf
  dsimp only
  split
  · exact .refl s
  · split
    · exact .refl s
    · split
      · exact .refl s
      · split
        · exact .refl s
        · refine Still.bind (hw.locate src s) fun phys t => ?_
          split
          · trivial
          · split
            · split
              · trivial
              · exact quiet_physWrite (by assumption)
            · exact .refl t

theorem still_entry {w : Walk} (hw : QuietWalk w) (i raw src : Nat) (g : Bool) (s : State) :
    Still s (w.entry i raw src g s) := by
  unfold Walk.entry
  dsimp only
  split
  · exact .refl s
  · split
    · exact .refl s
    · exact Still.bind (still_leaf hw _ _ _ s) fun o t => .refl t

theorem still_settle {w : Walk} (hw : QuietWalk w) (i key : Nat) (g : Bool) (s : State) : Still s (w.settle i key g s) :=
  Still.bind (hw.locate key s) fun phys t => Still.bind (hw.readAt phys t) fun r u =>
    Still.bind (still_entry (w := { w with locate := fun _ v => .ok phys v })
      ⟨hw.read, fun _ v => Quiet.refl v, hw.readAt⟩ _ _ _ _ u) fun o v => by cases o <;> exact .refl v

theorem still_retry {w : Walk} (hw : QuietWalk w) (i key : Nat) (g : Bool) (s : State) : Still s (w.retry i key g s) :=
  Still.bind (still_readFresh hw _ _ _ s) fun r t => Still.bind (still_entry hw _ _ _ _ t) fun o u => by
    cases o with
    | some f => exact .refl u
    | none => exact still_settle hw _ _ _ u

theorem still_level {w : Walk} (hw : QuietWalk w) (i base : Nat) (g : Bool) (s : State) : Still s (w.level i base g s) :=
  Still.bind (still_readPte hw _ _ _ s) fun r t => Still.bind (still_entry hw _ _ _ _ t) fun o u => by
    cases o with
    | some f => exact .refl u
    | none => exact still_retry hw _ _ _ u

theorem still_from {w : Walk} (hw : QuietWalk w) (i base : Nat) (g : Bool) (s : State) : Still s (w.from i base g s) := by
  induction i generalizing base g s with
  | zero => exact Still.bind (still_level hw _ _ _ s) fun f t => by cases f <;> exact .refl t
  | succ j ih =>
    exact Still.bind (still_level hw _ _ _ s) fun f t => by
      cases f with
      | done pa => exact .refl t
      | down b g => exact ih b g t

theorem still_run {w : Walk} (hw : QuietWalk w) (ppn : Nat) (s : State) : Still s (w.run ppn s) := still_from hw _ _ _ s

theorem still_hit {w : Walk} (hw : QuietWalk w) (r : TlbRec) (s : State) : Still s (w.hit r s) :=
  Still.bind (still_entry hw _ _ _ _ s) fun o t => by
    match o with
    | some (.done p) => exact .refl t
    | some (.down _ _) => exact .refl t
    | none => exact .refl t

theorem still_orCached {l : List TlbRec} {hit : TlbRec → State → Res Target} {walk : State → Res Target}
    (hh : ∀ r t, Still t (hit r t)) (hw : ∀ t, Still t (walk t)) (s : State) : Still s (orCached l hit walk s) := by
  unfold orCached
  split
  · exact hw s
  · dsimp only
    split
    · exact Still.after (quiet_choose s _) (hw _)
    · split
      · exact Still.after (quiet_choose s _) (hh _ _)
      · exact Still.after (quiet_choose s _) (hw _)

/-! ### Translations -/

theorem quiet_walkSbe (s : State) (g : Bool) : Quiet s (s.walkSbe g).2 := quiet_maybeStale s _ _
theorem quiet_walkPbmte (s : State) (g : Bool) : Quiet s (s.walkPbmte g).2 := quiet_maybeStale s _ _
theorem quiet_walkVsbe (s : State) : Quiet s s.walkVsbe.2 := quiet_maybeStale s _ _
theorem quiet_walkHpbmte (s : State) : Quiet s s.walkHpbmte.2 := quiet_maybeStale s _ _

theorem quiet_gatpWalk (u : State) (o : Origin) (acc : Acc) (imp spec : Bool) (ad : AdMode) (gpa : Nat) (c : Scheme)
    (b p : Bool) : QuietWalk (u.gatpWalk o acc imp spec ad gpa c b p) :=
  ⟨fun a t => still_readPtePhys _ _ _ _ a t, fun a t => still_locatePtePhys _ _ _ _ a t,
    fun a t => still_readPtePhys _ _ _ _ a t⟩

theorem still_gWalk (o : Origin) (acc : Acc) (imp spec : Bool) (ad : AdMode) (gpa : Nat) (s : State) :
    Still s (gWalk o acc imp spec ad gpa s) := by
  unfold gWalk
  dsimp only
  split
  · exact .refl s
  · split
    · exact .refl s
    · exact Still.after ((quiet_walkSbe _ _).trans (quiet_walkPbmte _ _)) (still_run (quiet_gatpWalk ..) _ _)

theorem still_gStage (o : Origin) (acc : Acc) (imp spec : Bool) (ad : AdMode) (gpa : Nat) (s : State) :
    Still s (gStage o acc imp spec ad gpa s) := by
  unfold gStage
  dsimp only
  have h1 := quiet_pick s false (if s.wasBare then [false, true] else [false])
  generalize s.pick false (if s.wasBare then [false, true] else [false]) = d at h1 ⊢
  split
  · exact h1
  · exact Still.after h1 (still_orCached
      (fun r t => Still.after (quiet_walkPbmte t true) (still_hit (quiet_gatpWalk ..) r _)) (still_gWalk o acc imp spec ad gpa) _)

theorem quiet_satpWalk (u : State) (o : Origin) (q : Nat → Bool) (spec : Bool) (ad : AdMode) (c : Scheme) (b p : Bool) :
    QuietWalk (u.satpWalk o q spec ad c b p) :=
  ⟨fun a t => still_readPtePhys _ _ _ _ a t, fun a t => still_locatePtePhys _ _ _ _ a t,
    fun a t => still_readPtePhys _ _ _ _ a t⟩

theorem still_singleStage (o : Origin) (p : Nat → Bool) (spec : Bool) (ad : AdMode) (s : State) :
    Still s (singleStage o p spec ad s) := by
  unfold singleStage
  dsimp only
  split
  · exact .refl s
  · split
    · exact .refl s
    · exact still_orCached
        (fun r t => Still.after (quiet_walkPbmte t false) (still_hit (quiet_satpWalk ..) r _))
        (fun t => Still.after ((quiet_walkSbe t false).trans (quiet_walkPbmte _ false)) (still_run (quiet_satpWalk ..) _ _)) s

theorem quiet_vsatpWalk (u : State) (o : Origin) (q : Nat → Bool) (spec : Bool) (ad adG : AdMode) (c : Scheme) (b p : Bool) :
    QuietWalk (u.vsatpWalk o q spec ad adG c b p) :=
  ⟨fun a t => Still.bind (still_gStage _ _ _ _ _ a t) fun _ u => still_readPtePhys _ _ _ _ _ u,
    fun a t => Still.bind (still_gStage _ _ _ _ _ a t) fun _ u => still_locatePtePhys _ _ _ _ _ u,
    fun a t => still_readPtePhys _ _ _ _ a t⟩

theorem still_vsStage (o : Origin) (p : Nat → Bool) (spec : Bool) (ad adG : AdMode) (s : State) :
    Still s (vsStage o p spec ad adG s) := by
  unfold vsStage
  dsimp only
  split
  · exact .refl s
  · split
    · exact .refl s
    · exact still_orCached
        (fun r t => Still.after (quiet_walkHpbmte t) (still_hit (quiet_vsatpWalk ..) r _))
        (fun t => Still.after ((quiet_walkVsbe t).trans (quiet_walkHpbmte _)) (still_run (quiet_vsatpWalk ..) _ _)) s

theorem still_twoStage (o : Origin) (p : Nat → Bool) (spec : Bool) (ad adG : AdMode) (s : State) :
    Still s (twoStage o p spec ad adG s) :=
  Still.bind (still_vsStage o p spec ad adG s) fun _ t => Still.bind (still_gStage _ _ _ _ _ _ t) fun _ u => .refl u

/-- A translation changes only the memory system (`21_virtual_memory.md` R547, R552). -/
theorem still_translateAddr (o : Origin) (p : Priv) (v : Bool) (s : State) : Still s (translateAddr o p v s) := by
  unfold translateAddr
  split
  · exact .refl s
  · split
    · exact still_twoStage _ _ _ _ _ s
    · split
      · exact .refl s
      · exact still_singleStage _ _ _ _ s

/-- A speculative walk changes only the memory system (`21_virtual_memory.md` R558). -/
theorem quiet_specWalk (s : State) (k : SpecKind) (f : Bool) (va : Nat) : Quiet s (s.specWalk k f va) := by
  unfold State.specWalk
  dsimp only
  split
  all_goals (rename_i h; try exact Quiet.refl s)
  all_goals
    have key : ∀ {α : Type} {r r' : Res α}, r = r' → Still s r → Still s r' := fun e h => e ▸ h
    refine (key h ?_ :)
    cases k
    · dsimp only; split
      · exact still_singleStage _ _ _ _ s
      · exact Quiet.refl s
    · dsimp only; split
      · exact still_twoStage _ _ _ _ _ s
      · exact Quiet.refl s

/-! ### Accesses -/

theorem still_checkPart (o : Origin) (p : Priv) (v : Bool) (len n : Nat) (s : State) : Still s (checkPart o p v len n s) := by
  refine Still.bind (still_translateAddr o p v s) fun a t => ?_
  have h := quiet_pmpOk t v o.acc p a.addr len
  dsimp only
  split <;> exact h

/-- A load changes only the memory system. -/
theorem still_memRead (acc : Acc) (p : Priv) (v : Bool) (va : Word) (n : Nat) (s : State) :
    Still s (memRead acc p v va n s) := by
  unfold memRead
  dsimp only
  split
  · exact .refl s
  · split
    · refine Still.bind (still_checkPart _ p v n n s) fun pa t => ?_
      split
      · exact .refl t
      · split
        · exact .refl t
        · trivial
    · refine Still.bind (still_checkPart _ p v _ n s) fun pa t => Still.bind (still_checkPart _ p v _ n t) fun pb u => ?_
      split
      · split
        · exact .refl u
        · trivial
        · trivial
      · exact .refl u

theorem still_maybeVisible (va : Word) (n pa : Nat) (l : List Byte) (e : Exc) (s : State) :
    Still s (maybeVisible va n pa l e s) := by
  unfold maybeVisible
  split
  · dsimp only
    split
    · split
      · exact (quiet_pick s _ _).trans (quiet_physWrite (by assumption))
      · trivial
    · exact quiet_pick s _ _
  · exact .refl s

/-- A store changes only the memory system. -/
theorem still_memWrite (p : Priv) (v : Bool) (va : Word) (n value : Nat) (s : State) :
    Still s (memWrite p v va n value s) := by
  unfold memWrite
  dsimp only
  split
  · exact .refl s
  · split
    · refine Still.bind (still_checkPart _ p v n n s) fun pa t => ?_
      split
      · exact .refl t
      · split
        · exact quiet_physWrite (by assumption)
        · trivial
    · rename_i k _
      generalize ho : ({ acc := Acc.store, va := va, gva := v } : Origin) = o
      have h1 := still_checkPart o p v k n s
      split
      · trivial
      · rename_i e s1 h; rw [h] at h1
        have h2 := still_checkPart (o.second (s.xlenOf p v) k) p v (n - k) n s1
        split
        · rename_i pb s2 h'; rw [h'] at h2
          exact Still.after (h1.trans h2) (still_maybeVisible _ _ _ _ _ _)
        · exact h1
      · rename_i pa s1 h; rw [h] at h1
        have h2 := still_checkPart (o.second (s.xlenOf p v) k) p v (n - k) n s1
        split
        · trivial
        · rename_i e s2 h'; rw [h'] at h2
          exact Still.after (h1.trans h2) (still_maybeVisible _ _ _ _ _ _)
        · rename_i pb s2 h'; rw [h'] at h2
          have h12 := h1.trans h2
          split
          · split
            · trivial
            · rename_i s3 h3
              split
              · rename_i t ht
                exact h12.trans ((quiet_physWrite h3).trans (quiet_physWrite ht))
              · trivial
          · exact h12

/-! ### Fetches -/

theorem quiet_fetchOld (a : Nat) (l : List Byte) (s : State) : Quiet s (fetchOld a l s).2 := by
  induction l generalizing a s with
  | nil => exact .refl s
  | cons b l ih => exact (quiet_pick s _ _).trans (ih _ _)

theorem still_fetchBytes (va : Word) (n : Nat) (s : State) : Still s (fetchBytes va n s) := by
  refine Still.bind (still_checkPart _ _ _ n n s) fun pa t => ?_
  split
  · trivial
  · exact quiet_fetchOld _ _ t

/-- An instruction fetch changes only the memory system. -/
theorem still_fetch (s : State) : Still s (fetch s) := by
  unfold fetch
  dsimp only
  split
  · exact Still.bind (still_fetchBytes _ _ s) fun l t => .refl t
  · refine Still.bind (still_fetchBytes _ _ s) fun l t => ?_
    split
    · exact Still.bind (still_fetchBytes _ _ t) fun l u => .refl u
    · exact .refl t

end Sys2Proof.Laws
end

