-- ==== Sys2Proof/Laws/Translate.lean ====
section
/-!
SUPPORT. What translation gives, said once: with no cached translation it is the walk, with both guest stages Bare the address
itself; what a trap reports of a guest physical address and of the instruction; and the parts of an atomic access.
-/

namespace Sys2Proof.Laws

open Sys2Proof.Machine

@[simp] theorem orCached_nil (hit : TlbRec → State → Res Target) (walk : State → Res Target) (s : State) :
    orCached [] hit walk s = walk s := rfl

/-- A translation is the walk, or one of the cached ones. -/
theorem orCached_cases (l : List TlbRec) (hit : TlbRec → State → Res Target) (walk : State → Res Target) (s : State) :
    ∃ n, orCached l hit walk s = walk { s with draws := n } ∨
      ∃ r ∈ l, orCached l hit walk s = hit r { s with draws := n } := by
  cases l with
  | nil => exact ⟨s.draws, .inl rfl⟩
  | cons a l =>
    obtain ⟨n, hn⟩ : ∃ n, (s.choose ((a :: l).length + 1)).2 = { s with draws := n } := by
      unfold State.choose
      split
      · exact ⟨s.draws, rfl⟩
      · exact ⟨_, rfl⟩
    refine ⟨n, ?_⟩
    simp only [orCached]
    split
    · exact .inl (by rw [hn])
    · split
      · rename_i k _ r hr
        exact .inr ⟨r, List.mem_of_getElem? hr, by rw [hn]⟩
      · exact .inl (by rw [hn])

/-- With no record of a space nothing cached is usable there. -/
theorem cachedFor_none {s : State} {space : TlbSpace} (h : ∀ r ∈ s.xlat.tlb, r.space ≠ space) (asid : Nat) (a : Word)
    (ad : AdMode) (store : Bool) : s.cachedFor space asid a ad store = [] := by
  unfold State.cachedFor
  rw [List.filter_eq_nil_iff]
  intro r hr
  simp [h r hr]

/-- With `hgatp` Bare and nothing left of another setting the G-stage is the identity. -/
theorem gStage_bare {s : State} (h : s.guestBare) (o : Origin) (acc : Acc) (implicit spec : Bool) (ad : AdMode) (gpa : Nat) :
    gStage o acc implicit spec ad gpa s = .ok { addr := gpa, pbmt := 0, global := false } s := by
  obtain ⟨-, h2, h3, h4, -⟩ := h
  have hs : schemeOf s.sxlen 2 (atpMode s.sxlen s.h.gatp) = none := by rw [h2]; cases s.sxlen <;> rfl
  simp only [gStage, h3, Bool.false_eq_true, if_false, pick_one, cachedFor_none h4, orCached_nil, gWalk, hs]

/-- With both guest stages Bare a guest's address is translated to itself. -/
theorem translateAddr_bare {s : State} (h : s.guestBare) (o : Origin) {p : Priv} (hp : p ≠ .m) :
    translateAddr o p true s = .ok o.bare s := by
  have hs : schemeOf s.vsxlen 0 (atpMode s.vsxlen s.vs.atp) = none := by rw [h.1]; cases s.vsxlen <;> rfl
  cases p with
  | m => exact absurd rfl hp
  | s | u => simp [translateAddr, twoStage, vsStage, hs, Res.bind, gStage_bare h, combinePbmt, Origin.bare]

/-- A valid address that no cached translation answers for is translated by the walk from the root in force. -/
theorem singleStage_walk {s : State} {o : Origin} {c : Scheme} (hs : schemeOf s.sxlen 0 (atpMode s.sxlen s.sc.atp) = some c)
    (hc : c.canonical o.va = true) (hx : ∀ r ∈ s.xlat.tlb, r.space ≠ .hs) (permits : Nat → Bool) (spec : Bool) (ad : AdMode) :
    singleStage o permits spec ad s =
      (s.satpWalk o permits spec ad c (s.walkSbe false).1 ((s.walkSbe false).2.walkPbmte false).1).run
        (atpPpn s.sxlen s.sc.atp) ((s.walkSbe false).2.walkPbmte false).2 := by
  simp only [singleStage, hs, hc, cachedFor_none hx, orCached_nil, Bool.not_true, Bool.false_eq_true, if_false]

@[simp] theorem maskX_zero (x : Xlen) : maskX x 0#64 = 0#64 := by cases x <;> rfl

/-- `mtval2` and `htval` hold zero, and a trap writes the address it is given or zero. -/
theorem gpaTrap_cases (l : GpaLegal) (r : Config.GpaReg) (x : Xlen) (cause : Nat) (w : Word) :
    gpaTrap l r x cause w = maskX x w ∨ gpaTrap l r x cause w = 0 := by
  unfold gpaTrap
  split
  · exact .inl rfl
  · exact .inr rfl

/-- An exception without a guest physical address reports none. -/
theorem gpaReported_zero {e : Exc} (h : e.tval2 = 0) (s : State) : s.gpaReported e = 0 := by
  unfold State.gpaReported gpaTrap
  split <;> simp [h]

/-- Reporting the instruction changes nothing of an exception but its trap instruction. -/
theorem withInst_else (s : State) (i : AccessInst) (va : Word) (e : Exc) :
    { s.withInst i va e with tinst := e.tinst } = e := by
  unfold State.withInst
  split <;> rfl

/-- An access succeeds with and without its instruction alike. -/
theorem byInst_ok {α : Type} (r : Res α) (i : AccessInst) (va : Word) (a : α) (t : State) :
    r.byInst i va = .ok a t ↔ r = .ok a t := by
  cases r <;> simp [Res.byInst]

/-- What a bound computation needs to answer. -/
theorem bind_ok {α β : Type} {r : Res α} {k : α → State → Res β} {b : β} {t : State} (h : r.bind k = .ok b t) :
    ∃ a u, r = .ok a u ∧ k a u = .ok b t := by
  cases r with
  | ok a u => exact ⟨a, u, rfl, h⟩
  | trap e u => cases h
  | fault f => cases h

/-- A part of an atomic access answers a location that passed the checks and supports the access. -/
theorem checkAtomicPart_ok {o : Origin} {priv : Priv} {v : Bool} {ok : State → Nat → Nat → Bool} {len n pa : Nat} {s t : State}
    (h : checkAtomicPart o priv v ok len n s = .ok pa t) : checkPart o priv v len n s = .ok pa t ∧ ok t pa len = true := by
  obtain ⟨a, u, e, h⟩ := bind_ok h
  split at h
  · next g => cases h; exact ⟨e, g⟩
  · cases h

/-- The parts of an atomic access are its n bytes, in one page or two (`21_virtual_memory.md` R560). -/
theorem atomicParts_ok {o : Origin} {priv : Priv} {v : Bool} {ok : State → Nat → Nat → Bool} {n : Nat} {s t : State}
    {ps : List (Nat × Nat)} (h : atomicParts o priv v ok n s = .ok ps t) :
    (∃ pa, ps = [(pa, n)]) ∨ (∃ pa pb k, ps = [(pa, k), (pb, n - k)] ∧ k = 4096 - o.va.toNat % 4096 ∧ 0 < k ∧ k < n) := by
  unfold atomicParts splitLen at h
  split at h
  · obtain ⟨pa, u, -, h⟩ := bind_ok h
    cases h; exact .inl ⟨pa, rfl⟩
  · next k e =>
    split at e
    · cases e
    · cases e
      obtain ⟨pa, u, -, h⟩ := bind_ok h
      obtain ⟨pb, w, -, h⟩ := bind_ok h
      cases h
      exact .inr ⟨pa, pb, _, rfl, rfl, by omega, by omega⟩

end Sys2Proof.Laws
end

