-- ==== Sys2Proof/Laws/Trap.lean ====
section
/-!
SUPPORT. What taking a trap can do.
-/

namespace Sys2Proof.Laws

open Sys2Proof.Machine

/-- A trap goes to M-mode, or from below M-mode to S-mode, or with V=1 to VS-mode, as the delegation registers say. -/
theorem destination_cases (s : State) (intr : Bool) (c : Nat) :
    (s.destination intr c = .m ∧
      (s.priv = .m ∨ (if intr then s.mideleg else s.medeleg).getLsbD c = false)) ∨
    (s.destination intr c = .s ∧ s.priv ≠ .m ∧ (if intr then s.mideleg else s.medeleg).getLsbD c = true ∧
      (s.v = false ∨ (if intr then s.hideleg else s.hedeleg).getLsbD c = false)) ∨
    (s.destination intr c = .vs ∧ s.priv ≠ .m ∧ (if intr then s.mideleg else s.medeleg).getLsbD c = true ∧
      s.v = true ∧ (if intr then s.hideleg else s.hedeleg).getLsbD c = true) := by
  unfold State.destination
  by_cases h1 : (s.priv = Priv.m ∨ (if intr then s.mideleg else s.medeleg).getLsbD c = false)
  · rw [if_pos h1]; exact .inl ⟨rfl, h1⟩
  · rw [if_neg h1]
    simp only [not_or, Bool.not_eq_false] at h1
    by_cases h2 : (s.v && (if intr then s.hideleg else s.hedeleg).getLsbD c) = true
    · rw [if_pos h2]
      simp only [Bool.and_eq_true] at h2
      exact .inr (.inr ⟨rfl, h1.1, h1.2, h2.1, h2.2⟩)
    · rw [if_neg h2]
      refine .inr (.inl ⟨rfl, h1.1, h1.2, ?_⟩)
      cases hv : s.v
      · exact .inl rfl
      · rw [hv] at h2; exact .inr (by simpa using h2)

/-- Taking a trap is one of the three entries. -/
theorem takeTrap_cases (s : State) (intr : Bool) (e : Exc) :
    s.takeTrap intr e = s.trapM intr e ∨ (s.takeTrap intr e = s.trapS intr e ∧ s.priv ≠ .m ∧
      (if intr then s.mideleg else s.medeleg).getLsbD e.cause = true) ∨
    (s.takeTrap intr e = s.trapVs intr e ∧ s.priv ≠ .m ∧ s.v = true ∧
      (if intr then s.mideleg else s.medeleg).getLsbD e.cause = true) := by
  unfold State.takeTrap
  rcases destination_cases s intr e.cause with ⟨h, -⟩ | ⟨h, h1, h2, -⟩ | ⟨h, h1, h2, h3, -⟩ <;> rw [h]
  · exact .inl rfl
  · exact .inr (.inl ⟨rfl, h1, h2⟩)
  · exact .inr (.inr ⟨rfl, h1, h3, h2⟩)

/-! ### Addresses held -/

theorem maskX_idem (x : Xlen) (w : Word) : maskX x (maskX x w) = maskX x w := by
  cases x
  · simp only [maskX]; bv_omega
  · rfl

theorem extendTo_maskX (c : Config) (x : Xlen) (w : Word) : extendTo c x (maskX x w) = extendTo c x w := by
  cases x
  · unfold extendTo
    cases c.mxlMax
    · exact maskX_idem .x32 w
    · simp only [maskX, sextX]
      rw [show BitVec.setWidth 32 (BitVec.setWidth 64 (BitVec.setWidth 32 w)) = BitVec.setWidth 32 w by bv_omega]
  · rfl

/-- What an exception-pc register holds of an address (`11_state_machine_csrs.md` R160). -/
theorem epcWord_holds (c : Config) (x : Xlen) (w : Word) : EpcHolds c x w (epcWord c x w) := by
  unfold EpcHolds epcWord holdAddr
  split
  · exact .inl (extendTo_maskX _ _ _)
  · rename_i h
    split
    · rename_i h2
      simp only [epcLegal, Bool.or_eq_true, not_or, Bool.not_eq_true] at h
      simp only [Bool.and_eq_true, Bool.not_eq_true'] at h2
      refine .inr ⟨h.1.1, h.1.2, _, h2.2, ?_, extendTo_maskX _ _ _⟩
      simp
    · exact .inl (extendTo_maskX _ _ _)

/-- What a trap-value register holds of a value (`11_state_machine_csrs.md` R170, `12_state_supervisor_csrs.md` R257). -/
theorem tvalWord_holds (c : Config) (x : Xlen) (w : Word) : TvalHolds c x w (tvalWord c x w) := by
  unfold TvalHolds tvalWord holdAddr
  split
  · exact .inl rfl
  · rename_i h
    split
    · rename_i h2
      simp only [tvalLegal, Bool.or_eq_true, not_or, Bool.not_eq_true, decide_eq_true_eq, Bool.and_eq_true,
        not_and] at h
      simp only [Bool.and_eq_true, Bool.not_eq_true'] at h2
      exact .inr ⟨h.1.1.1.1, h.1.1.1.2, h.1.1.2, fun hp => Nat.le_of_not_lt (h.1.2 hp), _, h2.2, rfl⟩
    · exact .inl rfl

/-- Zero is held (`12_state_supervisor_csrs.md` R257). -/
theorem tvalWord_zero (c : Config) (x : Xlen) : tvalWord c x 0 = 0 := by
  have h : maskX x 0 = 0 := by cases x <;> rfl
  unfold tvalWord holdAddr
  rw [h, if_pos]
  simp [tvalLegal]

/-- The policy keeps the cause. -/
@[simp] theorem applyPolicy_cause (s : State) (e : Exc) : (s.applyPolicy e).cause = e.cause := by
  unfold State.applyPolicy; repeat' split
  all_goals rfl

/-- Delegation needs S-mode (`11_state_machine_csrs.md` R124, R126). -/
theorem hasS_of_delegated (s : State) (intr : Bool) (c : Nat)
    (h : (if intr then s.mideleg else s.medeleg).getLsbD c = true) : s.hasS = true := by
  cases hs : s.hasS
  · have hz : maskX s.mxlen 0#64 = 0#64 := by cases s.mxlen <;> rfl
    cases intr <;>
      simp [State.mideleg, State.medeleg, State.midelegMask, State.medelegMask, State.delegable, State.midelegOnes, State.hasH,
        hs, hz] at h
  · rfl

/-- What no trap changes. -/
structure TrapBase where
  x : Vector Word 32
  misa : Misa
  cnt : Counters
  pmp : Pmp
  pend : Pending
  wires : Wires
  timer : Timer
  fcsr : BitVec 8
  resv : Option (Nat × Nat)
  wait : Option Wait
  xlat : Xlat
  codeOld : List Host.Cell
  mem : List Host.Cell
  cfg : Config
  inputs : List Event
  draws : Nat
  stallHint : Nat
  mtipHold : Nat
  msipHold : Nat
  mprv : Bool

/-- That part of a state. -/
def trapBase (s : State) : TrapBase :=
  { x := s.x, misa := s.misa, cnt := s.cnt, pmp := s.pmp, pend := s.pend, wires := s.wires, timer := s.timer
    fcsr := s.fcsr, resv := s.resv, wait := s.wait, xlat := s.xlat, codeOld := s.codeOld, mem := s.mem, cfg := s.cfg
    inputs := s.inputs, draws := s.draws, stallHint := s.stallHint, mtipHold := s.mtipHold, msipHold := s.msipHold
    mprv := s.mst.mprv }

theorem trapBase_takeTrap (s : State) (intr : Bool) (e : Exc) : trapBase (s.takeTrap intr e) = trapBase s := by
  rcases takeTrap_cases s intr e with h | ⟨h, -⟩ | ⟨h, -⟩ <;> rw [h] <;> rfl

theorem trapBase_raise (s : State) (e : Exc) : trapBase (s.raise e) = trapBase s := trapBase_takeTrap s _ _

@[simp] theorem raise_mem (s : State) (e : Exc) : (s.raise e).mem = s.mem := congrArg TrapBase.mem (trapBase_raise s e)
@[simp] theorem raise_timer (s : State) (e : Exc) : (s.raise e).timer = s.timer :=
  congrArg TrapBase.timer (trapBase_raise s e)
@[simp] theorem raise_x (s : State) (e : Exc) : (s.raise e).x = s.x := congrArg TrapBase.x (trapBase_raise s e)
@[simp] theorem raise_misa (s : State) (e : Exc) : (s.raise e).misa = s.misa := congrArg TrapBase.misa (trapBase_raise s e)
@[simp] theorem raise_cfg (s : State) (e : Exc) : (s.raise e).cfg = s.cfg := congrArg TrapBase.cfg (trapBase_raise s e)
@[simp] theorem raise_pmp (s : State) (e : Exc) : (s.raise e).pmp = s.pmp := congrArg TrapBase.pmp (trapBase_raise s e)
@[simp] theorem raise_cnt (s : State) (e : Exc) : (s.raise e).cnt = s.cnt := congrArg TrapBase.cnt (trapBase_raise s e)
@[simp] theorem raise_mprv (s : State) (e : Exc) : (s.raise e).mst.mprv = s.mst.mprv :=
  congrArg TrapBase.mprv (trapBase_raise s e)

end Sys2Proof.Laws
end

