-- ==== Sys2Proof/Tests/Slice0.lean ====
section
/-!
SUPPORT. Small tests: what `WellFormed` refuses, words written out from the encoding tables, single steps on small states with
results taken from the specification, and for each statement with hypotheses a state and operands that meet them.
-/

namespace Sys2Proof.Tests

open Sys2Proof Sys2Proof.Machine

/-! ### WellFormed refuses an operand that does not fit its field -/

theorem test_wf_sfence : (Instr.sfenceVma 32 0).wellFormed = false ∧ (Instr.sfenceVma 0 32).wellFormed = false ∧
    (Instr.sinvalVma 32 0).wellFormed = false ∧ (Instr.sinvalVma 0 32).wellFormed = false := by decide

theorem test_wf_hfence : (Instr.hfenceVvma 32 0).wellFormed = false ∧ (Instr.hfenceVvma 0 32).wellFormed = false ∧
    (Instr.hfenceGvma 32 0).wellFormed = false ∧ (Instr.hfenceGvma 0 32).wellFormed = false ∧
    (Instr.hinvalVvma 32 0).wellFormed = false ∧ (Instr.hinvalVvma 0 32).wellFormed = false ∧
    (Instr.hinvalGvma 32 0).wellFormed = false ∧ (Instr.hinvalGvma 0 32).wellFormed = false := by decide

theorem test_wf_loads : (loadForms 32 0).all (fun f => !f.instr.wellFormed) = true ∧
    (loadForms 0 32).all (fun f => !f.instr.wellFormed) = true := by decide

theorem test_wf_stores : (storeForms 32 0).all (fun f => !f.instr.wellFormed) = true ∧
    (storeForms 0 32).all (fun f => !f.instr.wellFormed) = true := by decide

theorem test_wf_csr : (csrForms State.reset 32 0 0).all (fun f => !f.instr.wellFormed) = true ∧
    (csrForms State.reset 0 4096 0).all (fun f => !f.instr.wellFormed) = true ∧
    (csrForms State.reset 0 0 32).all (fun f => !f.instr.wellFormed) = true := by decide

/-! ### Decoding: each word written out field by field (`30_encoding.md` R622, R624, R625) -/

/-- funct7, rs2, rs1, funct3, rd, opcode SYSTEM. -/
def rWord (f7 : BitVec 7) (rs2 rs1 : BitVec 5) (f3 : BitVec 3) (rd : BitVec 5) : IWord :=
  f7 ++ rs2 ++ rs1 ++ f3 ++ rd ++ 0b1110011#7

/-- csr, rs1, funct3, rd, opcode SYSTEM. -/
def iWord (csr : BitVec 12) (rs1 : BitVec 5) (f3 : BitVec 3) (rd : BitVec 5) : IWord := csr ++ rs1 ++ f3 ++ rd ++ 0b1110011#7

theorem test_decode_ecall : decodeWord (rWord 0b0000000 0b00000 0 0b000 0) = .ok .ecall := rfl
theorem test_decode_ebreak : decodeWord (rWord 0b0000000 0b00001 0 0b000 0) = .ok .ebreak := rfl
theorem test_decode_sret : decodeWord (rWord 0b0001000 0b00010 0 0b000 0) = .ok .sret := rfl
theorem test_decode_mret : decodeWord (rWord 0b0011000 0b00010 0 0b000 0) = .ok .mret := rfl
theorem test_decode_wfi : decodeWord (rWord 0b0001000 0b00101 0 0b000 0) = .ok .wfi := rfl
theorem test_decode_sfence_vma : decodeWord (rWord 0b0001001 31 17 0b000 0) = .ok (.sfenceVma 17 31) := rfl
theorem test_decode_sinval_vma : decodeWord (rWord 0b0001011 31 17 0b000 0) = .ok (.sinvalVma 17 31) := rfl
theorem test_decode_sfence_w_inval : decodeWord (rWord 0b0001100 0b00000 0 0b000 0) = .ok .sfenceWInval := rfl
theorem test_decode_sfence_inval_ir : decodeWord (rWord 0b0001100 0b00001 0 0b000 0) = .ok .sfenceInvalIr := rfl
theorem test_decode_hfence_vvma : decodeWord (rWord 0b0010001 31 17 0b000 0) = .ok (.hfenceVvma 17 31) := rfl
theorem test_decode_hfence_gvma : decodeWord (rWord 0b0110001 31 17 0b000 0) = .ok (.hfenceGvma 17 31) := rfl
theorem test_decode_hinval_vvma : decodeWord (rWord 0b0010011 31 17 0b000 0) = .ok (.hinvalVvma 17 31) := rfl
theorem test_decode_hinval_gvma : decodeWord (rWord 0b0110011 31 17 0b000 0) = .ok (.hinvalGvma 17 31) := rfl
theorem test_decode_hlv_b : decodeWord (rWord 0b0110000 0b00000 17 0b100 31) = .ok (.hlvB 31 17) := rfl
theorem test_decode_hlv_bu : decodeWord (rWord 0b0110000 0b00001 17 0b100 31) = .ok (.hlvBu 31 17) := rfl
theorem test_decode_hlv_h : decodeWord (rWord 0b0110010 0b00000 17 0b100 31) = .ok (.hlvH 31 17) := rfl
theorem test_decode_hlv_hu : decodeWord (rWord 0b0110010 0b00001 17 0b100 31) = .ok (.hlvHu 31 17) := rfl
theorem test_decode_hlv_w : decodeWord (rWord 0b0110100 0b00000 17 0b100 31) = .ok (.hlvW 31 17) := rfl
theorem test_decode_hlv_wu : decodeWord (rWord 0b0110100 0b00001 17 0b100 31) = .ok (.hlvWu 31 17) := rfl
theorem test_decode_hlv_d : decodeWord (rWord 0b0110110 0b00000 17 0b100 31) = .ok (.hlvD 31 17) := rfl
theorem test_decode_hlvx_hu : decodeWord (rWord 0b0110010 0b00011 17 0b100 31) = .ok (.hlvxHu 31 17) := rfl
theorem test_decode_hlvx_wu : decodeWord (rWord 0b0110100 0b00011 17 0b100 31) = .ok (.hlvxWu 31 17) := rfl
theorem test_decode_hsv_b : decodeWord (rWord 0b0110001 31 17 0b100 0) = .ok (.hsvB 31 17) := rfl
theorem test_decode_hsv_h : decodeWord (rWord 0b0110011 31 17 0b100 0) = .ok (.hsvH 31 17) := rfl
theorem test_decode_hsv_w : decodeWord (rWord 0b0110101 31 17 0b100 0) = .ok (.hsvW 31 17) := rfl
theorem test_decode_hsv_d : decodeWord (rWord 0b0110111 31 17 0b100 0) = .ok (.hsvD 31 17) := rfl
theorem test_decode_csrrw : decodeWord (iWord 0xFFE 17 0b001 31) = .ok (.csrrw 31 0xFFE 17) := rfl
theorem test_decode_csrrs : decodeWord (iWord 0xFFE 17 0b010 31) = .ok (.csrrs 31 0xFFE 17) := rfl
theorem test_decode_csrrc : decodeWord (iWord 0xFFE 17 0b011 31) = .ok (.csrrc 31 0xFFE 17) := rfl
theorem test_decode_csrrwi : decodeWord (iWord 0xFFE 17 0b101 31) = .ok (.csrrwi 31 0xFFE 17) := rfl
theorem test_decode_csrrsi : decodeWord (iWord 0xFFE 17 0b110 31) = .ok (.csrrsi 31 0xFFE 17) := rfl
theorem test_decode_csrrci : decodeWord (iWord 0xFFE 17 0b111 31) = .ok (.csrrci 31 0xFFE 17) := rfl

/-- Words that match no row are rejected by name (`30_encoding.md` R628, R629). -/
theorem test_decode_rejects :
    decodeWord (rWord 0b0001000 0b00010 1 0b000 0) = .error .reserved ∧
    decodeWord (rWord 0b0001000 0b00010 0 0b000 1) = .error .reserved ∧
    decodeWord (rWord 0b1000110 0b00000 0 0b000 0) = .error .custom ∧
    decodeWord (rWord 0b0110000 0b00010 0 0b100 0) = .error .reserved ∧
    decodeWord 0x00000013 = .error .otherOpcode ∧ decodeWord 0x00000001 = .error .notWord :=
  ⟨rfl, rfl, rfl, rfl, rfl, rfl⟩

/-- The table's numbering of bits: byte 0 holds bits 7:0. -/
theorem test_table_word : decodeTableWord 32 0x30529073 = some (.csrrw 0 0x305 5) ∧
    decodeBytes [0x73, 0x90, 0x52, 0x30] = .ok (.csrrw 0 0x305 5, []) := ⟨rfl, rfl⟩

/-! ### States for the tests -/

/-- A field of the next state. -/
def got {α : Type} (o : Out) (f : State → α) : Option α :=
  match o with
  | .next t => some (f t)
  | _ => none

/-- The machine after reset in another mode. -/
def inMode (p : Priv) (v : Bool) : State := { State.reset with priv := p, v := v }

/-- All of memory open to S-mode and U-mode: entry 0 NAPOT over everything, with R, W and X. -/
def openPmp : Pmp :=
  { cfg := State.reset.pmp.cfg.setIfInBounds 0 0x1F, addr := State.reset.pmp.addr.setIfInBounds 0 0x3FFFFFFFFFFFFF }

/-- HS-mode with open PMP and SPVP=1, `x5` = 0x80002000, `x6` = 0x1122334455667788, and the bytes 80 81 ... 87 at 0x80002000. -/
def guestState : State :=
  { inMode .s false with
    pmp := openPmp
    hst := { State.reset.hst with spvp := true }
    x := (State.reset.x.setIfInBounds 5 0x80002000).setIfInBounds 6 0x1122334455667788
    mem := [(0x80002000, 0x80), (0x80002001, 0x81), (0x80002002, 0x82), (0x80002003, 0x83), (0x80002004, 0x84),
      (0x80002005, 0x85), (0x80002006, 0x86), (0x80002007, 0x87)] }

/-- A cached leaf of HS-level Sv39, ASID 5, address 0x40000000. -/
def leafRec : TlbRec :=
  { space := .hs, scheme := ⟨3, 9, 8, 0⟩, big := false, key := 0x80001008, raw := 0x200000CF, src := 0x80001008
    phys := 0x80001008, asid := 5, global := false, level := 2, prefixBits := 1, doomed := false }

/-- HS-mode under Sv39 with the root table at 0x80001000, whose entry 1 maps the gigapage at 0x80000000. -/
def sv39State : State :=
  { inMode .s false with
    pmp := openPmp
    sc := { State.reset.sc with atp := 0x8000000000080001 }
    mem := Memory.writeAll [] 0x80001008 (leBytes 8 0x200000CF) }

/-- A load from HS-mode. -/
def loadAt (a : Word) : Origin := { acc := .load, va := a, gva := false }

/-! ### Single steps, results from the specification -/

/-- ECALL from VS-mode, not delegated: cause 10, `mtval` 0, MPP=S, MPV=1 (`41_machine_instructions.md` R700). -/
theorem test_ecall : got (exec .ecall (inMode .s true)) (fun t => (t.m.cause, t.m.tval, t.mst.mpp, t.mst.mpv)) =
    some (10, 0, .s, true) := by decide

/-- EBREAK in M-mode: cause 3 and its own address (`41_machine_instructions.md` R702). -/
theorem test_ebreak : got (exec .ebreak State.reset) (fun t => (t.m.cause, t.m.epc, t.m.tval, t.pc)) =
    some (3, 0x80000000, 0x80000000, 0) := by decide

/-- MRET with MPP=S, MPV=1, MPIE=1: VS-mode, MIE=1, MPP=U (`41_machine_instructions.md` R704, Table 8.8). -/
theorem test_mret :
    got (exec .mret { State.reset with
        mst := { State.reset.mst with mpp := .s, mpv := true, mpie := true, mprv := true }
        m := { State.reset.m with epc := 0x80000102 } })
      (fun t => (t.priv, t.v, t.mst.mie, t.mst.mpp, t.mst.mprv, t.pc)) = some (.s, true, true, .u, false, 0x80000100) := by
  decide

/-- SRET in HS-mode with SPV=1, SPP=1: VS-mode, SPV=0, SPP=0 (`41_machine_instructions.md` R706, Table 8.9). -/
theorem test_sret :
    got (exec .sret { inMode .s false with
        mst := { State.reset.mst with spp := true, spie := true }, hst := { State.reset.hst with spv := true } })
      (fun t => (t.priv, t.v, t.mst.sie, t.mst.spp, t.hst.spv)) = some (.s, true, true, false, false) := by decide

/-- SRET in VS-mode with VTSR=1: a virtual instruction exception, cause 22 (`41_machine_instructions.md` R706). -/
theorem test_sret_vtsr :
    got (exec .sret { inMode .s true with hst := { State.reset.hst with vtsr := true } }) (fun t => (t.m.cause, t.m.tval)) =
      some (22, 0x10200073) := by decide

/-- WFI in VU-mode: a virtual instruction exception (`61_exceptions_hypervisor.md` R930 row 8). -/
theorem test_wfi_vu : got (exec .wfi (inMode .u true)) (fun t => (t.m.cause, t.priv)) = some (22, .m) := by decide

/-- WFI in M-mode retires (`41_machine_instructions.md` R712). -/
theorem test_wfi : got (exec .wfi State.reset) (fun t => (t.pc, t.cnt.instret)) = some (0x80000004, 1) := by decide

/-- SFENCE.VMA of another address keeps the record, of its address removes it (`42_supervisor_instructions.md` R742, R745). -/
theorem test_sfence_vma :
    let s := { inMode .s false with
      xlat := { noXlat with tlb := [leafRec] }, x := (State.reset.x.setIfInBounds 5 0x40000000).setIfInBounds 6 5 }
    got (exec (.sfenceVma 5 6) s) (fun t => t.xlat.tlb.length) = some 0 ∧
    got (exec (.sfenceVma 6 0) s) (fun t => t.xlat.tlb.length) = some 1 := by decide

/-- SFENCE.VMA in HS-mode with TVM=1: an illegal instruction (`42_supervisor_instructions.md` R741). -/
theorem test_sfence_vma_tvm :
    got (exec (.sfenceVma 0 0) { inMode .s false with mst := { State.reset.mst with tvm := true } }) (fun t => t.m.cause) =
      some 2 := by decide

/-- SINVAL.VMA marks, SFENCE.INVAL.IR removes (`42_supervisor_instructions.md` R748, R750). -/
theorem test_sinval_vma :
    got (exec (.sinvalVma 0 0) { inMode .s false with xlat := { noXlat with tlb := [leafRec] } })
      (fun t => t.xlat.tlb.map TlbRec.doomed) = some [true] := by decide

theorem test_sfence_inval_ir :
    got (exec .sfenceInvalIr { inMode .s false with xlat := { noXlat with tlb := [{ leafRec with doomed := true }, leafRec] } })
      (fun t => t.xlat.tlb.length) = some 1 := by decide

/-- SFENCE.W.INVAL in VU-mode: a virtual instruction exception (`42_supervisor_instructions.md` R753). -/
theorem test_sfence_w_inval : got (exec .sfenceWInval (inMode .u true)) (fun t => t.m.cause) = some 22 := by decide

/-- HFENCE.VVMA in HS-mode leaves HS-level records (`43_hypervisor_instructions.md` R790). -/
theorem test_hfence_vvma :
    got (exec (.hfenceVvma 0 0) { inMode .s false with
        xlat := { noXlat with tlb := [leafRec, { leafRec with space := .vs 0 }] } }) (fun t => t.xlat.tlb) =
      some [leafRec] := by decide

/-- HFENCE.GVMA in HS-mode with TVM=1: an illegal instruction; in VS-mode a virtual one (`43_hypervisor_instructions.md` R793). -/
theorem test_hfence_gvma :
    got (exec (.hfenceGvma 0 0) { inMode .s false with mst := { State.reset.mst with tvm := true } }) (fun t => t.m.cause) =
      some 2 ∧
    got (exec (.hfenceGvma 0 0) (inMode .s true)) (fun t => t.m.cause) = some 22 := by decide

theorem test_hinval_vvma : got (exec (.hinvalVvma 0 0) (inMode .u false)) (fun t => t.m.cause) = some 2 := by decide

theorem test_hinval_gvma :
    got (exec (.hinvalGvma 0 0) { State.reset with xlat := { noXlat with tlb := [{ leafRec with space := .g 3 }] } })
      (fun t => t.xlat.tlb.map TlbRec.doomed) = some [true] := by decide

/-- Sign and zero extension, and the width of each load (`43_hypervisor_instructions.md` R777-R785). -/
theorem test_hlv :
    (loadForms 7 5).map (fun f => got (exec f.instr guestState) (fun t => t.rawX 7)) =
      [some 0xFFFFFFFFFFFFFF80, some 0x80, some 0xFFFFFFFFFFFF8180, some 0x8180, some 0xFFFFFFFF83828180, some 0x83828180,
       some 0x8786858483828180, some 0x8180, some 0x83828180] := by decide

/-- The width of each store, little-endian (`43_hypervisor_instructions.md` R786-R789). -/
theorem test_hsv :
    (storeForms 6 5).map (fun f => got (exec f.instr guestState) (fun t => Memory.bytes t.mem 0x80002000 8)) =
      [some [0x88, 0x81, 0x82, 0x83, 0x84, 0x85, 0x86, 0x87], some [0x88, 0x77, 0x82, 0x83, 0x84, 0x85, 0x86, 0x87],
       some [0x88, 0x77, 0x66, 0x55, 0x84, 0x85, 0x86, 0x87], some [0x88, 0x77, 0x66, 0x55, 0x44, 0x33, 0x22, 0x11]] := by
  decide

/-- HLV from U-mode with HU=0 is an illegal instruction, in VS-mode a virtual one (`43_hypervisor_instructions.md` R771). -/
theorem test_hlv_permission : got (exec (.hlvW 7 5) { guestState with priv := .u }) (fun t => t.m.cause) = some 2 ∧
    got (exec (.hsvW 6 5) { guestState with v := true }) (fun t => t.m.cause) = some 22 := by decide

/-- CSRRW swaps, CSRRS sets, CSRRC clears, and the immediates (`40_csr_access.md` R663-R668), on `mscratch`. -/
theorem test_csr :
    let s := { State.reset with m := { State.reset.m with scratch := 0xF0 }, x := State.reset.x.setIfInBounds 5 0xFF }
    [exec (.csrrw 6 0x340 5) s, exec (.csrrs 6 0x340 5) s, exec (.csrrc 6 0x340 5) s, exec (.csrrwi 6 0x340 31) s,
      exec (.csrrsi 6 0x340 31) s, exec (.csrrci 6 0x340 31) s].map (fun o => got o fun t => (t.rawX 6, t.m.scratch)) =
    [some (0xF0, 0xFF), some (0xF0, 0xFF), some (0xF0, 0), some (0xF0, 31), some (0xF0, 0xFF), some (0xF0, 0xE0)] := by decide

/-- CSRRS with `rs1`=`x0` does not write: a read-only CSR can be read, and CSRRW of it is illegal (`40_csr_access.md` R664,
R670). -/
theorem test_csr_read_only : got (exec (.csrrs 6 0xF14 0) State.reset) (fun t => (t.rawX 6, t.pc)) = some (0, 0x80000004) ∧
    got (exec (.csrrw 6 0xF14 0) State.reset) (fun t => t.m.cause) = some 2 := by decide

/-- A VS-mode access of `sscratch` reaches `vsscratch`; of `hstatus` it is a virtual instruction (`10_state.md` R33). -/
theorem test_csr_vs :
    got (exec (.csrrwi 0 0x140 9) (inMode .s true)) (fun t => (t.vs.scratch, t.sc.scratch)) = some (9, 0) ∧
    got (exec (.csrrs 6 0x600 0) (inMode .s true)) (fun t => t.m.cause) = some 22 := by decide

/-- Sv39: a permitted gigapage gives the address; an entry that is zero is a load page fault, cause 13
(`21_virtual_memory.md` R540, R549). -/
theorem test_sv39 :
    (match translateAddr (loadAt 0x40000123) .s false sv39State with | .ok a _ => a.addr | _ => 0) = 0x80000123 ∧
    (match translateAddr (loadAt 0x123) .s false sv39State with | .trap e _ => e.cause | _ => 0) = 13 := by decide

/-- An interrupt is taken before the instruction: machine timer, vectored (`60_exceptions.md` R844, R856). -/
theorem test_interrupt :
    got (step { State.reset with
        mst := { State.reset.mst with mie := true }, m := { State.reset.m with ie := 0x80, tvec := 0x80000101 } })
      (fun t => (t.m.cause, t.pc, t.m.epc)) = some (0x8000000000000007, 0x8000011C, 0x80000000) := by decide

/-- The first step after reset runs the instruction placed there. -/
theorem test_step : got (step (State.reset.withFetchWord 32 0x00000073)) (fun t => (t.m.cause, t.m.epc)) =
    some (11, 0x80000000) := by decide

/-- A top-of-range entry whose bounds do not rise matches nothing (`20_memory.md` R435). -/
theorem test_pmp_tor : ({ cfg := Vector.replicate 64 0x08, addr := Vector.replicate 64 4 } : Pmp).range 0 64 1 = none ∧
    ({ cfg := Vector.replicate 64 0x08, addr := Vector.replicate 64 4 } : Pmp).range 0 64 0 = some (0, 16) := by decide

/-- The trap instruction of an access (cause, value). -/
def trapInst {α : Type} (r : Res α) : Nat × Word := match r with | .trap e _ => (e.cause, e.tinst) | _ => (0, 0)

/-- HS-mode on a hart that writes transformed instructions. -/
def transforming : State := { inMode .s false with pmp := openPmp, cfg := { State.reset.cfg with xtinstTransformed := true } }

/-- `ld x10, 8(x11)` and `c.lw x10, 4(x11)`: cases 7 and 9 of R970 (`61_exceptions_hypervisor.md`). -/
theorem test_transformed_load : trapInst (explicitLoad 0x0085B503 false 0x1008 8 transforming) = (5, 0x00003503) ∧
    trapInst (explicitLoad 0x0045A503 true 0x1008 4 transforming) = (5, 0x00002501) := by decide

/-- `sd x10, 8(x11)` and `amoswap.d x10, x10, (x11)` (`61_exceptions_hypervisor.md` R955, R956). -/
theorem test_transformed_store : trapInst (explicitStore 0x00A5B423 false 0x1008 8 0 transforming) = (7, 0x00A03023) ∧
    trapInst (explicitAmo 0x08A5B52F .swap 0x1008 8 (fun _ => 0) transforming) = (7, 0x08A0352F) := by decide

/-- RAM that performs misaligned AMOs of 8 bytes. -/
def misalignedAmo : State :=
  { State.reset with
    cfg := { State.reset.cfg with
      pma := State.reset.cfg.pma.map fun r => { r with misaligned := [{ kind := .amo, width := 8, block := 0 }] } } }

/-- An AMO across a page: performed in both pages, or refused in both (`21_virtual_memory.md` R560; `20_memory.md` R425). -/
theorem test_amo_pages :
    (match explicitAmo 0x08A5B52F .swap 0x80000FFC 8 (fun _ => 0x0807060504030201) misalignedAmo with
     | .ok _ t => (Memory.bytes t.mem 0x80000FFC 8).map BitVec.toNat
     | _ => []) = [1, 2, 3, 4, 5, 6, 7, 8] ∧
    (trapInst (explicitAmo 0x08A5B52F .swap 0x80000FFC 8 (fun _ => 0) State.reset)).1 = 6 := by decide

/-- A misaligned LR or SC that crosses a page of a region with reservations (`20_memory.md` R425, R450). -/
theorem test_reserved_misaligned : (trapInst (reservedAddr 0x1005B52F .load 0x80000FFC 8 State.reset)).1 = 4 ∧
    (trapInst (reservedAddr 0x18A5B52F .store 0x80000FFC 8 State.reset)).1 = 6 := by decide

/-- A leaf cached under Sv39 may still be used after an unfenced change to Sv48 with the same ASID, not after SFENCE.VMA
(`42_supervisor_instructions.md` R745). -/
theorem test_stale_leaf :
    let s : State :=
      { sv39State with
        x := State.reset.x.setIfInBounds 5 0x9000000000080009, xlat := { noXlat with tlb := [{ leafRec with asid := 0 }] } }
    let usable : State → List Nat := fun t => (t.cachedFor .hs 0 0x40000123 .fault false).map TlbRec.raw
    got (exec (.csrrw 0 0x180 5) s) usable = some [0x200000CF] ∧
    got (exec (.csrrw 0 0x180 5) s) (fun t => t.sc.atp) = some 0x9000000000080009 ∧
    got (exec (.sfenceVma 0 0) s) usable = some [] := by decide

/-- CSRRSI of `mepc` under IALIGN=32 starts from the stored value, bit 1 of which reads zero (`40_csr_access.md` R664, R676;
`11_state_machine_csrs.md` R159). -/
theorem test_csr_stored : got (exec (.csrrsi 7 0x341 4) { State.reset with m := { State.reset.m with epc := 0x80000002 } })
    (fun t => (t.rawX 7, t.m.epc)) = some (0x80000000, 0x80000006) := by decide

/-- A delegated machine-level interrupt goes to S-mode by the predicate of R841, and 9 comes before it by `S_ORDER`
(`60_exceptions.md` R843). -/
theorem test_interrupt_delegated :
    let s : State :=
      { inMode .s false with
        cfg := { State.reset.cfg with midelegMask := 0xAAA }, mst := { State.reset.mst with sie := true }
        m := { State.reset.m with ideleg := 0xAAA, ie := 0x280 }, pend := { State.reset.pend with mtip := true } }
    (s.forM, s.forS, s.forVs, s.takeable) = (0, 0x80, 0, some 7) ∧
    ({ s with pend := { s.pend with seipB := true } } : State).takeable = some 9 := by decide

/-- With PMP_N=16 `pmpaddr16` reads zero (B2 of `95_test_vectors.md`) or does not exist (`40_csr_access.md` R671). -/
theorem test_pmpaddr_beyond : got (exec (.csrrs 10 0x3C0 0) State.reset) (fun t => (t.rawX 10, t.pc)) = some (0, 0x80000004) ∧
    got (exec (.csrrs 10 0x3C0 0) { State.reset with cfg := { State.reset.cfg with pmpAddrAbsent := true } })
      (fun t => t.m.cause) = some 2 := by decide

/-- A code that the hart can raise is legal in `mcause` though XCAUSE_LEGAL does not name it (`60_exceptions.md` R852). -/
theorem test_cause_legal :
    let c := { Config.default with xcauseLegal := [] }
    (causeLegal c .mcause 23, causeLegal c .mcause 14, causeLegal c .scause 14) = (true, false, true) := by decide

/-- With PMP_N=16 `pmpcfg2` exists and `pmpcfg4` does not (`10_state.md` R37). -/
theorem test_pmpcfg_exists : got (exec (.csrrs 6 0x3A2 0) State.reset) (fun t => t.pc) = some 0x80000004 ∧
    got (exec (.csrrs 6 0x3A4 0) State.reset) (fun t => t.m.cause) = some 2 := by decide

/-- A leaf read between SINVAL.VMA and SFENCE.INVAL.IR is gone after the latter (`42_supervisor_instructions.md` R754). -/
theorem test_sinval_window :
    let walked : State → State := fun t =>
      match translateAddr (loadAt 0x40000123) .s false t with | .ok _ u => u | _ => t
    got (exec (.sinvalVma 0 0) sv39State) (fun t => (walked t).xlat.tlb.map TlbRec.doomed) = some [true] ∧
    got (exec (.sinvalVma 0 0) sv39State) (fun t => (walked (t.event .finish)).xlat.tlb.map TlbRec.doomed) = some [false] := by
  decide

/-- A record gives a walk of the other byte order the value it was read with (`21_virtual_memory.md` R552). -/
theorem test_cached_order :
    let w := sv39State.satpWalk (loadAt 0x40000123) (fun _ => true) false .fault ⟨3, 9, 8, 0⟩ true false
    let s : State := { sv39State with xlat := { noXlat with tlb := [{ leafRec with asid := 0 }] } }
    (w.cached 0x80001008 s).map (fun c => pteOf true 8 c.1) = [0x200000CF] := by decide

/-! ### Witnesses: states and operands that meet the hypotheses of each statement -/

theorem witness_DecodeOfEncode : (Instr.csrrw 31 4095 31).wellFormed = true ∧ (Instr.hsvD 31 31).wellFormed = true ∧
    (Instr.sfenceVma 0 31).wellFormed = true ∧ Instr.ecall.wellFormed = true := by decide

theorem witness_EncodeOfDecode : decodeWord 0x30529073 = .ok (.csrrw 0 0x305 5) := rfl

/-- What a fetch leaves. -/
def fetched (s : State) : State :=
  match fetch s.syncIrq with
  | .ok _ t => t
  | _ => s

/-- `sret` with `rs1`=1 is no instruction. -/
theorem witness_ReservedSystemWordsTrap :
    fieldOpcode (0x10208073 : IWord).toNat = opSystem ∧ (∀ i : Instr, i.wellFormed = true → encode i ≠ 0x10208073) ∧
    (State.reset.withFetchWord 32 0x10208073).fetches 0x10208073 (fetched (State.reset.withFetchWord 32 0x10208073)) := by
  refine ⟨rfl, fun i hi he => ?_, rfl, rfl, by decide, by decide⟩
  have h := congrArg BitVec.toNat he
  rw [encode, BitVec.toNat_ofNat, Nat.mod_eq_of_lt (Laws.encodeNat_lt i hi)] at h
  cases i <;> simp [Instr.wellFormed, fits5, fits12] at hi <;> simp [encodeNat, encR, encI, opSystem] at h <;> omega

theorem witness_StepRunsDecoded :
    (State.reset.withFetchWord 32 0x30200073).fetches 0x30200073 (fetched (State.reset.withFetchWord 32 0x30200073)) ∧
    decodeWord 0x30200073 = .ok .mret := ⟨⟨rfl, rfl, by decide, by decide⟩, rfl⟩

theorem witness_StepInMachineMode :
    let s := State.reset.withFetchWord 32 0x30200073
    s.inputs = [] ∧ s.wait = none ∧ s.syncIrq.takeable = none ∧ s.priv = .m ∧ s.v = false ∧ s.hasC = false ∧
    0x80000000 = (maskX s.xlen s.pc).toNat ∧ 0x80000000 % 4 = 0 ∧ (∀ p ∈ s.pmps false, p = s.pmp) ∧ s.codeOld = [] ∧
    s.pmpCheck s.pmp .fetch .m 0x80000000 4 = true ∧ s.pmaOk .fetch 0x80000000 4 = true ∧ s.mainMemory 0x80000000 4 ∧
    decodeBytes (Memory.bytes s.mem 0x80000000 4) = .ok (.mret, []) :=
  ⟨rfl, rfl, by decide, rfl, rfl, by decide, by decide, by decide, by decide, rfl, by decide, by decide,
    by unfold State.mainMemory; decide, by rfl⟩

/-- Interrupts into M-mode, into HS-mode from U-mode, and into VS-mode. -/
def irqM : State := { State.reset with mst := { State.reset.mst with mie := true }, m := { State.reset.m with ie := 0x80 }
                                       pend := { State.reset.pend with mtip := true } }
def irqS : State := { inMode .u false with m := { State.reset.m with ie := 2, ideleg := 2 }
                                           pend := { State.reset.pend with ssip := true } }
def irqVs : State := { inMode .u true with m := { State.reset.m with ie := 4 }, h := { State.reset.h with ideleg := 4 }
                                           pend := { State.reset.pend with vssip := true } }

theorem witness_TakenInterruptIsEnabled :
    (irqM.modeOk ∧ irqM.takeable = some 7 ∧ irqM.destination true 7 = .m) ∧
    (irqS.modeOk ∧ irqS.takeable = some 1 ∧ irqS.destination true 1 = .s) ∧
    (irqVs.modeOk ∧ irqVs.takeable = some 2 ∧ irqVs.destination true 2 = .vs) := by
  unfold State.modeOk; decide

theorem witness_EnabledInterruptIsTaken :
    irqM.inputs = [] ∧ irqM.wait = none ∧ (irqM.priv ≠ .m ∨ irqM.mst.mie = true) ∧
    irqM.syncIrq.mip &&& irqM.syncIrq.mie &&& ~~~irqM.syncIrq.mideleg ≠ 0 := by decide

theorem witness_TrapIntoM :
    (State.reset.priv = .m ∨ State.reset.medeleg.getLsbD 2 = false) ∧
    ((inMode .u true).priv = .m ∨ (inMode .u true).mideleg.getLsbD 7 = false) := by decide

/-- Delegated to HS-mode, from U-mode and from VS-mode. -/
theorem witness_TrapIntoS :
    (irqS.priv ≠ .m ∧ irqS.mideleg.getLsbD 1 = true ∧ (irqS.v = false ∨ irqS.hideleg.getLsbD 1 = false)) ∧
    (let s := { inMode .s true with m := { State.reset.m with edeleg := 8 } }
     s.priv ≠ .m ∧ s.medeleg.getLsbD 3 = true ∧ (s.v = false ∨ s.hedeleg.getLsbD 3 = false)) := by decide

theorem witness_TrapIntoVs :
    (irqVs.priv ≠ .m ∧ irqVs.v = true ∧ irqVs.mideleg.getLsbD 2 = true ∧ irqVs.hideleg.getLsbD 2 = true) ∧
    (let s := { inMode .s true with m := { State.reset.m with edeleg := 8 }, h := { State.reset.h with edeleg := 8 } }
     s.priv ≠ .m ∧ s.v = true ∧ s.medeleg.getLsbD 3 = true ∧ s.hedeleg.getLsbD 3 = true) := by decide

theorem witness_MretReturns : State.reset.priv = .m := rfl

/-- From M-mode and from HS-mode. -/
theorem witness_SretReturns :
    (State.reset.hasS = true ∧ State.reset.v = false ∧ State.reset.priv = .m) ∧
    ((inMode .s false).hasS = true ∧ (inMode .s false).v = false ∧ (inMode .s false).priv = .s ∧
      (inMode .s false).mst.tsr = false) := by decide

theorem witness_SretReturnsInGuest :
    (inMode .s true).hasS = true ∧ (inMode .s true).v = true ∧ (inMode .s true).priv = .s ∧
    (inMode .s true).hst.vtsr = false := by decide

/-- A hart without S-mode, and states with TSR and with VTSR, TVM and VTVM, TW and VTW set. -/
def noS : State := { State.reset with misa := { mxl := .x64, ext := 0x0100100 } }
def traps (s : State) : State :=
  { s with mst := { s.mst with tsr := true, tvm := true }, hst := { s.hst with vtsr := true, vtvm := true, vtw := true } }

theorem witness_ReturnPermissions :
    (inMode .s false).priv ≠ .m ∧ noS.hasS = false ∧ ((inMode .u false).priv = .u ∧ (inMode .u false).v = false) ∧
    ((traps (inMode .s false)).priv = .s ∧ (traps (inMode .s false)).v = false ∧ (traps (inMode .s false)).mst.tsr = true) ∧
    ((inMode .u true).hasS = true ∧ (inMode .u true).priv = .u ∧ (inMode .u true).v = true) ∧
    ((traps (inMode .s true)).hasS = true ∧ (traps (inMode .s true)).priv = .s ∧ (traps (inMode .s true)).v = true ∧
      (traps (inMode .s true)).hst.vtsr = true) := by decide

/-- Unguarded in M-mode and in VS-mode; guarded with a time limit, an enabled interrupt pending. -/
theorem witness_WfiCompletes :
    (State.reset.wait = none ∧ State.reset.priv = .m ∧ State.reset.stallHint = 0) ∧
    (let s := inMode .s true
     s.wait = none ∧ s.mst.tw = false ∧ s.priv = .s ∧ s.hst.vtw = false ∧ s.stallHint = 0) ∧
    (let s := { irqM with priv := .u, cfg := { State.reset.cfg with wfiTimeout := 1 } }
     s.wait = none ∧ s.mip &&& s.mie ≠ 0 ∧ 0 < s.cfg.wfiTimeout) := by decide

/-- Guarded with no time limit in U-mode, and by TW, VTW and in VU-mode; with a time limit and no stall asked for. -/
theorem witness_WfiTraps :
    (let s := inMode .u false
     s.cfg.wfiTimeout = 0 ∧ s.wait = none ∧ s.priv ≠ .m ∧ s.priv = .u ∧ s.v = false ∧ s.hasS = true) ∧
    (let s := { inMode .s true with mst := { State.reset.mst with tw := true } }
     s.cfg.wfiTimeout = 0 ∧ s.wait = none ∧ s.priv ≠ .m ∧ s.mst.tw = true) ∧
    (let s := traps (inMode .s true)
     s.cfg.wfiTimeout = 0 ∧ s.wait = none ∧ s.priv ≠ .m ∧ s.mst.tw = false ∧ s.v = true ∧ s.hst.vtw = true) ∧
    (let s := { inMode .u true with cfg := { State.reset.cfg with wfiTimeout := 3 } }
     s.stallHint = 0 ∧ s.mip &&& s.mie = 0 ∧ s.wait = none ∧ s.priv ≠ .m ∧ s.mst.tw = false ∧ s.v = true ∧ s.priv = .u) := by
  decide

/-- A stall that may begin, in each mode that nothing guards and under each guard. -/
def stalling (s : State) : State := { s with stallHint := 1, cfg := { s.cfg with wfiTimeout := 1 } }

/-- Stalls that begin; one that an interrupt ends; one that is over, one that is over under each guard; one that goes on. -/
theorem witness_WfiStalls :
    (∀ s ∈ [stalling State.reset, stalling (inMode .s false), stalling (inMode .s true), stalling { noS with priv := .u },
        stalling (inMode .u false), stalling (traps (inMode .s true))],
      s.mip &&& s.mie = 0 ∧ 0 < s.stallHint ∧ 0 < s.cfg.wfiTimeout) ∧
    ((inMode .s false).mst.tw = false ∧ (inMode .s true).hst.vtw = false ∧ noS.hasS = false ∧ noS.mst.tw = false ∧
      (stalling (inMode .u false)).hasS = true ∧ (stalling (traps (inMode .s true))).hst.vtw = true ∧
      (stalling (traps (inMode .s true))).mst.tw = false) ∧
    (let s := { irqM with wait := some ⟨5, none⟩ }
     s.inputs = [] ∧ s.wait = some ⟨5, none⟩ ∧ s.syncIrq.mip &&& s.syncIrq.mie ≠ 0) ∧
    (∀ g ∈ [none, some 2, some 22],
      let s := { State.reset with wait := some ⟨0, g⟩ }
      s.inputs = [] ∧ s.wait = some ⟨0, g⟩ ∧ s.syncIrq.mip &&& s.syncIrq.mie = 0) ∧
    (let s := { State.reset with wait := some ⟨1, none⟩ }
     s.inputs = [] ∧ s.wait = some ⟨0 + 1, none⟩ ∧ s.syncIrq.mip &&& s.syncIrq.mie = 0) := by decide

/-- HS-mode under Sv39 with a cached record, `x5` the last valid low address, `x6` the first that is not valid. -/
def fenceState : State :=
  { sv39State with
    x := (State.reset.x.setIfInBounds 5 0x3FFFFFFFFF).setIfInBounds 6 0x4000000000, xlat := { noXlat with tlb := [leafRec] } }

/-- Valid and invalid addresses; HS-mode, M-mode and VS-mode; a record that the fence of another address space leaves. -/
theorem witness_SfenceVma :
    (let s := fenceState
     s.hasS = true ∧ paging s.cfg = true ∧ s.priv = .s ∧ s.v = false ∧ s.mst.tvm = false ∧
     s.regsOk [5, 6] = true ∧ validVa s.sxlen s.sc.atp (s.fenceAddr 5) = true ∧
     validVa s.sxlen s.sc.atp (s.fenceAddr 6) = false ∧ s.fenceAsid s.sxlen 5 = some 0xFFFF ∧
     leafRec ∈ (s.sfence (s.sfenceScope 0 5)).xlat.tlb ∧ leafRec ∉ (s.sfence (s.sfenceScope 0 0)).xlat.tlb) ∧
    (State.reset.hasS = true ∧ paging State.reset.cfg = true ∧ State.reset.priv = .m) ∧
    ((inMode .s true).priv = .s ∧ (inMode .s true).v = true ∧ (inMode .s true).hst.vtvm = false) := by decide

theorem witness_SinvalVma :
    let s := fenceState
    s.regsOk [5, 6] = true ∧ s.cfg.svinval = true ∧ s.hasS = true ∧ paging s.cfg = true ∧ s.priv = .s ∧ s.v = false ∧
    s.mst.tvm = false ∧ validVa s.sxlen s.sc.atp (s.fenceAddr 5) = true ∧
    validVa s.sxlen s.sc.atp (s.fenceAddr 6) = false ∧ leafRec.space = .hs := by decide

theorem witness_SvinvalFences : (inMode .s true).cfg.svinval = true ∧ (inMode .s true).hasS = true ∧
    (inMode .s true).priv ≠ .u := by decide

/-- The sequence with a record in its scope, and with a changed entry of the table. -/
theorem witness_SinvalSequence :
    let s := { fenceState with xlat := { fenceState.xlat with hist := [.store 0x80001008 [0]] } }
    s.regsOk [0, 0] = true ∧ s.cfg.svinval = true ∧ s.hasS = true ∧ paging s.cfg = true ∧ s.priv = .s ∧ s.v = false ∧
    s.mst.tvm = false ∧ validVa s.sxlen s.sc.atp (s.fenceAddr 0) = true ∧ leafRec ∈ s.xlat.tlb ∧ s.changes ≠ [] := by decide

/-- A hart whose base is RV32E. -/
def rv32e : State :=
  { State.reset with
    misa := { mxl := .x32, ext := 0x0140000 }
    cfg := { State.reset.cfg with mxlMax := .x32, extMax := 0x0140010, extWritable := 0 } }

/-- It has 16 registers: an instruction that names another one is illegal (`10_state.md` R23). -/
theorem test_rv32e : got (exec (.csrrwi 15 0x340 16) rv32e) (fun t => t.m.scratch) = some 16 := by decide

theorem test_rv32e_absent : got (exec (.csrrw 16 0x340 0) rv32e) (fun t => t.m.cause) = some 2 := by decide

/-- `misa` reads E as the complement of I (`11_state_machine_csrs.md` R84). -/
theorem test_rv32e_misa : rv32e.misaWord = 0x40140010 := by decide

/-- A hart with no paging on which the fence is illegal. -/
def noPaging : State := { State.reset with cfg := { State.reset.cfg with svLevels := 0, sfenceBareIllegal := true } }

/-- A hart without Svinval. -/
def noSvinval : State := { State.reset with cfg := { State.reset.cfg with svinval := false } }

theorem witness_SfencePermissions :
    ⟨.sinvalVma 1 2, false, true⟩ ∈ supervisorFences 1 2 ∧ noS.hasS = false ∧ rv32e.regsOk [1, 16] = false ∧
    (inMode .s true).regsOk [1, 2] = true ∧ noSvinval.cfg.svinval = false ∧
    ((inMode .u false).priv = .u ∧ (inMode .u false).v = false) ∧
    ((traps (inMode .s false)).priv = .s ∧ (traps (inMode .s false)).mst.tvm = true) ∧
    ((traps (inMode .s true)).hasS = true ∧ (traps (inMode .s true)).priv = .s ∧ (traps (inMode .s true)).hst.vtvm = true) ∧
    (noPaging.priv = .m ∧ paging noPaging.cfg = false ∧ noPaging.cfg.sfenceBareIllegal = true) ∧
    ((inMode .s true).hasS = true ∧ (inMode .s true).hst.vtvm = false ∧ paging (inMode .s true).cfg = true) :=
  ⟨by simp [supervisorFences], by decide⟩

theorem witness_SvinvalPermissions :
    noSvinval.cfg.svinval = false ∧ noS.hasS = false ∧ ((inMode .u false).priv = .u ∧ (inMode .u false).v = false) ∧
    ((inMode .u true).cfg.svinval = true ∧ (inMode .u true).hasS = true ∧ (inMode .u true).priv = .u) ∧
    ((traps (inMode .s true)).hasS = true ∧ (traps (inMode .s true)).priv ≠ .u) := by decide

/-- HS-mode with Sv39 and Sv39x4: `x5` and `x7` the last valid operands, `x6` and `x8` the first that are not. -/
def guestFence : State :=
  { inMode .s false with
    vs := { State.reset.vs with atp := 0x8000000000000000 }, h := { State.reset.h with gatp := 0x8000000000000000 }
    x := (((State.reset.x.setIfInBounds 5 0x3FFFFFFFFF).setIfInBounds 6 0x4000000000).setIfInBounds 7 0x7FFFFFFFFF).setIfInBounds 8
      0x8000000000
    xlat := { noXlat with tlb := [{ leafRec with space := .vs 0 }, { leafRec with space := .g 0 }] } }

theorem witness_HfenceVvma :
    let s := guestFence
    s.hasH = true ∧ s.v = false ∧ s.priv ≠ .u ∧ validVa s.vsxlen s.vs.atp (s.fenceAddr 5) = true ∧
    validVa s.vsxlen s.vs.atp (s.fenceAddr 6) = false ∧ { leafRec with space := .vs 0 } ∈ (s.hfence (s.vsScope 5 0)).xlat.tlb ∧
    { leafRec with space := .vs 0 } ∉ (s.hfence (s.vsScope 0 0)).xlat.tlb := by
  decide

theorem witness_HfenceGvma :
    let s := guestFence
    s.hasH = true ∧ s.v = false ∧ s.priv = .s ∧ s.mst.tvm = false ∧ validGpa s.sxlen s.h.gatp (s.fenceGpa 7) = true ∧
    validGpa s.sxlen s.h.gatp (s.fenceGpa 8) = false ∧ { leafRec with space := .g 0 } ∈ (s.hfence (s.gScope 7 0)).xlat.tlb ∧
    (s.hfence (s.gScope 0 0)).xlat.tlb = [] := by
  decide

theorem witness_HinvalSchedules :
    let s := guestFence
    s.cfg.svinval = true ∧ s.hasH = true ∧ s.v = false ∧ s.priv ≠ .u ∧ s.mst.tvm = false ∧
    validVa s.vsxlen s.vs.atp (s.fenceAddr 5) = true ∧ validGpa s.sxlen s.h.gatp (s.fenceGpa 7) = true ∧
    validVa s.vsxlen s.vs.atp (s.fenceAddr 6) = false ∧ validGpa s.sxlen s.h.gatp (s.fenceGpa 8) = false ∧
    s.fenceVmid 0 = none ∧ s.vmid = 0 := by decide

/-- A hart without the hypervisor extension. -/
def noH : State := { State.reset with misa := { mxl := .x64, ext := 0x0140100 } }

theorem witness_HfencePermissions :
    ⟨.hinvalGvma 1 2, true, true⟩ ∈ hypervisorFences 1 2 ∧ noH.hasH = false ∧ noSvinval.cfg.svinval = false ∧
    ((inMode .u false).v = false ∧ (inMode .u false).priv = .u) ∧
    ((traps (inMode .s false)).priv = .s ∧ (traps (inMode .s false)).mst.tvm = true) ∧
    ((inMode .u true).hasH = true ∧ (inMode .u true).v = true ∧ (inMode .u true).cfg.svinval = true) ∧
    ((inMode .s false).hasH = true ∧ (inMode .s false).priv = .s ∧ (inMode .s false).mst.tvm = false) :=
  ⟨by simp [hypervisorFences], by decide⟩

/-- Both stages are Bare and nothing has changed. -/
theorem guestState_bare : guestState.guestBare := by
  have hp : guestState.pmps true = [guestState.pmp] := rfl
  exact ⟨by decide, by decide, by decide, by decide, by rw [hp]; simp⟩

theorem witness_HlvLoads :
    let s := guestState
    ⟨.hlvD 31 5, 8, .load, true, fun d => BitVec.ofNat 64 d⟩ ∈ loadForms 31 5 ∧ s.hasH = true ∧ s.v = false ∧ s.xlen = .x64 ∧
    s.priv ≠ .u ∧ s.guestBare ∧ s.hlsvAligned 5 8 ∧ s.guestAccessible .load (s.hlsvAddr 5).toNat 8 ∧
    s.guestAccessible .hlvx (s.hlsvAddr 5).toNat 4 := by
  refine ⟨by simp [loadForms], by decide, rfl, by decide, by decide, ?_, ?_, ?_, ?_⟩
  · exact guestState_bare
  · unfold State.hlsvAligned; decide
  · unfold State.guestAccessible State.mainMemory; decide
  · unfold State.guestAccessible State.mainMemory; decide

/-- In HS-mode, and in U-mode with HU=1. -/
theorem witness_HsvStores :
    let s := guestState
    ⟨.hsvD 6 5, 8, true⟩ ∈ storeForms 6 5 ∧ s.memOk ∧ s.hasH = true ∧ s.v = false ∧ s.xlen = .x64 ∧ s.priv ≠ .u ∧ s.guestBare ∧
    s.hlsvAligned 5 8 ∧ s.guestAccessible .store (s.hlsvAddr 5).toNat 8 ∧
    ({ s with priv := .u, hst := { s.hst with hu := true } } : State).hst.hu = true := by
  refine ⟨by simp [storeForms], by unfold State.memOk; decide, by decide, rfl, by decide, by decide, ?_, ?_, ?_, rfl⟩
  · exact guestState_bare
  · unfold State.hlsvAligned; decide
  · unfold State.guestAccessible State.mainMemory; decide

/-- A load and a store that retire, and a load that faults. -/
theorem witness_HlsvEnds :
    let s := guestState
    (s.hasH = true ∧ s.v = false ∧ s.xlen = .x64 ∧ s.priv ≠ .u) ∧
    (got (exec (.hlvD 7 5) s) (fun _ => ())) = some () ∧ (got (exec (.hsvD 6 5) s) (fun _ => ())) = some () ∧
    (got (exec (.hlvD 7 6) s) (fun t => t.m.cause)) = some 5 := by decide

theorem witness_HlvLeavesMemory :
    guestState.cfg.adHardware = false ∧ (got (exec (.hlvxWu 7 5) guestState) (fun _ => ())) = some () := by decide

theorem witness_StoreThenLoad :
    let s := guestState
    0 < 7 ∧ 7 < 32 ∧ s.memOk ∧ s.hasH = true ∧ s.v = false ∧ s.xlen = .x64 ∧ s.priv ≠ .u ∧ s.guestBare ∧ s.hlsvAligned 5 8 ∧
    s.guestAccessible .store (s.hlsvAddr 5).toNat 8 ∧ s.guestAccessible .load (s.hlsvAddr 5).toNat 8 := by
  have h := witness_HsvStores
  have k := witness_HlvLoads
  exact ⟨by decide, by decide, h.2.1, h.2.2.1, rfl, h.2.2.2.2.1, by decide, h.2.2.2.2.2.2.1, h.2.2.2.2.2.2.2.1,
    h.2.2.2.2.2.2.2.2.1, k.2.2.2.2.2.2.2.1⟩

theorem witness_HlsvPermissions :
    noH.hasH = false ∧ ({ State.reset with misa := { mxl := .x32, ext := State.reset.misa.ext } } : State).xlen = .x32 ∧
    ((inMode .s true).hasH = true ∧ (inMode .s true).xlen = .x64 ∧ (inMode .s true).v = true) ∧
    ((inMode .u false).v = false ∧ (inMode .u false).priv = .u ∧ (inMode .u false).hst.hu = false) := by decide

/-- Forms that write and forms that do not, on a plain register, on `minstret`, and on a read-only register. -/
theorem witness_CsrInstructions :
    let s := State.reset
    csrOf 0x340 = some .mscratch ∧ s.regsOk [5, 31] = true ∧ s.csrVerdict 0x340 .mscratch true = .ok ∧
    csrOf 0xB02 = some .minstret ∧ s.csrVerdict 0xB02 .minstret true = .ok ∧
    csrOf 0xF14 = some .mhartid ∧ s.csrVerdict 0xF14 .mhartid false = .ok ∧
    ((csrForms s 1 0xF14 0).map CsrForm.writes) = [true, false, false, true, false, false] ∧
    (let t := { s with cfg := { s.cfg with wlrlTraps := true } }
     csrOf 0x342 = some .mcause ∧ t.csrVerdict 0x342 .mcause true = .ok ∧ (t.csrWrite .mcause 64).isNone = true ∧
     (s.csrWrite .mcause 64).isSome = true) := by decide

/-- A guest in VU-mode and VS-mode with `time` enabled by `mcounteren` alone, and by `hcounteren` too. -/
def counting (p : Priv) (h : BitVec 32) : State :=
  { inMode p true with cnt := { State.reset.cnt with mcounteren := 2, hcounteren := h } }

/-- Each reason for which an access is refused, and an access that none of them refuses. -/
theorem witness_CsrPermissions :
    csrOf 0x7C0 = none ∧ rv32e.regsOk [16] = false ∧ (csrOf 0x600 = some .hstatus ∧ noH.implemented .hstatus = false) ∧
    (csrOf 0xF14 = some .mhartid ∧ csrReadOnly 0xF14 = true) ∧
    ((inMode .u false).v = false ∧ (inMode .u false).modeLevel < csrLevel 0x100) ∧
    ((inMode .s true).v = true ∧ csrLevel 0x300 = 3) ∧
    ((inMode .s true).implemented .hstatus = true ∧ csrReadOnly 0x600 = false ∧ csrLevel 0x600 = 2) ∧
    ((inMode .u true).implemented .sstatus = true ∧ csrLevel 0x100 = 1 ∧ (inMode .u true).priv = .u) ∧
    (csrOf 0x180 = some .satp ∧ (inMode .s true).implemented .satp = true ∧ (inMode .s true).regsOk [1, 2] = true) := by decide

theorem witness_CsrPermissions_satp :
    ((traps (inMode .s false)).reaches 0x180 ∧ (traps (inMode .s false)).mst.tvm = true) ∧
    ((traps (inMode .s true)).reaches 0x180 ∧ (traps (inMode .s true)).hst.vtvm = true) ∧
    (csrOf 0x680 = some .hgatp ∧ (traps (inMode .s false)).reaches 0x680 ∧
      (traps (inMode .s false)).implemented .hgatp = true) := by
  simp only [State.reaches]; decide

theorem witness_CsrPermissions_units :
    (csrOf 0x003 = some .fcsr ∧ (inMode .u false).reaches 3 ∧ (inMode .u false).implemented .fcsr = true ∧
      (inMode .u false).mst.fs = 0) ∧
    (csrOf 0xC01 = some .time ∧ Csr.time.counterBit = some 1 ∧ (counting .s 2).reaches 0xC01) := by
  simp only [State.reaches]; decide

theorem witness_CsrPermissions_counters :
    ¬(inMode .u false).counterOpen 1 ∧ ¬(counting .s 0).counterOpen 1 ∧ ¬(counting .u 2).counterOpen 1 ∧
    (counting .s 2).counterOpen 1 := by
  unfold State.counterOpen; decide

theorem witness_CsrFrame :
    csrOf 0x301 = some .misa ∧ State.reset.cfg.wlrlTraps = false ∧ State.reset.regsOk [1, 2] = true ∧
    State.reset.hasReg 31 = true ∧ State.reset.csrVerdict 0x301 .misa true = .ok ∧
    (got (exec (.csrrw 1 0x301 2) State.reset) (fun _ => ())) = some () := by decide

theorem witness_MscratchHolds : 31 < 32 ∧ State.reset.regsOk [31, 31] = true ∧ rv32e.regsOk [15, 15] = true ∧ State.reset.priv = .m ∧ State.reset.v = false := by decide

theorem witness_PlainRegisters :
    let s := State.reset
    s.priv = .m ∧ s.v = false ∧ s.hasH = true ∧ s.mxlen = .x64 ∧ s.sxlen = .x64 ∧ s.vsxlen = .x64 ∧
    (plainWrites s (s.readX 5)).length = 3 ∧ (epcRegisters s).length = 3 ∧ (tvalRegisters s).length = 2 ∧
    s.hasReg 5 = true := by decide

theorem witness_SstatusIsView : State.reset.mxlen = .x64 ∧ State.reset.sxlen = .x64 ∧
    (State.reset.csrWrite .sstatus 0x2).isSome = true := by decide

/-- MODE 1 with SXLEN=64, from M-mode and from HS-mode. -/
theorem witness_SatpUnsupportedMode :
    let s := { State.reset with x := State.reset.x.setIfInBounds 5 0x1000000000000001 }
    s.hasReg 5 = true ∧ s.hasS = true ∧ s.v = false ∧ s.priv = .m ∧
    satpModeOk s.cfg s.sxlen (atpMode s.sxlen (maskX s.sxlen (s.readX 5))) = false ∧
    ((inMode .s false).priv = .s ∧ (inMode .s false).mst.tvm = false) := by decide

/-- A locked top-of-range entry 1. -/
theorem witness_PmpLockHolds :
    let s := { State.reset with pmp := { State.reset.pmp with cfg := State.reset.pmp.cfg.setIfInBounds 1 0x88 } }
    0x3B0 ≠ 0x301 ∧ 1 < s.cfg.pmpN ∧ pmpL (s.pmp.cfgAt 1) = true ∧ pmpA (s.pmp.cfgAt 1) = 1 ∧
    (got (exec (.csrrwi 0 0x3B0 5) s) (fun _ => ())) = some () := by decide

/-- No entries; entry 0 that matches the whole access; entry 1 behind one that is off, matching a part; entries that are off. -/
theorem witness_PmpFirstMatchDecides :
    (let s := { State.reset with cfg := { State.reset.cfg with pmpN := 0 } }
     s.cfg.pmpN = 0) ∧
    (0 < State.reset.cfg.pmpN ∧ openPmp.range 0 64 0 = some (0, 2 ^ 57) ∧ 0x1000 < 2 ^ 57 ∧ 0 < 0x1000 + 8) ∧
    (let p : Pmp := { cfg := (Vector.replicate 64 0).setIfInBounds 1 0x17, addr := (Vector.replicate 64 0).setIfInBounds 1 3 }
     p.range 0 64 0 = none ∧ p.range 0 64 1 = some (12, 16) ∧ 8 < 16 ∧ 12 < 8 + 8) ∧
    State.reset.pmp.range 0 64 0 = none := by decide

theorem witness_SeipReadModifyWrite :
    State.reset.priv = .m ∧ State.reset.v = false ∧ State.reset.hasS = true ∧ 0 < 32 ∧
    State.reset.cfg.mipImpl.getLsbD 9 = true ∧ State.reset.regsOk [0, 31] = true := by decide

/-- From M-mode; `time` from VU-mode with all enables. -/
theorem witness_Counters :
    (State.reset.mxlen = .x64 ∧ State.reset.regsOk [31, 1] = true ∧ State.reset.priv = .m ∧ State.reset.v = false) ∧
    (let s := { inMode .u true with cnt := { State.reset.cnt with mcounteren := 2, hcounteren := 2, scounteren := 2 } }
     s.mxlen = .x64 ∧ s.cfg.hasTime = true ∧ s.xlen = .x64 ∧ s.counterOpen 1) := by
  unfold State.counterOpen; decide

theorem witness_FcsrWrites :
    (let s := { inMode .u true with mst := { State.reset.mst with fs := 1 }, vst := { State.reset.vst with fs := 1 } }
     s.hasF = true ∧ s.regsOk [1, 2] = true ∧ s.mst.fs ≠ 0 ∧ s.v = true ∧ s.vst.fs ≠ 0) ∧
    (State.reset.hasF = true ∧ State.reset.mst.fs = 0) ∧
    (let s := { inMode .u true with mst := { State.reset.mst with fs := 1 } }
     s.v = true ∧ s.vst.fs = 0) := by decide

theorem witness_MisaGuard :
    let s := { State.reset with
      pc := 0x80000002, misa := { mxl := .x64, ext := 0x01401A5 }
      cfg := { State.reset.cfg with extMax := 0x01401A5, extWritable := 0xA4 } }
    s.priv = .m ∧ s.v = false ∧ s.hasC = true ∧ s.hasReg 5 = true ∧ s.nextPc.toNat % 4 ≠ 0 ∧ s.cfg.extWritable.getLsbD letterC = true ∧
    s.cfg.extMax.getLsbD letterC = true ∧ (s.readX 5).getLsbD letterC = false := by decide

/-- The first address that is not valid; a malformed entry; a gigapage. -/
theorem witness_Sv39RootEntry :
    let s := sv39State
    (s.hasS = true ∧ s.sxlen = .x64 ∧ atpMode .x64 s.sc.atp = 8) ∧
    ¬((loadAt 0x4000000000).va.toNat / 2 ^ 38 = 0 ∨ (loadAt 0x4000000000).va.toNat / 2 ^ 38 = 2 ^ 26 - 1) ∧
    s.xlat = noXlat ∧
    (atpPpn .x64 s.sc.atp * 4096 + (loadAt 0x40000123).va.toNat / 2 ^ 30 % 512 * 8 = 0x80001008 ∧
      s.pmpCheck s.pmp .load .s 0x80001008 8 = true ∧ s.pmaOk .load 0x80001008 8 = true ∧ s.mainMemory 0x80001008 8 ∧
      0x200000CF = assemble s.mst.sbe (Memory.bytes s.mem 0x80001008 8)) ∧
    (pteBad 8 2 s.cfg.hasSvnapot (s.cfg.hasSvpbmt && s.m.pbmte) 0x200000CF = false ∧ ptePointer 0x200000CF = false ∧
      permitted .load .s s.mst.sum s.mst.mxr 0x200000CF = true ∧ ptePpn 8 0x200000CF % 2 ^ 18 = 0 ∧ pteA 0x200000CF = true) ∧
    (s.mainMemory 0x80001000 8 ∧ 0 = assemble s.mst.sbe (Memory.bytes s.mem 0x80001000 8) ∧
      pteBad 8 2 s.cfg.hasSvnapot (s.cfg.hasSvpbmt && s.m.pbmte) 0 = true) := by
  unfold State.mainMemory; decide

/-- A state that meets the invariants and steps to a next state; `mret` to VS-mode with MPRV set. -/
def invState : State :=
  { State.reset.withFetchWord 32 0x30200073 with
    mst := { State.reset.mst with mpp := .s, mpv := true, mprv := true } }

theorem witness_invariants :
    invState.memOk ∧ invState.legalModes ∧ invState.mprvOk ∧ invState.entriesOk ∧ invState.pcOk ∧
    (got (step invState) (fun t => (t.priv, t.v))) = some (.s, true) := by
  unfold State.memOk State.legalModes State.modeOk State.mprvOk State.entriesOk State.pcOk; decide

theorem witness_MemoryStaysCanonical : invState.memOk ∧ (got (step invState) (fun _ => ())) = some () :=
  ⟨witness_invariants.1, by decide⟩

theorem witness_ModesStayLegal : invState.legalModes ∧ (got (step invState) (fun _ => ())) = some () :=
  ⟨witness_invariants.2.1, by decide⟩

theorem witness_MprvOnlyInM : invState.modeOk ∧ invState.mprvOk ∧ invState.mst.mprv = true ∧
    (got (step invState) (fun _ => ())) = some () := ⟨witness_invariants.2.1.1, witness_invariants.2.2.1, rfl, by decide⟩

theorem witness_PcStaysAligned : invState.entriesOk ∧ invState.pcOk ∧ (got (step invState) (fun _ => ())) = some () :=
  ⟨witness_invariants.2.2.2.1, witness_invariants.2.2.2.2.1, by decide⟩

/-- A write of `sstatus` in HS-mode. -/
theorem witness_MachineRegistersGuarded :
    (inMode .s false).priv ≠ .m ∧ (got (exec (.csrrwi 0 0x100 2) (inMode .s false)) (fun t => t.priv)) = some .s := by decide

/-- A write of `satp` in VS-mode. -/
theorem witness_GuestLeavesHypervisorAlone :
    (inMode .s true).modeOk ∧ (inMode .s true).v = true ∧
    (got (exec (.csrrw 0 0x180 0) (inMode .s true)) (fun t => t.v)) = some true := by
  unfold State.modeOk; decide

end Sys2Proof.Tests
end

section
/-!
SUPPORT. CSR instructions in M-mode: the rules of register reads and writes, the access check, how a CSR instruction that passes
it ends, and what `mscratch` and `mip` do under them (`11_state_machine_csrs.md` R134, R156; `40_csr_access.md` R660-R665, R670).
-/

namespace Sys2Proof.Proofs.MachineCsrs

open Sys2Proof Sys2Proof.Machine Sys2Proof.Laws

/-! ### Integer registers -/

/-- A register write changes the integer registers only. -/
theorem writeX_eq (s : State) (n : Nat) (w : Word) : ∃ v, s.writeX n w = { s with x := v } := by
  unfold State.writeX
  split
  · exact ⟨s.x, rfl⟩
  · exact ⟨_, rfl⟩

theorem rawX_of_x_eq {s t : State} (h : t.x = s.x) (n : Nat) : t.rawX n = s.rawX n := by
  unfold State.rawX; rw [h]

theorem rawX_writeX_same {s : State} {n : Nat} (h0 : n ≠ 0) (hn : n < 32) (hr : s.hasReg n = true) (w : Word) :
    (s.writeX n w).rawX n = s.toReg s.xlen w := by
  simp [State.writeX, State.rawX, h0, hr, Vector.getElem?_setIfInBounds_self_of_lt hn]

theorem rawX_writeX_other {s : State} {n k : Nat} (h : k ≠ n) (w : Word) : (s.writeX n w).rawX k = s.rawX k := by
  unfold State.writeX
  split
  · rfl
  · simp only [State.rawX, Vector.getElem?_setIfInBounds_ne (Ne.symm h)]

theorem readX_x0 (s : State) : s.readX 0 = 0 := by
  unfold State.readX
  split
  · exact maskX_zero _
  · rfl

theorem maskX_xlen_readX (s : State) (n : Nat) : maskX s.xlen (s.readX n) = s.readX n := by
  unfold State.readX
  split
  · exact maskX_idem _ _
  · exact maskX_zero _

theorem regsOk_pair {s : State} {a b : Nat} : s.regsOk [a, b] = true ↔ s.hasReg a = true ∧ s.hasReg b = true := by
  simp [State.regsOk]

theorem xlen_of_m {s : State} (hp : s.priv = .m) : s.xlen = s.mxlen := by
  unfold State.xlen State.xlenOf; rw [hp]

@[simp] theorem writeX_mxlen (s : State) (n : Nat) (w : Word) : (s.writeX n w).mxlen = s.mxlen := by simp [State.mxlen]

@[simp] theorem writeX_sImpl (s : State) (n : Nat) (w : Word) : (s.writeX n w).sImpl = s.sImpl := by
  obtain ⟨v, hv⟩ := writeX_eq s n w
  rw [hv]; rfl

/-! ### Retiring a CSR instruction -/

@[simp] theorem retireCsr_m (u s : State) (b : Bool) : (u.retireCsr s b).m = u.m := rfl
@[simp] theorem retireCsr_pend (u s : State) (b : Bool) : (u.retireCsr s b).pend = u.pend := rfl
@[simp] theorem retireCsr_wires (u s : State) (b : Bool) : (u.retireCsr s b).wires = u.wires := rfl
@[simp] theorem retireCsr_rawX (u s : State) (b : Bool) (n : Nat) : (u.retireCsr s b).rawX n = u.rawX n := rfl

theorem sansProgress_retireCsr (u s : State) (b : Bool) : (u.retireCsr s b).sansProgress = u.sansProgress := by
  unfold State.retireCsr
  cases b || s.cnt.inhibit.getLsbD 2 <;> rfl

/-- An instruction that leaves the counters to `State.retireCsr` retires. -/
theorem retired_retireCsr {u s : State} (hc : u.cnt = s.cnt) : Retired s (u.retireCsr s false) := by
  refine ⟨rfl, ?_⟩
  unfold State.retireCsr
  rw [hc]
  cases s.cnt.inhibit.getLsbD 2 <;> rfl

/-! ### The access check and the common frame -/

/-- M-mode passes the access check of a CSR that is implemented and has no condition of its own, unless it writes a read-only
number (`40_csr_access.md` R670). -/
theorem csrVerdict_m {s : State} {n : Nat} {c : Csr} {write : Bool} (hp : s.priv = .m) (hv : s.v = false)
    (hi : s.implemented c = true) (hro : csrReadOnly n = false) (hc : s.csrCondition c = .ok) :
    s.csrVerdict n c write = .ok := by
  have hl : ¬ 3 < csrLevel n := by unfold csrLevel; omega
  simp [State.csrVerdict, State.modeLevel, hi, hro, hv, hp, hc, hl]

theorem csrVerdict_mscratch {s : State} (hp : s.priv = .m) (hv : s.v = false) (write : Bool) :
    s.csrVerdict 0x340 .mscratch write = .ok := csrVerdict_m hp hv rfl rfl rfl

theorem csrVerdict_mip {s : State} (hp : s.priv = .m) (hv : s.v = false) (write : Bool) :
    s.csrVerdict 0x344 .mip write = .ok := csrVerdict_m hp hv rfl rfl rfl

/-- The state in which a CSR instruction writes: `rd` has what the CSR reads. -/
def readInto (s : State) (rd : Nat) (c : Csr) : State := s.writeX rd (maskX s.xlen (s.csrRead c))

/-- The read of the common frame is `readInto`, also where `rd` is `x0` and CSRRW does not read (`40_csr_access.md` R663). -/
theorem readInto_of_doRead {doRead : Bool} {rd : Nat} (h : doRead = true ∨ rd = 0) (s : State) (c : Csr) :
    (if doRead then s.writeX rd (maskX s.xlen (s.csrRead c)) else s) = readInto s rd c := by
  rcases h with h | h
  · rw [if_pos h]; rfl
  · subst h; exact ite_id _

theorem rawX_readInto_same {s : State} {rd : Nat} {c : Csr} (h0 : rd ≠ 0) (hn : rd < 32) (hr : s.hasReg rd = true) :
    (readInto s rd c).rawX rd = s.toReg s.xlen (maskX s.xlen (s.csrRead c)) := rawX_writeX_same h0 hn hr _

/-- A CSR instruction with V=0 that passes the check and writes: it reads, then writes, then retires. -/
theorem csrInstr_write {word : IWord} {rd src n : Nat} {doRead : Bool} {newval : Word → Word} {s u : State} {c : Csr}
    (hr : s.regsOk [rd, src] = true) (hn : csrOf n = some c) (hv : s.v = false) (hok : s.csrVerdict n c true = .ok)
    (hread : doRead = true ∨ rd = 0)
    (hu : (readInto s rd c).csrWrite c (maskX s.xlen (newval (s.csrStored c))) = some u) :
    csrInstr word rd src n doRead true newval s = .next (u.retireCsr s c.isInstret) := by
  have hred : s.redirect c = c := by simp [State.redirect, hv]
  simp [csrInstr, hr, hn, hok, hred, readInto_of_doRead hread, hu]

/-- A CSR instruction with V=0 that passes the check and does not write: it reads and retires. -/
theorem csrInstr_readOnly {word : IWord} {rd src n : Nat} {doRead : Bool} {newval : Word → Word} {s : State} {c : Csr}
    (hr : s.regsOk [rd, src] = true) (hn : csrOf n = some c) (hv : s.v = false) (hok : s.csrVerdict n c false = .ok)
    (hread : doRead = true ∨ rd = 0) :
    csrInstr word rd src n doRead false newval s = .next ((readInto s rd c).retireCsr s false) := by
  have hred : s.redirect c = c := by simp [State.redirect, hv]
  simp [csrInstr, hr, hn, hok, hred, readInto_of_doRead hread]

theorem exec_csrrw (rd csr rs1 : Nat) (s : State) :
    exec (.csrrw rd csr rs1) s =
      csrInstr (encode (.csrrw rd csr rs1)) rd rs1 csr (decide (rd ≠ 0)) true (fun _ => s.readX rs1) s := rfl

theorem exec_csrrs (rd csr rs1 : Nat) (s : State) :
    exec (.csrrs rd csr rs1) s =
      csrInstr (encode (.csrrs rd csr rs1)) rd rs1 csr true (decide (rs1 ≠ 0)) (fun old => old ||| s.readX rs1) s := rfl

theorem exec_csrrc (rd csr rs1 : Nat) (s : State) :
    exec (.csrrc rd csr rs1) s =
      csrInstr (encode (.csrrc rd csr rs1)) rd rs1 csr true (decide (rs1 ≠ 0)) (fun old => old &&& ~~~s.readX rs1) s := rfl

/-- CSRRW reads unless `rd` is `x0`. -/
theorem csrrw_reads (rd : Nat) : decide (rd ≠ 0) = true ∨ rd = 0 := by
  by_cases h : rd = 0
  · exact .inr h
  · exact .inl (decide_eq_true h)

/-! ### `mscratch` (`11_state_machine_csrs.md` R156) -/

/-- The state in which `mscratch` holds a value. -/
def withScratch (s : State) (w : Word) : State := { s with m := { s.m with scratch := w } }

theorem csrWrite_mscratch (s : State) (w : Word) : s.csrWrite .mscratch w = some (withScratch s (maskX s.mxlen w)) := rfl

/-- CSRRW of `mscratch` in M-mode: the old value into `rd`, the whole of the new one into the register. -/
theorem exec_csrrw_mscratch {s : State} {rd rs1 : Nat} (hr : s.regsOk [rd, rs1] = true) (hp : s.priv = .m) (hv : s.v = false) :
    exec (.csrrw rd 0x340 rs1) s =
      .next ((withScratch (readInto s rd .mscratch) (s.readX rs1)).retireCsr s false) := by
  have hw : (readInto s rd .mscratch).csrWrite .mscratch (maskX s.xlen (s.readX rs1)) =
      some (withScratch (readInto s rd .mscratch) (s.readX rs1)) := by
    rw [csrWrite_mscratch, readInto, writeX_mxlen, ← xlen_of_m hp, maskX_xlen_readX, maskX_xlen_readX]
  rw [exec_csrrw]
  exact csrInstr_write hr rfl hv (csrVerdict_mscratch hp hv true) (csrrw_reads rd) hw

/-- Settles O42: the outcome is known (`exec_csrrw_mscratch`); each clause is a rule of the register write in it. -/
theorem mscratchHolds : Obligations.MscratchHolds := by
  intro s rd rs1 hrd hr hp hv
  obtain ⟨hasRd, -⟩ := regsOk_pair.mp hr
  refine ⟨_, exec_csrrw_mscratch hr hp hv, retired_retireCsr (writeX_cnt s rd _), rfl, ?_, fun n _ hne => ?_, ?_⟩
  · by_cases h0 : rd = 0
    · subst h0; rfl
    · rw [if_neg h0, ← xlen_of_m hp]
      exact rawX_readInto_same h0 hrd hasRd
  · exact rawX_writeX_other hne _
  · obtain ⟨v, hx⟩ : ∃ v, readInto s rd .mscratch = { s with x := v } := writeX_eq s rd _
    rw [sansProgress_retireCsr, retireCsr_m, hx]
    rfl

/-! ### Low bits of words -/

theorem getLsbD_bitAt (k j : Nat) (b : Bool) (hj : j < 64) : (bitAt k b).getLsbD j = (b && decide (k = j)) := by
  cases b
  · simp [bitAt]
  · simp only [bitAt, if_true, BitVec.getLsbD_ofNat, Nat.testBit_two_pow, decide_eq_true hj, Bool.true_and]

theorem getLsbD_maskX {k : Nat} (hk : k < 32) (x : Xlen) (w : Word) : (maskX x w).getLsbD k = w.getLsbD k := by
  cases x
  · simp [maskX, hk, show k < 64 by omega]
  · rfl

theorem getLsbD_toReg {k : Nat} (hk : k < 32) (s : State) (x : Xlen) (w : Word) :
    (s.toReg x w).getLsbD k = w.getLsbD k := by
  unfold State.toReg extendTo
  cases s.cfg.mxlMax
  · exact getLsbD_maskX hk .x32 w
  · cases x
    · simp only [sextX, BitVec.getLsbD_signExtend, BitVec.getLsbD_setWidth, hk, show k < 64 by omega, decide_true,
        Bool.true_and, if_true]
    · rfl

/-! ### `mip.SEIP` (`11_state_machine_csrs.md` R134) -/

theorem getLsbD_hip_9 (s : State) : s.hip.getLsbD 9 = false := by
  unfold State.hip
  split
  · simp only [BitVec.getLsbD_or, getLsbD_bitAt _ 9 _ (by decide)]
    simp
  · rfl

theorem getLsbD_platMask_9 (s : State) : s.platMask.getLsbD 9 = false := by
  rw [State.platMask, getLsbD_maskX (by decide)]
  simp

theorem getLsbD_sImpl_9 {s : State} (hS : s.hasS = true) (hi : s.cfg.mipImpl.getLsbD 9 = true) :
    s.sImpl.getLsbD 9 = true := by
  simp [State.sImpl, hS, hi]

/-- Where the bit is implemented, `mip.SEIP` reads as the software-writable bit or the signal. -/
theorem getLsbD_mip_9 {s : State} (hS : s.hasS = true) (hi : s.cfg.mipImpl.getLsbD 9 = true) :
    s.mip.getLsbD 9 = (s.pend.seipB || s.wires.seip) := by
  simp only [State.mip, BitVec.getLsbD_or, BitVec.getLsbD_and, getLsbD_bitAt _ 9 _ (by decide), getLsbD_hip_9,
    getLsbD_platMask_9, getLsbD_sImpl_9 hS hi]
  simp

/-- What a read-modify-write of `mip` starts from has the software-writable bit alone. -/
theorem getLsbD_csrStored_mip_9 {s : State} (hS : s.hasS = true) (hi : s.cfg.mipImpl.getLsbD 9 = true) :
    (s.csrStored .mip).getLsbD 9 = s.pend.seipB :=
  (getLsbD_mip_9 (s := { s with wires := { s.wires with seip := false, plat := 0 } }) hS hi).trans (Bool.or_false _)

/-- A write of `mip` sets the software-writable bit and leaves the signals and the integer registers alone. -/
theorem csrWrite_mip {s : State} (h : s.sImpl.getLsbD 9 = true) (w : Word) :
    ∃ u, s.csrWrite .mip w = some u ∧ u.pend.seipB = w.getLsbD 9 ∧ u.wires = s.wires ∧ u.x = s.x :=
  ⟨_, rfl, if_pos h, rfl, rfl⟩

/-- In M-mode with S-mode and SEIP implemented, and the registers existing. -/
structure SeipReady (s : State) (rd rs1 : Nat) : Prop where
  priv : s.priv = .m
  v : s.v = false
  hasS : s.hasS = true
  impl : s.cfg.mipImpl.getLsbD 9 = true
  rd_lt : rd < 32
  regs : s.regsOk [rd, rs1] = true

/-- An instruction ends with what `mip.SEIP` read in `rd`, the software-writable bit `b`, and the signals as they were. -/
def LeavesSeip (s : State) (rd : Nat) (b : Bool) (o : Out) : Prop :=
  ∃ t, o = .next t ∧ (0 < rd → (t.rawX rd).getLsbD 9 = (s.pend.seipB || s.wires.seip)) ∧ t.pend.seipB = b ∧ t.wires = s.wires

theorem getLsbD_rawX_readInto_mip {s : State} {rd rs1 : Nat} (h : SeipReady s rd rs1) (h0 : 0 < rd) :
    ((readInto s rd .mip).rawX rd).getLsbD 9 = (s.pend.seipB || s.wires.seip) := by
  have hasRd := (regsOk_pair.mp h.regs).1
  rw [rawX_readInto_same (by omega) h.rd_lt hasRd, getLsbD_toReg (by decide), getLsbD_maskX (by decide)]
  exact getLsbD_mip_9 h.hasS h.impl

/-- A CSR instruction that writes `mip` computes the new bit from what is stored. -/
theorem leavesSeip_write {s : State} {word : IWord} {rd rs1 : Nat} {doRead : Bool} {newval : Word → Word}
    (h : SeipReady s rd rs1) (hread : doRead = true ∨ rd = 0) :
    LeavesSeip s rd ((newval (s.csrStored .mip)).getLsbD 9) (csrInstr word rd rs1 0x344 doRead true newval s) := by
  have himpl : (readInto s rd .mip).sImpl.getLsbD 9 = true := by
    rw [readInto, writeX_sImpl]; exact getLsbD_sImpl_9 h.hasS h.impl
  obtain ⟨u, hu, hb, hwires, hx⟩ := csrWrite_mip himpl (maskX s.xlen (newval (s.csrStored .mip)))
  refine ⟨_, csrInstr_write h.regs rfl h.v (csrVerdict_mip h.priv h.v true) hread hu, fun h0 => ?_, ?_, ?_⟩
  · rw [retireCsr_rawX, rawX_of_x_eq hx]
    exact getLsbD_rawX_readInto_mip h h0
  · rw [retireCsr_pend, hb, getLsbD_maskX (by decide)]
  · rw [retireCsr_wires, hwires, readInto, writeX_wires]

/-- A CSR instruction that does not write `mip` leaves the bit. -/
theorem leavesSeip_readOnly {s : State} {word : IWord} {rd rs1 : Nat} {newval : Word → Word} (h : SeipReady s rd rs1) :
    LeavesSeip s rd s.pend.seipB (csrInstr word rd rs1 0x344 true false newval s) := by
  refine ⟨_, csrInstr_readOnly h.regs rfl h.v (csrVerdict_mip h.priv h.v false) (.inl rfl), fun h0 => ?_, ?_, ?_⟩
  · rw [retireCsr_rawX]; exact getLsbD_rawX_readInto_mip h h0
  · rw [retireCsr_pend, readInto, writeX_pend]
  · rw [retireCsr_wires, readInto, writeX_wires]

theorem leavesSeip_csrrw {s : State} {rd rs1 : Nat} (h : SeipReady s rd rs1) :
    LeavesSeip s rd ((s.readX rs1).getLsbD 9) (exec (.csrrw rd 0x344 rs1) s) := by
  rw [exec_csrrw]
  exact leavesSeip_write (newval := fun _ => s.readX rs1) h (csrrw_reads rd)

/-- CSRRS and CSRRC: with `x0` no write, and the new value of the bit is the old one; otherwise what the operation makes of the
stored bit. -/
theorem leavesSeip_modify {s : State} {word : IWord} {rd rs1 : Nat} {newval : Word → Word} {b : Bool} (h : SeipReady s rd rs1)
    (hx0 : rs1 = 0 → b = s.pend.seipB) (hnew : (newval (s.csrStored .mip)).getLsbD 9 = b) :
    LeavesSeip s rd b (csrInstr word rd rs1 0x344 true (decide (rs1 ≠ 0)) newval s) := by
  by_cases h0 : rs1 = 0
  · rw [hx0 h0, decide_eq_false (not_not_intro h0)]
    exact leavesSeip_readOnly h
  · rw [← hnew, decide_eq_true h0]
    exact leavesSeip_write h (.inl rfl)

theorem leavesSeip_csrrs {s : State} {rd rs1 : Nat} (h : SeipReady s rd rs1) :
    LeavesSeip s rd (s.pend.seipB || (s.readX rs1).getLsbD 9) (exec (.csrrs rd 0x344 rs1) s) := by
  rw [exec_csrrs]
  refine leavesSeip_modify h (fun h0 => ?_) ?_
  · simp [h0, readX_x0]
  · rw [BitVec.getLsbD_or, getLsbD_csrStored_mip_9 h.hasS h.impl]

theorem leavesSeip_csrrc {s : State} {rd rs1 : Nat} (h : SeipReady s rd rs1) :
    LeavesSeip s rd (s.pend.seipB && !(s.readX rs1).getLsbD 9) (exec (.csrrc rd 0x344 rs1) s) := by
  rw [exec_csrrc]
  refine leavesSeip_modify h (fun h0 => ?_) ?_
  · simp [h0, readX_x0]
  · rw [BitVec.getLsbD_and, BitVec.getLsbD_not, getLsbD_csrStored_mip_9 h.hasS h.impl, decide_eq_true (by decide),
      Bool.true_and]

/-- Settles O48: one rule for each of the three instructions, all from what a read-modify-write of `mip` starts from. -/
theorem seipReadModifyWrite : Obligations.SeipReadModifyWrite := by
  intro s rd rs1 hp hv hS hi hrd hr
  have h : SeipReady s rd rs1 := ⟨hp, hv, hS, hi, hrd, hr⟩
  refine ⟨getLsbD_mip_9 hS hi, fun f hf => ?_⟩
  simp only [List.mem_cons, List.not_mem_nil, or_false] at hf
  obtain rfl | rfl | rfl := hf
  · exact leavesSeip_csrrw h
  · exact leavesSeip_csrrs h
  · exact leavesSeip_csrrc h

end Sys2Proof.Proofs.MachineCsrs
end

section
/-!
SUPPORT. Who may execute the fences of the hypervisor extension: the check of each form, and how a form ends by its check
(`43_hypervisor_instructions.md` R793, R796, R798).
-/

namespace Sys2Proof.Proofs.HypervisorFences

open Sys2Proof Sys2Proof.Machine Sys2Proof.Laws

/-! ### The check of HFENCE (`43_hypervisor_instructions.md` R793) -/

theorem hfenceVerdict_noH {s : State} (hH : s.hasH = false) (g : Bool) : s.hfenceVerdict g = .illegal := by
  simp [State.hfenceVerdict, hH]

theorem hfenceVerdict_virtual {s : State} (hH : s.hasH = true) (hv : s.v = true) (g : Bool) :
    s.hfenceVerdict g = .virtual := by
  simp [State.hfenceVerdict, hH, hv]

/-- In U-mode with V=0 the check fails whether or not the hypervisor extension is there. -/
theorem hfenceVerdict_u {s : State} (hv : s.v = false) (hp : s.priv = .u) (g : Bool) : s.hfenceVerdict g = .illegal := by
  simp [State.hfenceVerdict, hv, hp]

theorem hfenceVerdict_tvm {s : State} {g : Bool} (hv : s.v = false) (hp : s.priv = .s) (hg : g = true)
    (htvm : s.mst.tvm = true) : s.hfenceVerdict g = .illegal := by
  simp [State.hfenceVerdict, hv, hp, hg, htvm]

theorem hfenceVerdict_m {s : State} (hH : s.hasH = true) (hv : s.v = false) (hp : s.priv = .m) (g : Bool) :
    s.hfenceVerdict g = .ok := by
  simp [State.hfenceVerdict, hH, hv, hp]

theorem hfenceVerdict_hs {s : State} {g : Bool} (hH : s.hasH = true) (hv : s.v = false) (hp : s.priv = .s)
    (htvm : g = true → s.mst.tvm = false) : s.hfenceVerdict g = .ok := by
  simpa [State.hfenceVerdict, hH, hv, hp] using htvm

/-! ### The check of a form, HFENCE or HINVAL (`43_hypervisor_instructions.md` R796, R798) -/

/-- The check that a form's instruction makes (`exec_hypervisorFence`). -/
def fenceVerdict (s : State) (f : FenceForm) : Verdict :=
  if f.svinval then s.hinvalVerdict f.gStage else s.hfenceVerdict f.gStage

theorem fenceVerdict_noSvinval {s : State} {f : FenceForm} (hf : f.svinval = true) (hs : s.cfg.svinval = false) :
    fenceVerdict s f = .illegal := by
  simp [fenceVerdict, State.hinvalVerdict, hf, hs]

theorem fenceVerdict_of_svinval {s : State} {f : FenceForm} (h : f.svinval = true → s.cfg.svinval = true) :
    fenceVerdict s f = s.hfenceVerdict f.gStage := by
  cases hf : f.svinval with
  | false => simp [fenceVerdict, hf]
  | true => simp [fenceVerdict, State.hinvalVerdict, hf, h hf]

/-- What is illegal as an HFENCE is illegal as an HINVAL, with Svinval or without. -/
theorem fenceVerdict_illegal {s : State} {f : FenceForm} (h : s.hfenceVerdict f.gStage = .illegal) :
    fenceVerdict s f = .illegal := by
  by_cases hs : f.svinval = true → s.cfg.svinval = true
  · rw [fenceVerdict_of_svinval hs, h]
  · obtain ⟨hf, hc⟩ := Classical.not_imp.mp hs
    exact fenceVerdict_noSvinval hf (Bool.eq_false_iff.mpr hc)

/-! ### How a form ends -/

theorem exec_hfenceVvma (rs1 rs2 : Nat) (s : State) :
    exec (.hfenceVvma rs1 rs2) s = execHfenceVvma rs1 rs2 s := rfl

theorem exec_hfenceGvma (rs1 rs2 : Nat) (s : State) :
    exec (.hfenceGvma rs1 rs2) s = execHfenceGvma rs1 rs2 s := rfl

theorem exec_hinvalVvma (rs1 rs2 : Nat) (s : State) :
    exec (.hinvalVvma rs1 rs2) s = execHinvalVvma rs1 rs2 s := rfl

theorem exec_hinvalGvma (rs1 rs2 : Nat) (s : State) :
    exec (.hinvalGvma rs1 rs2) s = execHinvalGvma rs1 rs2 s := rfl

theorem retired_hfence (s : State) (p : Option Scope) : Retired s (s.hfence p).retire := by
  obtain ⟨x, hx⟩ := hfence_caches s p
  rw [hx]; exact (retire_caches s x).1

theorem retired_sinval (s : State) (p : Option Scope) : Retired s (s.sinval p).retire := by
  obtain ⟨x, hx⟩ := sinval_caches s p
  rw [hx]; exact (retire_caches s x).1

/-- Every form is an effect that retires, behind the form's check. -/
theorem exec_hypervisorFence {rs1 rs2 : Nat} {f : FenceForm} (hf : f ∈ hypervisorFences rs1 rs2) (s : State) :
    ∃ effect : State → State, Retired s (effect s) ∧
      exec f.instr s = s.guarded (fenceVerdict s f) (encode f.instr) fun t => .next (effect t) := by
  simp only [hypervisorFences, List.mem_cons, List.not_mem_nil, or_false] at hf
  obtain rfl | rfl | rfl | rfl := hf
  · exact ⟨fun t => (t.hfence (t.vsScope rs1 rs2)).retire, retired_hfence s _, exec_hfenceVvma rs1 rs2 s⟩
  · exact ⟨fun t => (t.hfence (t.gScope rs1 rs2)).retire, retired_hfence s _, exec_hfenceGvma rs1 rs2 s⟩
  · exact ⟨fun t => (t.sinval (t.vsScope rs1 rs2)).retire, retired_sinval s _, exec_hinvalVvma rs1 rs2 s⟩
  · exact ⟨fun t => (t.sinval (t.gScope rs1 rs2)).retire, retired_sinval s _, exec_hinvalGvma rs1 rs2 s⟩

section
variable {rs1 rs2 : Nat} {f : FenceForm} {s : State} (hf : f ∈ hypervisorFences rs1 rs2)
include hf

theorem raisesIllegal_of_verdict (h : fenceVerdict s f = .illegal) : RaisesIllegal f.instr s := by
  obtain ⟨effect, -, hexec⟩ := exec_hypervisorFence hf s
  rw [RaisesIllegal, hexec, h]; rfl

theorem raisesVirtual_of_verdict (h : fenceVerdict s f = .virtual) : RaisesVirtual f.instr s := by
  obtain ⟨effect, -, hexec⟩ := exec_hypervisorFence hf s
  rw [RaisesVirtual, hexec, h]; rfl

theorem retires_of_verdict (h : fenceVerdict s f = .ok) : ∃ t, exec f.instr s = .next t ∧ Retired s t := by
  obtain ⟨effect, hret, hexec⟩ := exec_hypervisorFence hf s
  refine ⟨effect s, ?_, hret⟩
  rw [hexec, h]; rfl

end

/-- Settles O32: the check of the form decides how it ends, and each clause is one value of the check. -/
theorem hfencePermissions : Obligations.HfencePermissions := by
  intro s rs1 rs2 f hf
  refine ⟨fun hH => ?noH, fun hi hs => ?noSvinval, fun hv hp => ?u, fun hv hp hg htvm => ?tvm,
    fun hs hH hv => ?inGuest, fun hs hH hv hmode => ?permitted⟩
  case noH => exact raisesIllegal_of_verdict hf (fenceVerdict_illegal (hfenceVerdict_noH hH _))
  case noSvinval => exact raisesIllegal_of_verdict hf (fenceVerdict_noSvinval hi hs)
  case u => exact raisesIllegal_of_verdict hf (fenceVerdict_illegal (hfenceVerdict_u hv hp _))
  case tvm => exact raisesIllegal_of_verdict hf (fenceVerdict_illegal (hfenceVerdict_tvm hv hp hg htvm))
  case inGuest =>
    exact raisesVirtual_of_verdict hf ((fenceVerdict_of_svinval hs).trans (hfenceVerdict_virtual hH hv _))
  case permitted =>
    refine retires_of_verdict hf ((fenceVerdict_of_svinval hs).trans ?_)
    obtain hm | ⟨hp, htvm⟩ := hmode
    · exact hfenceVerdict_m hH hv hm _
    · exact hfenceVerdict_hs hH hv hp htvm

end Sys2Proof.Proofs.HypervisorFences
end

section
/-!
SUPPORT. Decoding and encoding are inverse to each other (`30_encoding.md` R620-R629).
-/

namespace Sys2Proof.Proofs.Encoding

open Sys2Proof Sys2Proof.Machine Sys2Proof.Laws

/-! ### From the instruction to the word and back -/

/-- A word of another `funct3` than the two R-type groups is decoded by that field alone. -/
theorem decodeNat_csr {c r1 f3 d : Nat} {i : Instr} (h : c < 4096 ∧ r1 < 32 ∧ d < 32)
    (hi : (f3, i) ∈ [(1, .csrrw d c r1), (2, .csrrs d c r1), (3, .csrrc d c r1), (5, .csrrwi d c r1), (6, .csrrsi d c r1),
      (7, Instr.csrrci d c r1)]) : decodeNat (encI c r1 f3 d) = .ok i := by
  have hf : f3 < 8 := by simp at hi; omega
  obtain ⟨h1, h2, h3, h4, h5, h6⟩ := encI_fields (f3 := f3) ⟨h.1, h.2.1, hf, h.2.2⟩
  simp only [decodeNat, h1, h2, h3, h4, h5, h6, ne_eq, not_true_eq_false, if_false]
  simp only [List.mem_cons, Prod.mk.injEq, List.not_mem_nil, or_false] at hi
  obtain ⟨rfl, rfl⟩ | ⟨rfl, rfl⟩ | ⟨rfl, rfl⟩ | ⟨rfl, rfl⟩ | ⟨rfl, rfl⟩ | ⟨rfl, rfl⟩ := hi <;> rfl

theorem decodeNat_priv_ok {f7 r2 r1 : Nat} {i : Instr} (h7 : f7 < 128) (h2 : r2 < 32) (h1 : r1 < 32)
    (h : decodePriv f7 r2 r1 0 = .ok i) : decodeNat (encR f7 r2 r1 0 0) = .ok i :=
  (decodeNat_priv ⟨h7, h2, h1, by decide⟩).trans h

theorem decodeNat_hls_ok {f7 r2 r1 d : Nat} {i : Instr} (h7 : f7 < 128) (h2 : r2 < 32) (h1 : r1 < 32) (hd : d < 32)
    (h : decodeHls f7 r2 r1 d = .ok i) : decodeNat (encR f7 r2 r1 4 d) = .ok i :=
  (decodeNat_hls ⟨h7, h2, h1, hd⟩).trans h

/-- The number of a well-formed instruction decodes to it: one row of the table after the other. -/
theorem decodeNat_encodeNat (i : Instr) (h : i.wellFormed = true) : decodeNat (encodeNat i) = .ok i := by
  cases i
  case ecall | ebreak | sret | mret | wfi | sfenceWInval | sfenceInvalIr =>
    rw [encodeNat]
    exact decodeNat_priv_ok (by decide) (by decide) (by decide) rfl
  case sfenceVma a b | sinvalVma a b | hfenceVvma a b | hfenceGvma a b | hinvalVvma a b | hinvalGvma a b =>
    exact decodeNat_priv_ok (by decide) (wf_two h).2 (wf_two h).1 rfl
  case hlvB a b | hlvBu a b | hlvH a b | hlvHu a b | hlvW a b | hlvWu a b | hlvD a b | hlvxHu a b | hlvxWu a b =>
    exact decodeNat_hls_ok (by decide) (by decide) (wf_two h).2 (wf_two h).1 rfl
  case hsvB a b | hsvH a b | hsvW a b | hsvD a b =>
    exact decodeNat_hls_ok (by decide) (wf_two h).1 (wf_two h).2 (by decide) rfl
  case csrrw a c b | csrrs a c b | csrrc a c b | csrrwi a c b | csrrsi a c b | csrrci a c b =>
    obtain ⟨ha, hc, hb⟩ := wf_csr h
    exact decodeNat_csr ⟨hc, hb, ha⟩ (by simp)

theorem toNat_encode {i : Instr} (h : i.wellFormed = true) : (encode i).toNat = encodeNat i := by
  rw [encode, BitVec.toNat_ofNat, Nat.mod_eq_of_lt (encodeNat_lt i h)]

theorem decodeWord_encode {i : Instr} (h : i.wellFormed = true) : decodeWord (encode i) = .ok i := by
  rw [decodeWord, toNat_encode h, decodeNat_encodeNat i h]

/-- The bytes of a word decode as the word does. -/
theorem decodeBytes_bytesOfWord {w : IWord} {i : Instr} (h : decodeWord w = .ok i) (rest : List Byte) :
    decodeBytes (bytesOfWord w ++ rest) = .ok (i, rest) := by
  simp [decodeBytes, bytesOfWord, wordOfBytes_bytes, h]

/-- Settles O1: the fields of the encoded word are the operands, and each row's fields select its constructor. -/
theorem decodeOfEncode : Obligations.DecodeOfEncode := fun _ rest h =>
  decodeBytes_bytesOfWord (decodeWord_encode h) rest

/-! ### From the word to the instruction and back -/

/-- What a group of the decoder answers is well formed and encoded by the word of its fields. -/
def Reads (w : Nat) (i : Instr) : Prop := i.wellFormed = true ∧ encodeNat i = w

/-- The two ways a conditional can have a value. -/
theorem ite_eq_cases {p : Prop} [Decidable p] {α : Type} {a b x : α} (h : (if p then a else b) = x) :
    (p ∧ a = x) ∨ (¬p ∧ b = x) := by
  by_cases hp : p
  · exact .inl ⟨hp, by rwa [if_pos hp] at h⟩
  · exact .inr ⟨hp, by rwa [if_neg hp] at h⟩

theorem reads_of_decodePriv {f7 r2 r1 d : Nat} {i : Instr} (h2 : r2 < 32) (h1 : r1 < 32)
    (h : decodePriv f7 r2 r1 d = .ok i) : Reads (encR f7 r2 r1 0 d) i := by
  unfold decodePriv at h
  repeat' replace h := ite_eq_cases h; obtain ⟨_, h⟩ | ⟨_, h⟩ := h
  all_goals cases h
  all_goals simp_all [Reads, Instr.wellFormed, fits5, encodeNat]

theorem reads_of_decodeHls {f7 r2 r1 d : Nat} {i : Instr} (h2 : r2 < 32) (h1 : r1 < 32) (hd : d < 32)
    (h : decodeHls f7 r2 r1 d = .ok i) : Reads (encR f7 r2 r1 4 d) i := by
  unfold decodeHls at h
  repeat' split at h
  all_goals cases h
  all_goals simp_all [Reads, Instr.wellFormed, fits5, encodeNat]

/-- A number of 32 bits that decodes is the number of what it decodes to. -/
theorem reads_of_decodeNat {w : Nat} {i : Instr} (hw : w < 2 ^ 32) (h : decodeNat w = .ok i) : Reads w i := by
  have h2 : fieldRs2 w < 32 := Nat.mod_lt _ (by decide)
  have h1 : fieldRs1 w < 32 := Nat.mod_lt _ (by decide)
  have hd : fieldRd w < 32 := Nat.mod_lt _ (by decide)
  have hc : fieldCsr w < 4096 := Nat.mod_lt _ (by decide)
  unfold decodeNat at h
  split at h
  · cases h
  · split at h
    · cases h
    · rename_i ho
      have hR := word_R w hw (Decidable.not_not.mp ho)
      have hI := word_I w hw (Decidable.not_not.mp ho)
      dsimp only at h
      split at h
      case h_1 e => rw [e] at hR; rw [hR]; exact reads_of_decodePriv h2 h1 h
      case h_5 e => rw [e] at hR; rw [hR]; exact reads_of_decodeHls h2 h1 hd h
      case h_9 => cases h
      all_goals
        rename_i e
        rw [e] at hI
        cases h
        exact ⟨by simp [Instr.wellFormed, fits5, fits12, h1, hd, hc], hI.symm⟩

/-- Settles O2: a decoded word is the word of its fields, and each branch of the decoder fixes the fields of its row. -/
theorem encodeOfDecode : Obligations.EncodeOfDecode := by
  intro w i h
  obtain ⟨hwf, he⟩ := reads_of_decodeNat w.isLt h
  exact ⟨hwf, by rw [encode, he, BitVec.ofNat_toNat, BitVec.setWidth_eq]⟩

/-- Settles O3: each word is the encoding of its instruction, and so decodes to it. -/
theorem sampleWords : Obligations.SampleWords := by
  exact ⟨decodeWord_encode (i := .ecall) rfl, decodeWord_encode (i := .ebreak) rfl, decodeWord_encode (i := .mret) rfl,
    decodeWord_encode (i := .sret) rfl, decodeWord_encode (i := .wfi) rfl, decodeWord_encode (i := .sfenceVma 10 11) rfl,
    decodeWord_encode (i := .sfenceInvalIr) rfl, decodeWord_encode (i := .hfenceGvma 10 11) rfl,
    decodeWord_encode (i := .hinvalVvma 10 11) rfl, decodeWord_encode (i := .hlvB 6 5) rfl,
    decodeWord_encode (i := .hlvxWu 6 5) rfl, decodeWord_encode (i := .hsvD 6 5) rfl,
    decodeWord_encode (i := .csrrw 0 0x305 5) rfl, decodeWord_encode (i := .csrrsi 0 0x300 8) rfl⟩

end Sys2Proof.Proofs.Encoding
end

section
/-!
SUPPORT. How an instruction can end, said once for all instructions: what the invariants and the frames of whole groups of
instructions are derived from.
-/

namespace Sys2Proof.Proofs.Endings

open Sys2Proof Sys2Proof.Machine Sys2Proof.Laws Sys2Proof.Proofs.MachineCsrs Sys2Proof.Proofs.HypervisorFences

/-! ### What each instruction is -/

section
variable (a b : Nat) (s : State)

theorem exec_mret : exec .mret s =
    s.guarded s.mretVerdict (encode .mret) fun t => .next t.countInstret.returnM.maybeClearResv := rfl
theorem exec_sret : exec .sret s = s.guarded s.sretVerdict (encode .sret) fun t =>
    .next (if t.v then t.countInstret.returnVs else t.countInstret.returnS).maybeClearResv := rfl
theorem exec_wfi : exec .wfi s = execWfi s := rfl
theorem exec_sfenceVma : exec (.sfenceVma a b) s =
    s.guarded (s.withRegs [a, b] s.sfenceVerdict) (encode (.sfenceVma a b)) fun t =>
      .next (t.sfence (t.sfenceScope a b)).retire := rfl
theorem exec_sinvalVma : exec (.sinvalVma a b) s =
    s.guarded (s.withRegs [a, b] s.sinvalVerdict) (encode (.sinvalVma a b)) fun t =>
      .next (t.sinval (t.sfenceScope a b)).retire := rfl
theorem exec_sfenceWInval : exec .sfenceWInval s =
    s.guarded s.svinvalVerdict (encode .sfenceWInval) fun t => .next t.orderStores.retire := rfl
theorem exec_sfenceInvalIr : exec .sfenceInvalIr s =
    s.guarded s.svinvalVerdict (encode .sfenceInvalIr) fun t => .next t.complete.retire := rfl
theorem exec_hlvB : exec (.hlvB a b) s = hlvOp (encode (.hlvB a b)) false a b 1 .load (signed 8) s := rfl
theorem exec_hlvBu : exec (.hlvBu a b) s = hlvOp (encode (.hlvBu a b)) false a b 1 .load unsigned s := rfl
theorem exec_hlvH : exec (.hlvH a b) s = hlvOp (encode (.hlvH a b)) false a b 2 .load (signed 16) s := rfl
theorem exec_hlvHu : exec (.hlvHu a b) s = hlvOp (encode (.hlvHu a b)) false a b 2 .load unsigned s := rfl
theorem exec_hlvW : exec (.hlvW a b) s = hlvOp (encode (.hlvW a b)) false a b 4 .load (signed 32) s := rfl
theorem exec_hlvWu : exec (.hlvWu a b) s = hlvOp (encode (.hlvWu a b)) true a b 4 .load unsigned s := rfl
theorem exec_hlvD : exec (.hlvD a b) s = hlvOp (encode (.hlvD a b)) true a b 8 .load unsigned s := rfl
theorem exec_hlvxHu : exec (.hlvxHu a b) s = hlvOp (encode (.hlvxHu a b)) false a b 2 .hlvx unsigned s := rfl
theorem exec_hlvxWu : exec (.hlvxWu a b) s = hlvOp (encode (.hlvxWu a b)) false a b 4 .hlvx unsigned s := rfl
theorem exec_hsvB : exec (.hsvB a b) s = hsvOp (encode (.hsvB a b)) false a b 1 s := rfl
theorem exec_hsvH : exec (.hsvH a b) s = hsvOp (encode (.hsvH a b)) false a b 2 s := rfl
theorem exec_hsvW : exec (.hsvW a b) s = hsvOp (encode (.hsvW a b)) false a b 4 s := rfl
theorem exec_hsvD : exec (.hsvD a b) s = hsvOp (encode (.hsvD a b)) true a b 8 s := rfl
theorem exec_csrrwi (c : Nat) : exec (.csrrwi a c b) s =
    csrInstr (encode (.csrrwi a c b)) a 0 c (decide (a ≠ 0)) true (fun _ => uimmWord b) s := rfl
theorem exec_csrrsi (c : Nat) : exec (.csrrsi a c b) s =
    csrInstr (encode (.csrrsi a c b)) a 0 c true (decide (b ≠ 0)) (fun old => old ||| uimmWord b) s := rfl
theorem exec_csrrci (c : Nat) : exec (.csrrci a c b) s =
    csrInstr (encode (.csrrci a c b)) a 0 c true (decide (b ≠ 0)) (fun old => old &&& ~~~uimmWord b) s := rfl

end

/-! ### What an instruction may do before it traps or retires -/

/-- All but the memory system, the integer registers, the stall of WFI and the one that the schedule asks for. -/
def sansAccess (s : State) : State := { s.sansMemory with x := Vector.replicate 32 0, wait := none, stallHint := 0 }

/-- Only these change, and memory keeps its canonical form. -/
structure Near (s u : State) : Prop where
  frame : sansAccess u = sansAccess s
  mem : s.memOk → u.memOk

theorem Near.refl (s : State) : Near s s := ⟨rfl, id⟩

theorem Near.trans {s t u : State} (h : Near s t) (k : Near t u) : Near s u := ⟨k.frame.trans h.frame, k.mem ∘ h.mem⟩

theorem Near.of_quiet {s u : State} (h : Quiet s u) : Near s u :=
  ⟨congrArg (fun t : State => { t with x := Vector.replicate 32 0, wait := none, stallHint := 0 }) h.1, h.2⟩

theorem near_writeX (s : State) (n : Nat) (w : Word) : Near s (s.writeX n w) := by
  unfold State.writeX; split
  · exact .refl s
  · exact ⟨rfl, id⟩

theorem near_xlat (s : State) (x : Xlat) : Near s { s with xlat := x } := ⟨rfl, id⟩

theorem near_stall (s : State) (w : Option Wait) (n : Nat) : Near s { s with wait := w, stallHint := n } := ⟨rfl, id⟩

section
variable {s u : State} (hu : Near s u)
include hu

theorem Near.pc : u.pc = s.pc := (congrArg State.pc hu.frame :)
theorem Near.priv : u.priv = s.priv := (congrArg State.priv hu.frame :)
theorem Near.v : u.v = s.v := (congrArg State.v hu.frame :)
theorem Near.misa : u.misa = s.misa := (congrArg State.misa hu.frame :)
theorem Near.mst : u.mst = s.mst := (congrArg State.mst hu.frame :)
theorem Near.vst : u.vst = s.vst := (congrArg State.vst hu.frame :)
theorem Near.hst : u.hst = s.hst := (congrArg State.hst hu.frame :)
theorem Near.m : u.m = s.m := (congrArg State.m hu.frame :)
theorem Near.sc : u.sc = s.sc := (congrArg State.sc hu.frame :)
theorem Near.h : u.h = s.h := (congrArg State.h hu.frame :)
theorem Near.vs : u.vs = s.vs := (congrArg State.vs hu.frame :)
theorem Near.cnt : u.cnt = s.cnt := (congrArg State.cnt hu.frame :)
theorem Near.pmp : u.pmp = s.pmp := (congrArg State.pmp hu.frame :)
theorem Near.pend : u.pend = s.pend := (congrArg State.pend hu.frame :)
theorem Near.cfg : u.cfg = s.cfg := (congrArg State.cfg hu.frame :)

end

/-! ### The endings -/

/-- A CSR instruction that passes its check: a register is written with what was read, the CSR may be written, and the
instruction retires. -/
inductive CsrEnd (s : State) (c : Csr) : State → Prop where
  | read (rd : Nat) (w : Word) (b : Bool) : CsrEnd s c ((s.writeX rd w).retireCsr s b)
  | write (rd : Nat) (w w' : Word) (b : Bool) (u : State) (h : (s.writeX rd w).csrWrite (s.redirect c) w' = some u) :
      CsrEnd s c (u.retireCsr s b)

/-- The endings of an instruction. -/
inductive Ends (s : State) : State → Prop where
  | trap (u : State) (intr : Bool) (e : Exc) (h : Near s u) : Ends s (u.takeTrap intr e)
  | retire (u : State) (h : Near s u) : Ends s u.retire
  | stall (w : Option Wait) (n : Nat) : Ends s { s with wait := w, stallHint := n }
  | mret (h : s.priv = .m) : Ends s s.countInstret.returnM.maybeClearResv
  | sretS (hv : s.v = false) (hS : s.hasS = true) : Ends s s.countInstret.returnS.maybeClearResv
  | sretVs (hv : s.v = true) (hS : s.hasS = true) : Ends s s.countInstret.returnVs.maybeClearResv
  | csr (n : Nat) (c : Csr) (write : Bool) (hn : csrOf n = some c) (hok : s.csrVerdict n c write = .ok) {t : State}
      (h : CsrEnd s c t) : Ends s t

theorem Ends.raise {s u : State} (e : Exc) (h : Near s u) : Ends s (u.raise e) := .trap u false _ h

/-- An instruction behind a permission check raises an exception or has its effect. -/
theorem guarded_next {s t : State} {v : Verdict} {word : IWord} {k : State → Out} (h : s.guarded v word k = .next t) :
    (v = .ok ∧ k s = .next t) ∨ ∃ e, t = s.raise e := by
  cases v with
  | ok => exact .inl ⟨rfl, h⟩
  | illegal | virtual => cases h; exact .inr ⟨_, rfl⟩

theorem ends_guarded {s t : State} {v : Verdict} {word : IWord} {k : State → Out} (h : s.guarded v word k = .next t)
    (hk : v = .ok → k s = .next t → Ends s t) : Ends s t := by
  obtain ⟨hv, hk'⟩ | ⟨e, rfl⟩ := guarded_next h
  · exact hk hv hk'
  · exact .raise e (.refl s)

/-- The outcome of an access of an instruction, from what the access does. -/
theorem finishAccess_next {α : Type} {s t : State} {r : Res α} {word : IWord} {va : Word} {k : α → State → State}
    (hr : Still s r) (h : finishAccess r word va k = .next t) :
    (∃ a u, r = .ok a u ∧ Quiet s u ∧ t = (k a u).retire) ∨
      ∃ e u, r = .trap e u ∧ Quiet s u ∧ t = u.raise (u.withInst ⟨.virtualMachine, word, false⟩ va e) := by
  cases r with
  | ok a u => cases h; exact .inl ⟨a, u, rfl, hr, rfl⟩
  | trap e u => cases h; exact .inr ⟨e, u, rfl, hr, rfl⟩
  | fault f => cases h

theorem ends_finishAccess {α : Type} {s t : State} {r : Res α} {word : IWord} {va : Word} {k : α → State → State}
    (hr : Still s r) (hk : ∀ a u, Near u (k a u)) (h : finishAccess r word va k = .next t) : Ends s t := by
  obtain ⟨a, u, -, hu, rfl⟩ | ⟨e, u, -, hu, rfl⟩ := finishAccess_next hr h
  · exact .retire _ ((Near.of_quiet hu).trans (hk a u))
  · exact .raise _ (.of_quiet hu)

theorem ends_hlvOp {s t : State} {word : IWord} {wide : Bool} {rd rs1 n : Nat} {acc : Acc} {conv : Nat → Word}
    (h : hlvOp word wide rd rs1 n acc conv s = .next t) : Ends s t :=
  ends_guarded h fun _ hk => ends_finishAccess (still_memRead ..) (fun _ u => near_writeX u rd _) hk

theorem ends_hsvOp {s t : State} {word : IWord} {wide : Bool} {rs2 rs1 n : Nat}
    (h : hsvOp word wide rs2 rs1 n s = .next t) : Ends s t :=
  ends_guarded h fun _ hk => ends_finishAccess (still_memWrite ..) (fun _ u => .refl u) hk

/-- A fence changes the caches and retires. -/
theorem ends_caches {s t u : State} (hu : ∃ x, u = { s with xlat := x }) (h : (.next u.retire : Out) = .next t) : Ends s t := by
  obtain ⟨x, rfl⟩ := hu
  cases h
  exact .retire _ (near_xlat s x)

theorem ends_csrInstr {s t : State} {word : IWord} {rd src n : Nat} {doRead doWrite : Bool} {newval : Word → Word}
    (h : csrInstr word rd src n doRead doWrite newval s = .next t) : Ends s t := by
  have trap : ∀ e, (.next (s.raise e) : Out) = .next t → Ends s t := fun e h => by cases h; exact .raise e (.refl s)
  unfold csrInstr at h
  split at h
  · exact trap _ h
  · rename_i c hc
    have hn : csrOf n = some c := by
      split at hc
      · exact hc
      · cases hc
    split at h
    · exact trap _ h
    · exact trap _ h
    · rename_i hok
      have hr : ∃ rd' w, (if doRead then s.writeX rd (maskX s.xlen (s.csrRead (s.redirect c))) else s) = s.writeX rd' w := by
        split
        · exact ⟨_, _, rfl⟩
        · exact ⟨0, 0, rfl⟩
      obtain ⟨rd', w, hr⟩ := hr
      dsimp only at h
      rw [hr] at h
      split at h
      · split at h
        · rename_i u hu
          cases h
          exact .csr n c _ hn hok (.write rd' w _ _ u hu)
        · exact trap _ h
      · cases h
        exact .csr n c _ hn hok (.read rd' w false)

theorem ends_endWait {s u : State} (hu : Near s u) (g : Option Nat) : Ends s (u.endWait g) := by
  unfold State.endWait
  dsimp only
  split
  · exact .retire _ (hu.trans (near_stall u none _))
  · exact .raise _ (hu.trans (near_stall u none _))

theorem ends_wfi {s t : State} (h : execWfi s = .next t) : Ends s t := by
  unfold execWfi at h
  dsimp only at h
  split at h
  · cases h; exact .retire _ (near_stall s _ 0)
  · split at h
    · cases h
      exact ends_endWait (near_stall s _ 0) _
    · cases h; exact .stall _ 0

/-- How an instruction ends, whichever it is. -/
theorem exec_ends {i : Instr} {s t : State} (h : exec i s = .next t) : Ends s t := by
  cases i
  case ecall | ebreak => cases h; exact .raise _ (.refl s)
  case sret =>
    rw [exec_sret] at h
    refine ends_guarded h fun hok hk => ?_
    have hS : s.hasS = true := by
      cases hS : s.hasS
      · simp [State.sretVerdict, hS] at hok
      · rfl
    cases hv : s.v <;> simp only [hv, Bool.false_eq_true, if_false, if_true] at hk <;> cases hk
    · exact .sretS hv hS
    · exact .sretVs hv hS
  case mret =>
    rw [exec_mret] at h
    refine ends_guarded h fun hok hk => ?_
    cases hk
    refine .mret ?_
    unfold State.mretVerdict at hok
    split at hok
    · assumption
    · cases hok
  case wfi => exact ends_wfi h
  case sfenceVma => rw [exec_sfenceVma] at h; exact ends_guarded h fun _ hk => ends_caches (sfence_caches s _) hk
  case sinvalVma => rw [exec_sinvalVma] at h; exact ends_guarded h fun _ hk => ends_caches (sinval_caches s _) hk
  case hinvalVvma => rw [exec_hinvalVvma] at h; exact ends_guarded h fun _ hk => ends_caches (sinval_caches s _) hk
  case hinvalGvma => rw [exec_hinvalGvma] at h; exact ends_guarded h fun _ hk => ends_caches (sinval_caches s _) hk
  case hfenceVvma => rw [exec_hfenceVvma] at h; exact ends_guarded h fun _ hk => ends_caches (hfence_caches s _) hk
  case hfenceGvma => rw [exec_hfenceGvma] at h; exact ends_guarded h fun _ hk => ends_caches (hfence_caches s _) hk
  case sfenceWInval => rw [exec_sfenceWInval] at h; exact ends_guarded h fun _ hk => ends_caches ⟨_, rfl⟩ hk
  case sfenceInvalIr => rw [exec_sfenceInvalIr] at h; exact ends_guarded h fun _ hk => ends_caches ⟨_, rfl⟩ hk
  case hlvB => rw [exec_hlvB] at h; exact ends_hlvOp h
  case hlvBu => rw [exec_hlvBu] at h; exact ends_hlvOp h
  case hlvH => rw [exec_hlvH] at h; exact ends_hlvOp h
  case hlvHu => rw [exec_hlvHu] at h; exact ends_hlvOp h
  case hlvW => rw [exec_hlvW] at h; exact ends_hlvOp h
  case hlvWu => rw [exec_hlvWu] at h; exact ends_hlvOp h
  case hlvD => rw [exec_hlvD] at h; exact ends_hlvOp h
  case hlvxHu => rw [exec_hlvxHu] at h; exact ends_hlvOp h
  case hlvxWu => rw [exec_hlvxWu] at h; exact ends_hlvOp h
  case hsvB => rw [exec_hsvB] at h; exact ends_hsvOp h
  case hsvH => rw [exec_hsvH] at h; exact ends_hsvOp h
  case hsvW => rw [exec_hsvW] at h; exact ends_hsvOp h
  case hsvD => rw [exec_hsvD] at h; exact ends_hsvOp h
  case csrrw => rw [exec_csrrw] at h; exact ends_csrInstr h
  case csrrs => rw [exec_csrrs] at h; exact ends_csrInstr h
  case csrrc => rw [exec_csrrc] at h; exact ends_csrInstr h
  case csrrwi => rw [exec_csrrwi] at h; exact ends_csrInstr h
  case csrrsi => rw [exec_csrrsi] at h; exact ends_csrInstr h
  case csrrci => rw [exec_csrrci] at h; exact ends_csrInstr h

/-! ### Steps of the hart and of the machine -/

/-- After what a fetch or the end of a stall may change, the hart does what an instruction may do. -/
def Acts (s t : State) : Prop := ∃ u, Near s u ∧ Ends u t

theorem acts_waiting (s : State) (w : Wait) : Acts s (s.waiting w) := by
  refine ⟨s, .refl s, ?_⟩
  unfold State.waiting
  split
  · exact .retire _ (near_stall s none _)
  · split
    · exact ends_endWait (.refl s) _
    · exact .stall _ _

theorem acts_otherWord {s t : State} {w : IWord} {why : DecodeReject} (h : otherWord w why s = .next t) : Acts s t := by
  have near_fenceI : Near s s.fenceI := ⟨rfl, id⟩
  refine ⟨s, .refl s, ?_⟩
  unfold otherWord at h
  split at h
  · split at h
    · cases h; exact .retire _ (.refl s)
    · split at h
      · cases h; exact .retire _ near_fenceI
      · cases h
  · cases h; exact .raise _ (.refl s)

theorem acts_runNext {s t : State} (h : runNext s = .next t) : Acts s t := by
  have hq := still_fetch s
  unfold runNext at h
  split at h
  · rename_i w u hf
    have hu : Near s u := .of_quiet (by rwa [hf] at hq)
    unfold runWord at h
    split at h
    · exact ⟨u, hu, exec_ends h⟩
    · obtain ⟨v, hv, he⟩ := acts_otherWord h
      exact ⟨v, hu.trans hv, he⟩
  · rename_i p u hf
    unfold runParcel at h
    split at h
    · cases h
    · cases h
      exact ⟨u, .of_quiet (by rwa [hf] at hq), .raise _ (.refl u)⟩
  · rename_i e u hf
    cases h
    exact ⟨u, .of_quiet (by rwa [hf] at hq), .raise _ (.refl u)⟩
  · cases h

theorem acts_hartAct {s t : State} (h : hartAct s = .next t) : Acts s t := by
  unfold hartAct at h
  split at h
  · cases h; exact acts_waiting s _
  · split at h
    · cases h; exact ⟨s, .refl s, .trap s _ _ (.refl s)⟩
    · exact acts_runNext h

/-- What each step does first: MTIP and MSIP move on, and the schedule gives its next event. -/
def Begins (s u : State) : Prop :=
  ∃ p a b l, u = { s with pend := p, mtipHold := a, msipHold := b, inputs := l }

theorem begins_syncIrq (s : State) (l : List Event) : Begins s { s.syncIrq with inputs := l } := ⟨_, _, _, l, rfl⟩

/-- A step of the machine is an act of the hart or an event of another agent. -/
theorem step_cases {s t : State} (h : step s = .next t) : ∃ u, Begins s u ∧ (Acts u t ∨ ∃ e, t = u.event e) := by
  unfold step machineStep at h
  dsimp only at h
  split at h
  · exact ⟨_, begins_syncIrq s s.inputs, .inl (acts_hartAct h)⟩
  · exact ⟨_, begins_syncIrq s _, .inl (acts_hartAct h)⟩
  · cases h; exact ⟨_, begins_syncIrq s _, .inr ⟨_, rfl⟩⟩

/-- A property of states that no part of a step breaks. -/
structure Kept (P : State → Prop) : Prop where
  begins : ∀ {s u}, Begins s u → P s → P u
  near : ∀ {s u}, Near s u → P s → P u
  ends : ∀ {s t}, Ends s t → P s → P t
  event : ∀ {s} e, P s → P (s.event e)

/-- It is an invariant of the machine. -/
theorem Kept.step {P : State → Prop} (k : Kept P) {s t : State} (hs : P s) (h : step s = .next t) : P t := by
  obtain ⟨u, hu, ⟨v, hv, ht⟩ | ⟨e, rfl⟩⟩ := step_cases h
  · exact k.ends ht (k.near hv (k.begins hu hs))
  · exact k.event e (k.begins hu hs)

end Sys2Proof.Proofs.Endings
end

section
/-!
SUPPORT. The invariants of the machine: memory in canonical form, legal modes, MPRV clear outside M-mode, `pc` aligned; each by
what the endings of an instruction and the events of the other agents do to it.
-/

namespace Sys2Proof.Proofs.Invariants

open Sys2Proof Sys2Proof.Machine Sys2Proof.Laws Sys2Proof.Proofs.MachineCsrs Sys2Proof.Proofs.Endings

/-! ### CSR instructions -/

theorem csrBase_writeX (s : State) (n : Nat) (w : Word) : ∃ x, csrBase (s.writeX n w) = { csrBase s with x := x } := by
  obtain ⟨x, hx⟩ := writeX_eq s n w
  exact ⟨x, by rw [hx]; rfl⟩

/-- A CSR instruction changes of the base the integer registers and `pc` only. -/
theorem csrEnd_base {s t : State} {c : Csr} (h : CsrEnd s c t) :
    ∃ x, csrBase t = { csrBase s with x := x, pc := s.nextPc } := by
  have retire : ∀ (u : State) (b : Bool), csrBase (u.retireCsr s b) = { csrBase u with pc := s.nextPc } := fun _ _ => rfl
  cases h with
  | read rd w b =>
    obtain ⟨x, hx⟩ := csrBase_writeX s rd w
    exact ⟨x, by rw [retire, hx]⟩
  | write rd w w' b u h =>
    obtain ⟨x, hx⟩ := csrBase_writeX s rd w
    obtain ⟨⟨v, hv⟩, -⟩ := csrWrite_base h
    exact ⟨v, by rw [retire, hv, hx]⟩

/-- With V=1 the registers of S-mode are replaced by their VS twins, and no other is replaced. -/
theorem redirect_cases (s : State) (c : Csr) :
    s.redirect c = c ∨ (s.v = true ∧ levelOf c = 1 ∧ levelOf (s.redirect c) = 2) := by
  unfold State.redirect
  split
  · rename_i hv
    split
    all_goals first
      | exact .inr ⟨hv, rfl, rfl⟩
      | exact .inl rfl
  · exact .inl rfl

theorem redirect_machine {s : State} {c d : Csr} (h : s.redirect c = d) (hd : levelOf d = 3) : c = d := by
  obtain h1 | ⟨-, -, h2⟩ := redirect_cases s c
  · exact h1.symm.trans h
  · rw [h, hd] at h2; cases h2

theorem csrWrite_of_ne {s : State} {c : Csr} (h : c ≠ .misa) (w : Word) : s.csrWrite c w = s.csrPut c w := by
  unfold State.csrWrite
  split
  · exact absurd rfl h
  · rfl

/-- All that a CSR instruction can do to `misa`, MPRV and MPP: nothing, or what a write of `mstatus` or `misa` does. -/
theorem csrEnd_cases {s t : State} {c : Csr} (h : CsrEnd s c t) :
    (t.misa = s.misa ∧ t.mst.mprv = s.mst.mprv ∧ t.mst.mpp = s.mst.mpp) ∨
    (c = .mstatus ∧ t.misa = s.misa ∧ ∃ n r w, t.mst.mpp = ((s.writeX n r).mstatusFields w).mpp) ∨
    (c = .misa ∧ ∃ n r w, t.misa = ((s.writeX n r).setMisa w).misa ∧ t.mst = ((s.writeX n r).setMisa w).mst) := by
  cases h with
  | read rd w b => exact .inl ⟨writeX_misa s rd w, congrArg Mstatus.mprv (writeX_mst s rd w), congrArg Mstatus.mpp (writeX_mst s rd w)⟩
  | write rd w w' b u h =>
    by_cases h1 : s.redirect c = .misa
    · rw [h1] at h
      cases h
      exact .inr (.inr ⟨redirect_machine h1 rfl, rd, w, w', rfl, rfl⟩)
    · rw [csrWrite_of_ne h1] at h
      by_cases h2 : s.redirect c = .mstatus
      · rw [h2] at h
        cases h
        exact .inr (.inl ⟨redirect_machine h2 rfl, ((congrArg (·.2) (frame_setMst _ _)).trans (writeX_misa s rd w) :),
          rd, w, w', setMst_mpp _ _⟩)
      · have k := csrPut_kept h h2
        refine .inl ⟨?_, ?_, ?_⟩
        · exact ((congrArg (·.2.1) k).trans (writeX_misa s rd w) :)
        · exact ((congrArg (·.2.2.1) k).trans (congrArg Mstatus.mprv (writeX_mst s rd w)) :)
        · exact ((congrArg (·.2.2.2) k).trans (congrArg Mstatus.mpp (writeX_mst s rd w)) :)

/-! ### Events of the other agents -/

/-- What no event but an NMI and a reset changes. -/
def eventBase (s : State) : Word × Priv × Bool × Misa × Priv × Bool × Config :=
  (s.pc, s.priv, s.v, s.misa, s.mst.mpp, s.mst.mprv, s.cfg)

theorem eventBase_of_quiet {s u : State} (h : Quiet s u) : eventBase u = eventBase s := (congrArg eventBase h.1 :)

theorem eventBase_storeMem (s : State) (a : Nat) (l : List Byte) : eventBase (s.storeMem a l) = eventBase s :=
  eventBase_of_quiet (quiet_storeMem s a l)

theorem event_cases (s : State) (e : Event) :
    s.event e = s.nmi ∨ s.event e = s.resetInput ∨
      (eventBase (s.event e) = eventBase s ∧ (s.memOk → (s.event e).memOk)) := by
  have same : ∀ u : State, s.event e = u → eventBase u = eventBase s ∧ u.mem = s.mem →
      s.event e = s.nmi ∨ s.event e = s.resetInput ∨
        (eventBase (s.event e) = eventBase s ∧ (s.memOk → (s.event e).memOk)) := by
    rintro u rfl ⟨hb, hm⟩
    exact .inr (.inr ⟨hb, by unfold State.memOk; rw [hm]; exact id⟩)
  cases e with
  | nmi => exact .inl rfl
  | reset => exact .inr (.inl rfl)
  | hart | wires | tick | msip | holdMtip | holdMsip | stall | finish => exact same _ rfl ⟨rfl, rfl⟩
  | cycles n => exact same (s.countCycles n) rfl (by unfold State.countCycles; split <;> exact ⟨rfl, rfl⟩)
  | hpm k n => exact same (s.countEvents k n) rfl (by unfold State.countEvents; split <;> exact ⟨rfl, rfl⟩)
  | setSsip => exact same (if _ then _ else s) rfl (by split <;> exact ⟨rfl, rfl⟩)
  | dirtyFs =>
    refine same (if s.fsOff then s else s.dirtyFs) rfl ?_
    unfold State.dirtyFs
    repeat' split
    all_goals exact ⟨rfl, rfl⟩
  | dirtyVs =>
    refine same (if s.vsOff then s else s.dirtyVs) rfl ?_
    unfold State.dirtyVs
    repeat' split
    all_goals exact ⟨rfl, rfl⟩
  | reserve r =>
    refine same (s.reserveAt r) rfl ?_
    unfold State.reserveAt
    repeat' split
    all_goals exact ⟨rfl, rfl⟩
  | store a b =>
    refine .inr (.inr ?_)
    show eventBase (s.foreignStore a b) = eventBase s ∧ (s.memOk → (s.foreignStore a b).memOk)
    unfold State.foreignStore
    split
    · exact ⟨eventBase_storeMem s a [b], wf_storeMem s a [b]⟩
    · exact ⟨rfl, id⟩
  | walk k f va =>
    have h := quiet_specWalk s k f va
    exact .inr (.inr ⟨eventBase_of_quiet h, h.2⟩)

/-- A non-maskable interrupt is taken in the state as it is, or after a stalled WFI has retired. -/
theorem nmi_cases (s : State) : s.nmi = s.takeNmi ∨ s.nmi = (({ s with wait := none } : State).retire).takeNmi := by
  unfold State.nmi
  split
  · exact .inl rfl
  · split
    · exact .inr rfl
    · exact .inl rfl

/-! ### Returns -/

theorem maybeClearResv_eq (s : State) : ∃ r n, s.maybeClearResv = { s with resv := r, draws := n } := by
  obtain ⟨r, n, h, -⟩ := maybeClearResv_spec s
  exact ⟨r, n, h⟩

/-! ### Memory (`20_memory.md` section 1) -/

theorem memOk_of_mem {s t : State} (h : t.mem = s.mem) (hs : s.memOk) : t.memOk := by unfold State.memOk; rwa [h]

theorem takeTrap_mem (s : State) (intr : Bool) (e : Exc) : (s.takeTrap intr e).mem = s.mem :=
  congrArg TrapBase.mem (trapBase_takeTrap s intr e)

theorem maybeClearResv_mem (s : State) : s.maybeClearResv.mem = s.mem := by
  obtain ⟨r, n, h⟩ := maybeClearResv_eq s
  rw [h]

theorem ends_memOk {s t : State} (h : Ends s t) (hs : s.memOk) : t.memOk := by
  cases h with
  | trap u intr e hu => exact memOk_of_mem (takeTrap_mem u intr e) (hu.mem hs)
  | retire u hu => exact memOk_of_mem (retire_mem u) (hu.mem hs)
  | stall => exact hs
  | mret | sretS | sretVs => exact memOk_of_mem ((maybeClearResv_mem _).trans (by simp)) hs
  | csr n c write hn hok h =>
    obtain ⟨x, hx⟩ := csrEnd_base h
    exact memOk_of_mem (congrArg CsrBase.mem hx) hs

theorem nmi_mem (s : State) : s.nmi.mem = s.mem := by
  obtain h | h := nmi_cases s <;> rw [h]
  · rfl
  · exact retire_mem _

theorem kept_memOk : Kept State.memOk where
  begins := by rintro s u ⟨p, a, b, l, rfl⟩; exact id
  near h := h.mem
  ends := ends_memOk
  event := by
    intro s e hs
    obtain h | h | h := event_cases s e
    · rw [h]; exact memOk_of_mem (nmi_mem s) hs
    · rw [h]; exact hs
    · exact h.2 hs

/-- Settles O53: stores keep the canonical form (`wf_storeMem`), and nothing else writes memory. -/
theorem memoryStaysCanonical : Obligations.MemoryStaysCanonical := fun _ _ hs h => kept_memOk.step hs h

/-! ### Modes (`10_state.md` section 1) -/

/-- The part of the state that says which modes there are. -/
def modePart (s : State) : Priv × Bool × Misa × Priv := (s.priv, s.v, s.misa, s.mst.mpp)

theorem has_congr {s t : State} (h : t.misa = s.misa) (k : Nat) : t.has k = s.has k := by unfold State.has; rw [h]

theorem hasH_congr {s t : State} (h : t.misa = s.misa) : t.hasH = s.hasH := by
  unfold State.hasH State.hasS State.hasI State.hasU; simp only [has_congr h]

theorem hasU_of_hasS {s : State} (h : s.hasS = true) : s.hasU = true := ((Bool.and_eq_true _ _).mp h).2

theorem hasS_of_hasH {s : State} (h : s.hasH = true) : s.hasS = true := by
  simp only [State.hasH, Bool.and_eq_true] at h; exact h.1.2

theorem legalModes_congr {s t : State} (h : modePart t = modePart s) (hs : s.legalModes) : t.legalModes := by
  obtain ⟨hp, hv, hm, hmpp⟩ : t.priv = s.priv ∧ t.v = s.v ∧ t.misa = s.misa ∧ t.mst.mpp = s.mst.mpp := by
    simpa [modePart] using h
  unfold State.legalModes State.modeOk
  rw [hp, hv, hmpp, hasH_congr hm, hasMode_congr hm, hasMode_congr hm]
  exact hs

/-- A state in M-mode has legal modes where MPP is legal. -/
theorem legalModes_m {t : State} (hp : t.priv = .m) (hv : t.v = false) (h : t.hasMode t.mst.mpp = true) : t.legalModes :=
  ⟨fun h' => (Bool.false_ne_true (hv.symm.trans h')).elim, by rw [hp]; rfl, h⟩

/-- A state below M-mode has legal modes where its mode and MPP are legal and V comes with the hypervisor extension. -/
theorem legalModes_below {t : State} (hp : t.priv ≠ .m) (hv : t.v = true → t.hasH = true) (h1 : t.hasMode t.priv = true)
    (h2 : t.hasMode t.mst.mpp = true) : t.legalModes := ⟨fun h => ⟨hv h, hp⟩, h1, h2⟩

theorem takeTrap_legalModes {s : State} (intr : Bool) (e : Exc) (hs : s.legalModes) : (s.takeTrap intr e).legalModes := by
  obtain ⟨hm, hp, hmpp⟩ := hs
  obtain h | ⟨h, -, hd⟩ | ⟨h, -, hv, hd⟩ := takeTrap_cases s intr e <;> rw [h]
  · exact legalModes_m rfl rfl hp
  · exact legalModes_below Priv.noConfusion (fun h => by cases h) (hasS_of_delegated s intr _ hd) hmpp
  · exact legalModes_below Priv.noConfusion (fun _ => (hm hv).1) (hasS_of_delegated s intr _ hd) hmpp

theorem mem_mppSet (s : State) (p : Priv) : p ∈ s.mppSet ↔ s.hasMode p = true := by
  have hu := @hasU_of_hasS s
  unfold State.mppSet State.hasMode
  cases hS : s.hasS <;> cases hU : s.hasU <;> cases p <;> simp_all

theorem hasMode_mstatusFields (s : State) (w : Word) : s.hasMode (s.mstatusFields w).mpp = true := by
  have hne : s.mppSet ≠ [] := List.ne_nil_of_mem ((mem_mppSet s .m).mpr rfl)
  have h : (s.mstatusFields w).mpp = warl .mpp s.mppSet Priv.num (fieldOf w 11 2) s.mst.mpp := by
    unfold State.mstatusFields
    cases s.mxlen <;> rfl
  rw [h, ← mem_mppSet]
  exact warl_mem _ _ _ _ _ hne

theorem privOfSpp_hasMode {s : State} (h : s.hasS = true) (b : Bool) : s.hasMode (privOfSpp b) = true := by
  cases b
  · exact hasU_of_hasS h
  · exact h

theorem privOfSpp_ne_m (b : Bool) : privOfSpp b ≠ .m := by cases b <;> decide

theorem hasMode_least (s : State) : s.hasMode (if s.hasU then .u else .m) = true := by
  cases h : s.hasU
  · rfl
  · exact h

theorem returnM_legalModes {s : State} (hs : s.legalModes) : s.returnM.legalModes := by
  refine ⟨fun hv => ?_, hs.2.2, hasMode_least s⟩
  simp only [State.returnM, Bool.and_eq_true, decide_eq_true_eq] at hv
  exact ⟨hv.1.1, hv.1.2⟩

theorem returnS_legalModes {s : State} (hS : s.hasS = true) (hs : s.legalModes) : s.returnS.legalModes :=
  legalModes_below (privOfSpp_ne_m _) (fun h => ((Bool.and_eq_true _ _).mp h).1) (privOfSpp_hasMode hS _) hs.2.2

theorem returnVs_legalModes {s : State} (hS : s.hasS = true) (hs : s.legalModes) : s.returnVs.legalModes :=
  legalModes_below (privOfSpp_ne_m _) (fun h => (hs.1 h).1) (privOfSpp_hasMode hS _) hs.2.2

theorem maybeClearResv_legalModes {s : State} (hs : s.legalModes) : s.maybeClearResv.legalModes := by
  obtain ⟨r, n, h⟩ := maybeClearResv_eq s
  rw [h]; exact hs

theorem countInstret_legalModes {s : State} (hs : s.legalModes) : s.countInstret.legalModes := by
  rw [countInstret_eq]; exact hs

/-- A CSR instruction keeps the mode and the letters, but for a write of `misa`, which M-mode alone makes. -/
theorem csrEnd_legalModes {s t : State} {n : Nat} {c : Csr} {write : Bool} (hn : csrOf n = some c)
    (hok : s.csrVerdict n c write = .ok) (h : CsrEnd s c t) (hs : s.legalModes) : t.legalModes := by
  obtain ⟨x, hx⟩ := csrEnd_base h
  have hp : t.priv = s.priv := congrArg CsrBase.priv hx
  have hv : t.v = s.v := congrArg CsrBase.v hx
  obtain ⟨hm, -, hmpp⟩ | ⟨rfl, -, k, r, w, hmpp⟩ | ⟨rfl, k, r, w, hm, hmst⟩ := csrEnd_cases h
  · exact legalModes_congr (by simp [modePart, *]) hs
  · obtain ⟨hpm, hv0⟩ := machine_of_level hn hok rfl
    have hm : t.misa = (s.writeX k r).misa := by
      obtain ⟨hm, -⟩ | ⟨-, hm, -⟩ | ⟨hc, -⟩ := csrEnd_cases h
      · exact hm.trans (writeX_misa s k r).symm
      · exact hm.trans (writeX_misa s k r).symm
      · cases hc
    refine legalModes_m (hp.trans hpm) (hv.trans hv0) ?_
    rw [hmpp, hasMode_congr hm]
    exact hasMode_mstatusFields _ w
  · obtain ⟨hpm, hv0⟩ := machine_of_level hn hok rfl
    refine legalModes_m (hp.trans hpm) (hv.trans hv0) ?_
    rw [hmst, hasMode_congr hm]
    refine (setMisa_spec (s.writeX k r) w).2.2.2.2 ?_
    rw [hasMode_congr (writeX_misa s k r), writeX_mst]
    exact hs.2.2

theorem near_legalModes {s u : State} (h : Near s u) (hs : s.legalModes) : u.legalModes :=
  legalModes_congr (by simp [modePart, h.priv, h.v, h.misa, h.mst]) hs

theorem retire_legalModes {s : State} (hs : s.legalModes) : s.retire.legalModes := by rw [retire_eq]; exact hs

theorem ends_legalModes {s t : State} (h : Ends s t) (hs : s.legalModes) : t.legalModes := by
  cases h with
  | trap u intr e hu => exact takeTrap_legalModes intr e (near_legalModes hu hs)
  | retire u hu => exact retire_legalModes (near_legalModes hu hs)
  | stall => exact hs
  | mret => exact maybeClearResv_legalModes (returnM_legalModes (countInstret_legalModes hs))
  | sretS hv hS =>
    exact maybeClearResv_legalModes (returnS_legalModes (by rw [countInstret_eq]; exact hS) (countInstret_legalModes hs))
  | sretVs hv hS =>
    exact maybeClearResv_legalModes (returnVs_legalModes (by rw [countInstret_eq]; exact hS) (countInstret_legalModes hs))
  | csr n c write hn hok h => exact csrEnd_legalModes hn hok h hs

theorem takeNmi_legalModes {s : State} (hs : s.legalModes) : s.takeNmi.legalModes := legalModes_m rfl rfl hs.2.1

theorem resetWith_legalModes (c : Config) : (resetWith c).legalModes := legalModes_m rfl rfl (hasMode_least (resetWith c))

theorem kept_legalModes : Kept State.legalModes where
  begins := by rintro s u ⟨p, a, b, l, rfl⟩; exact id
  near := near_legalModes
  ends := ends_legalModes
  event := by
    intro s e hs
    obtain h | h | ⟨h, -⟩ := event_cases s e
    · rw [h]
      obtain h | h := nmi_cases s <;> rw [h]
      · exact takeNmi_legalModes hs
      · exact takeNmi_legalModes (retire_legalModes hs)
    · rw [h]; exact resetWith_legalModes s.cfg
    · refine legalModes_congr ?_ hs
      simp only [eventBase, Prod.mk.injEq] at h
      simp [modePart, h]

/-- Settles O54: traps go to modes the hart has (`hasS_of_delegated`), returns to those MPP and SPP name, and a write of
`mstatus` or `misa` leaves MPP legal. -/
theorem modesStayLegal : Obligations.ModesStayLegal := fun _ _ hs h => kept_legalModes.step hs h

/-! ### MPRV (`41_machine_instructions.md` R707) -/

theorem mprvOk_congr {s t : State} (hp : t.priv = s.priv) (hm : t.mst.mprv = s.mst.mprv) (hs : s.mprvOk) : t.mprvOk := by
  unfold State.mprvOk; rw [hp, hm]; exact hs

theorem mprvOk_m {t : State} (h : t.priv = .m) : t.mprvOk := fun _ => h

theorem mprvOk_clear {t : State} (h : t.mst.mprv = false) : t.mprvOk := fun h1 => by rw [h] at h1; cases h1

theorem mprv_of_below {s : State} (hs : s.mprvOk) (hp : s.priv ≠ .m) : s.mst.mprv = false :=
  Bool.eq_false_iff.mpr fun h => hp (hs h)

theorem takeTrap_mprvOk {s : State} (intr : Bool) (e : Exc) (hs : s.mprvOk) : (s.takeTrap intr e).mprvOk := by
  obtain h | ⟨h, hp, -⟩ | ⟨h, hp, -⟩ := takeTrap_cases s intr e <;> rw [h]
  · exact mprvOk_m rfl
  · exact mprvOk_clear (mprv_of_below hs hp :)
  · exact mprvOk_clear (mprv_of_below hs hp :)

theorem returnM_mprvOk (s : State) : s.returnM.mprvOk := by
  by_cases h : s.mst.mpp = .m
  · exact mprvOk_m h
  · exact mprvOk_clear (if_neg h)

theorem csrEnd_mprvOk {s t : State} {n : Nat} {c : Csr} {write : Bool} (hn : csrOf n = some c)
    (hok : s.csrVerdict n c write = .ok) (h : CsrEnd s c t) (hs : s.mprvOk) : t.mprvOk := by
  obtain ⟨x, hx⟩ := csrEnd_base h
  have hp : t.priv = s.priv := congrArg CsrBase.priv hx
  obtain ⟨-, hm, -⟩ | ⟨rfl, -⟩ | ⟨rfl, -⟩ := csrEnd_cases h
  · exact mprvOk_congr hp hm hs
  · exact mprvOk_m (hp.trans (machine_of_level hn hok rfl).1)
  · exact mprvOk_m (hp.trans (machine_of_level hn hok rfl).1)

theorem maybeClearResv_mprvOk {s : State} (hs : s.mprvOk) : s.maybeClearResv.mprvOk := by
  obtain ⟨r, n, h⟩ := maybeClearResv_eq s
  rw [h]; exact hs

theorem near_mprvOk {s u : State} (h : Near s u) (hs : s.mprvOk) : u.mprvOk :=
  mprvOk_congr h.priv (congrArg Mstatus.mprv h.mst) hs

theorem retire_mprvOk {s : State} (hs : s.mprvOk) : s.retire.mprvOk := by rw [retire_eq]; exact hs

theorem ends_mprvOk {s t : State} (h : Ends s t) (hs : s.mprvOk) : t.mprvOk := by
  cases h with
  | trap u intr e hu => exact takeTrap_mprvOk intr e (near_mprvOk hu hs)
  | retire u hu => exact retire_mprvOk (near_mprvOk hu hs)
  | stall => exact hs
  | mret => exact maybeClearResv_mprvOk (returnM_mprvOk _)
  | sretS | sretVs => exact maybeClearResv_mprvOk (mprvOk_clear rfl)
  | csr n c write hn hok h => exact csrEnd_mprvOk hn hok h hs

theorem kept_mprvOk : Kept State.mprvOk where
  begins := by rintro s u ⟨p, a, b, l, rfl⟩; exact id
  near := near_mprvOk
  ends := ends_mprvOk
  event := by
    intro s e hs
    obtain h | h | ⟨h, -⟩ := event_cases s e
    · obtain h' | h' := nmi_cases s <;> rw [h, h'] <;> exact mprvOk_m rfl
    · rw [h]; exact mprvOk_m rfl
    · simp only [eventBase, Prod.mk.injEq] at h
      exact mprvOk_congr h.2.1 h.2.2.2.2.2.1 hs

/-- Settles O55: what leaves M-mode is MRET and SRET, which clear MPRV, and only M-mode writes it. -/
theorem mprvOnlyInM : Obligations.MprvOnlyInM := fun _ _ _ hs h => kept_mprvOk.step hs h

/-! ### Alignment of `pc` (`20_memory.md` R413) -/

/-- Aligned to two bytes with the C extension and to four without. -/
def Aligned (hasC : Bool) (w : Word) : Prop := if hasC then w.toNat % 2 = 0 else w.toNat % 4 = 0

theorem aligned_of_mod4 {w : Word} (h : w.toNat % 4 = 0) (c : Bool) : Aligned c w := by
  cases c
  · exact h
  · show w.toNat % 2 = 0
    omega

theorem aligned_congr {v w : Word} (h : v.toNat % 4 = w.toNat % 4) {c : Bool} (hw : Aligned c w) : Aligned c v := by
  cases c
  · exact h.trans hw
  · have hw : w.toNat % 2 = 0 := hw
    show v.toNat % 2 = 0
    omega

/-- The two low bits of a word as a number. -/
theorem mod4_eq (w : Word) : w.toNat % 4 = (w.getLsbD 0).toNat + 2 * (w.getLsbD 1).toNat := by
  have h0 : w.getLsbD 0 = decide (w.toNat % 2 = 1) := by simp [BitVec.getLsbD, Nat.testBit_zero]
  have h1 : w.getLsbD 1 = decide (w.toNat / 2 % 2 = 1) := by simp [BitVec.getLsbD, Nat.testBit_succ, Nat.testBit_zero]
  rw [h0, h1]
  by_cases a : w.toNat % 2 = 1 <;> by_cases b : w.toNat / 2 % 2 = 1 <;> simp [a, b] <;> omega

theorem toReg_mod4 (s : State) (x : Xlen) (w : Word) : (s.toReg x w).toNat % 4 = w.toNat % 4 := by
  rw [mod4_eq, mod4_eq w, getLsbD_toReg (by decide), getLsbD_toReg (by decide)]

theorem nextPc_mod4 (s : State) : s.nextPc.toNat % 4 = s.pc.toNat % 4 := by
  rw [State.nextPc, toReg_mod4, BitVec.toNat_add]
  show (s.pc.toNat + 4) % 2 ^ 64 % 4 = s.pc.toNat % 4
  omega

theorem base_mod4 (w : Word) : (w &&& ~~~(3 : Word)).toNat % 4 = 0 := by
  rw [mod4_eq]
  simp

theorem vector_mod4 (w : Word) (intr : Bool) (cause : Nat) : (vector w intr cause).toNat % 4 = 0 := by
  have hb := base_mod4 w
  unfold vector
  dsimp only
  split
  · rw [BitVec.toNat_add, BitVec.toNat_ofNat]
    omega
  · exact hb

/-- An exception-pc register reads as an aligned address. -/
theorem epcRead_aligned (s : State) (w : Word) : Aligned s.hasC (s.epcRead w) := by
  unfold State.epcRead
  cases s.hasC
  · exact base_mod4 w
  · have h := mod4_eq (w &&& ~~~(1 : Word))
    have h0 : (w &&& ~~~(1 : Word)).getLsbD 0 = false := by simp
    rw [h0] at h
    show (w &&& ~~~(1 : Word)).toNat % 2 = 0
    simp only [Bool.toNat_false] at h
    omega

/-- The invariant: the platform's vectors and `pc` are aligned. -/
def PcInv (s : State) : Prop := s.entriesOk ∧ s.pcOk

theorem pcInv_intro {s t : State} (hs : PcInv s) (hc : t.cfg = s.cfg) (h : Aligned t.hasC t.pc) : PcInv t := by
  refine ⟨?_, h⟩
  unfold State.entriesOk; rw [hc]
  exact hs.1

theorem hasC_congr {s t : State} (h : t.misa = s.misa) : t.hasC = s.hasC := has_congr h _

theorem pcInv_congr {s t : State} (hc : t.cfg = s.cfg) (hm : t.misa = s.misa) (hp : t.pc.toNat % 4 = s.pc.toNat % 4)
    (hs : PcInv s) : PcInv t :=
  pcInv_intro hs hc (by rw [hasC_congr hm]; exact aligned_congr hp hs.2)

theorem takeTrap_pcInv {s : State} (intr : Bool) (e : Exc) (hs : PcInv s) : PcInv (s.takeTrap intr e) := by
  obtain h | ⟨h, -⟩ | ⟨h, -⟩ := takeTrap_cases s intr e <;> rw [h]
  all_goals exact pcInv_intro hs rfl (aligned_of_mod4 ((toReg_mod4 _ _ _).trans (vector_mod4 _ _ _)) _)

theorem retire_pcInv {s : State} (hs : PcInv s) : PcInv s.retire :=
  pcInv_congr (retire_cfg s) (retire_misa s) (by rw [retire_eq]; exact nextPc_mod4 s) hs

theorem maybeClearResv_pcInv {s : State} (hs : PcInv s) : PcInv s.maybeClearResv := by
  obtain ⟨r, n, h⟩ := maybeClearResv_eq s
  rw [h]; exact hs

theorem countInstret_pcInv {s : State} (hs : PcInv s) : PcInv s.countInstret := by rw [countInstret_eq]; exact hs

/-- A return goes to what an exception-pc register reads. -/
theorem pcInv_return {s t : State} {x : Xlen} {w : Word} (hs : PcInv s) (hc : t.cfg = s.cfg) (hm : t.misa = s.misa)
    (hp : t.pc = s.toReg x (s.epcRead w)) : PcInv t :=
  pcInv_intro hs hc (by rw [hp, hasC_congr hm]; exact aligned_congr (toReg_mod4 _ _ _) (epcRead_aligned s w))

/-- A write of `misa` disables C only where the next instruction is four-byte aligned (`11_state_machine_csrs.md` R86). -/
theorem misaTarget_aligned (s : State) (w : Word) (h : Aligned s.hasC s.nextPc) :
    Aligned ((s.misaTarget w).ext.getLsbD letterC) s.nextPc := by
  unfold State.misaTarget
  extract_lets x e
  split
  · exact h
  · rename_i hg
    have hg : ¬(e.getLsbD letterC = false ∧ s.hasC = true ∧ ¬s.nextPc.toNat % 4 = 0) := fun hn => hg (by
      simpa [turnedOn, State.hasC, State.has] using .inr ⟨⟨hn.1, hn.2.1⟩, hn.2.2⟩)
    show Aligned (e.getLsbD letterC) s.nextPc
    cases he : e.getLsbD letterC with
    | false =>
      cases hC : s.hasC with
      | false => rwa [hC] at h
      | true =>
        show s.nextPc.toNat % 4 = 0
        exact Decidable.not_not.mp fun h4 => hg ⟨he, hC, h4⟩
    | true =>
      cases hC : s.hasC with
      | false => rw [hC] at h; exact aligned_of_mod4 h true
      | true => rwa [hC] at h

theorem csrEnd_pcInv {s t : State} {c : Csr} (h : CsrEnd s c t) (hs : PcInv s) : PcInv t := by
  obtain ⟨x, hx⟩ := csrEnd_base h
  have hpc : t.pc = s.nextPc := congrArg CsrBase.pc hx
  have hcfg : t.cfg = s.cfg := congrArg CsrBase.cfg hx
  have hmod : t.pc.toNat % 4 = s.pc.toNat % 4 := by rw [hpc, nextPc_mod4]
  obtain ⟨hm, -⟩ | ⟨-, hm, -⟩ | ⟨-, n, r, w, hm, -⟩ := csrEnd_cases h
  · exact pcInv_congr hcfg hm hmod hs
  · exact pcInv_congr hcfg hm hmod hs
  · refine pcInv_intro hs hcfg ?_
    obtain ⟨v, hv⟩ := writeX_eq s n r
    rw [(setMisa_spec (s.writeX n r) w).2.2.1, hv] at hm
    rw [hpc, State.hasC, State.has, hm]
    exact misaTarget_aligned { s with x := v } w (aligned_congr (nextPc_mod4 s) hs.2)

theorem near_pcInv {s u : State} (h : Near s u) (hs : PcInv s) : PcInv u :=
  pcInv_congr h.cfg h.misa (by rw [h.pc]) hs

theorem ends_pcInv {s t : State} (h : Ends s t) (hs : PcInv s) : PcInv t := by
  have hcount := countInstret_pcInv hs
  cases h with
  | trap u intr e hu => exact takeTrap_pcInv intr e (near_pcInv hu hs)
  | retire u hu => exact retire_pcInv (near_pcInv hu hs)
  | stall => exact hs
  | mret | sretS | sretVs => exact maybeClearResv_pcInv (pcInv_return hcount rfl rfl rfl)
  | csr n c write hn hok h => exact csrEnd_pcInv h hs

theorem takeNmi_pcInv {s : State} (hs : PcInv s) : PcInv s.takeNmi :=
  pcInv_intro hs rfl (aligned_of_mod4 ((toReg_mod4 _ _ _).trans hs.1.2) _)

theorem kept_pcInv : Kept PcInv where
  begins := by rintro s u ⟨p, a, b, l, rfl⟩; exact id
  near := near_pcInv
  ends := ends_pcInv
  event := by
    intro s e hs
    obtain h | h | ⟨h, -⟩ := event_cases s e
    · obtain h' | h' := nmi_cases s <;> rw [h, h']
      · exact takeNmi_pcInv hs
      · exact takeNmi_pcInv (retire_pcInv hs)
    · rw [h]; exact pcInv_intro hs rfl (aligned_of_mod4 hs.1.1 _)
    · simp only [eventBase, Prod.mk.injEq] at h
      exact pcInv_congr h.2.2.2.2.2.2 h.2.2.2.1 (by rw [h.1]) hs

/-- Settles O56: every way to change `pc` leaves its two low bits, or clears them as IALIGN needs; a write of `misa` that would
make IALIGN grow under a misaligned successor is suppressed (`misaTarget_aligned`). -/
theorem pcStaysAligned : Obligations.PcStaysAligned := fun _ _ he hp h => kept_pcInv.step ⟨he, hp⟩ h

/-- Settles O59: the machine after reset, evaluated, with the general facts about reset where there is one. -/
theorem resetMeetsInvariants : Obligations.ResetMeetsInvariants :=
  ⟨wf_reset, resetWith_legalModes _, mprvOk_m rfl, ⟨rfl, rfl⟩, aligned_of_mod4 rfl _⟩

end Sys2Proof.Proofs.Invariants
end

section
/-!
SUPPORT. Traps: where they go and what they write (`60_exceptions.md` sections 5 and 6, `61_exceptions_hypervisor.md` section 4),
interrupts (`60_exceptions.md` section 4), and the instructions that trap.
-/

namespace Sys2Proof.Proofs.Traps

open Sys2Proof Sys2Proof.Machine Sys2Proof.Laws Sys2Proof.Proofs.Endings

/-! ### Where a trap goes -/

theorem takeTrap_m {s : State} {intr : Bool} {e : Exc}
    (h : s.priv = .m ∨ (if intr then s.mideleg else s.medeleg).getLsbD e.cause = false) :
    s.takeTrap intr e = s.trapM intr e := by
  unfold State.takeTrap State.destination
  rw [if_pos h]

theorem takeTrap_s {s : State} {intr : Bool} {e : Exc} (hp : s.priv ≠ .m)
    (h1 : (if intr then s.mideleg else s.medeleg).getLsbD e.cause = true)
    (h2 : s.v = false ∨ (if intr then s.hideleg else s.hedeleg).getLsbD e.cause = false) :
    s.takeTrap intr e = s.trapS intr e := by
  have h2' : (s.v && (if intr then s.hideleg else s.hedeleg).getLsbD e.cause) = false := Bool.and_eq_false_iff.mpr h2
  unfold State.takeTrap State.destination
  rw [if_neg (by simp [hp, h1]), h2']
  rfl

theorem takeTrap_vs {s : State} {intr : Bool} {e : Exc} (hp : s.priv ≠ .m) (hv : s.v = true)
    (h1 : (if intr then s.mideleg else s.medeleg).getLsbD e.cause = true)
    (h2 : (if intr then s.hideleg else s.hedeleg).getLsbD e.cause = true) :
    s.takeTrap intr e = s.trapVs intr e := by
  unfold State.takeTrap State.destination
  rw [if_neg (by simp [hp, h1]), hv, h2]
  rfl

/-! ### What a trap writes -/

/-- A trap vector with its base and, for an interrupt in the vectored mode, its offset (`60_exceptions.md` R856). -/
theorem vector_eq (w : Word) (intr : Bool) (cause : Nat) :
    vector w intr cause =
      (w &&& ~~~(3 : Word)) + if intr = true ∧ w &&& 3 = 1 then BitVec.ofNat 64 (4 * cause) else 0 := by
  unfold vector
  dsimp only
  split
  · rfl
  · exact (BitVec.add_zero _).symm

/-- The previous mode in a one-bit SPP. -/
theorem bit0_eq {p : Priv} (h : p ≠ .m) : p.bit0 = decide (p = .s) := by
  cases p with
  | m => exact absurd rfl h
  | s | u => rfl

/-- Settles O9: the destination is M-mode (`takeTrap_m`), and the clauses read off what `State.trapM` writes. -/
theorem trapIntoM : Obligations.TrapIntoM := by
  intro s intr e h
  rw [takeTrap_m h]
  refine ⟨rfl, rfl, rfl, rfl, rfl, epcWord_holds _ _ _, rfl, tvalWord_holds _ _ _, fun hH => ?withH, fun hH => ?withoutH, ?_,
    rfl⟩
  case withH => simp [State.trapM, hH]
  case withoutH => simp [State.trapM, hH]
  exact congrArg (s.toReg s.mxlen) (vector_eq _ _ _)

/-- Settles O10: the destination is S-mode (`takeTrap_s`), and the clauses read off what `State.trapS` writes. -/
theorem trapIntoS : Obligations.TrapIntoS := by
  intro s intr e hp h1 h2
  rw [takeTrap_s hp h1 h2]
  refine ⟨rfl, rfl, rfl, rfl, bit0_eq hp, epcWord_holds _ _ _, rfl, tvalWord_holds _ _ _, fun hH => ?withH,
    fun hH => ?withoutH, ?_, ?frame⟩
  case withH => simp [State.trapS, hH, bit0_eq hp]
  case withoutH => simp [State.trapS, hH]
  case frame => cases hH : s.hasH <;> simp [State.trapS, State.sansTrapS, hH]
  exact congrArg (s.toReg s.sxlen) (vector_eq _ _ _)

/-- Settles O11: the destination is VS-mode (`takeTrap_vs`), and the clauses read off what `State.trapVs` writes. -/
theorem trapIntoVs : Obligations.TrapIntoVs := by
  intro s intr e hp hv h1 h2
  rw [takeTrap_vs hp hv h1 h2]
  exact ⟨rfl, rfl, rfl, rfl, bit0_eq hp, epcWord_holds _ _ _, rfl, tvalWord_holds _ _ _,
    congrArg (s.toReg s.vsxlen) (vector_eq _ _ _), rfl⟩

theorem rank_le_s {p : Priv} (v : Bool) (h : p ≠ .m) : rank p v ≤ rank .s v := by
  cases p with
  | m => exact absurd rfl h
  | s | u => cases v <;> decide

theorem rank_s_le_hs (v : Bool) : rank .s v ≤ rank .s false := by cases v <;> decide

theorem rank_le_m (p : Priv) (v w : Bool) : rank p v ≤ rank .m w := by
  cases p <;> cases v <;> cases w <;> decide

/-- Settles O12: M-mode is above every mode, HS-mode above all below M-mode, and VS-mode above VU-mode, from where alone a trap
goes there. -/
theorem trapsNeverGoDown : Obligations.TrapsNeverGoDown := by
  intro s intr e
  dsimp only
  obtain h | ⟨h, hp, -⟩ | ⟨h, hp, hv, -⟩ := takeTrap_cases s intr e <;> rw [h]
  · exact rank_le_m _ _ _
  · exact Nat.le_trans (rank_le_s s.v hp) (rank_s_le_hs s.v)
  · rw [hv]; exact rank_le_s true hp

/-! ### The trap value of an instruction's exception -/

/-- An exception that concerns no guest physical address and no instruction: only its trap value is the policy's. -/
theorem raise_simple (s : State) (cause : Nat) (w : Word) (g : Bool) :
    s.raise { cause := cause, tval := w, gva := g, tval2 := 0, tinst := 0 } =
      s.takeTrap false
        { cause := cause, tval := if s.informs cause then w else 0, gva := s.informs cause && g, tval2 := 0, tinst := 0 } := by
  have hz : s.gpaReported { cause := cause, tval := w, gva := g, tval2 := 0, tinst := 0 } = 0 := gpaReported_zero rfl s
  unfold State.raise State.applyPolicy
  rw [hz]
  cases s.informs cause <;> simp [isPseudo]

/-- Settles O13: the policy decides between the word and zero (`raise_simple`). -/
theorem instructionTrapValues : Obligations.InstructionTrapValues := fun s w =>
  ⟨(raise_simple s 2 (w.setWidth 64) false).trans (by rw [Bool.and_false]; rfl),
   (raise_simple s 22 (w.setWidth 64) false).trans (by rw [Bool.and_false]; rfl)⟩

theorem ecallCause_eq (s : State) :
    s.ecallCause = if s.priv = .m then 11 else if s.priv = .s then (if s.v then 10 else 9) else 8 := by
  unfold State.ecallCause
  cases s.priv <;> cases s.v <;> rfl

/-- Settles O14: the code is that of the mode, and a zero trap value is zero under every policy. -/
theorem ecallTraps : Obligations.EcallTraps := by
  intro s
  rw [show exec .ecall s = .next (s.raise _) from rfl, raise_simple, ite_self, Bool.and_false, ecallCause_eq]

/-- Settles O15: the trap value is `pc`, or zero by policy (`raise_simple`). -/
theorem ebreakTraps : Obligations.EbreakTraps := by
  intro s
  rw [show exec .ebreak s = .next (s.raise _) from rfl, raise_simple]
  rfl

end Sys2Proof.Proofs.Traps
end

section
/-!
SUPPORT. The step of the hart: the instruction that a fetch brings, the fetch in M-mode, and interrupts (`60_exceptions.md`
section 4, `20_memory.md` sections 6 and 7).
-/

namespace Sys2Proof.Proofs.Steps

open Sys2Proof Sys2Proof.Machine Sys2Proof.Laws Sys2Proof.Proofs.Endings Sys2Proof.Proofs.Encoding Sys2Proof.Proofs.Traps

/-! ### The step by what it begins with -/

theorem step_hart {s : State} (hi : s.inputs = []) : step s = hartAct s.syncIrq := by
  have hi' : s.syncIrq.inputs = [] := hi
  unfold step machineStep
  dsimp only
  rw [hi']

theorem hartAct_runs {s : State} (hw : s.wait = none) (h : s.takeable = none) : hartAct s = runNext s := by
  simp only [hartAct, hw, h]

theorem hartAct_interrupted {s : State} {i : Nat} (hw : s.wait = none) (h : s.takeable = some i) :
    hartAct s = .next (s.takeTrap true (intrExc i)) := by
  simp only [hartAct, hw, h]

theorem runNext_of_fetch {s t : State} {w : IWord} (h : fetch s = .ok (.word w) t) : runNext s = runWord w t := by
  unfold runNext
  rw [h]

theorem step_of_fetches {s t : State} {w : IWord} (h : s.fetches w t) : step s = runWord w t := by
  obtain ⟨hi, hw, hn, hf⟩ := h
  rw [step_hart hi, hartAct_runs (s := s.syncIrq) hw hn]
  exact runNext_of_fetch hf

theorem runWord_of_decode {w : IWord} {i : Instr} (h : decodeWord w = .ok i) (s : State) : runWord w s = exec i s := by
  unfold runWord
  rw [h]

/-- Settles O5: a fetch changes only the memory system (`still_fetch`). -/
theorem stepRunsDecoded : Obligations.StepRunsDecoded := by
  intro s t w i h hd
  have hq := still_fetch s.syncIrq
  rw [h.2.2.2] at hq
  exact ⟨(step_of_fetches h).trans (runWord_of_decode hd t), hq.1⟩

/-! ### Words of the opcode SYSTEM that are no instruction -/

theorem decodePriv_error {f7 r2 r1 d : Nat} {e : DecodeReject} (h : decodePriv f7 r2 r1 d = .error e) :
    e = .custom ∨ e = .reserved := by
  unfold decodePriv at h
  repeat' replace h := ite_eq_cases h; obtain ⟨_, h⟩ | ⟨_, h⟩ := h
  all_goals cases h
  all_goals simp

theorem decodeHls_error {f7 r2 r1 d : Nat} {e : DecodeReject} (h : decodeHls f7 r2 r1 d = .error e) : e = .reserved := by
  unfold decodeHls at h
  repeat' split at h
  all_goals cases h
  all_goals rfl

theorem decodeNat_error {w : Nat} {e : DecodeReject} (ho : fieldOpcode w = opSystem) (h : decodeNat w = .error e) :
    e ≠ .otherOpcode := by
  rintro rfl
  unfold decodeNat at h
  rw [ho] at h
  split at h
  · cases h
  · dsimp only at h
    rw [if_neg (by simp)] at h
    split at h
    case h_1 => obtain h | h := decodePriv_error h <;> cases h
    case h_5 => cases decodeHls_error h
    all_goals cases h

/-- Settles O4: such a word does not decode (`encodeOfDecode`), and its opcode is not another one. -/
theorem reservedSystemWordsTrap : Obligations.ReservedSystemWordsTrap := by
  intro s t w ho hw hf
  rw [step_of_fetches hf]
  unfold runWord
  cases hd : decodeWord w with
  | ok i =>
    obtain ⟨hwf, he⟩ := encodeOfDecode w i hd
    exact absurd he (hw i hwf)
  | error e =>
    have hne := decodeNat_error ho hd
    cases e with
    | otherOpcode => exact absurd rfl hne
    | short | notWord | custom | reserved => rfl

/-! ### A fetch in M-mode (`20_memory.md` section 6) -/

theorem dedup_const {α : Type} [BEq α] [LawfulBEq α] (a : α) (l : List α) (hne : l ≠ []) (h : ∀ x ∈ l, x = a) :
    dedup l = [a] := by
  induction l with
  | nil => exact absurd rfl hne
  | cons b l ih =>
    have hb : b = a := h b List.mem_cons_self
    have ih' := fun hl => ih hl fun x hx => h x (List.mem_cons_of_mem _ hx)
    unfold dedup
    cases l with
    | nil => simp [hb, dedup]
    | cons c l =>
      have hc : c = a := h c (by simp)
      rw [if_pos (by simp [hb, hc])]
      exact ih' (by simp)

/-- A choice among candidates that all agree is no draw. -/
theorem pick_const {α : Type} [BEq α] [LawfulBEq α] (s : State) (d a : α) (l : List α) (hne : l ≠ []) (h : ∀ x ∈ l, x = a) :
    s.pick d l = (a, s) := by
  unfold State.pick
  rw [dedup_const a l hne h]
  rfl

/-- With no earlier settings the PMP check is that of the settings in force. -/
theorem pmpOk_settled {s : State} {guest : Bool} (h : ∀ p ∈ s.pmps guest, p = s.pmp) (acc : Acc) (priv : Priv) (a n : Nat) :
    s.pmpOk guest acc priv a n = (s.pmpCheck s.pmp acc priv a n, s) := by
  refine pick_const s true _ _ ?_ fun x hx => ?_
  · rw [State.pmps, List.map_cons]; exact List.cons_ne_nil _ _
  · obtain ⟨p, hp, rfl⟩ := List.mem_map.mp hx
    rw [h p hp]

/-- Bytes of main memory are read as memory holds them. -/
theorem physRead_main {s : State} {a n : Nat} (h : s.mainMemory a n) : s.physRead a n = .ok (Memory.bytes s.mem a n) := by
  obtain ⟨hd, hio⟩ := h
  unfold State.physRead
  rw [hd, hio]
  rfl

/-- With no byte stored over, a fetch sees what memory holds. -/
theorem fetchOld_fresh {s : State} (h : s.codeOld = []) (a : Nat) (l : List Byte) : fetchOld a l s = (l, s) := by
  induction l generalizing a with
  | nil => rfl
  | cons b l ih =>
    have hb : s.fetchByte a b = (b, s) := by unfold State.fetchByte; rw [h]; rfl
    rw [fetchOld, hb]
    dsimp only
    rw [ih]

theorem checkPart_m {s : State} {o : Origin} {len n : Nat} (h : ∀ p ∈ s.pmps false, p = s.pmp)
    (hp : s.pmpCheck s.pmp o.acc .m o.va.toNat len = true) (ha : s.partPma o.acc o.va.toNat len n = true) :
    checkPart o .m false len n s = .ok o.va.toNat s := by
  unfold checkPart translateAddr
  simp only [Res.bind, Origin.bare, pmpOk_settled h, hp, ha, Bool.and_self, if_true]

theorem wordOf_four (b0 b1 b2 b3 : Byte) : wordOf [b0, b1, b2, b3] = wordOfBytes b0 b1 b2 b3 := by
  apply BitVec.eq_of_toNat_eq
  have h : ∀ a b : Nat, b < 2 ^ 8 → a * 2 ^ 8 ||| b = a * 2 ^ 8 + b := fun a b hb => by
    rw [Nat.mul_comm, ← Nat.two_pow_add_eq_or_of_lt hb]
  have := b0.isLt; have := b1.isLt; have := b2.isLt; have := b3.isLt
  simp only [wordOf, leNat, wordOfBytes, BitVec.toNat_append, BitVec.toNat_ofNat, Nat.shiftLeft_eq]
  rw [h _ _ b2.isLt, h _ _ b1.isLt, h _ _ b0.isLt]
  omega

/-- Four bytes that decode, as the word that a fetch makes of them. -/
theorem decodeWord_of_bytes {m : List Host.Cell} {a : Nat} {i : Instr}
    (h : decodeBytes (Memory.bytes m a 4) = .ok (i, [])) : decodeWord (wordOf (Memory.bytes m a 4)) = .ok i := by
  simp only [Memory.bytes] at h ⊢
  rw [wordOf_four]
  cases hd : decodeWord (wordOfBytes (Memory.read m a) (Memory.read m (a + 1)) (Memory.read m (a + 1 + 1))
    (Memory.read m (a + 1 + 1 + 1)))
  · simp [decodeBytes, hd] at h
  · simp only [decodeBytes, hd] at h
    cases h
    rfl

/-- Settles O6: without translation, and with nothing earlier that a fetch could see, the fetch brings the four bytes. -/
theorem stepInMachineMode : Obligations.StepInMachineMode := by
  intro s i a hi hw hn hp hv hC ha hal hpmps hold hpmp hpma hmain hdec
  have hword : runWord (wordOf (Memory.bytes s.mem a 4)) s.syncIrq = exec i s.syncIrq :=
    runWord_of_decode (decodeWord_of_bytes hdec) _
  rw [← hword]
  refine step_of_fetches ⟨hi, hw, hn, ?_⟩
  have hcheck : checkPart { acc := .fetch, va := maskX s.xlen s.pc, gva := s.syncIrq.v } s.syncIrq.priv s.syncIrq.v 4 4 s.syncIrq
      = .ok a s.syncIrq := by
    rw [syncIrq_priv, syncIrq_v, hp, hv, ha]
    rw [ha] at hpmp hpma
    exact checkPart_m (s := s.syncIrq) hpmps hpmp hpma
  have hread : s.syncIrq.physRead a 4 = .ok (Memory.bytes s.mem a 4) := physRead_main (s := s.syncIrq) hmain
  have hcond : (!s.syncIrq.hasC && decide ((maskX s.syncIrq.xlen s.syncIrq.pc).toNat % 4 = 0)) = true := by
    rw [Bool.and_eq_true, Bool.not_eq_true', decide_eq_true_eq]
    exact ⟨hC, ha ▸ hal⟩
  unfold fetch fetchBytes
  dsimp only
  rw [if_pos hcond, show maskX s.syncIrq.xlen s.syncIrq.pc = maskX s.xlen s.pc from rfl, hcheck]
  simp only [Res.bind, hread, fetchOld_fresh (s := s.syncIrq) hold]

/-! ### Interrupts (`60_exceptions.md` R841, R842) -/

theorem firstOf_mem {l : List Nat} {w : Word} {i : Nat} (h : firstOf l w = some i) : w.getLsbD i = true :=
  List.find?_some (p := fun i => w.getLsbD i) h

theorem pendingEnabled_bit {s : State} {i : Nat} (h : s.pendingEnabled.getLsbD i = true) :
    s.mip.getLsbD i = true ∧ s.mie.getLsbD i = true := by
  unfold State.pendingEnabled at h
  rwa [BitVec.getLsbD_and, Bool.and_eq_true] at h

/-- An interrupt for M-mode is pending, enabled and not delegated, and M-mode's condition holds. -/
theorem forM_bit {s : State} {i : Nat} (h : s.forM.getLsbD i = true) :
    s.pendingEnabled.getLsbD i = true ∧ s.mideleg.getLsbD i = false ∧ (s.priv ≠ .m ∨ s.mst.mie = true) := by
  unfold State.forM at h
  split at h
  · rename_i hc
    simp only [BitVec.getLsbD_and, BitVec.getLsbD_not, Bool.and_eq_true, Bool.not_eq_true'] at h
    exact ⟨h.1, h.2.2, hc⟩
  · simp at h

/-- An interrupt for S-mode is pending, enabled and delegated, but not further, and S-mode's condition holds. -/
theorem forS_bit {s : State} {i : Nat} (h : s.forS.getLsbD i = true) :
    s.pendingEnabled.getLsbD i = true ∧ s.mideleg.getLsbD i = true ∧ s.hideleg.getLsbD i = false ∧ s.priv ≠ .m ∧
      (s.v = true ∨ s.priv = .u ∨ s.mst.sie = true) := by
  unfold State.forS at h
  split at h
  · rename_i hc
    simp only [BitVec.getLsbD_and, BitVec.getLsbD_not, Bool.and_eq_true, Bool.not_eq_true'] at h
    exact ⟨h.1.1, h.1.2, h.2.2, hc⟩
  · simp at h

/-- An interrupt for VS-mode is pending, enabled and delegated twice, and VS-mode's condition holds. -/
theorem forVs_bit {s : State} {i : Nat} (h : s.forVs.getLsbD i = true) :
    s.pendingEnabled.getLsbD i = true ∧ s.mideleg.getLsbD i = true ∧ s.hideleg.getLsbD i = true ∧ s.v = true ∧
      (s.priv = .u ∨ s.vst.sie = true) := by
  unfold State.forVs at h
  split at h
  · rename_i hc
    simp only [BitVec.getLsbD_and, Bool.and_eq_true] at h
    exact ⟨h.1.1, h.1.2, h.2, hc⟩
  · simp at h

theorem takeable_cases {s : State} {i : Nat} (h : s.takeable = some i) :
    s.forM.getLsbD i = true ∨ s.forS.getLsbD i = true ∨ s.forVs.getLsbD i = true := by
  unfold State.takeable at h
  split at h
  · exact .inl (firstOf_mem h)
  · split at h
    · exact .inr (.inl (firstOf_mem h))
    · split at h
      · exact .inr (.inr (firstOf_mem h))
      · cases h

/-- Settles O7: the set the interrupt comes from says where its trap goes, and that mode's condition. -/
theorem takenInterruptIsEnabled : Obligations.TakenInterruptIsEnabled := by
  intro s i hmode h
  obtain h | h | h := takeable_cases h
  · obtain ⟨hp, hd, hc⟩ := forM_bit h
    have hdest : s.destination true i = .m := by simp [State.destination, hd]
    rw [hdest]
    exact ⟨(pendingEnabled_bit hp).1, (pendingEnabled_bit hp).2, hc⟩
  · obtain ⟨hp, hd, hh, hc⟩ := forS_bit h
    have hdest : s.destination true i = .s := by simp [State.destination, hd, hh, hc.1]
    rw [hdest]
    exact ⟨(pendingEnabled_bit hp).1, (pendingEnabled_bit hp).2, hc⟩
  · obtain ⟨hp, hd, hh, hv, hc⟩ := forVs_bit h
    have hdest : s.destination true i = .vs := by simp [State.destination, hd, hh, hv, (hmode hv).2]
    rw [hdest]
    exact ⟨(pendingEnabled_bit hp).1, (pendingEnabled_bit hp).2, hv, hc⟩

/-! ### Every pending and enabled interrupt has its place in the order -/

theorem getLsbD_of_subset {a b : Word} (h : a &&& b = a) {i : Nat} (hi : a.getLsbD i = true) : b.getLsbD i = true := by
  rw [← h, BitVec.getLsbD_and, Bool.and_eq_true] at hi
  exact hi.2

theorem getLsbD_platMask_low (s : State) {i : Nat} (h : i < 16) : s.platMask.getLsbD i = false := by
  have hlow : ∀ j < 16, (~~~(0xFFFF : Word)).getLsbD j = false := by decide
  rw [State.platMask, MachineCsrs.getLsbD_maskX (by omega), BitVec.getLsbD_and, hlow i h, Bool.and_false]

theorem sImpl_subset (s : State) {i : Nat} (h : s.sImpl.getLsbD i = true) : (0x222 : Word).getLsbD i = true := by
  unfold State.sImpl at h
  split at h
  · rw [BitVec.getLsbD_and, Bool.and_eq_true] at h; exact h.2
  · simp at h

/-- The standard interrupts. -/
theorem mieMask_bit (s : State) {i : Nat} (h : s.mieMask.getLsbD i = true) :
    (0x1EEE : Word).getLsbD i = true ∨ s.platMask.getLsbD i = true := by
  have ite_bit : ∀ (c : Prop) [Decidable c] (a : Word), a &&& 0x1EEE = a →
      (if c then a else 0).getLsbD i = true → (0x1EEE : Word).getLsbD i = true := by
    intro c _ a ha h
    split at h
    · exact getLsbD_of_subset ha h
    · simp at h
  unfold State.mieMask at h
  simp only [BitVec.getLsbD_or, Bool.or_eq_true] at h
  obtain ((((h | h) | h) | h) | h) | h := h
  · exact .inl (getLsbD_of_subset (a := 0x880) (by decide) h)
  · exact .inl (ite_bit _ 8 (by decide) h)
  · exact .inl (getLsbD_of_subset (a := 0x222) (by decide) (sImpl_subset s h))
  · exact .inl (ite_bit _ 0x444 (by decide) h)
  · exact .inl (ite_bit _ 0x1000 (by decide) h)
  · exact .inr h

theorem mem_order {s : State} {i : Nat} (h : s.mie.getLsbD i = true) : i ∈ s.platOrder ++ orderM := by
  have hi : i < 64 := BitVec.lt_of_getLsbD h
  have hlow : ∀ j < 16, (0x1EEE : Word).getLsbD j = true → j ∈ orderM := by decide
  unfold State.mie at h
  rw [BitVec.getLsbD_and, Bool.and_eq_true] at h
  by_cases h16 : i < 16
  · refine List.mem_append_right _ (hlow i h16 ?_)
    obtain h | h := mieMask_bit s h.2
    · exact h
    · rw [getLsbD_platMask_low s h16] at h; cases h
  · refine List.mem_append_left _ (List.mem_append_right _ ?_)
    rw [List.mem_iff_getElem]
    exact ⟨i - 16, by simp; omega, by simp; omega⟩

/-- Where some undelegated interrupt is pending and enabled and M-mode's condition holds, one is taken into M-mode. -/
theorem takeable_of_forM {s : State} (hc : s.priv ≠ .m ∨ s.mst.mie = true) (h : s.mip &&& s.mie &&& ~~~s.mideleg ≠ 0) :
    ∃ i, s.takeable = some i ∧ s.forM.getLsbD i = true := by
  have hf : s.forM = s.mip &&& s.mie &&& ~~~s.mideleg := if_pos hc
  obtain ⟨j, hj⟩ : ∃ j, s.forM.getLsbD j = true := by
    refine Classical.byContradiction fun hno => h (hf ▸ BitVec.eq_of_getLsbD_eq fun j _ => ?_)
    have := fun hj => hno ⟨j, hj⟩
    simpa using this
  have hmem : j ∈ s.platOrder ++ orderM := mem_order (pendingEnabled_bit (forM_bit hj).1).2
  have hsome : (firstOf (s.platOrder ++ orderM) s.forM).isSome = true := by
    unfold firstOf
    rw [List.find?_isSome]
    exact ⟨j, hmem, hj⟩
  obtain ⟨i, hi⟩ := Option.isSome_iff_exists.mp hsome
  refine ⟨i, ?_, firstOf_mem hi⟩
  unfold State.takeable
  rw [if_pos (by rw [hf]; exact h), hi]

/-- Settles O8: some undelegated interrupt is in the order (`takeable_of_forM`), and its trap goes to M-mode. -/
theorem enabledInterruptIsTaken : Obligations.EnabledInterruptIsTaken := by
  intro s hi hw hc h
  obtain ⟨i, ht, hf⟩ := takeable_of_forM (s := s.syncIrq) hc h
  obtain ⟨hp, hd, -⟩ := forM_bit hf
  have htrap : s.syncIrq.takeTrap true (intrExc i) = s.syncIrq.trapM true (intrExc i) := takeTrap_m (.inr hd)
  refine ⟨s.syncIrq.trapM true (intrExc i), i, ?_, (pendingEnabled_bit hp).1, (pendingEnabled_bit hp).2, hd, rfl, rfl, rfl, rfl,
    rfl, epcWord_holds _ _ _, ?_, tvalWord_zero _ _, rfl⟩
  · rw [step_hart hi, hartAct_interrupted (s := s.syncIrq) hw ht, ← htrap]
  · exact congrArg (BitVec.ofNat 64) (Nat.add_comm _ _)

end Sys2Proof.Proofs.Steps
end

section
/-!
SUPPORT. MRET and SRET (`41_machine_instructions.md` section 2).
-/

namespace Sys2Proof.Proofs.Returns

open Sys2Proof Sys2Proof.Machine Sys2Proof.Laws Sys2Proof.Proofs.Endings

/-! ### The permission check of SRET -/

theorem sretVerdict_noS {s : State} (hS : s.hasS = false) : s.sretVerdict = .illegal := by
  unfold State.sretVerdict
  rw [hS]
  rfl

theorem sretVerdict_m {s : State} (hS : s.hasS = true) (hp : s.priv = .m) : s.sretVerdict = .ok := by
  unfold State.sretVerdict
  rw [hS, hp]
  rfl

theorem sretVerdict_s {s : State} (hS : s.hasS = true) (hp : s.priv = .s) (hv : s.v = false) :
    s.sretVerdict = if s.mst.tsr then .illegal else .ok := by
  unfold State.sretVerdict
  rw [hS, hp, hv]
  rfl

theorem sretVerdict_vs {s : State} (hS : s.hasS = true) (hp : s.priv = .s) (hv : s.v = true) :
    s.sretVerdict = if s.hst.vtsr then .virtual else .ok := by
  unfold State.sretVerdict
  rw [hS, hp, hv]
  rfl

theorem sretVerdict_u {s : State} (hS : s.hasS = true) (hp : s.priv = .u) :
    s.sretVerdict = if s.v then .virtual else .illegal := by
  unfold State.sretVerdict
  rw [hS, hp]
  cases s.v <;> rfl

/-! ### What they do where they are permitted -/

theorem exec_mret_m {s : State} (hp : s.priv = .m) : exec .mret s = .next s.countInstret.returnM.maybeClearResv := by
  rw [exec_mret, show s.mretVerdict = .ok from if_pos hp]
  rfl

theorem exec_sret_ok {s : State} (h : s.sretVerdict = .ok) :
    exec .sret s = .next (if s.v then s.countInstret.returnVs else s.countInstret.returnS).maybeClearResv := by
  rw [exec_sret, h]
  rfl

/-- Settles O16: the instruction counts, returns and may clear the reservation (`maybeClearResv_spec`). -/
theorem mretReturns : Obligations.MretReturns := by
  intro s hp
  obtain ⟨r, n, hend, hr⟩ := maybeClearResv_spec s.countInstret.returnM
  refine ⟨_, exec_mret_m hp, ?_⟩
  rw [hend]
  rw [countInstret_eq] at hr ⊢
  refine ⟨rfl, rfl, rfl, rfl, rfl, ?mpv, ?mprv, rfl, rfl, hr, rfl⟩
  case mpv =>
    change (if s.hasH then false else s.mst.mpv) = _
    cases s.hasH <;> rfl
  case mprv =>
    change (if s.mst.mpp = .m then s.mst.mprv else false) = _
    by_cases h : s.mst.mpp = .m <;> simp [h]

theorem privOfSpp_eq (b : Bool) : privOfSpp b = if b then .s else .u := by cases b <;> rfl

/-- Settles O17: `State.returnS` after counting, before the reservation may be cleared. -/
theorem sretReturns : Obligations.SretReturns := by
  intro s hS hv hp
  have hok : s.sretVerdict = .ok := by
    obtain hp | ⟨hp, ht⟩ := hp
    · exact sretVerdict_m hS hp
    · rw [sretVerdict_s hS hp hv, ht]; rfl
  obtain ⟨r, n, hend, hr⟩ := maybeClearResv_spec s.countInstret.returnS
  refine ⟨_, exec_sret_ok hok, ?_⟩
  rw [hv, if_neg Bool.false_ne_true, hend]
  rw [countInstret_eq] at hr ⊢
  refine ⟨privOfSpp_eq _, rfl, rfl, rfl, rfl, rfl, ?spv, rfl, rfl, hr, ?frame⟩
  case spv =>
    change (if s.hasH then { s.hst with spv := false } else s.hst).spv = _
    cases s.hasH <;> rfl
  case frame =>
    change ({ s with hst := { (if s.hasH then { s.hst with spv := false } else s.hst) with spv := false } } : State).sansSret = _
    cases s.hasH <;> rfl

/-- Settles O18: `State.returnVs` after counting, before the reservation may be cleared. -/
theorem sretReturnsInGuest : Obligations.SretReturnsInGuest := by
  intro s hS hv hp ht
  have hok : s.sretVerdict = .ok := by rw [sretVerdict_vs hS hp hv, ht]; rfl
  obtain ⟨r, n, hend, hr⟩ := maybeClearResv_spec s.countInstret.returnVs
  refine ⟨_, exec_sret_ok hok, ?_⟩
  rw [hv, if_pos rfl, hend]
  rw [countInstret_eq] at hr ⊢
  exact ⟨privOfSpp_eq _, hv, rfl, rfl, rfl, rfl, rfl, rfl, hr, rfl⟩

/-! ### Where they are not permitted -/

theorem exec_sret_illegal {s : State} (h : s.sretVerdict = .illegal) : RaisesIllegal .sret s := by
  unfold RaisesIllegal
  rw [exec_sret, h]
  rfl

theorem exec_sret_virtual {s : State} (h : s.sretVerdict = .virtual) : RaisesVirtual .sret s := by
  unfold RaisesVirtual
  rw [exec_sret, h]
  rfl

theorem exec_mret_illegal {s : State} (hp : s.priv ≠ .m) : RaisesIllegal .mret s := by
  unfold RaisesIllegal
  rw [exec_mret, show s.mretVerdict = .illegal from if_neg hp]
  rfl

/-- Settles O19: one row of the check for each clause. -/
theorem returnPermissions : Obligations.ReturnPermissions := by
  intro s
  refine ⟨exec_mret_illegal, fun hS => exec_sret_illegal (sretVerdict_noS hS), fun hp hv => exec_sret_illegal ?u,
    fun hp hv ht => exec_sret_illegal ?hs, fun hS hp hv => exec_sret_virtual ?vu,
    fun hS hp hv ht => exec_sret_virtual ?vs⟩
  case u =>
    cases hS : s.hasS
    · exact sretVerdict_noS hS
    · rw [sretVerdict_u hS hp, hv]; rfl
  case hs =>
    cases hS : s.hasS
    · exact sretVerdict_noS hS
    · rw [sretVerdict_s hS hp hv, ht]; rfl
  case vu => rw [sretVerdict_u hS hp, hv]; rfl
  case vs => rw [sretVerdict_vs hS hp hv, ht]; rfl

end Sys2Proof.Proofs.Returns
end

section
/-!
SUPPORT. WFI (`41_machine_instructions.md` section 3).
-/

namespace Sys2Proof.Proofs.Waiting

open Sys2Proof Sys2Proof.Machine Sys2Proof.Laws Sys2Proof.Proofs.Endings Sys2Proof.Proofs.Steps

/-! ### Which WFI is guarded -/

/-- Nothing limits how long a WFI may stall. -/
def Unguarded (s : State) : Prop :=
  s.priv = .m ∨ (s.mst.tw = false ∧ s.priv = .s ∧ (s.v = false ∨ s.hst.vtw = false)) ∨
    (s.mst.tw = false ∧ s.priv = .u ∧ s.v = false ∧ s.hasS = false)

theorem wfiGuard_none {s : State} (h : Unguarded s) : s.wfiGuard = none := by
  unfold State.wfiGuard
  obtain hp | ⟨ht, hp, hv | hv⟩ | ⟨ht, hp, hv, hS⟩ := h
  · rw [hp]
  · rw [hp, hv, ht]; rfl
  · rw [hp, ht, hv]
    cases s.v <;> rfl
  · rw [hp, hv, ht, hS]; rfl

theorem wfiGuard_illegal {s : State} (hp : s.priv ≠ .m)
    (h : s.mst.tw = true ∨ (s.priv = .u ∧ s.v = false ∧ s.hasS = true)) : s.wfiGuard = some 2 := by
  unfold State.wfiGuard
  obtain ht | ⟨hu, hv, hS⟩ := h
  · rw [ht]
    cases hq : s.priv with
    | m => exact absurd hq hp
    | s | u => cases s.v <;> rfl
  · rw [hu, hv, hS, Bool.or_true]; rfl

theorem wfiGuard_virtual {s : State} (hp : s.priv ≠ .m) (ht : s.mst.tw = false) (hv : s.v = true)
    (h : s.priv = .u ∨ s.hst.vtw = true) : s.wfiGuard = some 22 := by
  unfold State.wfiGuard
  rw [hv, ht]
  cases hq : s.priv with
  | m => exact absurd hq hp
  | u => rfl
  | s =>
    rw [hq] at h
    rw [h.resolve_left nofun]; rfl

/-! ### Waking up -/

theorem wakes_iff (s : State) : s.wakes = true ↔ s.mip &&& s.mie ≠ 0 := decide_eq_true_iff

theorem not_wakes_iff (s : State) : s.wakes = false ↔ s.mip &&& s.mie = 0 := by
  rw [← Bool.not_eq_true, wakes_iff, Classical.not_not]

/-! ### A WFI that begins -/

theorem execWfi_wakes {s : State} (hw : s.wakes = true) (h : s.wfiGuard = none ∨ 0 < s.cfg.wfiTimeout) :
    execWfi s = .next ({ s with stallHint := 0 } : State).retire := by
  unfold execWfi
  rw [hw]
  simp [h]

theorem execWfi_ends {s : State} (hw : s.wakes = false ∨ (s.wfiGuard ≠ none ∧ s.cfg.wfiTimeout = 0))
    (h : s.stallLength = 0) : execWfi s = .next (({ s with stallHint := 0 } : State).endWait s.wfiGuard) := by
  unfold execWfi
  dsimp only
  rw [if_neg, if_pos h]
  obtain hw | ⟨hg, ht⟩ := hw
  · simp [hw]
  · simp [hg, ht]

theorem execWfi_stalls {s : State} (hw : s.wakes = false) (h : s.stallLength ≠ 0) :
    execWfi s = .next { s with stallHint := 0, wait := some { left := s.stallLength, guard := s.wfiGuard } } := by
  unfold execWfi
  dsimp only
  rw [hw, Bool.false_and, if_neg Bool.false_ne_true, if_neg h]

theorem stallLength_unguarded {s : State} (h : s.wfiGuard = none) : s.stallLength = s.stallHint := by
  unfold State.stallLength
  rw [h]

theorem stallLength_guarded {s : State} {c : Nat} (h : s.wfiGuard = some c) :
    s.stallLength = min s.stallHint s.cfg.wfiTimeout := by
  unfold State.stallLength
  rw [h]

/-- Settles O20: the two ways to retire at once, by waking (`execWfi_wakes`) and by a stall of no length. -/
theorem wfiCompletes : Obligations.WfiCompletes := by
  intro s hwait h
  rw [exec_wfi]
  have hret : Retired s ({ s with stallHint := 0 } : State).retire ∧
      { ({ s with stallHint := 0 } : State).retire.sansProgress with stallHint := 0 } =
        { s.sansProgress with stallHint := 0 } :=
    ⟨retired_of_eq rfl rfl, by rw [sansProgress_retire]; rfl⟩
  by_cases hw : s.mip &&& s.mie ≠ 0
  · have hgo : s.wfiGuard = none ∨ 0 < s.cfg.wfiTimeout := h.imp (fun h => wfiGuard_none h.1) (·.2)
    exact ⟨_, execWfi_wakes ((wakes_iff s).mpr hw) hgo, hret⟩
  · obtain ⟨hun, hh⟩ := h.resolve_right fun h => hw h.1
    have hg := wfiGuard_none hun
    have hend := execWfi_ends (.inl ((not_wakes_iff s).mpr (Classical.not_not.mp hw)))
      ((stallLength_unguarded hg).trans (hh.resolve_right hw))
    rw [hg, show ({ s with stallHint := 0 } : State).endWait none = ({ s with stallHint := 0 } : State).retire by
      unfold State.endWait; rw [← hwait]] at hend
    exact ⟨_, hend, hret⟩

theorem execWfi_raises {s : State} {c : Nat} (hc : s.cfg.wfiTimeout = 0 ∨ (s.stallHint = 0 ∧ s.mip &&& s.mie = 0))
    (hwait : s.wait = none) (hg : s.wfiGuard = some c) :
    execWfi s = .next (({ s with stallHint := 0 } : State).raise (wfiExc c)) := by
  have hzero : s.stallLength = 0 := by
    rw [stallLength_guarded hg]
    obtain h | ⟨h, -⟩ := hc <;> rw [h]
    · exact Nat.min_zero _
    · exact Nat.zero_min _
  have hw : s.wakes = false ∨ (s.wfiGuard ≠ none ∧ s.cfg.wfiTimeout = 0) :=
    hc.elim (fun h => .inr ⟨by rw [hg]; exact Option.some_ne_none c, h⟩) fun h => .inl ((not_wakes_iff s).mpr h.2)
  rw [execWfi_ends hw hzero, hg]
  unfold State.endWait
  rw [← hwait]

/-- Settles O21: the exception is that of the guard (`execWfi_raises`). -/
theorem wfiTraps : Obligations.WfiTraps := fun _ hc hwait hp =>
  ⟨fun h => execWfi_raises hc hwait (wfiGuard_illegal hp h),
   fun ht hv h => execWfi_raises hc hwait (wfiGuard_virtual hp ht hv h)⟩

/-! ### Stalling -/

theorem execWfi_guarded {s : State} {c : Nat} (hw : s.mip &&& s.mie = 0) (hh : 0 < s.stallHint) (ht : 0 < s.cfg.wfiTimeout)
    (hg : s.wfiGuard = some c) :
    execWfi s =
      .next { s with stallHint := 0, wait := some { left := min s.stallHint s.cfg.wfiTimeout, guard := some c } } := by
  rw [execWfi_stalls ((not_wakes_iff s).mpr hw) (by rw [stallLength_guarded hg]; omega), stallLength_guarded hg, hg]

theorem step_waiting {s : State} {w : Wait} (hi : s.inputs = []) (hw : s.wait = some w) :
    step s = .next (s.syncIrq.waiting w) := by
  rw [step_hart hi]
  unfold hartAct
  rw [show s.syncIrq.wait = some w from hw]

theorem waiting_done {s : State} {w : Wait} (h : s.wakes = true ∨ (w.left = 0 ∧ w.guard = none)) :
    s.waiting w = ({ s with wait := none } : State).retire := by
  unfold State.waiting
  by_cases hw : s.wakes = true
  · rw [if_pos hw]
  · obtain ⟨hl, hg⟩ := h.resolve_left hw
    rw [if_neg hw, hl, hg]
    rfl

theorem waiting_over {s : State} {w : Wait} {c : Nat} (h : s.wakes = false) (hl : w.left = 0) (hg : w.guard = some c) :
    s.waiting w = ({ s with wait := none } : State).raise (wfiExc c) := by
  unfold State.waiting
  rw [h, hl, hg]
  rfl

theorem waiting_on {s : State} {w : Wait} {n : Nat} (h : s.wakes = false) (hl : w.left = n + 1) :
    s.waiting w = { s with wait := some { w with left := n } } := by
  unfold State.waiting
  rw [h, hl]
  rfl

theorem nextPc_syncIrq (s : State) : s.syncIrq.nextPc = s.nextPc := rfl

theorem cnt_syncIrq (s : State) : s.syncIrq.cnt = s.cnt := rfl

/-- Settles O22: a stall begins by `execWfi_stalls`, and goes on or ends by the equations of `State.waiting`. -/
theorem wfiStalls : Obligations.WfiStalls := by
  intro s
  refine ⟨fun hw hh => ⟨fun hun => ?free, fun hp ht => ⟨fun h => ?illegal, fun htw hv h => ?virtual⟩⟩, fun hi w hwait => ?_⟩
  case free =>
    have hg := wfiGuard_none hun
    have hl := stallLength_unguarded hg
    rw [exec_wfi, execWfi_stalls ((not_wakes_iff s).mpr hw) (by omega), hl, hg]
  case illegal => exact execWfi_guarded hw hh ht (wfiGuard_illegal hp h)
  case virtual => exact execWfi_guarded hw hh ht (wfiGuard_virtual hp htw hv h)
  rw [step_waiting hi hwait]
  refine ⟨fun h => ?done, fun h => ?waits⟩
  case done =>
    refine ⟨_, rfl, ?_⟩
    rw [waiting_done (h.imp_left (wakes_iff _).mpr)]
    refine ⟨retired_of_eq (nextPc_syncIrq s) (cnt_syncIrq s), retire_wait _, ?_⟩
    rw [sansProgress_retire]
    rfl
  case waits =>
    have hsleep := (not_wakes_iff s.syncIrq).mpr h
    exact ⟨fun n hl => congrArg Host.Outcome.next (waiting_on hsleep hl),
      fun hl hg => congrArg Host.Outcome.next (waiting_over hsleep hl hg),
      fun hl hg => congrArg Host.Outcome.next (waiting_over hsleep hl hg)⟩

end Sys2Proof.Proofs.Waiting
end

section
/-!
SUPPORT. The fences and invalidations of address translation (`42_supervisor_instructions.md` sections 2 and 3,
`43_hypervisor_instructions.md` sections 2 and 3): their checks, their scopes, and what they remove, mark and fence.
-/

namespace Sys2Proof.Proofs.Fences

open Sys2Proof Sys2Proof.Machine Sys2Proof.Laws Sys2Proof.Proofs.Endings Sys2Proof.Proofs.HypervisorFences

/-! ### The checks -/

theorem sfenceVerdict_noS {s : State} (hS : s.hasS = false) : s.sfenceVerdict = .illegal := by
  unfold State.sfenceVerdict
  rw [hS]
  rfl

theorem sfenceVerdict_u {s : State} (hS : s.hasS = true) (hp : s.priv = .u) :
    s.sfenceVerdict = if s.v then .virtual else .illegal := by
  unfold State.sfenceVerdict
  rw [hS, hp]
  cases s.v <;> rfl

theorem sfenceVerdict_tvm {s : State} (hS : s.hasS = true) (hp : s.priv = .s)
    (ht : (if s.v then s.hst.vtvm else s.mst.tvm) = true) : s.sfenceVerdict = if s.v then .virtual else .illegal := by
  unfold State.sfenceVerdict
  rw [hS, hp]
  cases hv : s.v
  all_goals rw [hv] at ht; exact if_pos ht

/-- Where the mode may execute SFENCE.VMA. -/
theorem sfenceVerdict_permitted {s : State} (hS : s.hasS = true)
    (h : s.priv = .m ∨ (s.priv = .s ∧ (if s.v then s.hst.vtvm else s.mst.tvm) = false)) :
    s.sfenceVerdict = s.bareVerdict := by
  unfold State.sfenceVerdict
  rw [hS]
  obtain hp | ⟨hp, ht⟩ := h
  · rw [hp]; rfl
  · rw [hp]
    cases hv : s.v
    all_goals rw [hv] at ht; exact if_neg (Bool.eq_false_iff.mp ht)

theorem bareVerdict_ok {s : State} (h : paging s.cfg = true ∨ s.cfg.sfenceBareIllegal = false) : s.bareVerdict = .ok := by
  unfold State.bareVerdict
  obtain h | h := h <;> simp [h]

theorem bareVerdict_illegal {s : State} (hb : paging s.cfg = false) (hi : s.cfg.sfenceBareIllegal = true) :
    s.bareVerdict = .illegal := by
  unfold State.bareVerdict
  rw [hb, hi]
  rfl

theorem withRegs_ok {s : State} {l : List Nat} (h : s.regsOk l = true) (v : Verdict) : s.withRegs l v = v := if_pos h

theorem withRegs_illegal (s : State) (l : List Nat) : s.withRegs l .illegal = .illegal := ite_self _

theorem withRegs_bad {s : State} {l : List Nat} (h : s.regsOk l = false) (v : Verdict) : s.withRegs l v = .illegal :=
  if_neg (Bool.eq_false_iff.mp h)

/-- The check that SFENCE.VMA or SINVAL.VMA makes, its registers aside. -/
def supervisorVerdict (s : State) (f : FenceForm) : Verdict := if f.svinval then s.sinvalVerdict else s.sfenceVerdict

theorem supervisorVerdict_of_svinval {s : State} {f : FenceForm} (h : f.svinval = true → s.cfg.svinval = true) :
    supervisorVerdict s f = s.sfenceVerdict := by
  unfold supervisorVerdict State.sinvalVerdict
  cases hf : f.svinval with
  | false => rfl
  | true => rw [h hf]; rfl

theorem supervisorVerdict_noSvinval {s : State} {f : FenceForm} (hf : f.svinval = true) (hs : s.cfg.svinval = false) :
    supervisorVerdict s f = .illegal := by
  unfold supervisorVerdict State.sinvalVerdict
  rw [hf, hs]
  rfl

/-- What is illegal as SFENCE.VMA is illegal as SINVAL.VMA, with Svinval or without. -/
theorem supervisorVerdict_illegal {s : State} {f : FenceForm} (h : s.sfenceVerdict = .illegal) :
    supervisorVerdict s f = .illegal := by
  by_cases hs : f.svinval = true → s.cfg.svinval = true
  · rw [supervisorVerdict_of_svinval hs, h]
  · obtain ⟨hf, hc⟩ := Classical.not_imp.mp hs
    exact supervisorVerdict_noSvinval hf (Bool.eq_false_iff.mpr hc)

theorem retired_sfence (s : State) (p : Option Scope) : Retired s (s.sfence p).retire := by
  obtain ⟨x, hx⟩ := sfence_caches s p
  rw [hx]
  exact (retire_caches s x).1

/-- Both are an effect that retires, behind the check. -/
theorem exec_supervisorFence {rs1 rs2 : Nat} {f : FenceForm} (hf : f ∈ supervisorFences rs1 rs2) (s : State) :
    ∃ effect : State → State, Retired s (effect s) ∧
      exec f.instr s = s.guarded (s.withRegs [rs1, rs2] (supervisorVerdict s f)) (encode f.instr) fun t =>
        .next (effect t) := by
  simp only [supervisorFences, List.mem_cons, List.not_mem_nil, or_false] at hf
  obtain rfl | rfl := hf
  · exact ⟨fun t => (t.sfence (t.sfenceScope rs1 rs2)).retire, retired_sfence s _, exec_sfenceVma rs1 rs2 s⟩
  · exact ⟨fun t => (t.sinval (t.sfenceScope rs1 rs2)).retire, retired_sinval s _, exec_sinvalVma rs1 rs2 s⟩

/-- Settles O27: each clause is one value of the check (`exec_supervisorFence`). -/
theorem sfencePermissions : Obligations.SfencePermissions := by
  intro s rs1 rs2 f hf
  obtain ⟨effect, hret, hexec⟩ := exec_supervisorFence hf s
  have illegal (h : s.withRegs [rs1, rs2] (supervisorVerdict s f) = .illegal) : RaisesIllegal f.instr s := by
    rw [RaisesIllegal, hexec, h]; rfl
  have illegalMode (h : s.hasS = true → s.sfenceVerdict = .illegal) : RaisesIllegal f.instr s := by
    refine illegal ?_
    have : s.sfenceVerdict = .illegal := by
      cases hS : s.hasS
      · exact sfenceVerdict_noS hS
      · exact h hS
    rw [supervisorVerdict_illegal this, withRegs_illegal]
  refine ⟨fun hS => ?noS, fun hr => illegal (withRegs_bad hr _), fun hi hs => ?noSvinval, fun hp hv => ?u,
    fun hp hv ht => ?tvm, fun hr hs hS hv hmode => ?guest, fun hmode => ⟨fun hb hi => ?bare, fun hr hs hS hb => ?ok⟩⟩
  case noS => exact illegalMode fun _ => sfenceVerdict_noS hS
  case noSvinval => exact illegal (by rw [supervisorVerdict_noSvinval hi hs, withRegs_illegal])
  case u => exact illegalMode fun hS => by rw [sfenceVerdict_u hS hp, hv]; rfl
  case tvm => exact illegalMode fun hS => by rw [sfenceVerdict_tvm hS hp (by rw [hv]; exact ht), hv]; rfl
  case bare => exact illegalMode fun hS => (sfenceVerdict_permitted hS hmode).trans (bareVerdict_illegal hb hi)
  case guest =>
    have : s.sfenceVerdict = .virtual := by
      obtain hp | ⟨hp, ht⟩ := hmode
      · rw [sfenceVerdict_u hS hp, hv]; rfl
      · rw [sfenceVerdict_tvm hS hp (by rw [hv]; exact ht), hv]; rfl
    rw [RaisesVirtual, hexec, withRegs_ok hr, supervisorVerdict_of_svinval hs, this]; rfl
  case ok =>
    refine ⟨effect s, ?_, hret⟩
    rw [hexec, withRegs_ok hr, supervisorVerdict_of_svinval hs, sfenceVerdict_permitted hS hmode, bareVerdict_ok hb]; rfl

theorem svinvalVerdict_absent {s : State} (h : s.cfg.svinval = false ∨ s.hasS = false) : s.svinvalVerdict = .illegal := by
  unfold State.svinvalVerdict
  obtain h | h := h <;> simp [h]

theorem svinvalVerdict_u {s : State} (hs : s.cfg.svinval = true) (hS : s.hasS = true) (hp : s.priv = .u) :
    s.svinvalVerdict = if s.v then .virtual else .illegal := by
  unfold State.svinvalVerdict
  rw [hs, hS, hp]
  cases s.v <;> rfl

theorem svinvalVerdict_ok {s : State} (hs : s.cfg.svinval = true) (hS : s.hasS = true) (hp : s.priv ≠ .u) :
    s.svinvalVerdict = .ok := by
  unfold State.svinvalVerdict
  rw [hs, hS]
  cases hq : s.priv with
  | u => exact absurd hq hp
  | m | s => rfl

theorem exec_svinvalFence {i : Instr} (hi : i ∈ [Instr.sfenceWInval, Instr.sfenceInvalIr]) (s : State) :
    ∃ effect : State → State, Retired s (effect s) ∧
      exec i s = s.guarded s.svinvalVerdict (encode i) fun t => .next (effect t) := by
  simp only [List.mem_cons, List.not_mem_nil, or_false] at hi
  obtain rfl | rfl := hi
  · exact ⟨fun t => t.orderStores.retire, (retire_caches s _).1, exec_sfenceWInval s⟩
  · exact ⟨fun t => t.complete.retire, (retire_caches s _).1, exec_sfenceInvalIr s⟩

/-- Settles O28: the check looks at Svinval, S-mode, and the mode alone. -/
theorem svinvalPermissions : Obligations.SvinvalPermissions := by
  intro s i hi
  obtain ⟨effect, hret, hexec⟩ := exec_svinvalFence hi s
  have illegal (h : s.svinvalVerdict = .illegal) : RaisesIllegal i s := by
    rw [RaisesIllegal, hexec, h]; rfl
  refine ⟨fun h => illegal (svinvalVerdict_absent h), fun hp hv => illegal ?u, fun hs hS hp hv => ?vu,
    fun hs hS hp => ⟨effect s, ?ok, hret⟩⟩
  case u =>
    by_cases h : s.cfg.svinval = false ∨ s.hasS = false
    · exact svinvalVerdict_absent h
    · simp only [not_or, Bool.not_eq_false] at h
      rw [svinvalVerdict_u h.1 h.2 hp, hv]; rfl
  case vu => rw [RaisesVirtual, hexec, svinvalVerdict_u hs hS hp, hv]; rfl
  case ok => rw [hexec, svinvalVerdict_ok hs hS hp]; rfl

/-! ### The scopes -/

theorem fenceAddr_toNat (s : State) (rs1 : Nat) :
    (s.fenceAddr rs1).map BitVec.toNat = if rs1 = 0 then none else some (s.readX rs1).toNat := by
  unfold State.fenceAddr
  split <;> rfl

theorem fenceGpa_eq (s : State) (rs1 : Nat) :
    s.fenceGpa rs1 = if rs1 = 0 then none else some ((s.readX rs1).toNat * 4) := by
  unfold State.fenceGpa State.fenceAddr
  split <;> rfl

theorem validVa_zero (s : State) (x : Xlen) (atp : Word) : validVa x atp (s.fenceAddr 0) = true := rfl

theorem fenceAsid_zero (s : State) (x : Xlen) : s.fenceAsid x 0 = none := rfl

theorem fenceVmid_eq_none (s : State) (rs2 : Nat) : s.fenceVmid rs2 = none ↔ rs2 = 0 := by
  unfold State.fenceVmid
  by_cases h : rs2 = 0 <;> simp [h]

/-- The structures that SFENCE.VMA is about, with the address and the ASID given (`42_supervisor_instructions.md` R747). -/
def supervisorScope (s : State) (va asid : Option Nat) : Scope := if s.v then .vs s.vmid va asid else .hs va asid

theorem covers_supervisorScope (s : State) (va asid : Option Nat) (r : TlbRec) :
    (supervisorScope s va asid).covers r = true ↔ r.space = (if s.v then .vs s.vmid else .hs) ∧ InScope r va asid := by
  unfold supervisorScope
  cases s.v
  · exact covers_hs va asid r
  · exact covers_vs s.vmid va asid r

/-- The address operand is valid in the space that SFENCE.VMA is about. -/
def supervisorValid (s : State) (rs1 : Nat) : Bool :=
  validVa (if s.v then s.vsxlen else s.sxlen) (if s.v then s.vs.atp else s.sc.atp) (s.fenceAddr rs1)

section
variable {s : State} {rs1 rs2 : Nat} {va asid : Option Nat} (hva : va = (if rs1 = 0 then none else some (s.readX rs1).toNat))
include hva

theorem sfenceScope_eq (hasid : asid = s.fenceAsid (if s.v then s.vsxlen else s.sxlen) rs2) :
    s.sfenceScope rs1 rs2 = if supervisorValid s rs1 then some (supervisorScope s va asid) else none := by
  rw [hva, ← fenceAddr_toNat, hasid]
  unfold State.sfenceScope supervisorValid supervisorScope
  cases s.v <;> rfl

theorem vsScope_eq :
    s.vsScope rs1 rs2 =
      if validVa s.vsxlen s.vs.atp (s.fenceAddr rs1) then some (.vs s.vmid va (s.fenceAsid s.vsxlen rs2)) else none := by
  rw [hva, ← fenceAddr_toNat]
  rfl

end

theorem gScope_eq {s : State} {rs1 rs2 : Nat} {gpa : Option Nat}
    (hgpa : gpa = (if rs1 = 0 then none else some ((s.readX rs1).toNat * 4))) :
    s.gScope rs1 rs2 = if validGpa s.sxlen s.h.gatp gpa then some (.g gpa (s.fenceVmid rs2)) else none := by
  rw [hgpa, ← fenceGpa_eq]
  rfl

theorem inScope_noAsid (r : TlbRec) (a : Option Nat) : r.isFor a = true ↔ InScope r a none :=
  (isFor_iff r a).trans ⟨fun h => ⟨.inl rfl, h⟩, And.right⟩

theorem inScope_all (r : TlbRec) : InScope r none none := ⟨.inl rfl, .inl rfl⟩

/-- What a fence of the G-stage covers, of the VMID and the address its operands give. -/
theorem covers_gScope {s : State} {rs1 rs2 : Nat} {gpa : Option Nat}
    (hgpa : gpa = (if rs1 = 0 then none else some ((s.readX rs1).toNat * 4))) (h : rs1 ≠ 0 ∨ rs2 ≠ 0) (r : TlbRec) :
    (Scope.g gpa (s.fenceVmid rs2)).covers r = true ↔
      (∃ n, r.space = .g n ∧ (rs2 = 0 ∨ s.fenceVmid rs2 = some n)) ∧ InScope r gpa none := by
  have hsome : gpa ≠ none ∨ s.fenceVmid rs2 ≠ none := by
    refine h.imp (fun h => ?_) fun h hnone => h ((fenceVmid_eq_none s rs2).mp hnone)
    rw [hgpa, if_neg h]
    exact Option.some_ne_none _
  rw [covers_g gpa _ r hsome, inScope_noAsid, fenceVmid_eq_none]

/-! ### What is fenced -/

theorem allFenced_congr {t u : State} {p : Scope} (h : AllFenced t p) (hx : u.xlat = t.xlat) : AllFenced u p := by
  unfold AllFenced State.changes at *
  rwa [hx]

section
variable {t : State} {p : Scope} (h : AllFenced t p)
include h

theorem any_of_allFenced {b : Scope → Bool} (hb : b p = true) {c : Hist × List Scope} (hc : c ∈ t.changes) :
    c.2.any b = true := List.any_eq_true.mpr ⟨p, h c hc, hb⟩

theorem staleSince_of_allFenced {b : Scope → Bool} (hb : b p = true) (e : Hist) : t.staleSince e b = false := by
  unfold State.staleSince
  refine List.any_eq_false.mpr fun c hc => ?_
  rw [any_of_allFenced h hb hc]
  simp

theorem pmps_of_allFenced {guest : Bool} (hb : (if guest then Scope.allG else Scope.allHs) p = true) :
    ∀ q ∈ t.pmps guest, q = t.pmp := by
  intro q hq
  unfold State.pmps at hq
  obtain hq | hq := List.mem_cons.mp hq
  · exact hq
  · obtain ⟨c, hc, hcq⟩ := List.mem_filterMap.mp hq
    split at hcq
    · rw [any_of_allFenced h hb hc] at hcq; cases hcq
    · cases hcq

end

theorem maybeStale_settled (s : State) (now : Bool) : (s.maybeStale false now).1 = now := rfl

section
variable {t : State}

theorem walkSbe_of_allFenced {p : Scope} (h : AllFenced t p) {g : Bool} (hb : (p.allHs || (g && p.allG)) = true) :
    (t.walkSbe g).1 = t.mst.sbe := by
  unfold State.walkSbe
  rw [staleSince_of_allFenced h (b := fun p => p.allHs || (g && p.allG)) hb]
  exact maybeStale_settled t _

theorem walkPbmte_of_allFenced {p : Scope} (h : AllFenced t p) {g : Bool}
    (hb : (if g then p.allG else p.allHs) = true) : (t.walkPbmte g).1 = t.m.pbmte := by
  unfold State.walkPbmte
  rw [staleSince_of_allFenced h (b := fun p => if g then p.allG else p.allHs) hb]
  exact maybeStale_settled t _

theorem walkVsbe_of_allFenced (h : AllFenced t (.vs t.vmid none none)) : t.walkVsbe.1 = t.hst.vsbe := by
  unfold State.walkVsbe
  rw [staleSince_of_allFenced h (b := fun p => p.allVs t.vmid) (decide_eq_true rfl)]
  exact maybeStale_settled t _

theorem walkHpbmte_of_allFenced (h : AllFenced t (.vs t.vmid none none)) : t.walkHpbmte.1 = t.h.pbmte := by
  unfold State.walkHpbmte
  rw [staleSince_of_allFenced h (b := fun p => p.allVs t.vmid) (decide_eq_true rfl)]
  exact maybeStale_settled t _

theorem wasBare_of_allFenced (h : AllFenced t (.g none none)) : t.wasBare = false := by
  unfold State.wasBare
  refine List.any_eq_false.mpr fun c hc => ?_
  split
  · rw [any_of_allFenced h _ hc]
    · simp
    · rfl
  · exact Bool.false_ne_true

end

/-! ### How a fence or an invalidation leaves the machine -/

/-- A retired change of the caches: what has retired, and its frame. -/
theorem sfence_frame (s : State) (p : Option Scope) :
    Retired s (s.sfence p).retire ∧ (s.sfence p).retire.sansProgress.sansXlat = s.sansProgress.sansXlat := by
  obtain ⟨x, hx⟩ := sfence_caches s p
  rw [hx]
  exact ⟨(retire_caches s x).1, (retire_caches s x).2.1⟩

theorem hfence_frame (s : State) (p : Option Scope) :
    Retired s (s.hfence p).retire ∧ (s.hfence p).retire.sansProgress.sansXlat = s.sansProgress.sansXlat := by
  obtain ⟨x, hx⟩ := hfence_caches s p
  rw [hx]
  exact ⟨(retire_caches s x).1, (retire_caches s x).2.1⟩

theorem retire_caches_restored (s : State) (x : Xlat) :
    { ({ s with xlat := x } : State).retire.sansProgress with xlat := s.xlat } = s.sansProgress := by
  rw [sansProgress_retire]
  rfl

theorem sinval_frame (s : State) (p : Option Scope) :
    Retired s (s.sinval p).retire ∧ { (s.sinval p).retire.sansProgress with xlat := s.xlat } = s.sansProgress := by
  obtain ⟨x, hx⟩ := sinval_caches s p
  rw [hx]
  exact ⟨(retire_caches s x).1, retire_caches_restored s x⟩

/-- What a fence of this scope removes, and that it fences what came before. -/
theorem sfence_some (s : State) (p : Scope) :
    (∀ r, r ∈ (s.sfence (some p)).retire.xlat.tlb ↔ r ∈ s.xlat.tlb ∧ r.doomed = false ∧ ¬p.covers r = true) ∧
    AllFenced (s.sfence (some p)).retire p := by
  have hx : (s.sfence (some p)).retire.xlat = (s.orderStores.fence p).xlat := retire_xlat _
  refine ⟨fun r => ?_, allFenced_congr (allFenced_fence s.orderStores p) hx⟩
  rw [hx, mem_fence, Bool.not_eq_true]
  rfl

theorem hfence_some (s : State) (p : Scope) :
    (∀ r, r ∈ (s.hfence (some p)).retire.xlat.tlb ↔ r ∈ s.xlat.tlb ∧ r.doomed = false ∧ ¬p.covers r = true) ∧
    AllFenced (s.hfence (some p)).retire p := by
  have hx : (s.hfence (some p)).retire.xlat = (s.fence p).xlat := retire_xlat _
  refine ⟨fun r => ?_, allFenced_congr (allFenced_fence s p) hx⟩
  rw [hx, mem_fence, Bool.not_eq_true]

theorem sinval_some (s : State) (p : Scope) : Marks s (s.sinval (some p)).retire fun r => p.covers r = true :=
  Marks.congr (doom_marks s p) (retire_xlat _) fun _ => .rfl

/-! ### SFENCE.VMA and SINVAL.VMA -/

/-- Who may execute SFENCE.VMA. -/
def MayFence (s : State) : Prop := s.priv = .m ∨ (s.priv = .s ∧ (if s.v then s.hst.vtvm else s.mst.tvm) = false)

section
variable {s : State} {rs1 rs2 : Nat} (hregs : s.regsOk [rs1, rs2] = true) (hS : s.hasS = true)
  (hb : paging s.cfg = true ∨ s.cfg.sfenceBareIllegal = false) (hmode : MayFence s)
include hregs hS hb hmode

theorem exec_sfenceVma_permitted :
    exec (.sfenceVma rs1 rs2) s = .next (s.sfence (s.sfenceScope rs1 rs2)).retire := by
  rw [exec_sfenceVma, withRegs_ok hregs, sfenceVerdict_permitted hS hmode, bareVerdict_ok hb]
  rfl

theorem exec_sinvalVma_permitted (hs : s.cfg.svinval = true) :
    exec (.sinvalVma rs1 rs2) s = .next (s.sinval (s.sfenceScope rs1 rs2)).retire := by
  rw [exec_sinvalVma, withRegs_ok hregs, show s.sinvalVerdict = s.sfenceVerdict from if_pos hs,
    sfenceVerdict_permitted hS hmode, bareVerdict_ok hb]
  rfl

end

/-- Settles O23: the removal and the fence are those of the scope (`sfence_some`); with both operands `x0` the scope is the
whole space, and what it fences cannot be stale. -/
theorem sfenceVma : Obligations.SfenceVma := by
  intro s rs1 rs2 va asid hregs hS hb hmode hva hasid
  have hscope := sfenceScope_eq hva hasid
  obtain ⟨hret, hframe⟩ := sfence_frame s (s.sfenceScope rs1 rs2)
  refine ⟨_, exec_sfenceVma_permitted hregs hS hb hmode, hret, hframe, fun hbad => ?invalid, fun hgood => ?valid,
    fun h1 h2 => ?all⟩
  case invalid => rw [hscope, show supervisorValid s rs1 = false from hbad]; exact retire_xlat s
  case valid =>
    rw [hscope, show supervisorValid s rs1 = true from hgood]
    obtain ⟨htlb, hfenced⟩ := sfence_some s (supervisorScope s va asid)
    exact ⟨fun r => by rw [← covers_supervisorScope]; exact htlb r, hfenced⟩
  case all =>
    subst h1 h2
    obtain rfl : va = none := hva
    obtain rfl : asid = none := hasid
    rw [hscope, show supervisorValid s 0 = true from validVa_zero s _ _]
    obtain ⟨htlb, hfenced⟩ := sfence_some s (supervisorScope s none none)
    refine ⟨fun r hr hspace => ?_, fun hv => ?_⟩
    · obtain ⟨-, -, hcov⟩ := (htlb r).mp hr
      exact hcov ((covers_supervisorScope s none none r).mpr ⟨hspace, inScope_all r⟩)
    · have hhs : supervisorScope s none none = .hs none none := by unfold supervisorScope; rw [hv]; rfl
      rw [hhs] at hfenced
      rw [if_pos rfl, hhs]
      have hm : ((s.sfence (some (.hs none none))).retire).m = s.m := retire_m _
      have hmst : ((s.sfence (some (.hs none none))).retire).mst = s.mst := retire_mst _
      have hpmp : ((s.sfence (some (.hs none none))).retire).pmp = s.pmp := retire_pmp _
      refine ⟨?_, fun g => ?_, ?_⟩
      · rw [← hpmp]; exact pmps_of_allFenced hfenced rfl
      · rw [walkSbe_of_allFenced hfenced rfl, hmst]
      · rw [walkPbmte_of_allFenced hfenced rfl, hm]

/-- Settles O24: the records marked are those of the scope (`sinval_some`). -/
theorem sinvalVma : Obligations.SinvalVma := by
  intro s rs1 rs2 va asid hregs hs hS hb hmode hva hasid
  have hscope := sfenceScope_eq hva hasid
  obtain ⟨hret, hframe⟩ := sinval_frame s (s.sfenceScope rs1 rs2)
  refine ⟨_, exec_sinvalVma_permitted hregs hS hb hmode hs, hret, hframe, fun hbad => ?invalid, fun hgood => ?valid⟩
  case invalid => rw [hscope, show supervisorValid s rs1 = false from hbad]; exact retire_xlat s
  case valid =>
    rw [hscope, show supervisorValid s rs1 = true from hgood]
    exact Marks.congr (sinval_some s _) rfl (covers_supervisorScope s va asid)

/-! ### SFENCE.W.INVAL and SFENCE.INVAL.IR -/

section
variable {s : State} (hs : s.cfg.svinval = true) (hS : s.hasS = true) (hp : s.priv ≠ .u)
include hs hS hp

theorem exec_sfenceWInval_permitted : exec .sfenceWInval s = .next s.orderStores.retire := by
  rw [exec_sfenceWInval, svinvalVerdict_ok hs hS hp]
  rfl

theorem exec_sfenceInvalIr_permitted : exec .sfenceInvalIr s = .next s.complete.retire := by
  rw [exec_sfenceInvalIr, svinvalVerdict_ok hs hS hp]
  rfl

end

theorem changes_of_xlat {t u : State} (h : t.xlat = u.xlat) : t.changes = u.changes := by
  unfold State.changes
  rw [h]

/-- Settles O25: the ordering is one entry of the history, and completing removes the marked records (`mem_complete`). -/
theorem svinvalFences : Obligations.SvinvalFences := by
  intro s hs hS hp
  refine ⟨⟨_, exec_sfenceWInval_permitted hs hS hp, (retire_caches s _).1, retire_caches_restored s _, retire_xlat _, ?order⟩,
    ⟨_, exec_sfenceInvalIr_permitted hs hS hp, (retire_caches s _).1, retire_caches_restored s _, fun r => ?tlb, ?hist⟩⟩
  case order => exact changes_of_xlat (u := s.orderStores) (retire_xlat _)
  case tlb => rw [retire_xlat]; exact mem_complete s r
  case hist =>
    rw [retire_xlat]
    refine List.map_congr_left fun h _ => ?_
    cases h <;> rfl

/-- Of the records that an invalidation does not mark, none but those marked before is removed. -/
theorem mem_unmarked_of_marks {s t : State} {p : TlbRec → Prop} (h : Marks s t p) (r : TlbRec) :
    (r ∈ t.xlat.tlb ∧ r.doomed = false) ↔ r ∈ s.xlat.tlb ∧ r.doomed = false ∧ ¬p r := by
  obtain ⟨hkeep, hfrom, -⟩ := h
  constructor
  · rintro ⟨hr, hd⟩
    obtain ⟨hmark, q, hq, rfl | ⟨-, rfl⟩⟩ := hfrom r hr
    · exact ⟨hq, hd, fun hp => by rw [hmark hp] at hd; cases hd⟩
    · cases hd
  · rintro ⟨hr, hd, hp⟩
    exact ⟨(hkeep r hr).2 hp, hd⟩

/-- Settles O26: `allFenced_sequence` for what is fenced, `mem_unmarked_of_marks` for what remains. -/
theorem sinvalSequence : Obligations.SinvalSequence := by
  intro s rs1 rs2 va asid hregs hs hS hb hmode hgood hva hasid
  have hp : s.priv ≠ .u := by
    obtain hp | ⟨hp, -⟩ := hmode <;> rw [hp] <;> decide
  obtain ⟨t, ht⟩ : ∃ t, t = s.orderStores.retire := ⟨_, rfl⟩
  obtain ⟨u, hu⟩ : ∃ u, u = (t.sinval (t.sfenceScope rs1 rs2)).retire := ⟨_, rfl⟩
  have htx : t.xlat = s.orderStores.xlat := by rw [ht, retire_xlat]
  have htscope : t.sfenceScope rs1 rs2 = some (supervisorScope s va asid) := by
    refine Eq.trans ?_ ((sfenceScope_eq hva hasid).trans (if_pos hgood))
    rw [ht, retire_eq]
    rfl
  have hux : u.xlat = (t.doom (supervisorScope s va asid)).xlat := by rw [hu, htscope, retire_xlat]; rfl
  have hexecU : exec (.sinvalVma rs1 rs2) t = .next u := by
    rw [hu]
    apply exec_sinvalVma_permitted
    all_goals rw [ht, retire_eq]
    · exact hregs
    · exact hS
    · exact hb
    · exact hmode
    · exact hs
  have hexecW : exec .sfenceInvalIr u = .next u.complete.retire := by
    apply exec_sfenceInvalIr_permitted
    all_goals rw [hu, htscope, retire_eq, ht, retire_eq]
    · exact hs
    · exact hS
    · exact hp
  refine ⟨t, u, _, ht ▸ exec_sfenceWInval_permitted hs hS hp, hexecU, hexecW, ?mem, fun r => ?tlb, ?fenced⟩
  case mem => rw [retire_mem, hu, htscope, ht, retire_eq, retire_eq]; rfl
  case tlb =>
    have hmarks : Marks t u fun r => (supervisorScope s va asid).covers r = true :=
      Marks.congr (doom_marks t _) hux fun _ => .rfl
    rw [retire_xlat, mem_complete, mem_unmarked_of_marks hmarks, covers_supervisorScope, htx]
    rfl
  case fenced => exact allFenced_congr (allFenced_sequence s t u _ htx hux) (retire_xlat _)

/-! ### The fences and invalidations of the hypervisor extension -/

theorem hfenceVerdict_ok {s : State} (hH : s.hasH = true) (hv : s.v = false) (hp : s.priv ≠ .u) :
    s.hfenceVerdict false = .ok := by
  cases hq : s.priv with
  | u => exact absurd hq hp
  | m => exact hfenceVerdict_m hH hv hq false
  | s => exact hfenceVerdict_hs hH hv hq nofun

theorem hfenceVerdict_ok_g {s : State} (hH : s.hasH = true) (hv : s.v = false)
    (hp : s.priv = .m ∨ (s.priv = .s ∧ s.mst.tvm = false)) : s.hfenceVerdict true = .ok := by
  obtain hp | ⟨hp, ht⟩ := hp
  · exact hfenceVerdict_m hH hv hp true
  · exact hfenceVerdict_hs hH hv hp fun _ => ht

theorem hinvalVerdict_of_svinval {s : State} (hs : s.cfg.svinval = true) (g : Bool) :
    s.hinvalVerdict g = s.hfenceVerdict g := by
  unfold State.hinvalVerdict
  rw [hs]
  rfl

section
variable {s : State} (rs1 rs2 : Nat) (hH : s.hasH = true) (hv : s.v = false)
include hH hv

theorem exec_hfenceVvma_permitted (hp : s.priv ≠ .u) :
    exec (.hfenceVvma rs1 rs2) s = .next (s.hfence (s.vsScope rs1 rs2)).retire := by
  rw [exec_hfenceVvma]
  unfold execHfenceVvma
  rw [hfenceVerdict_ok hH hv hp]
  rfl

theorem exec_hfenceGvma_permitted (hp : s.priv = .m ∨ (s.priv = .s ∧ s.mst.tvm = false)) :
    exec (.hfenceGvma rs1 rs2) s = .next (s.hfence (s.gScope rs1 rs2)).retire := by
  rw [exec_hfenceGvma]
  unfold execHfenceGvma
  rw [hfenceVerdict_ok_g hH hv hp]
  rfl

theorem exec_hinvalVvma_permitted (hs : s.cfg.svinval = true) (hp : s.priv ≠ .u) :
    exec (.hinvalVvma rs1 rs2) s = .next (s.sinval (s.vsScope rs1 rs2)).retire := by
  rw [exec_hinvalVvma]
  unfold execHinvalVvma
  rw [hinvalVerdict_of_svinval hs, hfenceVerdict_ok hH hv hp]
  rfl

theorem exec_hinvalGvma_permitted (hs : s.cfg.svinval = true) (hp : s.priv = .m ∨ (s.priv = .s ∧ s.mst.tvm = false)) :
    exec (.hinvalGvma rs1 rs2) s = .next (s.sinval (s.gScope rs1 rs2)).retire := by
  rw [exec_hinvalGvma]
  unfold execHinvalGvma
  rw [hinvalVerdict_of_svinval hs, hfenceVerdict_ok_g hH hv hp]
  rfl

end

/-- Settles O29: as SFENCE.VMA, with the scope of the VS-stage (`hfence_some`). -/
theorem hfenceVvma : Obligations.HfenceVvma := by
  intro s rs1 rs2 va hH hv hp hva
  have hscope := vsScope_eq hva (rs2 := rs2)
  obtain ⟨hret, hframe⟩ := hfence_frame s (s.vsScope rs1 rs2)
  refine ⟨_, exec_hfenceVvma_permitted rs1 rs2 hH hv hp, hret, hframe, fun hbad => ?invalid, fun hgood => ?valid,
    fun h1 h2 => ?all⟩
  case invalid => rw [hscope, hbad]; exact retire_xlat s
  case valid =>
    rw [hscope, hgood]
    obtain ⟨htlb, hfenced⟩ := hfence_some s (.vs s.vmid va (s.fenceAsid s.vsxlen rs2))
    exact ⟨fun r => by rw [← covers_vs]; exact htlb r, hfenced⟩
  case all =>
    subst h1 h2
    obtain rfl : va = none := hva
    rw [hscope, validVa_zero, fenceAsid_zero, if_pos rfl]
    obtain ⟨htlb, hfenced⟩ := hfence_some s (.vs s.vmid none none)
    have hvmid : (s.hfence (some (.vs s.vmid none none))).retire.vmid = s.vmid := by rw [retire_eq]; rfl
    have hhst : (s.hfence (some (.vs s.vmid none none))).retire.hst = s.hst := retire_hst _
    have hh : (s.hfence (some (.vs s.vmid none none))).retire.h = s.h := retire_h _
    refine ⟨fun r hr hspace => ?_, ?_, ?_⟩
    · obtain ⟨-, -, hcov⟩ := (htlb r).mp hr
      exact hcov ((covers_vs s.vmid none none r).mpr ⟨hspace, inScope_all r⟩)
    · rw [walkVsbe_of_allFenced (by rw [hvmid]; exact hfenced), hhst]
    · rw [walkHpbmte_of_allFenced (by rw [hvmid]; exact hfenced), hh]

/-- Settles O30: as SFENCE.VMA, with the scope of the G-stage, which with both operands `x0` is that of both guest stages
(`covers_allG`). -/
theorem hfenceGvma : Obligations.HfenceGvma := by
  intro s rs1 rs2 gpa hH hv hp hgpa
  have hscope := gScope_eq hgpa (rs2 := rs2)
  obtain ⟨hret, hframe⟩ := hfence_frame s (s.gScope rs1 rs2)
  refine ⟨_, exec_hfenceGvma_permitted rs1 rs2 hH hv hp, hret, hframe, fun hbad => ?invalid, fun hgood => ?valid,
    fun h1 h2 => ?all⟩
  case invalid => rw [hscope, hbad]; exact retire_xlat s
  case valid =>
    rw [hscope, hgood]
    obtain ⟨htlb, hfenced⟩ := hfence_some s (.g gpa (s.fenceVmid rs2))
    exact ⟨hfenced, fun h r => by rw [← covers_gScope hgpa h]; exact htlb r⟩
  case all =>
    subst h1 h2
    obtain rfl : gpa = none := hgpa
    rw [hscope, show validGpa s.sxlen s.h.gatp none = true from rfl, if_pos rfl, (fenceVmid_eq_none s 0).mpr rfl]
    obtain ⟨htlb, hfenced⟩ := hfence_some s (.g none none)
    have hm : ((s.hfence (some (.g none none))).retire).m = s.m := retire_m _
    have hmst : ((s.hfence (some (.g none none))).retire).mst = s.mst := retire_mst _
    have hpmp : ((s.hfence (some (.g none none))).retire).pmp = s.pmp := retire_pmp _
    refine ⟨fun r => ?_, wasBare_of_allFenced hfenced, ?_, ?_, ?_⟩
    · rw [htlb, covers_allG, Classical.not_not]
    · rw [← hpmp]; exact pmps_of_allFenced hfenced rfl
    · rw [walkSbe_of_allFenced hfenced rfl, hmst]
    · rw [walkPbmte_of_allFenced hfenced rfl, hm]

/-- Settles O31: the records marked are those of the scope that the HFENCE has (`sinval_some`). -/
theorem hinvalSchedules : Obligations.HinvalSchedules := by
  intro s rs1 rs2 va gpa hs hH hv hp hva hgpa
  have hvs := vsScope_eq hva (rs2 := rs2)
  have hg := gScope_eq hgpa (rs2 := rs2)
  obtain ⟨hretV, hframeV⟩ := sinval_frame s (s.vsScope rs1 rs2)
  obtain ⟨hretG, hframeG⟩ := sinval_frame s (s.gScope rs1 rs2)
  refine ⟨⟨_, exec_hinvalVvma_permitted rs1 rs2 hH hv hs hp, hretV, hframeV, fun hbad => ?invalidV, fun hgood => ?validV⟩,
    fun hmode => ?gvma⟩
  case invalidV => rw [hvs, hbad]; exact retire_xlat s
  case validV =>
    rw [hvs, hgood]
    exact Marks.congr (sinval_some s _) rfl (covers_vs s.vmid va _)
  case gvma =>
    have hpg : s.priv = .m ∨ (s.priv = .s ∧ s.mst.tvm = false) := by
      cases hq : s.priv with
      | u => exact absurd hq hp
      | m => exact .inl rfl
      | s => exact .inr ⟨rfl, hmode.resolve_right (by rw [hq]; decide)⟩
    refine ⟨_, exec_hinvalGvma_permitted rs1 rs2 hH hv hs hpg, hretG, hframeG, fun hbad => ?invalidG, fun h1 h2 => ?all,
      fun h hgood => ?validG⟩
    case invalidG => rw [hg, hbad]; exact retire_xlat s
    case all =>
      subst h1 h2
      obtain rfl : gpa = none := hgpa
      rw [hg, show validGpa s.sxlen s.h.gatp none = true from rfl, if_pos rfl, (fenceVmid_eq_none s 0).mpr rfl]
      exact Marks.congr (sinval_some s _) rfl covers_allG
    case validG =>
      rw [hg, hgood]
      exact Marks.congr (sinval_some s _) rfl (covers_gScope hgpa h)

end Sys2Proof.Proofs.Fences
end

section
/-!
SUPPORT. The six CSR instructions (`40_csr_access.md` sections 1 and 2): the common frame of all of them, how it ends, and what the
access check says.
-/

namespace Sys2Proof.Proofs.CsrInstructions

open Sys2Proof Sys2Proof.Machine Sys2Proof.Laws Sys2Proof.Proofs.MachineCsrs Sys2Proof.Proofs.Endings Sys2Proof.Proofs.Invariants

/-! ### The common frame -/

theorem regsOk_x0 (s : State) (a : Nat) : s.regsOk [a, 0] = s.regsOk [a] := by
  simp [State.regsOk, State.hasReg]

/-- Every CSR instruction is the common frame, with the registers it names, its write and its new value. -/
theorem exec_csrForm {s : State} {rd csr src : Nat} {f : CsrForm} (hf : f ∈ csrForms s rd csr src) :
    ∃ src' doRead, (doRead = true ∨ rd = 0) ∧ s.regsOk [rd, src'] = s.regsOk f.regs ∧
      exec f.instr s = csrInstr (encode f.instr) rd src' csr doRead f.writes f.newval s := by
  simp only [csrForms, List.mem_cons, List.not_mem_nil, or_false] at hf
  obtain rfl | rfl | rfl | rfl | rfl | rfl := hf
  · exact ⟨src, _, csrrw_reads rd, rfl, exec_csrrw rd csr src s⟩
  · exact ⟨src, true, .inl rfl, rfl, exec_csrrs rd csr src s⟩
  · exact ⟨src, true, .inl rfl, rfl, exec_csrrc rd csr src s⟩
  · exact ⟨0, _, csrrw_reads rd, regsOk_x0 s rd, exec_csrrwi rd src s csr⟩
  · exact ⟨0, true, .inl rfl, regsOk_x0 s rd, exec_csrrsi rd src s csr⟩
  · exact ⟨0, true, .inl rfl, regsOk_x0 s rd, exec_csrrci rd src s csr⟩

/-- What a CSR instruction that passes its check makes of the state before it retires; none: an illegal value of a WLRL field,
where those trap. -/
def written (s : State) (rd : Nat) (c : Csr) (f : CsrForm) : Option State :=
  if f.writes then (readInto s rd (s.redirect c)).csrWrite (s.redirect c) (maskX s.xlen (f.newval (s.csrStored (s.redirect c))))
  else some (readInto s rd (s.redirect c))

section
variable {s : State} {rd csr src : Nat} {f : CsrForm} (hf : f ∈ csrForms s rd csr src)
include hf

theorem csrForm_badRegs (h : s.regsOk f.regs = false) : RaisesIllegal f.instr s := by
  obtain ⟨src', doRead, -, hregs, hexec⟩ := exec_csrForm hf
  have hr : s.regsOk [rd, src'] = false := hregs.trans h
  rw [RaisesIllegal, hexec]
  unfold csrInstr
  rw [hr]
  rfl

theorem csrForm_noCsr (h : csrOf csr = none) : RaisesIllegal f.instr s := by
  obtain ⟨src', doRead, -, -, hexec⟩ := exec_csrForm hf
  rw [RaisesIllegal, hexec]
  unfold csrInstr
  rw [h, ite_self]

theorem csrForm_illegal {c : Csr} (hc : csrOf csr = some c) (h : s.csrVerdict csr c f.writes = .illegal) :
    RaisesIllegal f.instr s := by
  cases hr : s.regsOk f.regs with
  | false => exact csrForm_badRegs hf hr
  | true =>
    obtain ⟨src', doRead, -, hregs, hexec⟩ := exec_csrForm hf
    rw [RaisesIllegal, hexec]
    simp [csrInstr, hregs, hr, hc, h]

section
variable (hr : s.regsOk f.regs = true) {c : Csr} (hc : csrOf csr = some c)
include hr hc

theorem csrForm_virtual (h : s.csrVerdict csr c f.writes = .virtual) : RaisesVirtual f.instr s := by
  obtain ⟨src', doRead, -, hregs, hexec⟩ := exec_csrForm hf
  rw [RaisesVirtual, hexec]
  simp [csrInstr, hregs, hr, hc, h]

variable (hok : s.csrVerdict csr c f.writes = .ok)
include hok

/-- A CSR instruction that passes its check retires what it has made of the state. -/
theorem csrForm_written {u : State} (hu : written s rd c f = some u) :
    exec f.instr s = .next (u.retireCsr s (f.writes && (s.redirect c).isInstret)) := by
  obtain ⟨src', doRead, hread, hregs, hexec⟩ := exec_csrForm hf
  rw [hexec]
  cases hw : f.writes with
  | false =>
    simp only [written, hw, Bool.false_eq_true, if_false, Option.some.injEq] at hu
    simp [csrInstr, hregs, hr, hc, hw ▸ hok, readInto_of_doRead hread, hu]
  | true =>
    simp only [written, hw, if_true] at hu
    simp [csrInstr, hregs, hr, hc, hw ▸ hok, readInto_of_doRead hread, hu]

theorem csrForm_unwritten (hu : written s rd c f = none) : RaisesIllegal f.instr s := by
  obtain ⟨src', doRead, hread, hregs, hexec⟩ := exec_csrForm hf
  have hw : f.writes = true := by
    cases hw : f.writes with
    | false => simp [written, hw] at hu
    | true => rfl
  rw [RaisesIllegal, hexec]
  simp only [written, hw, if_true] at hu
  simp [csrInstr, hregs, hr, hc, hw, hw ▸ hok, readInto_of_doRead hread, hu]

end

end

/-! ### What is written -/

/-- Redirection neither makes nor hides a write of the counter of retired instructions. -/
theorem redirect_isInstret (s : State) (c : Csr) : (s.redirect c).isInstret = c.isInstret := by
  unfold State.redirect
  split
  · split <;> rfl
  · rfl

theorem isInstret_iff (c : Csr) : c.isInstret = true ↔ c = .minstret ∨ c = .minstreth := by
  constructor
  · intro h
    unfold Csr.isInstret at h
    split at h
    · exact .inl rfl
    · exact .inr rfl
    · cases h
  · rintro (rfl | rfl) <;> rfl

/-- The only writes that can fail are those of WLRL fields, and only where an illegal value traps. -/
theorem csrWrite_none {s : State} {c : Csr} {w : Word} (h : s.csrWrite c w = none) :
    s.cfg.wlrlTraps = true ∧ c ∈ [Csr.mcause, .scause, .vscause, .hstatus] := by
  constructor
  · cases ht : s.cfg.wlrlTraps with
    | true => rfl
    | false =>
      obtain ⟨t, hs⟩ := csrWrite_some s c w ht
      rw [hs] at h
      cases h
  · cases c
    case mcause | scause | vscause | hstatus => simp
    case satp | vsatp | mideleg | mtval | henvcfg | menvcfg =>
      simp only [State.csrWrite, State.csrPut] at h
      repeat' split at h
      all_goals cases h
    all_goals cases h

theorem readInto_cfg (s : State) (rd : Nat) (c : Csr) : (readInto s rd c).cfg = s.cfg := writeX_cfg s rd _

theorem written_none {s : State} {rd : Nat} {c : Csr} {f : CsrForm} (h : written s rd c f = none) :
    s.cfg.wlrlTraps = true ∧ s.redirect c ∈ [Csr.mcause, .scause, .vscause, .hstatus] := by
  unfold written at h
  split at h
  · obtain ⟨ht, hc⟩ := csrWrite_none h
    rw [readInto_cfg] at ht
    exact ⟨ht, hc⟩
  · cases h

theorem instret_retireCsr (u s : State) (b : Bool) :
    (u.retireCsr s b).cnt.instret =
      if s.cnt.inhibit.getLsbD 2 = true ∨ b = true then u.cnt.instret else u.cnt.instret + 1 := by
  unfold State.retireCsr
  cases b <;> cases s.cnt.inhibit.getLsbD 2 <;> rfl

/-- Settles O39: the common frame (`csrForm_written`), and `written_none` for the one exception. -/
theorem csrInstructions : Obligations.CsrInstructions := by
  intro s rd csr src c w hc f hf hr hok hw
  have hwritten : w = written s rd c f := hw
  refine ⟨fun u hu => ⟨_, csrForm_written hf hr hc hok (hwritten ▸ hu), rfl, ?counted, sansProgress_retireCsr u s _⟩,
    fun hn => ?_⟩
  case counted =>
    rw [instret_retireCsr, redirect_isInstret]
    simp only [Bool.and_eq_true, isInstret_iff]
  · rw [hwritten] at hn
    exact ⟨csrForm_unwritten hf hr hc hok hn, written_none hn⟩

/-! ### What it leaves -/

/-- What is written keeps the base but for `rd` and for registers that a new base integer set brings. -/
theorem written_base {s u : State} {rd : Nat} {c : Csr} {f : CsrForm} (h : written s rd c f = some u) :
    (∃ x, csrBase u = { csrBase s with x := x }) ∧ ∀ n, s.hasReg n = true → n ≠ rd → u.rawX n = s.rawX n := by
  obtain ⟨x, hx⟩ := writeX_eq s rd (maskX s.xlen (s.csrRead (s.redirect c)))
  have hread : readInto s rd (s.redirect c) = { s with x := x } := hx
  have hother : ∀ n, n ≠ rd → (readInto s rd (s.redirect c)).rawX n = s.rawX n := fun n hn => rawX_writeX_other hn _
  unfold written at h
  split at h
  · obtain ⟨⟨v, hv⟩, hkeep⟩ := csrWrite_base h
    refine ⟨⟨v, by rw [hv, hread]; rfl⟩, fun n hr hn => ?_⟩
    rw [← hother n hn]
    have hx' := hkeep n (by rw [hread]; exact hr)
    unfold State.rawX
    rw [hx']
  · cases h
    exact ⟨⟨x, by rw [hread]; rfl⟩, fun n _ hn => hother n hn⟩

/-- A CSR instruction that passes its check where no WLRL write traps. -/
theorem csrForm_next {s t : State} {rd csr src : Nat} {f : CsrForm} {c : Csr} (hf : f ∈ csrForms s rd csr src)
    (hr : s.regsOk f.regs = true) (hc : csrOf csr = some c) (hok : s.csrVerdict csr c f.writes = .ok)
    (hw : s.cfg.wlrlTraps = false) (h : exec f.instr s = .next t) :
    ∃ u b, written s rd c f = some u ∧ t = u.retireCsr s b := by
  cases hu : written s rd c f with
  | none =>
    obtain ⟨ht, -⟩ := written_none hu
    rw [hw] at ht
    cases ht
  | some u =>
    rw [csrForm_written hf hr hc hok hu] at h
    cases h
    exact ⟨u, _, rfl, rfl⟩

/-- Settles O41: what is written keeps the base (`written_base`), and retiring only moves `pc` and the counter. -/
theorem csrFrame : Obligations.CsrFrame := by
  intro s t rd csr src c hc hw f hf hr hok h
  obtain ⟨u, b, hu, rfl⟩ := csrForm_next hf hr hc hok hw h
  obtain ⟨⟨x, hbase⟩, hregs⟩ := written_base hu
  exact ⟨fun n _ hn hne => (retireCsr_rawX u s b n).trans (hregs n hn hne), congrArg CsrBase.priv hbase,
    congrArg CsrBase.v hbase, congrArg CsrBase.mem hbase, congrArg CsrBase.timer hbase, congrArg CsrBase.wires hbase,
    congrArg CsrBase.wait hbase, congrArg CsrBase.codeOld hbase, congrArg CsrBase.cfg hbase, congrArg CsrBase.inputs hbase⟩

/-! ### The access check -/

section
variable {s : State} {n : Nat} {c : Csr} {write : Bool}

theorem csrVerdict_absent (h : s.implemented c = false) : s.csrVerdict n c write = .illegal := by
  unfold State.csrVerdict
  rw [h]
  rfl

theorem csrVerdict_readOnly (hw : write = true) (hro : csrReadOnly n = true) : s.csrVerdict n c write = .illegal := by
  simp [State.csrVerdict, hw, hro]

theorem csrVerdict_low (hv : s.v = false) (hl : s.modeLevel < csrLevel n) : s.csrVerdict n c write = .illegal := by
  simp [State.csrVerdict, hv, hl]

theorem csrVerdict_machine (hv : s.v = true) (hl : csrLevel n = 3) : s.csrVerdict n c write = .illegal := by
  simp [State.csrVerdict, hv, hl]

variable (hi : s.implemented c = true) (hw : write = true → csrReadOnly n = false)
include hi hw

/-- The check of an access that neither the CSR's presence nor its number forbids. -/
theorem csrVerdict_level : s.csrVerdict n c write =
    if s.v then
      if csrLevel n = 3 then .illegal
      else if csrLevel n = 2 ∨ (csrLevel n = 1 ∧ s.priv = .u) then .virtual
      else s.csrCondition c
    else if s.modeLevel < csrLevel n then .illegal
    else s.csrCondition c := by
  have hro : (write && csrReadOnly n) = false := by
    cases write with
    | false => rfl
    | true => exact hw rfl
  unfold State.csrVerdict
  rw [hi, hro]
  rfl

theorem csrVerdict_guest (hv : s.v = true) (hl : csrLevel n = 2 ∨ (csrLevel n = 1 ∧ s.priv = .u)) :
    s.csrVerdict n c write = .virtual := by
  have h3 : csrLevel n ≠ 3 := by omega
  rw [csrVerdict_level hi hw, if_pos hv, if_neg h3, if_pos hl]

/-- For a CSR that the mode reaches the check is the CSR's own condition. -/
theorem csrVerdict_reaches (hreach : s.reaches n) : s.csrVerdict n c write = s.csrCondition c := by
  rw [csrVerdict_level hi hw]
  unfold State.reaches at hreach
  cases hv : s.v with
  | false =>
    simp only [hv, Bool.false_eq_true, if_false] at hreach ⊢
    exact if_neg (by omega)
  | true =>
    simp only [hv, if_true] at hreach ⊢
    obtain ⟨h1, h2⟩ := hreach
    have hg : ¬(csrLevel n = 2 ∨ (csrLevel n = 1 ∧ s.priv = .u)) := fun h => h.elim (by omega) fun h => h2 h.1 h.2
    rw [if_neg (by omega), if_neg hg]

end

/-! ### The conditions of single CSRs (`40_csr_access.md` R673) -/

theorem fsOff_iff (s : State) : s.fsOff = true ↔ s.mst.fs = 0 ∨ (s.v = true ∧ s.vst.fs = 0) := by
  simp [State.fsOff]

/-- The CSRs of the floating-point unit. -/
theorem csrCondition_fp {s : State} {c : Csr} (hc : c ∈ [Csr.fflags, .frm, .fcsr]) :
    s.csrCondition c = if s.fsOff then .illegal else .ok := by
  simp only [List.mem_cons, List.not_mem_nil, or_false] at hc
  obtain rfl | rfl | rfl := hc <;> rfl

theorem csrCondition_counter {s : State} {c : Csr} {n : Nat} (h : c.counterBit = some n) :
    s.csrCondition c = s.counterVerdict n := by
  unfold State.csrCondition
  rw [h]

/-- A CSR without a condition of its own. -/
theorem csrCondition_free {s : State} {c : Csr} (h1 : c.counterBit = none) (h2 : c ∉ [Csr.satp, .hgatp, .fflags, .frm, .fcsr]) :
    s.csrCondition c = .ok := by
  simp only [List.mem_cons, List.not_mem_nil, or_false, not_or] at h2
  obtain ⟨hsatp, hhgatp, hflags, hfrm, hfcsr⟩ := h2
  unfold State.csrCondition
  rw [h1]
  dsimp only
  split
  · exact absurd rfl hsatp
  · exact absurd rfl hhgatp
  · exact absurd rfl hflags
  · exact absurd rfl hfrm
  · exact absurd rfl hfcsr
  · rfl

/-- The counter is open exactly where its check says so. -/
theorem counterVerdict_open {s : State} {n : Nat} (h : s.counterOpen n) : s.counterVerdict n = .ok := by
  unfold State.counterVerdict
  obtain hp | ⟨hm, hh, hs⟩ := h
  · rw [if_pos hp]
  · by_cases hp : s.priv = .m
    · rw [if_pos hp]
    · rw [if_neg hp, hm]
      by_cases hu : s.priv = .u <;> cases hv : s.v <;> simp_all

theorem counterVerdict_closed {s : State} {n : Nat} (h : ¬s.counterOpen n) :
    s.counterVerdict n = if s.v = true ∧ s.cnt.mcounteren.getLsbD n = true ∧ s.cnt.hcounteren.getLsbD n = false then .virtual
      else .illegal := by
  obtain ⟨hp, hc⟩ := not_or.mp h
  unfold State.counterVerdict
  rw [if_neg hp]
  cases hm : s.cnt.mcounteren.getLsbD n with
  | false => simp
  | true =>
    rw [hm] at hc
    cases hv : s.v <;> cases hh : s.cnt.hcounteren.getLsbD n <;> simp_all

/-- Every access that no condition forbids passes. -/
theorem csrCondition_ok {s : State} {c : Csr} (hsatp : c = .satp → s.priv = .s → (if s.v then s.hst.vtvm else s.mst.tvm) = false)
    (hgatp : c = .hgatp → s.priv = .s → s.mst.tvm = false)
    (hfp : c ∈ [Csr.fflags, .frm, .fcsr] → s.mst.fs ≠ 0 ∧ (s.v = true → s.vst.fs ≠ 0))
    (hcnt : ∀ n, c.counterBit = some n → s.counterOpen n) : s.csrCondition c = .ok := by
  cases hb : c.counterBit with
  | some n => rw [csrCondition_counter hb, counterVerdict_open (hcnt n hb)]
  | none =>
    by_cases hc : c ∈ [Csr.satp, .hgatp, .fflags, .frm, .fcsr]
    · simp only [List.mem_cons, List.not_mem_nil, or_false] at hc
      obtain rfl | rfl | hc := hc
      · by_cases hp : s.priv = .s
        · have ht := hsatp rfl hp
          unfold State.csrCondition
          cases hv : s.v <;> simp_all [Csr.counterBit]
        · exact if_neg hp
      · refine if_neg fun h => ?_
        rw [hgatp rfl h.1] at h
        exact Bool.false_ne_true h.2
      · have hc' : c ∈ [Csr.fflags, .frm, .fcsr] := by simpa using hc
        obtain ⟨hf, hvf⟩ := hfp hc'
        have hon : ¬s.fsOff = true := fun h => ((fsOff_iff s).mp h).elim hf fun h => hvf h.1 h.2
        rw [csrCondition_fp hc', if_neg hon]
    · exact csrCondition_free hb hc

/-- Settles O40: the check by its parts (`csrVerdict_level`, `csrVerdict_reaches`) and the conditions of single CSRs. -/
theorem csrPermissions : Obligations.CsrPermissions := by
  intro s rd csr src f hf
  refine ⟨csrForm_badRegs hf, csrForm_noCsr hf, fun c hc => ?_⟩
  have illegal := csrForm_illegal hf hc
  refine ⟨fun hi => illegal (csrVerdict_absent hi), fun hw hro => illegal (csrVerdict_readOnly hw hro),
    fun hv hl => illegal (csrVerdict_low hv hl), fun hv hl => illegal (csrVerdict_machine hv hl), fun hr hi hw => ?_⟩
  have virtual := csrForm_virtual hf hr hc
  refine ⟨fun hv hl => virtual (csrVerdict_guest hi hw hv hl), fun hreach => ?_⟩
  have hcond := csrVerdict_reaches hi hw hreach
  rw [hcond] at illegal virtual
  refine ⟨fun hc hp hv ht => illegal ?satp, fun hc hp hv ht => virtual ?vsatp, fun hc hp ht => illegal ?hgatp,
    fun hc hoff => illegal ?fp, fun n hn hclosed => ?counter, fun h1 h2 h3 h4 => ?ok⟩
  case satp => rw [hc]; simp [State.csrCondition, Csr.counterBit, hp, hv, ht]
  case vsatp => rw [hc]; simp [State.csrCondition, Csr.counterBit, hp, hv, ht]
  case hgatp => rw [hc]; exact if_pos ⟨hp, ht⟩
  case fp => rw [csrCondition_fp hc, if_pos ((fsOff_iff s).mpr hoff)]
  case counter =>
    have hv := (csrCondition_counter hn).trans (counterVerdict_closed hclosed)
    split
    · rename_i h; exact virtual (hv.trans (if_pos h))
    · rename_i h; exact illegal (hv.trans (if_neg h))
  case ok => rw [hcond]; exact csrCondition_ok h1 h2 h3 h4

end Sys2Proof.Proofs.CsrInstructions
end

section
/-!
SUPPORT. What single CSRs do under the CSR instructions (files 11, 12 and 13 of the specification), the PMP check
(`20_memory.md` R444), and the state that reset leaves (`70_reset_and_hazards.md` section 1).
-/

namespace Sys2Proof.Proofs.SingleCsrs

open Sys2Proof Sys2Proof.Machine Sys2Proof.Laws Sys2Proof.Proofs.MachineCsrs Sys2Proof.Proofs.Endings
  Sys2Proof.Proofs.Invariants Sys2Proof.Proofs.CsrInstructions

/-! ### CSRRW, and CSRRS that only reads -/

/-- CSRRW among the six forms. -/
def csrrwForm (s : State) (rd csr rs1 : Nat) : CsrForm := ⟨.csrrw rd csr rs1, [rd, rs1], true, fun _ => s.readX rs1⟩

theorem csrrwForm_mem (s : State) (rd csr rs1 : Nat) : csrrwForm s rd csr rs1 ∈ csrForms s rd csr rs1 := List.mem_cons_self

/-- CSRRS of `x0` among the six forms. -/
def csrrsForm (s : State) (rd csr : Nat) : CsrForm := ⟨.csrrs rd csr 0, [rd, 0], false, fun old => old ||| s.readX 0⟩

theorem csrrsForm_mem (s : State) (rd csr : Nat) : csrrsForm s rd csr ∈ csrForms s rd csr 0 :=
  List.mem_cons_of_mem _ List.mem_cons_self

section
variable {s : State} {rd csr rs1 : Nat} {c : Csr} (hc : csrOf csr = some c)
include hc

theorem exec_csrrw_written {u : State} (hr : s.regsOk [rd, rs1] = true) (hok : s.csrVerdict csr c true = .ok)
    (hu : (readInto s rd (s.redirect c)).csrWrite (s.redirect c) (s.readX rs1) = some u) :
    exec (.csrrw rd csr rs1) s = .next (u.retireCsr s c.isInstret) := by
  have hw : written s rd c (csrrwForm s rd csr rs1) = some u := by
    rw [← hu, ← maskX_xlen_readX]
    rfl
  have h := csrForm_written (csrrwForm_mem s rd csr rs1) hr hc hok hw
  rw [redirect_isInstret] at h
  exact h

theorem exec_csrrs_read (hr : s.hasReg rd = true) (hok : s.csrVerdict csr c false = .ok) :
    exec (.csrrs rd csr 0) s = .next ((readInto s rd (s.redirect c)).retireCsr s false) := by
  have hregs : s.regsOk [rd, 0] = true := by
    rw [regsOk_x0]
    simpa [State.regsOk] using hr
  exact csrForm_written (csrrsForm_mem s rd csr) hregs hc hok (u := readInto s rd (s.redirect c)) rfl

end

theorem readInto_x0 (s : State) (c : Csr) : readInto s 0 c = s := by
  unfold readInto State.writeX
  exact if_pos (.inl rfl)

theorem readInto_cnt (s : State) (rd : Nat) (c : Csr) : (readInto s rd c).cnt = s.cnt := writeX_cnt s rd _

theorem redirect_host {s : State} (hv : s.v = false) (c : Csr) : s.redirect c = c := by simp [State.redirect, hv]

/-- CSRRW without a destination, with V=0, of a CSR other than the counter of retired instructions. -/
theorem csrrw_x0 {s u : State} {csr rs1 : Nat} {c : Csr} (hc : csrOf csr = some c) (hr : s.hasReg rs1 = true)
    (hv : s.v = false) (hok : s.csrVerdict csr c true = .ok) (hi : c.isInstret = false)
    (hu : s.csrWrite c (s.readX rs1) = some u) (hcnt : u.cnt = s.cnt) :
    ∃ t, exec (.csrrw 0 csr rs1) s = .next t ∧ Retired s t ∧ t.sansProgress = u.sansProgress := by
  have hregs : s.regsOk [0, rs1] = true := regsOk_pair.mpr ⟨by simp [State.hasReg], hr⟩
  have hu' : (readInto s 0 (s.redirect c)).csrWrite (s.redirect c) (s.readX rs1) = some u := by
    rw [readInto_x0, redirect_host hv, hu]
  refine ⟨_, exec_csrrw_written hc hregs hok hu', ?_, sansProgress_retireCsr u s _⟩
  rw [hi]
  exact retired_retireCsr hcnt

/-! ### Registers that hold what is written -/

theorem maskX_x64 {x : Xlen} (h : x = .x64) (w : Word) : maskX x w = w := by rw [h]; rfl

/-- The same in M-mode, of a CSR without a condition of its own. -/
theorem csrrw_m {s : State} (csr : Nat) {u : State} {rs1 : Nat} {c : Csr} (hr : s.hasReg rs1 = true) (hp : s.priv = .m)
    (hv : s.v = false) (himpl : s.implemented c = true) (hc : csrOf csr = some c) (hro : csrReadOnly csr = false)
    (hcond : s.csrCondition c = .ok) (hi : c.isInstret = false) (hu : s.csrWrite c (s.readX rs1) = some u)
    (hcnt : u.cnt = s.cnt) :
    ∃ t, exec (.csrrw 0 csr rs1) s = .next t ∧ Retired s t ∧ t.sansProgress = u.sansProgress :=
  csrrw_x0 hc hr hv (csrVerdict_m hp hv himpl hro hcond) hi hu hcnt

theorem implemented_of_unit {s : State} {c : Csr} (h : s.hasUnit c = true) (hh : c.highHalf = false) :
    s.implemented c = true := by
  unfold State.implemented
  rw [h, hh]
  rfl

/-- Settles O43: each register by its own write, behind one check (`csrrw_m`). -/
theorem plainRegisters : Obligations.PlainRegisters := by
  intro s rs1 hr hp hv hH hm hsx hvsx
  have hS := hasS_of_hasH hH
  have hepc : ∀ x : Xlen, x = .x64 → EpcHolds s.cfg .x64 (s.readX rs1) (epcWord s.cfg x (s.readX rs1)) :=
    fun x hx => hx ▸ epcWord_holds _ _ _
  have htval : ∀ x : Xlen, x = .x64 → TvalHolds s.cfg .x64 (s.readX rs1) (tvalWord s.cfg x (s.readX rs1)) :=
    fun x hx => hx ▸ tvalWord_holds _ _ _
  refine ⟨fun p hmem => ?plain, fun p hmem => ?epc, fun p hmem => ?tval⟩
  case plain =>
    simp only [plainWrites, List.mem_cons, List.not_mem_nil, or_false] at hmem
    obtain rfl | rfl | rfl := hmem
    · refine csrrw_m 0x140 (c := .sscratch) hr hp hv (implemented_of_unit hS rfl) rfl rfl rfl rfl ?_ rfl
      exact congrArg (fun w => some { s with sc := { s.sc with scratch := w } }) (maskX_x64 hsx _)
    · refine csrrw_m 0x240 (c := .vsscratch) hr hp hv (implemented_of_unit hH rfl) rfl rfl rfl rfl ?_ rfl
      exact congrArg (fun w => some { s with vs := { s.vs with scratch := w } }) (maskX_x64 hvsx _)
    · refine csrrw_m 0x605 (c := .htimedelta) hr hp hv (implemented_of_unit hH rfl) rfl rfl rfl rfl ?_ rfl
      exact congrArg (fun x => some { s with h := { s.h with timedelta := putLow x s.h.timedelta (s.readX rs1) } }) hsx
  case epc =>
    simp only [epcRegisters, List.mem_cons, List.not_mem_nil, or_false] at hmem
    obtain rfl | rfl | rfl := hmem
    · obtain ⟨t, ht, hret, hst⟩ :=
        csrrw_m 0x141 (c := .sepc) hr hp hv (implemented_of_unit hS rfl) rfl rfl rfl rfl rfl rfl
      exact ⟨t, _, ht, hret, hepc s.sxlen hsx, hst⟩
    · obtain ⟨t, ht, hret, hst⟩ :=
        csrrw_m 0x241 (c := .vsepc) hr hp hv (implemented_of_unit hH rfl) rfl rfl rfl rfl rfl rfl
      exact ⟨t, _, ht, hret, hepc s.vsxlen hvsx, hst⟩
    · obtain ⟨t, ht, hret, hst⟩ := csrrw_m 0x341 (c := .mepc) hr hp hv (implemented_of_unit rfl rfl) rfl rfl rfl rfl rfl rfl
      exact ⟨t, _, ht, hret, hepc s.mxlen hm, hst⟩
  case tval =>
    simp only [tvalRegisters, List.mem_cons, List.not_mem_nil, or_false] at hmem
    obtain rfl | rfl := hmem
    · obtain ⟨t, ht, hret, hst⟩ :=
        csrrw_m 0x143 (c := .stval) hr hp hv (implemented_of_unit hS rfl) rfl rfl rfl rfl rfl rfl
      exact ⟨t, _, ht, hret, htval s.sxlen hsx, hst⟩
    · obtain ⟨t, ht, hret, hst⟩ :=
        csrrw_m 0x243 (c := .vstval) hr hp hv (implemented_of_unit hH rfl) rfl rfl rfl rfl rfl rfl
      exact ⟨t, _, ht, hret, htval s.vsxlen hvsx, hst⟩

/-! ### `sstatus` and `mstatus` (`12_state_supervisor_csrs.md` R220) -/

/-- A one-bit field that the mask has, and one that it has not. -/
theorem bitAt_and_in {m : Word} {k : Nat} (hk : bitAt k true &&& m = bitAt k true) (b : Bool) : bitAt k b &&& m = bitAt k b := by
  cases b with
  | false => exact BitVec.zero_and
  | true => exact hk

theorem bitAt_and_out {m : Word} {k : Nat} (hk : bitAt k true &&& m = 0) (b : Bool) : bitAt k b &&& m = 0 := by
  cases b with
  | false => exact BitVec.zero_and
  | true => exact hk

theorem sLow_and_mask (t : Mstatus) : t.sLow &&& 0x80000003000DE762 = t.sLow := by
  have hvs : ∀ v : BitVec 2, fieldAt 9 v.toNat &&& 0x80000003000DE762 = fieldAt 9 v.toNat := by decide
  have hfs : ∀ v : BitVec 2, fieldAt 13 v.toNat &&& 0x80000003000DE762 = fieldAt 13 v.toNat := by decide
  unfold Mstatus.sLow
  simp only [BitVec.and_or_distrib_right]
  rw [bitAt_and_in (k := 1) rfl, bitAt_and_in (k := 5) rfl, bitAt_and_in (k := 6) rfl, bitAt_and_in (k := 8) rfl, hvs, hfs,
    bitAt_and_in (k := 18) rfl, bitAt_and_in (k := 19) rfl]

theorem uxlWord_and_mask (s : State) : s.uxlWord &&& 0x80000003000DE762 = s.uxlWord := by
  have h : ∀ x : Xlen, fieldAt 32 (xlenCode x) &&& 0x80000003000DE762 = fieldAt 32 (xlenCode x) := by
    intro x; cases x <;> rfl
  unfold State.uxlWord
  split
  · exact h _
  · exact BitVec.zero_and

theorem sxl_and_mask (x : Xlen) : fieldAt 34 (xlenCode x) &&& 0x80000003000DE762 = 0 := by cases x <;> rfl

theorem mpp_and_mask (p : Priv) : fieldAt 11 p.num &&& 0x80000003000DE762 = 0 := by cases p <;> rfl

theorem mstatus_and_mask {s : State} (hm : s.mxlen = .x64) (hs : s.sxlen = .x64) :
    s.mstatus &&& 0x80000003000DE762 = s.sstatus := by
  have hsxl : (if s.hasS then fieldAt 34 (xlenCode s.mst.sxl) else 0) &&& (0x80000003000DE762 : Word) = 0 := by
    split
    · exact sxl_and_mask _
    · exact BitVec.zero_and
  have hsd : sdWord .x64 (sdBit s.mst.fs s.mst.vs) &&& 0x80000003000DE762 = sdWord .x64 (sdBit s.mst.fs s.mst.vs) :=
    bitAt_and_in rfl _
  unfold State.mstatus State.sstatus
  rw [hm, hs]
  simp only [BitVec.and_or_distrib_right, sLow_and_mask, uxlWord_and_mask, hsd, hsxl, mpp_and_mask]
  rw [bitAt_and_out (k := 3) rfl, bitAt_and_out (k := 7) rfl, bitAt_and_out (k := 17) rfl, bitAt_and_out (k := 20) rfl,
    bitAt_and_out (k := 21) rfl, bitAt_and_out (k := 22) rfl, bitAt_and_out (k := 36) rfl, bitAt_and_out (k := 37) rfl,
    bitAt_and_out (k := 38) rfl, bitAt_and_out (k := 39) rfl]
  simp only [BitVec.ofNat_eq_ofNat, BitVec.or_zero]

/-- A write of `sstatus` puts its fields in force. -/
theorem csrWrite_sstatus {s t : State} {w : Word} (h : s.csrWrite .sstatus w = some t) :
    t.mst = s.sstatusFields s.sxlen w := by
  cases h
  exact setMst_mst s _ rfl

/-- Settles O44: field by field under the mask (`mstatus_and_mask`), and `State.sstatusFields` copies the machine-level fields. -/
theorem sstatusIsView : Obligations.SstatusIsView := by
  intro s hm hs
  refine ⟨(mstatus_and_mask hm hs).symm, fun w t h => ?_⟩
  rw [csrWrite_sstatus h]
  exact ⟨rfl, rfl, rfl, rfl, rfl, rfl, rfl, rfl, rfl, rfl, rfl, rfl⟩

/-! ### `satp` (`12_state_supervisor_csrs.md` R271) -/

theorem reaches_user {s : State} {csr : Nat} (hl : csrLevel csr = 0) : s.reaches csr := by
  unfold State.reaches
  rw [hl]
  split
  · exact ⟨Nat.zero_le _, nofun⟩
  · exact Nat.zero_le _

theorem reaches_supervisor {s : State} {csr : Nat} (hv : s.v = false) (hp : s.priv = .m ∨ s.priv = .s)
    (hl : csrLevel csr = 1) : s.reaches csr := by
  unfold State.reaches State.modeLevel
  rw [hv, if_neg Bool.false_ne_true, hl]
  obtain hp | hp := hp <;> rw [hp] <;> dsimp only
  · decide
  · split <;> decide

theorem atpWrite_unsupported {s : State} {x : Xlen} {w : Word} (h : satpModeOk s.cfg x (atpMode x (maskX x w)) = false) :
    s.atpWrite x w = none := by
  unfold State.atpWrite
  dsimp only
  rw [h]
  rfl

/-- Settles O45: such a write is the state itself (`atpWrite_unsupported`). -/
theorem satpUnsupportedMode : Obligations.SatpUnsupportedMode := by
  intro s rs1 hr hS hv hp hmode
  have hok : s.csrVerdict 0x180 .satp true = .ok := by
    rw [csrVerdict_reaches (implemented_of_unit (c := .satp) hS rfl) (fun _ => rfl)
      (reaches_supervisor hv (hp.imp_right And.left) rfl)]
    refine csrCondition_ok (fun _ hs => ?_) nofun (fun h => absurd h (by decide)) nofun
    rw [hv]
    exact (hp.resolve_left (by rw [hs]; decide)).2
  refine csrrw_x0 rfl hr hv hok rfl ?_ rfl
  show s.csrPut .satp (s.readX rs1) = some s
  simp only [State.csrPut, atpWrite_unsupported hmode]

/-! ### Counters -/

/-- CSRRS of `x0` reads a CSR into `rd` and retires. -/
theorem csrrs_reads {s : State} {rd csr : Nat} {c : Csr} (h0 : 0 < rd) (hrd : rd < 32) (hr : s.hasReg rd = true)
    (hc : csrOf csr = some c) (hok : s.csrVerdict csr c false = .ok) (hx : s.xlen = .x64) :
    ∃ t, exec (.csrrs rd csr 0) s = .next t ∧ Retired s t ∧ t.rawX rd = s.toReg .x64 (s.csrRead (s.redirect c)) := by
  refine ⟨_, exec_csrrs_read hc hr hok, retired_retireCsr (readInto_cnt s rd _), ?_⟩
  rw [retireCsr_rawX, rawX_readInto_same (by omega) hrd hr, hx]
  rfl

theorem redirect_time (s : State) : s.redirect .time = .time := by
  unfold State.redirect
  split <;> rfl

/-- Settles O49: reads before counting by `csrrs_reads`, the written counter by `exec_csrrw_written`. -/
theorem counters : Obligations.Counters := by
  intro s rd rs1 h0 hrd hr hm
  obtain ⟨hrd', -⟩ := regsOk_pair.mp hr
  refine ⟨fun hp hv => ⟨?read, ?write⟩, fun hT hx hopen => ?time⟩
  case read =>
    have h := csrrs_reads (c := .minstret) (csr := 0xB02) h0 hrd hrd' rfl (csrVerdict_m hp hv rfl rfl rfl)
      ((xlen_of_m hp).trans hm)
    rwa [redirect_host hv] at h
  case write =>
    refine ⟨_, exec_csrrw_written (c := .minstret) rfl hr (csrVerdict_m hp hv rfl rfl rfl) (by rw [redirect_host hv]; rfl), rfl, ?_⟩
    rw [instret_retireCsr, if_pos (.inr rfl)]
    show putLow (readInto s rd _).mxlen _ _ = _
    rw [readInto, writeX_mxlen, hm]
    rfl
  case time =>
    have hok : s.csrVerdict 0xC01 .time false = .ok :=
      (csrVerdict_reaches (implemented_of_unit (c := .time) hT rfl) (fun h => absurd h Bool.false_ne_true)
        (reaches_user rfl)).trans (counterVerdict_open hopen)
    have h := csrrs_reads h0 hrd hrd' rfl hok hx
    rwa [redirect_time] at h

/-! ### `fcsr` (`11_state_machine_csrs.md` R114-R116) -/

/-- Touching the floating-point state makes it dirty, or leaves it where nothing changed. -/
theorem touchFs_cases (s : State) (b : Bool) :
    ∃ n, s.touchFs b = ({ s with draws := n } : State).dirtyFs ∨ (b = false ∧ s.touchFs b = { s with draws := n }) := by
  unfold State.touchFs
  split
  · exact ⟨s.draws, .inl rfl⟩
  · rename_i h
    have hb : b = false := by
      cases b with
      | false => rfl
      | true => simp at h
    refine ⟨(s.pick true [true, false]).2.draws, ?_⟩
    dsimp only
    split
    · exact .inl (congrArg State.dirtyFs (pick_state s true [true, false]))
    · exact .inr ⟨hb, pick_state s true [true, false]⟩

theorem dirtyFs_fields (s : State) :
    s.dirtyFs.fcsr = s.fcsr ∧ s.dirtyFs.cnt = s.cnt ∧ s.dirtyFs.mst.fs = 3 ∧ s.dirtyFs.vst.fs = if s.v then 3 else s.vst.fs := by
  unfold State.dirtyFs
  split
  · exact ⟨rfl, rfl, rfl, rfl⟩
  · exact ⟨rfl, rfl, rfl, rfl⟩

/-- A write of `fcsr` stores the value, and FS becomes Dirty or, where nothing changed, may stay. -/
theorem writeFcsr_fields (s : State) (v : BitVec 8) :
    (s.writeFcsr v).fcsr = v ∧ (s.writeFcsr v).cnt = s.cnt ∧
      (((s.writeFcsr v).mst.fs = 3 ∧ (s.writeFcsr v).vst.fs = if s.v then 3 else s.vst.fs) ∨
        ((s.writeFcsr v).mst.fs = s.mst.fs ∧ (s.writeFcsr v).vst.fs = s.vst.fs ∧ v = s.fcsr)) := by
  unfold State.writeFcsr
  obtain ⟨n, h | ⟨hb, h⟩⟩ := touchFs_cases { s with fcsr := v } (decide (v ≠ s.fcsr)) <;> rw [h]
  · obtain ⟨h1, h2, h3, h4⟩ := dirtyFs_fields { s with fcsr := v, draws := n }
    exact ⟨h1, h2, .inl ⟨h3, h4⟩⟩
  · exact ⟨rfl, rfl, .inr ⟨rfl, rfl, by simpa using hb⟩⟩

theorem csrVerdict_fcsr {s : State} (hF : s.hasF = true) :
    s.csrVerdict 0x003 .fcsr true = if s.fsOff then .illegal else .ok := by
  rw [csrVerdict_reaches (implemented_of_unit (c := .fcsr) hF rfl) (fun _ => rfl) (reaches_user rfl)]
  rfl

theorem redirect_fcsr (s : State) : s.redirect .fcsr = .fcsr := by
  unfold State.redirect
  split <;> rfl

/-- Settles O50: the write by `writeFcsr_fields`, the refusal by the condition on FS. -/
theorem fcsrWrites : Obligations.FcsrWrites := by
  intro s rd rs1 hF
  refine ⟨fun hr hfs hvfs => ?on, fun hoff => ?off⟩
  case on =>
    have hon : ¬s.fsOff = true := fun h => ((fsOff_iff s).mp h).elim hfs fun h => hvfs h.1 h.2
    have hok : s.csrVerdict 0x003 .fcsr true = .ok := (csrVerdict_fcsr hF).trans (if_neg hon)
    obtain ⟨x, hx⟩ : ∃ x, readInto s rd .fcsr = { s with x := x } := writeX_eq s rd _
    obtain ⟨h1, h2, h3⟩ := writeFcsr_fields { s with x := x } ((s.readX rs1).setWidth 8)
    refine ⟨_, exec_csrrw_written (c := .fcsr) rfl hr hok (by rw [redirect_fcsr, hx]; rfl), ?_, h1, h3⟩
    exact retired_retireCsr h2
  case off =>
    exact csrForm_illegal (csrrwForm_mem s rd 0x003 rs1) (c := .fcsr) rfl
      ((csrVerdict_fcsr hF).trans (if_pos ((fsOff_iff s).mpr hoff)))

/-! ### `misa` (`11_state_machine_csrs.md` R86) -/

theorem needs_other {e : BitVec 26} {x k : Nat} (y : Nat) (h : (BitVec.ofNat 26 (2 ^ x)).getLsbD k = false) (hk : k < 26) :
    (needs e x y).getLsbD k = e.getLsbD k := by
  unfold needs
  split
  · rfl
  · simp only [BitVec.getLsbD_and, BitVec.getLsbD_not, h, hk, decide_true, Bool.not_false, Bool.and_true]

/-- C depends on no other letter. -/
theorem closeAt_C (c : Config) (x : Xlen) (e : BitVec 26) : (c.closeAt x e).getLsbD letterC = e.getLsbD letterC := by
  unfold Config.closeAt closeLetters
  rw [needs_other _ rfl (by decide), needs_other _ rfl (by decide), needs_other _ rfl (by decide), needs_other _ rfl (by decide),
    needs_other _ rfl (by decide)]
  split
  · rfl
  · simp [letterC, letterH]

theorem letters_C {c : Config} (h : c.extMax.getLsbD letterC = true) : c.letters.getLsbD letterC = true := by
  unfold Config.letters
  rw [closeAt_C]
  simp only [BitVec.getLsbD_and, h]
  rfl

/-- A write of `misa` with bit C clear clears the letter where it is writable. -/
theorem extWritten_C {s : State} {e : BitVec 26} (hw : s.cfg.extWritable.getLsbD letterC = true)
    (hm : s.cfg.extMax.getLsbD letterC = true) (he : e.getLsbD letterC = false) (x : Xlen) :
    (s.extWritten x e).getLsbD letterC = false := by
  have hk : (s.cfg.extWritable &&& s.cfg.letters).getLsbD letterC = true := by
    rw [BitVec.getLsbD_and, hw, letters_C hm]; rfl
  have hI : (BitVec.ofNat 26 (2 ^ letterI)).getLsbD letterC = false := rfl
  have hH : (BitVec.ofNat 26 (2 ^ letterH)).getLsbD letterC = false := rfl
  have hC : letterC < 26 := by decide
  unfold State.extWritten
  dsimp only
  rw [closeAt_C]
  generalize s.cfg.extWritable &&& s.cfg.letters = m at hk
  have hmask : ∀ b : Bool, (if b then m else m &&& ~~~BitVec.ofNat 26 (2 ^ letterI)).getLsbD letterC = true := by
    intro b
    cases b with
    | false => simp only [Bool.false_eq_true, if_false, BitVec.getLsbD_and, BitVec.getLsbD_not, hk, hI, hC]; rfl
    | true => exact hk
  split
  all_goals simp only [BitVec.getLsbD_or, BitVec.getLsbD_and, BitVec.getLsbD_not, hmask, he, hH, hI, hC]; simp

/-- A suppressed write of `misa` leaves the state. -/
theorem setMisa_suppressed {s : State} {w : Word} (h : s.misaTarget w = s.misa) : s.setMisa w = s := by
  unfold State.setMisa
  exact if_pos h

/-- Settles O51: the letters written would turn C off (`extWritten_C`) under a misaligned successor. -/
theorem misaGuard : Obligations.MisaGuard := by
  intro s rs1 hp hv hC hmis hr hw hm hbit
  have htarget : s.misaTarget (s.readX rs1) = s.misa := by
    have hbit' : ((s.readX rs1).setWidth 26).getLsbD letterC = false := by
      rw [BitVec.getLsbD_setWidth, hbit, Bool.and_false]
    have hturn : ∀ x, turnedOn (s.extWritten x ((s.readX rs1).setWidth 26)) s.misa.ext letterC = true := fun x => by
      unfold turnedOn
      rw [extWritten_C hw hm hbit' x, show s.misa.ext.getLsbD letterC = true from hC]
      rfl
    unfold State.misaTarget
    dsimp only
    rw [hturn, decide_eq_true hmis, Bool.and_true, Bool.or_true, if_pos rfl]
  refine csrrw_x0 (c := .misa) rfl hr hv (csrVerdict_m hp hv rfl rfl rfl) rfl ?_ rfl
  exact congrArg some (setMisa_suppressed htarget)

end Sys2Proof.Proofs.SingleCsrs
end

section
/-!
SUPPORT. The PMP check (`20_memory.md` R444) and the state that reset leaves (`70_reset_and_hazards.md` section 1).
-/

namespace Sys2Proof.Proofs.PmpAndReset

open Sys2Proof Sys2Proof.Machine Sys2Proof.Laws

/-- The entries from number 0 on that match no byte are passed over. -/
theorem scan_misses {s : State} {p : Pmp} {a n k : Nat} (h : ∀ j < k, PmpMisses s p j a n) (acc : Acc) (m : Bool) (r : Nat) :
    p.scan s.cfg.pmpG (xlenBits s.mxlen) acc m a n (k + r) 0 = p.scan s.cfg.pmpG (xlenBits s.mxlen) acc m a n r k := by
  have hskip := scan_skip p s.cfg.pmpG (xlenBits s.mxlen) acc m a n k 0
    (fun j hj lo hi hrange => h j hj lo hi (by rwa [Nat.zero_add] at hrange)) r
  rwa [Nat.zero_add] at hskip

/-- The entry that matches some byte decides. -/
theorem scan_decides {p : Pmp} {g x i lo hi a n : Nat} {acc : Acc} {m : Bool} (hr : p.range g x i = some (lo, hi)) (h1 : a < hi)
    (h2 : lo < a + n) (r : Nat) :
    p.scan g x acc m a n (r + 1) i =
      (decide (lo ≤ a ∧ a + n ≤ hi) && ((m && !pmpL (p.cfgAt i)) || pmpGrants acc (p.cfgAt i))) := by
  rw [Pmp.scan, hr]
  dsimp only
  rw [if_pos ⟨h1, h2⟩]
  split
  · rename_i h; rw [decide_eq_true h, Bool.true_and]
  · rename_i h; rw [decide_eq_false h, Bool.false_and]

/-- Settles O47: the scan passes over the entries before the first that matches (`scan_misses`), which decides. -/
theorem pmpFirstMatchDecides : Obligations.PmpFirstMatchDecides := by
  intro s p acc priv a n
  refine ⟨fun h0 => if_pos h0, fun i lo hi hi' hmiss hrange h1 h2 => ?first, fun hpos hmiss => ?none⟩
  case first =>
    obtain ⟨r, hr⟩ : ∃ r, s.cfg.pmpN = i + (r + 1) := ⟨s.cfg.pmpN - i - 1, by omega⟩
    unfold State.pmpCheck
    rw [if_neg (by omega), hr, scan_misses hmiss, scan_decides hrange h1 h2]
  case none =>
    unfold State.pmpCheck
    rw [if_neg (by omega)]
    exact scan_misses hmiss acc _ 0

theorem atpMode_zero (x : Xlen) : atpMode x 0 = 0 := by cases x <;> rfl

/-- Entries that the platform does not set at reset are zero. -/
theorem resetPmpCfg_unset {l : List (Nat × Byte)} {i : Nat} (h : ∀ b, (i, b) ∉ l) :
    ((resetPmpCfg l)[i]?).getD 0 = 0 := by
  have key : ∀ (l : List (Nat × Byte)) (v : Vector Byte 64), (∀ b, (i, b) ∉ l) →
      (l.foldl (fun acc p => acc.setIfInBounds p.1 (p.2 &&& 0x98)) v)[i]? = v[i]? := by
    intro l
    induction l with
    | nil => exact fun _ _ => rfl
    | cons p l ih =>
      intro v h
      have hne : p.1 ≠ i := fun he => h p.2 (by rw [← he]; exact List.mem_cons_self)
      rw [List.foldl_cons, ih _ fun b hb => h b (List.mem_cons_of_mem _ hb), Vector.getElem?_setIfInBounds_ne hne]
  unfold resetPmpCfg
  rw [key l _ h]
  by_cases hi : i < 64
  · simp [hi]
  · rw [Vector.getElem?_eq_none (by omega)]
    rfl

/-- Settles O60: what `resetWith` writes, with `resetPmpCfg_unset` for the PMP entries. -/
theorem resetValues : Obligations.ResetValues := by
  intro c
  refine ⟨rfl, rfl, rfl, rfl, rfl, fun h => ?mbe, rfl, rfl, fun h => ?legal, rfl, rfl, fun i h => ?pmp, atpMode_zero _,
    atpMode_zero _⟩
  case mbe =>
    show (!c.mbeSet.little) = false
    rw [h]; rfl
  case legal =>
    show c.letters = _
    simp only [Config.legal, Bool.and_eq_true, decide_eq_true_eq, and_assoc] at h
    obtain ⟨-, -, hletters, -⟩ := h
    exact hletters
  case pmp =>
    have hz : (resetWith c).pmp.cfgAt i = 0 := resetPmpCfg_unset h
    rw [hz]
    exact ⟨rfl, rfl⟩

end Sys2Proof.Proofs.PmpAndReset
end

section
/-!
SUPPORT. What the writes of CSRs leave alone: the PMP registers (`20_memory.md` R440), the machine level, and with V=1 the hypervisor
level (`10_state.md` R30, R33); from there what no instruction below M-mode, and none with V=1, can do.
-/

namespace Sys2Proof.Proofs.Guarded

open Sys2Proof Sys2Proof.Machine Sys2Proof.Laws Sys2Proof.Proofs.MachineCsrs Sys2Proof.Proofs.Endings
  Sys2Proof.Proofs.Invariants Sys2Proof.Proofs.CsrInstructions Sys2Proof.Proofs.SingleCsrs

/-! ### Writes that take the state apart, as one record update -/

theorem redrawSum_eq (s : State) (a b c : Bool) : ∃ n, (s.redrawSum a b c).2 = { s with draws := n } := by
  unfold State.redrawSum
  split
  · exact ⟨s.draws, rfl⟩
  · split
    · exact ⟨_, pick_state s false [false, true]⟩
    · exact ⟨s.draws, rfl⟩

theorem modulateVs_eq (s : State) (v0 : Xlen) :
    ∃ vst vs n, s.modulateVs v0 = { s with vst := vst, vs := vs, draws := n } := by
  unfold State.modulateVs
  split
  · exact ⟨s.vst, s.vs, s.draws, rfl⟩
  · have ht : ∃ vst vs, (if narrowed v0 s.vsxlen then s.narrowVs else s.widenVs) = { s with vst := vst, vs := vs } := by
      split
      · exact ⟨_, _, rfl⟩
      · exact ⟨_, _, rfl⟩
    obtain ⟨vst, vs, ht⟩ := ht
    dsimp only
    rw [ht]
    obtain ⟨n, hn⟩ := redrawSum_eq { s with vst := vst, vs := vs }
      (({ s with vst := vst, vs := vs } : State).sumFixed v0)
      (({ s with vst := vst, vs := vs } : State).sumFixed ({ s with vst := vst, vs := vs } : State).vsxlen) vst.sum
    rw [hn]
    exact ⟨_, _, _, rfl⟩

theorem modulateM_same (s : State) : s.modulateM s.mxlen = s := by
  unfold State.modulateM
  rw [narrowed_self, widenDone_self]
  rfl

theorem modulateS_same (s : State) : s.modulateS s.sxlen = s := if_pos rfl

/-- New `hstatus` fields change beside them the VS-level registers, by their width. -/
theorem setHst_eq (s : State) (t : Hstatus) :
    ∃ hst vst vs n x, s.setHst t = { s with hst := hst, vst := vst, vs := vs, draws := n, xlat := x } := by
  unfold State.setHst
  dsimp only
  rw [noted_eq]
  obtain ⟨x, hx⟩ : ∃ x, x = (if t.vsbe = s.hst.vsbe then s else s.note .vsbe).xlat := ⟨_, rfl⟩
  rw [← hx]
  obtain ⟨vst, vs, n, h⟩ := modulateVs_eq { s with xlat := x, hst := t } s.vsxlen
  refine ⟨t, vst, vs, n, x, ?_⟩
  unfold State.modulate
  rw [show ({ s with xlat := x, hst := t } : State).modulateM s.mxlen = { s with xlat := x, hst := t } from modulateM_same _,
    show ({ s with xlat := x, hst := t } : State).modulateS s.sxlen = { s with xlat := x, hst := t } from modulateS_same _, h]

/-- The fields of `sstatus` are put in force as they are. -/
theorem setMst_sstatus (s : State) (w : Word) :
    s.setMst (s.sstatusFields s.sxlen w) = { s with mst := s.sstatusFields s.sxlen w } := by
  unfold State.setMst
  dsimp only
  rw [if_pos (show (s.sstatusFields s.sxlen w).sbe = s.mst.sbe from rfl)]
  exact modulate_id _ rfl rfl rfl

theorem writeFcsr_eq (s : State) (v : BitVec 8) :
    ∃ f g n, s.writeFcsr v =
      { s with fcsr := v, mst := { s.mst with fs := f }, vst := { s.vst with fs := g }, draws := n } := by
  unfold State.writeFcsr
  obtain ⟨n, h | ⟨-, h⟩⟩ := touchFs_cases { s with fcsr := v } (decide (v ≠ s.fcsr)) <;> rw [h]
  · unfold State.dirtyFs
    split
    · exact ⟨3, 3, n, rfl⟩
    · exact ⟨3, s.vst.fs, n, rfl⟩
  · exact ⟨s.mst.fs, s.vst.fs, n, rfl⟩

theorem atpWrite_eq {s t : State} {x : Xlen} {w v : Word} (h : s.atpWrite x w = some (v, t)) :
    ∃ n, t = { s with draws := n } := by
  unfold State.atpWrite at h
  dsimp only at h
  repeat' split at h
  · cases h
  · cases h; exact ⟨_, rfl⟩
  · cases h; exact ⟨s.draws, rfl⟩

theorem csrPut_satp {s t : State} {w : Word} (h : s.csrPut .satp w = some t) :
    ∃ a n, t = { s with sc := { s.sc with atp := a }, draws := n } := by
  simp only [State.csrPut] at h
  split at h
  · cases h; exact ⟨s.sc.atp, s.draws, rfl⟩
  · rename_i hw
    cases h
    obtain ⟨n, rfl⟩ := atpWrite_eq hw
    exact ⟨_, n, rfl⟩

theorem csrPut_vsatp {s t : State} {w : Word} (h : s.csrPut .vsatp w = some t) :
    ∃ a n, t = { s with vs := { s.vs with atp := a }, draws := n } := by
  simp only [State.csrPut] at h
  split at h
  · split at h
    · cases h; exact ⟨s.vs.atp, s.draws, rfl⟩
    · cases h; exact ⟨_, s.draws, rfl⟩
  · rename_i hw
    cases h
    obtain ⟨n, rfl⟩ := atpWrite_eq hw
    exact ⟨_, n, rfl⟩

theorem csrPut_hstatus {s t : State} {w : Word} (h : s.csrPut .hstatus w = some t) :
    ∃ hst vst vs n x, t = { s with hst := hst, vst := vst, vs := vs, draws := n, xlat := x } := by
  simp only [State.csrPut] at h
  split at h
  · cases h; exact setHst_eq s _
  · split at h
    · cases h
    · cases h; exact setHst_eq s _

theorem csrPut_scause {s t : State} {w : Word} (h : s.csrPut .scause w = some t) :
    ∃ v, t = { s with sc := { s.sc with cause := v } } := by
  simp only [State.csrPut, Option.map_eq_some_iff] at h
  obtain ⟨v, -, rfl⟩ := h
  exact ⟨v, rfl⟩

theorem csrPut_vscause {s t : State} {w : Word} (h : s.csrPut .vscause w = some t) :
    ∃ v, t = { s with vs := { s.vs with cause := v } } := by
  simp only [State.csrPut, Option.map_eq_some_iff] at h
  obtain ⟨v, -, rfl⟩ := h
  exact ⟨v, rfl⟩

theorem csrPut_henvcfg {s t : State} {w : Word} (h : s.csrPut .henvcfg w = some t) :
    ∃ b x, t = { s with h := b, xlat := x } := by
  simp only [State.csrPut] at h
  split at h
  · cases h; exact ⟨_, s.xlat, rfl⟩
  · cases h
    unfold State.setHPbmte
    rw [putHPbmte_eq]
    exact ⟨_, _, rfl⟩

theorem csrPut_henvcfgh {s t : State} {w : Word} (h : s.csrPut .henvcfgh w = some t) :
    ∃ b x, t = { s with h := b, xlat := x } := by
  cases h
  unfold State.setHPbmte
  rw [putHPbmte_eq]
  exact ⟨_, _, rfl⟩

/-! ### PMP registers -/

theorem modulateS_pmp (s : State) (s0 : Xlen) : (s.modulateS s0).pmp = s.pmp := by
  unfold State.modulateS
  split
  · rfl
  · have ht : (if narrowed s0 s.sxlen then s.narrowS else s.widenS).pmp = s.pmp := by
      split
      · rfl
      · unfold State.widenS State.setHPbmte
        rw [putHPbmte_eq]
        rfl
    dsimp only
    obtain ⟨n, hn⟩ := redrawSum_eq (if narrowed s0 s.sxlen then s.narrowS else s.widenS)
      ((if narrowed s0 s.sxlen then s.narrowS else s.widenS).sumFixed s0)
      ((if narrowed s0 s.sxlen then s.narrowS else s.widenS).sumFixed
        (if narrowed s0 s.sxlen then s.narrowS else s.widenS).sxlen)
      (if narrowed s0 s.sxlen then s.narrowS else s.widenS).mst.sum
    rw [hn]
    exact ht

theorem modulateVs_pmp (s : State) (v0 : Xlen) : (s.modulateVs v0).pmp = s.pmp := by
  obtain ⟨vst, vs, n, h⟩ := modulateVs_eq s v0
  rw [h]

theorem setMst_pmp (s : State) (t : Mstatus) : (s.setMst t).pmp = s.pmp := by
  unfold State.setMst State.modulate
  dsimp only
  rw [noted_eq, modulateVs_pmp, modulateS_pmp]
  obtain ⟨x, hx⟩ : ∃ x, x = (if t.sbe = s.mst.sbe then s else s.note .sbe).xlat := ⟨_, rfl⟩
  rw [← hx]
  have h : ({ s with xlat := x, mst := t } : State).modulateM s.mxlen = { s with xlat := x, mst := t } := modulateM_same _
  exact (congrArg State.pmp h :)

theorem pick_pmp {α : Type} [BEq α] (s : State) (d : α) (l : List α) : (s.pick d l).2.pmp = s.pmp :=
  (congrArg State.pmp (pick_state s d l) :)

theorem setMPbmte_pmp (s : State) (b : Bool) : (s.setMPbmte b).pmp = s.pmp := by
  unfold State.setMPbmte
  dsimp only
  split
  · rfl
  · split
    · exact (putHPbmte_pmp _ _).trans ((pick_pmp _ _ _).trans rfl)
    · exact (putHPbmte_pmp _ _).trans rfl

/-- A write of a CSR other than `misa` and the PMP registers leaves those. -/
theorem csrPut_pmp {s t : State} {c : Csr} {w : Word} (h : s.csrPut c w = some t) :
    t.pmp = s.pmp ∨ (∃ k n, t.pmp = { s.pmp with cfg := s.pmpCfgSet k n w }) ∨ ∃ k, t = s.setPmpAddr k w := by
  have same : ∀ u : State, some u = some t → u.pmp = s.pmp → t.pmp = s.pmp := fun u e hu => by cases e; exact hu
  cases c
  case pmpcfg k =>
    cases h
    rw [setPmp_eq]
    exact .inr (.inl ⟨_, _, rfl⟩)
  case pmpaddr k => cases h; exact .inr (.inr ⟨k, rfl⟩)
  all_goals refine .inl ?_
  case fflags | frm | fcsr =>
    refine same _ h ?_
    obtain ⟨f, g, n, hw⟩ := writeFcsr_eq s _
    rw [hw]
  case sstatus | mstatus | mstatush => exact same _ h (setMst_pmp s _)
  case satp => obtain ⟨a, n, rfl⟩ := csrPut_satp h; rfl
  case vsatp => obtain ⟨a, n, rfl⟩ := csrPut_vsatp h; rfl
  case hstatus => obtain ⟨hst, vst, vs, n, x, rfl⟩ := csrPut_hstatus h; rfl
  case scause => obtain ⟨v, rfl⟩ := csrPut_scause h; rfl
  case vscause => obtain ⟨v, rfl⟩ := csrPut_vscause h; rfl
  case mcause =>
    simp only [State.csrPut, Option.map_eq_some_iff] at h
    obtain ⟨v, -, rfl⟩ := h
    rfl
  case henvcfg => obtain ⟨b, x, rfl⟩ := csrPut_henvcfg h; rfl
  case henvcfgh => obtain ⟨b, x, rfl⟩ := csrPut_henvcfgh h; rfl
  case hgatp => exact same _ h (setHgatp_pmp s w)
  case menvcfgh => exact same _ h (setMPbmte_pmp s _)
  case menvcfg =>
    simp only [State.csrPut] at h
    split at h
    · exact same _ h rfl
    · exact same _ h (setMPbmte_pmp _ _)
  case mideleg | mtval =>
    simp only [State.csrPut] at h
    split at h <;> exact same _ h rfl
  all_goals exact same _ h rfl

/-- What a lock protects of a PMP entry: its configuration, its address, and for a top-of-range entry the address before. -/
def LockKept (p q : Pmp) (i : Nat) : Prop :=
  q.cfgAt i = p.cfgAt i ∧ q.addr[i]? = p.addr[i]? ∧ (0 < i → pmpA (p.cfgAt i) = 1 → q.addr[i - 1]? = p.addr[i - 1]?)

theorem LockKept.of_eq {p q : Pmp} (h : q = p) (i : Nat) : LockKept p q i := by
  subst h
  exact ⟨rfl, rfl, fun _ _ => rfl⟩

/-- Writing configuration bytes leaves those of locked entries. -/
theorem pmpCfgSet_locked {s : State} {i : Nat} (hl : pmpL (s.pmp.cfgAt i) = true) (k n : Nat) (w : Word) :
    (s.pmpCfgSet k n w)[i]? = s.pmp.cfg[i]? := by
  have key : ∀ (l : List Nat) (v : Vector Byte 64), v[i]? = s.pmp.cfg[i]? →
      (l.foldl
        (fun v j =>
          if k + j < s.cfg.pmpN then
            v.setIfInBounds (k + j) (s.pmpCfgByte (s.pmp.cfgAt (k + j)) (BitVec.ofNat 8 (fieldOf w (8 * j) 8)))
          else v) v)[i]? = s.pmp.cfg[i]? := by
    intro l
    induction l with
    | nil => exact fun _ hv => hv
    | cons j l ih =>
      intro v hv
      rw [List.foldl_cons]
      refine ih _ ?_
      split
      · by_cases hj : k + j = i
        · rw [hj]
          have hb : s.pmpCfgByte (s.pmp.cfgAt i) (BitVec.ofNat 8 (fieldOf w (8 * j) 8)) = s.pmp.cfgAt i := if_pos hl
          rw [hb]
          by_cases hi : i < 64
          · rw [Vector.getElem?_setIfInBounds_self_of_lt hi]
            simp [Pmp.cfgAt, hi]
          · rw [Vector.getElem?_eq_none (by omega), Vector.getElem?_eq_none (by omega)]
        · rw [Vector.getElem?_setIfInBounds_ne hj, hv]
      · exact hv
  exact key _ _ rfl

/-- Writing an address register leaves what the lock of an entry protects. -/
theorem setPmpAddr_locked {s : State} {i : Nat} (hi : i < s.cfg.pmpN) (hl : pmpL (s.pmp.cfgAt i) = true) (k : Nat) (w : Word) :
    LockKept s.pmp (s.setPmpAddr k w).pmp i := by
  unfold State.setPmpAddr
  split
  · exact .of_eq rfl i
  · rename_i h
    obtain ⟨-, hk⟩ := not_or.mp h
    have hne : k ≠ i := by
      rintro rfl
      exact hk (by unfold State.pmpAddrLocked; rw [hl]; rfl)
    rw [setPmp_eq]
    refine ⟨rfl, Vector.getElem?_setIfInBounds_ne hne, fun hpos ha => Vector.getElem?_setIfInBounds_ne fun he => hk ?_⟩
    have he' : k + 1 = i := by omega
    unfold State.pmpAddrLocked
    rw [he', hl, ha, decide_eq_true hi]
    simp

theorem csrPut_lock {s t : State} {c : Csr} {w : Word} {i : Nat} (h : s.csrPut c w = some t) (hi : i < s.cfg.pmpN)
    (hl : pmpL (s.pmp.cfgAt i) = true) : LockKept s.pmp t.pmp i := by
  obtain hp | ⟨k, n, hp⟩ | ⟨k, rfl⟩ := csrPut_pmp h
  · exact .of_eq hp i
  · rw [hp]
    exact ⟨congrArg (·.getD 0) (pmpCfgSet_locked hl k n w), rfl, fun _ _ => rfl⟩
  · exact setPmpAddr_locked hi hl k w

/-- `misa` has one number. -/
theorem csrOf_misa {n : Nat} (h : csrOf n = some .misa) : n = 0x301 := by
  unfold csrOf at h
  split at h
  · unfold csrMachine at h
    split at h
    case h_2 => rfl
    all_goals repeat' split at h
    all_goals cases h
  · split at h
    · unfold csrLow at h
      split at h <;> cases h
    · unfold csrHigh at h
      split at h
      all_goals repeat' split at h
      all_goals cases h

/-- How a CSR instruction ends: an exception, or what it has written retires. -/
theorem csrForm_cases {s t : State} {rd csr src : Nat} {f : CsrForm} (hf : f ∈ csrForms s rd csr src)
    (h : exec f.instr s = .next t) :
    (∃ e, t = s.raise e) ∨
      ∃ c u b, csrOf csr = some c ∧ s.csrVerdict csr c f.writes = .ok ∧ written s rd c f = some u ∧ t = u.retireCsr s b := by
  have illegal (hr : RaisesIllegal f.instr s) : ∃ e, t = s.raise e := by
    rw [hr] at h
    cases h
    exact ⟨_, rfl⟩
  cases hregs : s.regsOk f.regs with
  | false => exact .inl (illegal (csrForm_badRegs hf hregs))
  | true =>
    cases hc : csrOf csr with
    | none => exact .inl (illegal (csrForm_noCsr hf hc))
    | some c =>
      cases hv : s.csrVerdict csr c f.writes with
      | illegal => exact .inl (illegal (csrForm_illegal hf hc hv))
      | virtual =>
        rw [csrForm_virtual hf hregs hc hv] at h
        cases h
        exact .inl ⟨_, rfl⟩
      | ok =>
        cases hu : written s rd c f with
        | none => exact .inl (illegal (csrForm_unwritten hf hregs hc hv hu))
        | some u =>
          rw [csrForm_written hf hregs hc hv hu] at h
          cases h
          exact .inr ⟨c, u, _, rfl, hv, hu, rfl⟩

/-- Settles O46: an exception and the register write leave the PMP registers, and no write but one of `misa` goes through a lock
(`csrPut_lock`). -/
theorem pmpLockHolds : Obligations.PmpLockHolds := by
  intro s t rd csr src i hcsr hi hl f hf h
  show LockKept s.pmp t.pmp i
  obtain ⟨e, rfl⟩ | ⟨c, u, b, hc, -, hu, rfl⟩ := csrForm_cases hf h
  · exact .of_eq (raise_pmp s e) i
  · obtain ⟨x, hx⟩ : ∃ x, readInto s rd (s.redirect c) = { s with x := x } := writeX_eq s rd _
    unfold written at hu
    rw [hx] at hu
    split at hu
    · have hne : s.redirect c ≠ .misa := fun he => hcsr (csrOf_misa (redirect_machine he rfl ▸ hc))
      rw [csrWrite_of_ne hne] at hu
      exact (csrPut_lock (s := { s with x := x }) hu hi hl :)
    · cases hu
      exact .of_eq rfl i

/-! ### Masks -/

/-- Every bit of one word is one of the other. -/
def Within (m d : Word) : Prop := ∀ i, m.getLsbD i = true → d.getLsbD i = true

theorem Within.trans {a b c : Word} (h : Within a b) (k : Within b c) : Within a c := fun i hi => k i (h i hi)

theorem within_and_left (a b : Word) : Within (a &&& b) a := fun i h => by
  rw [BitVec.getLsbD_and, Bool.and_eq_true] at h
  exact h.1

theorem within_and_right (a b : Word) : Within (a &&& b) b := fun i h => by
  rw [BitVec.getLsbD_and, Bool.and_eq_true] at h
  exact h.2

theorem within_maskX (x : Xlen) (w : Word) : Within (maskX x w) w := fun i h => by
  cases x with
  | x64 => exact h
  | x32 =>
    simp only [maskX, BitVec.getLsbD_setWidth, Bool.and_eq_true] at h
    exact h.2.2

theorem Within.clear {m d : Word} (h : Within m d) {i : Nat} (hd : d.getLsbD i = false) : m.getLsbD i = false := by
  cases hm : m.getLsbD i with
  | false => rfl
  | true =>
    rw [h i hm] at hd
    cases hd

/-- What is merged under a mask stays outside of it. -/
theorem mergeW_outside {m d : Word} (h : Within m d) (old new : Word) : mergeW m old new &&& ~~~d = old &&& ~~~d := by
  refine BitVec.eq_of_getLsbD_eq fun i hi => ?_
  have hm : d.getLsbD i = false → m.getLsbD i = false := fun hd => h.clear hd
  simp only [mergeW, BitVec.getLsbD_and, BitVec.getLsbD_or, BitVec.getLsbD_not, hi, decide_true, Bool.true_and]
  cases hd : d.getLsbD i with
  | true => simp
  | false => simp [hm hd]

section
variable (s : State)

theorem within_sipVisible : Within s.sipVisible s.mideleg := (within_maskX _ _).trans (within_and_left _ _)

theorem within_hieMask : Within s.hieMask s.mideleg := (within_and_left _ _).trans (within_and_left _ _)

theorem within_hideleg : Within s.hideleg s.mideleg := by
  refine (within_and_right _ _).trans ?_
  unfold State.hidelegMask
  split
  · exact (within_maskX _ _).trans (within_and_right _ _)
  · exact fun i h => by simp at h

theorem within_vsPlat : Within s.vsPlat s.hideleg :=
  (within_maskX _ _).trans ((within_and_left _ _).trans (within_and_right _ _))

end

theorem hideleg_noH {s : State} (h : s.hasH = false) : s.hideleg = 0 := by
  unfold State.hideleg State.hidelegMask
  rw [h]
  exact BitVec.and_zero

/-! ### The machine level -/

/-- The fields of `mstatus` that no lower level has, but MPRV. -/
def machineStatus (t : Mstatus) : Mstatus :=
  { t with sie := false, spie := false, ube := false, spp := false, vs := 0, fs := 0, mprv := false, sum := false
           mxr := false, uxl := .x32 }

/-- The counters that no lower level writes, but `minstret`, which counts. -/
def machineCounters (t : Counters) : Counters := { t with instret := 0, scounteren := 0, hcounteren := 0 }

/-- The pending bits that no lower level writes. -/
def machinePending (t : Pending) : Pending :=
  { t with ssip := false, plat := 0, vssip := false, vstip := false, vseip := false }

/-- The pending bits written below M-mode are those that `mideleg` delegates, and those of VS-level. -/
structure PendingKept (s : State) (p : Pending) : Prop where
  machine : machinePending p = machinePending s.pend
  ssip : s.mideleg.getLsbD 1 = false → p.ssip = s.pend.ssip
  plat : p.plat &&& ~~~s.mideleg = s.pend.plat &&& ~~~s.mideleg
  guest : s.hasH = false → p.vssip = s.pend.vssip ∧ p.vstip = s.pend.vstip ∧ p.vseip = s.pend.vseip

theorem PendingKept.refl (s : State) : PendingKept s s.pend := ⟨rfl, fun _ => rfl, rfl, fun _ => ⟨rfl, rfl, rfl⟩⟩

/-- What is left alone of the machine level below M-mode, `minstret` and MPRV aside. -/
structure MachineKept (s t : State) : Prop where
  m : { t.m with ie := 0 } = { s.m with ie := 0 }
  ie : t.m.ie &&& ~~~s.mideleg = s.m.ie &&& ~~~s.mideleg
  misa : t.misa = s.misa
  pmp : t.pmp = s.pmp
  mst : machineStatus t.mst = machineStatus s.mst
  pend : PendingKept s t.pend
  cnt : machineCounters t.cnt = machineCounters s.cnt

/-- A change that does not reach the machine level at all. -/
theorem MachineKept.of_eq {s t : State} (hm : t.m = s.m) (hmisa : t.misa = s.misa) (hpmp : t.pmp = s.pmp)
    (hmst : machineStatus t.mst = machineStatus s.mst) (hpend : t.pend = s.pend)
    (hcnt : machineCounters t.cnt = machineCounters s.cnt) : MachineKept s t :=
  ⟨by rw [hm], by rw [hm], hmisa, hpmp, hmst, hpend ▸ .refl s, hcnt⟩

/-- A write of enable bits that `mideleg` delegates. -/
theorem MachineKept.of_ie {s : State} {w : Word} (h : w &&& ~~~s.mideleg = s.m.ie &&& ~~~s.mideleg) :
    MachineKept s { s with m := { s.m with ie := w } } := ⟨rfl, h, rfl, rfl, rfl, .refl s, rfl⟩

/-- A write of pending bits. -/
theorem MachineKept.of_pend {s : State} {p : Pending} (h : PendingKept s p) : MachineKept s { s with pend := p } :=
  ⟨rfl, rfl, rfl, rfl, rfl, h, rfl⟩

/-- A write of a CSR of a level below M-mode leaves the machine level and does not count. -/
theorem csrPut_machine {s t : State} {c : Csr} {w : Word} (h : s.csrPut c w = some t) (hl : levelOf c ≤ 2)
    (hH : c = .hip ∨ c = .hvip → s.hasH = true) : MachineKept s t ∧ t.cnt.instret = s.cnt.instret := by
  have apart : ∀ {u : State}, some u = some t → u.m = s.m → u.misa = s.misa → u.pmp = s.pmp →
      machineStatus u.mst = machineStatus s.mst → u.pend = s.pend → machineCounters u.cnt = machineCounters s.cnt →
      u.cnt.instret = s.cnt.instret → MachineKept s t ∧ t.cnt.instret = s.cnt.instret := by
    intro u e h1 h2 h3 h4 h5 h6 h7
    cases e
    exact ⟨.of_eq h1 h2 h3 h4 h5 h6, h7⟩
  have noH : s.hasH = true → s.hasH = false → False := fun h1 h2 => by rw [h1] at h2; cases h2
  cases c
  case fflags | frm | fcsr =>
    obtain ⟨f, g, n, hw⟩ := writeFcsr_eq s _
    exact apart ((congrArg some hw.symm).trans h) rfl rfl rfl rfl rfl rfl rfl
  case sstatus => exact apart ((congrArg some (setMst_sstatus s w).symm).trans h) rfl rfl rfl rfl rfl rfl rfl
  case satp => obtain ⟨a, n, rfl⟩ := csrPut_satp h; exact apart rfl rfl rfl rfl rfl rfl rfl rfl
  case vsatp => obtain ⟨a, n, rfl⟩ := csrPut_vsatp h; exact apart rfl rfl rfl rfl rfl rfl rfl rfl
  case hstatus => obtain ⟨hst, vst, vs, n, x, rfl⟩ := csrPut_hstatus h; exact apart rfl rfl rfl rfl rfl rfl rfl rfl
  case scause => obtain ⟨v, rfl⟩ := csrPut_scause h; exact apart rfl rfl rfl rfl rfl rfl rfl rfl
  case vscause => obtain ⟨v, rfl⟩ := csrPut_vscause h; exact apart rfl rfl rfl rfl rfl rfl rfl rfl
  case henvcfg => obtain ⟨b, x, rfl⟩ := csrPut_henvcfg h; exact apart rfl rfl rfl rfl rfl rfl rfl rfl
  case henvcfgh => obtain ⟨b, x, rfl⟩ := csrPut_henvcfgh h; exact apart rfl rfl rfl rfl rfl rfl rfl rfl
  case hgatp => exact apart ((congrArg some (setHgatp_eq s w).symm).trans h) rfl rfl rfl rfl rfl rfl rfl
  case sie => cases h; exact ⟨.of_ie (mergeW_outside ((within_and_left _ _).trans (within_sipVisible s)) _ _), rfl⟩
  case hie => cases h; exact ⟨.of_ie (mergeW_outside (within_hieMask s) _ _), rfl⟩
  case vsie =>
    cases h
    refine ⟨.of_ie ?_, rfl⟩
    rw [mergeW_outside ((within_vsPlat s).trans (within_hideleg s)),
      mergeW_outside ((within_and_left _ _).trans (within_hideleg s))]
  case sip =>
    cases h
    have hk := (within_and_left s.sipVisible (2 ||| (s.cfg.platIrqWritable &&& s.platMask))).trans (within_sipVisible s)
    exact ⟨.of_pend ⟨rfl, fun h1 => if_neg (Bool.eq_false_iff.mp (hk.clear h1)),
      mergeW_outside ((within_and_left _ _).trans hk) _ _, fun _ => ⟨rfl, rfl, rfl⟩⟩, rfl⟩
  case vsip =>
    cases h
    exact ⟨.of_pend ⟨rfl, fun _ => rfl,
      mergeW_outside ((within_and_left _ _).trans ((within_vsPlat s).trans (within_hideleg s))) _ _,
      fun h0 => ⟨by rw [hideleg_noH h0]; rfl, rfl, rfl⟩⟩, rfl⟩
  case hip => cases h; exact ⟨.of_pend ⟨rfl, fun _ => rfl, rfl, fun h0 => (noH (hH (.inl rfl)) h0).elim⟩, rfl⟩
  case hvip => cases h; exact ⟨.of_pend ⟨rfl, fun _ => rfl, rfl, fun h0 => (noH (hH (.inr rfl)) h0).elim⟩, rfl⟩
  all_goals first
    | exact absurd hl (Nat.not_succ_le_self 2)
    | exact apart h rfl rfl rfl rfl rfl rfl rfl

end Sys2Proof.Proofs.Guarded
end

section
/-!
SUPPORT. What no instruction below M-mode changes of the machine level, and none with V=1 of the hypervisor level: the endings of an
instruction one by one.
-/

namespace Sys2Proof.Proofs.Confined

open Sys2Proof Sys2Proof.Machine Sys2Proof.Laws Sys2Proof.Proofs.MachineCsrs Sys2Proof.Proofs.Endings
  Sys2Proof.Proofs.Invariants Sys2Proof.Proofs.CsrInstructions Sys2Proof.Proofs.Guarded

/-! ### Which register an access below M-mode reaches -/

section
variable {s : State} {n : Nat} {c : Csr} {write : Bool} (hn : csrOf n = some c) (hok : s.csrVerdict n c write = .ok)
include hok

theorem implemented_of_ok : s.implemented c = true := by
  cases hi : s.implemented c with
  | true => rfl
  | false =>
    rw [csrVerdict_absent hi] at hok
    cases hok

include hn

theorem levelOf_redirect_le (hp : s.priv ≠ .m) : levelOf (s.redirect c) ≤ 2 := by
  have hl := level_of_ok hn hok
  have hmode : s.modeLevel ≤ 2 := by
    unfold State.modeLevel
    split
    · rename_i h; exact absurd h hp
    · split <;> decide
    · decide
  obtain hr | ⟨-, -, hr⟩ := redirect_cases s c
  · rw [hr]
    split at hl <;> omega
  · exact Nat.le_of_eq hr

end

theorem redirect_hip {s : State} {c : Csr} (h : s.redirect c = .hip ∨ s.redirect c = .hvip) : c = .hip ∨ c = .hvip := by
  unfold State.redirect at h
  split at h
  · split at h
    all_goals first
      | exact h
      | obtain h | h := h <;> cases h
  · exact h

/-- The pending bits of the hypervisor extension are reached only where it is. -/
theorem hasH_of_hip {s : State} {n : Nat} {c : Csr} {write : Bool} (hok : s.csrVerdict n c write = .ok)
    (h : s.redirect c = .hip ∨ s.redirect c = .hvip) : s.hasH = true := by
  have hi := implemented_of_ok hok
  unfold State.implemented at hi
  rw [Bool.and_eq_true] at hi
  obtain rfl | rfl := redirect_hip h
  · exact hi.1
  · exact hi.1

/-! ### The machine level -/

/-- What an instruction below M-mode that stays there leaves of the machine level. -/
structure MachineGuarded (s t : State) : Prop where
  kept : MachineKept s t
  mprv : t.mst.mprv = s.mst.mprv ∨ t.mst.mprv = false
  instret : t.cnt.instret = s.cnt.instret ∨ t.cnt.instret = s.cnt.instret + 1

/-- The integer registers are no part of what the machine level is compared with. -/
theorem machineKept_of_x {s t : State} {x : Vector Word 32} (h : MachineKept { s with x := x } t) : MachineKept s t :=
  ⟨h.m, h.ie, h.misa, h.pmp, h.mst, ⟨h.pend.machine, h.pend.ssip, h.pend.plat, h.pend.guest⟩, h.cnt⟩

/-- Retiring a CSR instruction counts it at most once, and changes nothing else of the machine level. -/
theorem machineKept_retireCsr {s u : State} (h : MachineKept s u) (b : Bool) : MachineKept s (u.retireCsr s b) := by
  refine ⟨h.m, h.ie, h.misa, h.pmp, h.mst, h.pend, Eq.trans ?_ h.cnt⟩
  unfold State.retireCsr
  cases b || s.cnt.inhibit.getLsbD 2 <;> rfl

theorem instret_retireCsr_or (u s : State) (b : Bool) :
    (u.retireCsr s b).cnt.instret = u.cnt.instret ∨ (u.retireCsr s b).cnt.instret = u.cnt.instret + 1 := by
  rw [instret_retireCsr]
  split
  · exact .inl rfl
  · exact .inr rfl

theorem machineKept_of_near {s u t : State} (hu : Near s u) (hm : t.m = u.m) (hmisa : t.misa = u.misa) (hpmp : t.pmp = u.pmp)
    (hmst : machineStatus t.mst = machineStatus u.mst) (hpend : t.pend = u.pend)
    (hcnt : machineCounters t.cnt = machineCounters u.cnt) : MachineKept s t :=
  .of_eq (hm.trans hu.m) (hmisa.trans hu.misa) (hpmp.trans hu.pmp) (hmst.trans (congrArg machineStatus hu.mst))
    (hpend.trans hu.pend) (hcnt.trans (congrArg machineCounters hu.cnt))

theorem instret_or (p : Prop) [Decidable p] (w : Word) : (if p then w else w + 1) = w ∨ (if p then w else w + 1) = w + 1 := by
  split
  · exact .inl rfl
  · exact .inr rfl

/-- A trap that stays below M-mode. -/
theorem guarded_takeTrap {s u : State} (hu : Near s u) {intr : Bool} {e : Exc} (ht : (u.takeTrap intr e).priv ≠ .m) :
    MachineGuarded s (u.takeTrap intr e) := by
  obtain h | ⟨h, -⟩ | ⟨h, -⟩ := takeTrap_cases u intr e <;> rw [h] at ht ⊢
  · exact absurd rfl ht
  · exact ⟨machineKept_of_near hu rfl rfl rfl rfl rfl rfl, .inl (congrArg Mstatus.mprv hu.mst :),
      .inl (congrArg Counters.instret hu.cnt :)⟩
  · exact ⟨machineKept_of_near hu rfl rfl rfl rfl rfl rfl, .inl (congrArg Mstatus.mprv hu.mst :),
      .inl (congrArg Counters.instret hu.cnt :)⟩

theorem guarded_retire {s u : State} (hu : Near s u) : MachineGuarded s u.retire := by
  rw [retire_eq]
  refine ⟨machineKept_of_near hu rfl rfl rfl rfl rfl rfl, .inl (congrArg Mstatus.mprv hu.mst :), ?_⟩
  rw [hu.cnt]
  exact instret_or _ _

/-- SRET, in either world: it clears MPRV. -/
theorem guarded_sret (s : State) :
    MachineGuarded s s.countInstret.returnS.maybeClearResv ∧ MachineGuarded s s.countInstret.returnVs.maybeClearResv := by
  obtain ⟨r, n, h⟩ := maybeClearResv_eq s.countInstret.returnS
  obtain ⟨r', n', h'⟩ := maybeClearResv_eq s.countInstret.returnVs
  rw [h, h', countInstret_eq]
  exact ⟨⟨.of_eq rfl rfl rfl rfl rfl rfl, .inr rfl, instret_or _ _⟩,
    ⟨.of_eq rfl rfl rfl rfl rfl rfl, .inr rfl, instret_or _ _⟩⟩

theorem guarded_csr {s t : State} {n : Nat} {c : Csr} {write : Bool} (hp : s.priv ≠ .m) (hn : csrOf n = some c)
    (hok : s.csrVerdict n c write = .ok) (h : CsrEnd s c t) : MachineGuarded s t := by
  cases h with
  | read rd w b =>
    obtain ⟨x, hx⟩ := writeX_eq s rd w
    rw [hx]
    have hk : MachineKept s { s with x := x } := .of_eq rfl rfl rfl rfl rfl rfl
    exact ⟨machineKept_retireCsr hk b, .inl rfl, instret_retireCsr_or { s with x := x } s b⟩
  | write rd w w' b u h =>
    obtain ⟨x, hx⟩ := writeX_eq s rd w
    have hl := levelOf_redirect_le hn hok hp
    have hmisa : s.redirect c ≠ .misa := fun he => by rw [he] at hl; exact absurd hl (Nat.not_succ_le_self 2)
    have hmst : s.redirect c ≠ .mstatus := fun he => by rw [he] at hl; exact absurd hl (Nat.not_succ_le_self 2)
    rw [hx, csrWrite_of_ne hmisa] at h
    obtain ⟨hk, hcount⟩ := csrPut_machine h hl (hasH_of_hip hok)
    have hcount' : u.cnt.instret = s.cnt.instret := hcount
    refine ⟨machineKept_retireCsr (machineKept_of_x hk) b, .inl ?_, ?_⟩
    · exact (congrArg (·.2.2.1) (csrPut_kept h hmst) :)
    · rw [← hcount']
      exact instret_retireCsr_or u s b

theorem ends_guardedM {s t : State} (hp : s.priv ≠ .m) (h : Ends s t) (ht : t.priv ≠ .m) : MachineGuarded s t := by
  cases h with
  | trap u intr e hu => exact guarded_takeTrap hu ht
  | retire u hu => exact guarded_retire hu
  | stall w n => exact ⟨.of_eq rfl rfl rfl rfl rfl rfl, .inl rfl, .inl rfl⟩
  | mret h => exact absurd h hp
  | sretS => exact (guarded_sret s).1
  | sretVs => exact (guarded_sret s).2
  | csr n c write hn hok h => exact guarded_csr hp hn hok h

theorem machineStatus_fields {a b : Mstatus} (h : machineStatus a = machineStatus b) :
    a.mie = b.mie ∧ a.mpie = b.mpie ∧ a.mpp = b.mpp ∧ a.tvm = b.tvm ∧ a.tw = b.tw ∧ a.tsr = b.tsr ∧ a.sxl = b.sxl ∧
      a.sbe = b.sbe ∧ a.mbe = b.mbe ∧ a.mpv = b.mpv ∧ a.gva = b.gva :=
  ⟨(congrArg Mstatus.mie h :), (congrArg Mstatus.mpie h :), (congrArg Mstatus.mpp h :), (congrArg Mstatus.tvm h :),
    (congrArg Mstatus.tw h :), (congrArg Mstatus.tsr h :), (congrArg Mstatus.sxl h :), (congrArg Mstatus.sbe h :),
    (congrArg Mstatus.mbe h :), (congrArg Mstatus.mpv h :), (congrArg Mstatus.gva h :)⟩

theorem machinePending_fields {a b : Pending} (h : machinePending a = machinePending b) :
    a.seipB = b.seipB ∧ a.stip = b.stip ∧ a.mtip = b.mtip ∧ a.msip = b.msip ∧ a.mtipDue = b.mtipDue ∧
      a.msipDue = b.msipDue :=
  ⟨(congrArg Pending.seipB h :), (congrArg Pending.stip h :), (congrArg Pending.mtip h :), (congrArg Pending.msip h :),
    (congrArg Pending.mtipDue h :), (congrArg Pending.msipDue h :)⟩

theorem machineCounters_fields {a b : Counters} (h : machineCounters a = machineCounters b) :
    a.mcounteren = b.mcounteren ∧ a.inhibit = b.inhibit ∧ a.cycle = b.cycle ∧ a.hpmcounter = b.hpmcounter ∧
      a.hpmevent = b.hpmevent :=
  ⟨(congrArg Counters.mcounteren h :), (congrArg Counters.inhibit h :), (congrArg Counters.cycle h :),
    (congrArg Counters.hpmcounter h :), (congrArg Counters.hpmevent h :)⟩

/-- Settles O57: ending by ending (`ends_guardedM`), for a CSR write by the level of the register (`csrPut_machine`). -/
theorem machineRegistersGuarded : Obligations.MachineRegistersGuarded := by
  intro i s t hp h ht
  obtain ⟨⟨hm, hie, hmisa, hpmp, hmst, ⟨hpend, hssip, hplat, hguest⟩, hcnt⟩, hmprv, hcount⟩ := ends_guardedM hp (exec_ends h) ht
  obtain ⟨h1, h2, h3, h4, h5, h6, h7, h8, h9, h10, h11⟩ := machineStatus_fields hmst
  obtain ⟨k1, k2, k3, k4, k5, k6⟩ := machinePending_fields hpend
  obtain ⟨c1, c2, c3, c4, c5⟩ := machineCounters_fields hcnt
  exact ⟨hm, hie, hmisa, hpmp, h1, h2, h3, h4, h5, h6, h7, h8, h9, h10, h11, hmprv, k1, k2, k3, k4, k5, k6, hssip, hplat, hguest,
    c1, c2, c3, hcount, c4, c5⟩

/-! ### The hypervisor level, with V=1 -/

/-- The fields of the HS-level status that V=1 does not reach. -/
def hostStatus (t : Mstatus) : Mstatus := { t with fs := 0, vs := 0, mprv := false }

/-- What an instruction with V=1 that stays there leaves of the hypervisor level. -/
structure GuestKept (s t : State) : Prop where
  h : t.h = s.h
  hst : t.hst = s.hst
  sc : { t.sc with fiom := false } = { s.sc with fiom := false }
  mst : hostStatus t.mst = hostStatus s.mst
  ie : t.m.ie &&& ~~~s.hideleg = s.m.ie &&& ~~~s.hideleg
  vssip : s.hideleg.getLsbD 2 = false → t.pend.vssip = s.pend.vssip
  pend : { t.pend with vssip := false, plat := 0 } = { s.pend with vssip := false, plat := 0 }
  plat : t.pend.plat &&& ~~~s.hideleg = s.pend.plat &&& ~~~s.hideleg
  hcounteren : t.cnt.hcounteren = s.cnt.hcounteren
  user : s.priv = .u → t.cnt.scounteren = s.cnt.scounteren ∧ t.sc.fiom = s.sc.fiom

/-- A change that does not reach the hypervisor level at all. -/
theorem GuestKept.of_eq {s t : State} (hh : t.h = s.h) (hhst : t.hst = s.hst) (hsc : t.sc = s.sc)
    (hmst : hostStatus t.mst = hostStatus s.mst) (hm : t.m = s.m) (hpend : t.pend = s.pend)
    (hcnt : t.cnt.hcounteren = s.cnt.hcounteren) (hs : t.cnt.scounteren = s.cnt.scounteren) : GuestKept s t :=
  ⟨hh, hhst, by rw [hsc], hmst, by rw [hm], fun _ => by rw [hpend], by rw [hpend], by rw [hpend], hcnt,
    fun _ => ⟨hs, by rw [hsc]⟩⟩

theorem GuestKept.of_x {s t : State} {x : Vector Word 32} (h : GuestKept { s with x := x } t) : GuestKept s t :=
  ⟨h.h, h.hst, h.sc, h.mst, h.ie, h.vssip, h.pend, h.plat, h.hcounteren, h.user⟩

theorem GuestKept.retireCsr {s u : State} (h : GuestKept s u) (b : Bool) : GuestKept s (u.retireCsr s b) := by
  refine ⟨h.h, h.hst, h.sc, h.mst, h.ie, h.vssip, h.pend, h.plat, Eq.trans ?_ h.hcounteren,
    fun hp => ⟨Eq.trans ?_ (h.user hp).1, (h.user hp).2⟩⟩
  all_goals
    unfold State.retireCsr
    cases b || s.cnt.inhibit.getLsbD 2 <;> rfl

theorem GuestKept.of_near {s u t : State} (hu : Near s u) (hh : t.h = u.h) (hhst : t.hst = u.hst) (hsc : t.sc = u.sc)
    (hmst : hostStatus t.mst = hostStatus u.mst) (hm : t.m = u.m) (hpend : t.pend = u.pend)
    (hcnt : t.cnt.hcounteren = u.cnt.hcounteren) (hs : t.cnt.scounteren = u.cnt.scounteren) : GuestKept s t :=
  .of_eq (hh.trans hu.h) (hhst.trans hu.hst) (hsc.trans hu.sc) (hmst.trans (congrArg hostStatus hu.mst)) (hm.trans hu.m)
    (hpend.trans hu.pend) (hcnt.trans (congrArg Counters.hcounteren hu.cnt)) (hs.trans (congrArg Counters.scounteren hu.cnt))

/-- The registers that an access with V=1 reaches: user-level ones, two of the supervisor level that VS-mode shares, and the VS
twins of the others (`10_state.md` R33). -/
def GuestTarget (s : State) (c : Csr) : Prop :=
  levelOf c = 0 ∨ (s.priv ≠ .u ∧ c ∈ [Csr.scounteren, .senvcfg]) ∨
    c ∈ [Csr.vsstatus, .vsie, .vstvec, .vsscratch, .vsepc, .vscause, .vstval, .vsip, .vsatp]

theorem supervisor_of_level {c : Csr} (h : levelOf c = 1) :
    c ∈ [Csr.sstatus, .sie, .stvec, .scounteren, .senvcfg, .sscratch, .sepc, .scause, .stval, .sip, .satp] := by
  cases c
  all_goals first
    | (cases h; done)
    | simp

theorem guestTarget_of_ok {s : State} {n : Nat} {c : Csr} {write : Bool} (hv : s.v = true) (hn : csrOf n = some c)
    (hok : s.csrVerdict n c write = .ok) : GuestTarget s (s.redirect c) := by
  have hl := level_of_ok hn hok
  rw [if_pos hv] at hl
  have hu : levelOf c = 1 → s.priv ≠ .u := by
    intro h1 hp
    unfold State.csrVerdict at hok
    rw [if_pos hv, level_csrOf hn, h1, hp] at hok
    split at hok
    · cases hok
    · split at hok <;> cases hok
  unfold State.redirect
  rw [if_pos hv]
  by_cases h0 : levelOf c = 0
  · cases c
    all_goals first
      | exact .inl h0
      | cases h0
  · have h1 : levelOf c = 1 := by omega
    have hc := supervisor_of_level h1
    simp only [List.mem_cons, List.not_mem_nil, or_false] at hc
    obtain rfl | rfl | rfl | rfl | rfl | rfl | rfl | rfl | rfl | rfl | rfl := hc
    case inr.inr.inr.inl | inr.inr.inr.inr.inl => exact .inr (.inl ⟨hu h1, by simp⟩)
    all_goals exact .inr (.inr (by simp))

/-- A write with V=1 leaves the hypervisor level. -/
theorem csrPut_guest {s t : State} {c : Csr} {w : Word} (h : s.csrPut c w = some t) (hc : GuestTarget s c) : GuestKept s t := by
  have apart : ∀ {u : State}, some u = some t → u.h = s.h → u.hst = s.hst → u.sc = s.sc → hostStatus u.mst = hostStatus s.mst →
      u.m = s.m → u.pend = s.pend → u.cnt.hcounteren = s.cnt.hcounteren → u.cnt.scounteren = s.cnt.scounteren →
      GuestKept s t := by
    intro u e h1 h2 h3 h4 h5 h6 h7 h8
    cases e
    exact .of_eq h1 h2 h3 h4 h5 h6 h7 h8
  obtain h0 | ⟨hp, hc⟩ | hc := hc
  · cases c
    case fflags | frm | fcsr =>
      obtain ⟨f, g, n, hw⟩ := writeFcsr_eq s _
      exact apart ((congrArg some hw.symm).trans h) rfl rfl rfl rfl rfl rfl rfl rfl
    all_goals first
      | (cases h0; done)
      | exact apart h rfl rfl rfl rfl rfl rfl rfl rfl
  · simp only [List.mem_cons, List.not_mem_nil, or_false] at hc
    obtain rfl | rfl := hc
    all_goals
      cases h
      exact ⟨rfl, rfl, rfl, rfl, rfl, fun _ => rfl, rfl, rfl, rfl, fun hu => absurd hu hp⟩
  · simp only [List.mem_cons, List.not_mem_nil, or_false] at hc
    obtain rfl | rfl | rfl | rfl | rfl | rfl | rfl | rfl | rfl := hc
    · exact apart h rfl rfl rfl rfl rfl rfl rfl rfl
    · cases h
      refine ⟨rfl, rfl, rfl, rfl, ?_, fun _ => rfl, rfl, rfl, rfl, fun _ => ⟨rfl, rfl⟩⟩
      rw [mergeW_outside (within_vsPlat s), mergeW_outside (within_and_left _ _)]
    · exact apart h rfl rfl rfl rfl rfl rfl rfl rfl
    · exact apart h rfl rfl rfl rfl rfl rfl rfl rfl
    · exact apart h rfl rfl rfl rfl rfl rfl rfl rfl
    · obtain ⟨v, rfl⟩ := csrPut_vscause h
      exact apart rfl rfl rfl rfl rfl rfl rfl rfl rfl
    · exact apart h rfl rfl rfl rfl rfl rfl rfl rfl
    · cases h
      exact ⟨rfl, rfl, rfl, rfl, rfl, fun h2 => if_neg (Bool.eq_false_iff.mp h2), rfl,
        mergeW_outside ((within_and_left _ _).trans (within_vsPlat s)) _ _, rfl, fun _ => ⟨rfl, rfl⟩⟩
    · obtain ⟨a, n, rfl⟩ := csrPut_vsatp h
      exact apart rfl rfl rfl rfl rfl rfl rfl rfl rfl

theorem guest_takeTrap {s u : State} (hu : Near s u) {intr : Bool} {e : Exc} (ht : (u.takeTrap intr e).v = true) :
    GuestKept s (u.takeTrap intr e) := by
  obtain h | ⟨h, -⟩ | ⟨h, -⟩ := takeTrap_cases u intr e <;> rw [h] at ht ⊢
  · cases ht
  · cases ht
  · exact .of_near hu rfl rfl rfl rfl rfl rfl rfl rfl

theorem guest_csr {s t : State} {n : Nat} {c : Csr} {write : Bool} (hv : s.v = true) (hn : csrOf n = some c)
    (hok : s.csrVerdict n c write = .ok) (h : CsrEnd s c t) : GuestKept s t := by
  cases h with
  | read rd w b =>
    obtain ⟨x, hx⟩ := writeX_eq s rd w
    rw [hx]
    have hk : GuestKept s { s with x := x } := .of_eq rfl rfl rfl rfl rfl rfl rfl rfl
    exact hk.retireCsr b
  | write rd w w' b u h =>
    obtain ⟨x, hx⟩ := writeX_eq s rd w
    have htarget := guestTarget_of_ok hv hn hok
    have hmisa : s.redirect c ≠ .misa := fun he => by
      rw [he] at htarget
      obtain h | ⟨-, h⟩ | h := htarget
      · cases h
      · simp at h
      · simp at h
    rw [hx, csrWrite_of_ne hmisa] at h
    exact GuestKept.retireCsr (GuestKept.of_x (csrPut_guest h htarget)) b

theorem ends_guest {s t : State} (hmode : s.modeOk) (hv : s.v = true) (h : Ends s t) (ht : t.v = true) : GuestKept s t := by
  cases h with
  | trap u intr e hu => exact guest_takeTrap hu ht
  | retire u hu => rw [retire_eq]; exact .of_near hu rfl rfl rfl rfl rfl rfl rfl rfl
  | stall w n => exact .of_eq rfl rfl rfl rfl rfl rfl rfl rfl
  | mret h => exact absurd h (hmode hv).2
  | sretS h => rw [hv] at h; cases h
  | sretVs =>
    obtain ⟨r, n, h⟩ := maybeClearResv_eq s.countInstret.returnVs
    rw [h, countInstret_eq]
    exact .of_eq rfl rfl rfl rfl rfl rfl rfl rfl
  | csr n c write hn hok h => exact guest_csr hv hn hok h

/-- Settles O58: ending by ending (`ends_guest`), for a CSR write by the registers that V=1 reaches (`csrPut_guest`). -/
theorem guestLeavesHypervisorAlone : Obligations.GuestLeavesHypervisorAlone := by
  intro i s t hmode hv h ht
  obtain ⟨hh, hhst, hsc, hmst, hie, hvssip, hpend, hplat, hcnt, huser⟩ := ends_guest hmode hv (exec_ends h) ht
  simp only [Pending.mk.injEq] at hpend
  obtain ⟨hseipB, hstip, hssip, -, hvstip, hvseip, -⟩ := hpend
  exact ⟨hh, hhst, hsc, hmst, hie, hvstip, hvseip, hvssip, hssip, hstip, hseipB, hplat, hcnt, huser⟩

end Sys2Proof.Proofs.Confined
end

section
/-!
SUPPORT. The loads and stores of the hypervisor extension: who may not execute them, and what they do where both stages are
Bare (`43_hypervisor_instructions.md` section 1).
-/

namespace Sys2Proof.Proofs.HypervisorAccess

open Sys2Proof Sys2Proof.Machine Sys2Proof.Laws Sys2Proof.Proofs.Endings Sys2Proof.Proofs.Steps
  Sys2Proof.Proofs.MachineCsrs

/-! ### The forms -/

theorem unsigned_eq_setWidth {bits d : Nat} (hb : bits ≤ 64) (hd : d < 2 ^ bits) :
    unsigned d = (BitVec.ofNat bits d).setWidth 64 := by
  have : d < 2 ^ 64 := Nat.lt_of_lt_of_le hd (Nat.pow_le_pow_right (by decide) hb)
  apply BitVec.eq_of_toNat_eq
  rw [unsigned, BitVec.toNat_setWidth, BitVec.toNat_ofNat, BitVec.toNat_ofNat, Nat.mod_eq_of_lt hd]

/-- An access is as wide as a register or a part of it. -/
def AccessWidth (n : Nat) : Prop := n = 1 ∨ n = 2 ∨ n = 4 ∨ n = 8

/-- A load form is `HLVop` of its bytes, its access type and its conversion. -/
theorem exec_loadForm {rd rs1 : Nat} {f : LoadForm} (hf : f ∈ loadForms rd rs1) :
    AccessWidth f.bytes ∧ (f.acc = .load ∨ f.acc = .hlvx) ∧
      ∃ conv : Nat → Word, (∀ d, d < 2 ^ (8 * f.bytes) → conv d = f.value d) ∧
        ∀ s, exec f.instr s = hlvOp (encode f.instr) f.wide rd rs1 f.bytes f.acc conv s := by
  simp only [loadForms, List.mem_cons, List.not_mem_nil, or_false] at hf
  obtain rfl | rfl | rfl | rfl | rfl | rfl | rfl | rfl | rfl := hf
  · exact ⟨.inl rfl, .inl rfl, signed 8, fun _ _ => rfl, exec_hlvB rd rs1⟩
  · exact ⟨.inl rfl, .inl rfl, unsigned, fun _ h => unsigned_eq_setWidth (bits := 8) (by decide) h, exec_hlvBu rd rs1⟩
  · exact ⟨.inr (.inl rfl), .inl rfl, signed 16, fun _ _ => rfl, exec_hlvH rd rs1⟩
  · exact ⟨.inr (.inl rfl), .inl rfl, unsigned, fun _ h => unsigned_eq_setWidth (bits := 16) (by decide) h, exec_hlvHu rd rs1⟩
  · exact ⟨.inr (.inr (.inl rfl)), .inl rfl, signed 32, fun _ _ => rfl, exec_hlvW rd rs1⟩
  · exact ⟨.inr (.inr (.inl rfl)), .inl rfl, unsigned, fun _ h => unsigned_eq_setWidth (bits := 32) (by decide) h, exec_hlvWu rd rs1⟩
  · exact ⟨.inr (.inr (.inr rfl)), .inl rfl, unsigned, fun _ _ => rfl, exec_hlvD rd rs1⟩
  · exact ⟨.inr (.inl rfl), .inr rfl, unsigned, fun _ h => unsigned_eq_setWidth (bits := 16) (by decide) h, exec_hlvxHu rd rs1⟩
  · exact ⟨.inr (.inr (.inl rfl)), .inr rfl, unsigned, fun _ h => unsigned_eq_setWidth (bits := 32) (by decide) h, exec_hlvxWu rd rs1⟩

/-- A store form is `HSVop` of its bytes. -/
theorem exec_storeForm {rs2 rs1 : Nat} {f : StoreForm} (hf : f ∈ storeForms rs2 rs1) :
    AccessWidth f.bytes ∧ ∀ s, exec f.instr s = hsvOp (encode f.instr) f.wide rs2 rs1 f.bytes s := by
  simp only [storeForms, List.mem_cons, List.not_mem_nil, or_false] at hf
  obtain rfl | rfl | rfl | rfl := hf
  · exact ⟨.inl rfl, exec_hsvB rs2 rs1⟩
  · exact ⟨.inr (.inl rfl), exec_hsvH rs2 rs1⟩
  · exact ⟨.inr (.inr (.inl rfl)), exec_hsvW rs2 rs1⟩
  · exact ⟨.inr (.inr (.inr rfl)), exec_hsvD rs2 rs1⟩

/-! ### Who may execute them (`43_hypervisor_instructions.md` R771) -/

theorem hlsvVerdict_ok {s : State} {wide : Bool} (hH : s.hasH = true) (hv : s.v = false) (hx : wide = true → s.xlen = .x64)
    (hu : s.priv = .u → s.hst.hu = true) : s.hlsvVerdict wide = .ok := by
  have hw : (wide && decide (s.xlen = .x32)) = false := by
    cases wide with
    | false => rfl
    | true => simp [hx rfl]
  have hp : (decide (s.priv = .u) && !s.hst.hu) = false := by
    by_cases h : s.priv = .u
    · simp [hu h]
    · simp [h]
  simp [State.hlsvVerdict, hH, hw, hv, hp]

theorem hlsvVerdict_illegal {s : State} {wide : Bool} (h : s.hasH = false ∨ (wide = true ∧ s.xlen = .x32)) :
    s.hlsvVerdict wide = .illegal := by
  unfold State.hlsvVerdict
  obtain h | ⟨rfl, hx⟩ := h
  · simp [h]
  · simp [hx]

theorem hlsvVerdict_virtual {s : State} {wide : Bool} (hH : s.hasH = true) (hx : wide = true → s.xlen = .x64)
    (hv : s.v = true) : s.hlsvVerdict wide = .virtual := by
  have hw : (wide && decide (s.xlen = .x32)) = false := by
    cases wide with
    | false => rfl
    | true => simp [hx rfl]
  simp [State.hlsvVerdict, hH, hw, hv]

theorem hlsvVerdict_user {s : State} (wide : Bool) (hv : s.v = false) (hp : s.priv = .u) (hu : s.hst.hu = false) :
    s.hlsvVerdict wide = .illegal := by
  unfold State.hlsvVerdict
  split
  · rfl
  · simp [hv, hp, hu]

/-- Every form is guarded by the same check. -/
theorem exec_form_guarded {rd rs2 rs1 : Nat} {f : Instr × Bool}
    (hf : f ∈ (loadForms rd rs1).map (fun f => (f.instr, f.wide)) ++ (storeForms rs2 rs1).map (fun f => (f.instr, f.wide)))
    (s : State) : ∃ k, exec f.1 s = s.guarded (s.hlsvVerdict f.2) (encode f.1) k := by
  obtain hf | hf := List.mem_append.mp hf
  · obtain ⟨g, hg, rfl⟩ := List.mem_map.mp hf
    obtain ⟨-, -, conv, -, hexec⟩ := exec_loadForm hg
    exact ⟨_, hexec s⟩
  · obtain ⟨g, hg, rfl⟩ := List.mem_map.mp hf
    exact ⟨_, (exec_storeForm hg).2 s⟩

/-- Settles O38: by the verdict in each case. -/
theorem hlsvPermissions : Obligations.HlsvPermissions := by
  intro s rd rs2 rs1 f hf
  obtain ⟨k, hexec⟩ := exec_form_guarded hf s
  have illegal (h : s.hlsvVerdict f.2 = .illegal) : RaisesIllegal f.1 s := by rw [RaisesIllegal, hexec, h]; rfl
  have virt (h : s.hlsvVerdict f.2 = .virtual) : RaisesVirtual f.1 s := by rw [RaisesVirtual, hexec, h]; rfl
  exact ⟨fun h => illegal (hlsvVerdict_illegal (.inl h)), fun hw hx => illegal (hlsvVerdict_illegal (.inr ⟨hw, hx⟩)),
    fun hH hx hv => virt (hlsvVerdict_virtual hH hx hv), fun hv hp hu => illegal (hlsvVerdict_user _ hv hp hu)⟩

/-! ### Numbers of so many bytes -/

theorem leNat_lt (l : List Byte) : leNat l < 256 ^ l.length := by
  induction l with
  | nil => decide
  | cons b l ih =>
    have := b.isLt
    rw [leNat, List.length_cons, Nat.pow_succ]
    omega

theorem assemble_bytes_lt (big : Bool) (m : List Host.Cell) (a n : Nat) : assemble big (Memory.bytes m a n) < 2 ^ (8 * n) := by
  rw [Nat.pow_mul]
  unfold assemble
  split
  · exact Nat.lt_of_lt_of_eq (leNat_lt _) (by rw [List.length_reverse, bytes_length])
  · exact Nat.lt_of_lt_of_eq (leNat_lt _) (by rw [bytes_length])

/-! ### Aligned accesses with both stages Bare -/

theorem privOfSpp_ne_m (b : Bool) : privOfSpp b ≠ .m := by cases b <;> decide

theorem bigEndian_guest (s : State) (b : Bool) :
    s.bigEndian (privOfSpp b) true = if b then s.hst.vsbe else s.vst.ube := by cases b <;> rfl

/-- An aligned access lies in one page. -/
theorem splitLen_aligned {va : Word} {n : Nat} (hn : AccessWidth n) (ha : va.toNat % n = 0) : splitLen va n = none := by
  unfold splitLen
  rw [if_pos]
  obtain rfl | rfl | rfl | rfl := hn <;> omega

theorem refusedEarly_aligned {va : Word} {n : Nat} (ha : va.toNat % n = 0) (s : State) (kind : DataKind) :
    s.refusedEarly kind va n = false := by
  simp [State.refusedEarly, ha]

theorem checkPart_bare {s : State} (hb : s.guestBare) {o : Origin} {priv : Priv} (hp : priv ≠ .m) {n : Nat}
    (hpmp : s.pmpCheck s.pmp o.acc priv o.va.toNat n = true) (hpma : s.pmaOk o.acc o.va.toNat n = true) :
    checkPart o priv true n n s = .ok o.va.toNat s := by
  have hpart : s.partPma o.acc o.va.toNat n n = true := hpma
  simp only [checkPart, translateAddr_bare hb o hp, Res.bind, Origin.bare, pmpOk_settled hb.2.2.2.2, hpmp, hpart, Bool.and_self,
    if_true]

/-- A load that PMP and PMA grant reads the bytes at the address itself. -/
theorem memRead_bare {s : State} (hb : s.guestBare) {acc : Acc} {va : Word} {n : Nat} (hn : AccessWidth n)
    (ha : va.toNat % n = 0) (hg : s.guestAccessible acc va.toNat n) :
    memRead acc (privOfSpp s.hst.spvp) true va n s =
      .ok (assemble (if s.hst.spvp then s.hst.vsbe else s.vst.ube) (Memory.bytes s.mem va.toNat n)) s := by
  obtain ⟨hpmp, hpma, hmain⟩ := hg
  have hc := checkPart_bare (o := ⟨acc, va, true⟩) hb (privOfSpp_ne_m _) hpmp hpma
  simp only [memRead, refusedEarly_aligned ha, splitLen_aligned hn ha, hc, Res.bind, ha, physRead_main hmain,
    bigEndian_guest, ne_eq, not_true_eq_false, decide_false, Bool.false_and, Bool.false_eq_true, if_false]

/-- A store that PMP and PMA grant writes the bytes at the address itself. -/
theorem memWrite_bare {s : State} (hb : s.guestBare) {va : Word} {n : Nat} (hn : AccessWidth n)
    (ha : va.toNat % n = 0) (hg : s.guestAccessible .store va.toNat n) (value : Nat) :
    memWrite (privOfSpp s.hst.spvp) true va n value s =
      .ok () (s.storeMem va.toNat (disassemble (if s.hst.spvp then s.hst.vsbe else s.vst.ube) n value)) := by
  obtain ⟨hpmp, hpma, hdev, hio⟩ := hg
  have hc := checkPart_bare (o := ⟨.store, va, true⟩) hb (privOfSpp_ne_m _) hpmp hpma
  simp only [memWrite, refusedEarly_aligned ha, splitLen_aligned hn ha, hc, Res.bind, ha, State.physWrite,
    disassemble_length, hdev, hio, bigEndian_guest, ne_eq, not_true_eq_false, decide_false, Bool.false_and,
    Bool.false_eq_true, if_false]

/-- What a permitted, granted load of a form does. -/
theorem exec_load_bare {s : State} {rd rs1 : Nat} {f : LoadForm} (hf : f ∈ loadForms rd rs1) (hH : s.hasH = true)
    (hv : s.v = false) (hx : f.wide = true → s.xlen = .x64) (hu : s.priv = .u → s.hst.hu = true) (hb : s.guestBare)
    (ha : s.hlsvAligned rs1 f.bytes) (hg : s.guestAccessible f.acc (s.hlsvAddr rs1).toNat f.bytes) :
    exec f.instr s = .next (s.writeX rd (f.value (assemble
      (if s.hst.spvp then s.hst.vsbe else s.vst.ube) (Memory.bytes s.mem (s.hlsvAddr rs1).toNat f.bytes)))).retire := by
  obtain ⟨hn, -, conv, hconv, hexec⟩ := exec_loadForm hf
  rw [hexec, hlvOp, hlsvVerdict_ok hH hv hx hu]
  simp only [State.guarded, finishAccess, memRead_bare hb hn ha hg, Res.byInst]
  rw [hconv]
  exact assemble_bytes_lt ..

/-- What a permitted, granted store of a form does. -/
theorem exec_store_bare {s : State} {rs2 rs1 : Nat} {f : StoreForm} (hf : f ∈ storeForms rs2 rs1) (hH : s.hasH = true)
    (hv : s.v = false) (hx : f.wide = true → s.xlen = .x64) (hu : s.priv = .u → s.hst.hu = true) (hb : s.guestBare)
    (ha : s.hlsvAligned rs1 f.bytes) (hg : s.guestAccessible .store (s.hlsvAddr rs1).toNat f.bytes) :
    exec f.instr s = .next (s.storeMem (s.hlsvAddr rs1).toNat
      (disassemble (if s.hst.spvp then s.hst.vsbe else s.vst.ube) f.bytes (s.readX rs2).toNat)).retire := by
  obtain ⟨hn, hexec⟩ := exec_storeForm hf
  rw [hexec, hsvOp, hlsvVerdict_ok hH hv hx hu]
  simp only [State.guarded, finishAccess, memWrite_bare hb hn ha hg, Res.byInst]

/-! ### The frames of these loads and stores -/

/-- The hypervisor extension comes with the base of 32 registers. -/
theorem hasReg_of_hasH {s : State} (h : s.hasH = true) (n : Nat) : s.hasReg n = true := by
  unfold State.hasH at h
  simp [State.hasReg, (Bool.and_eq_true_iff.mp h).2]

theorem retire_rawX (s : State) (n : Nat) : s.retire.rawX n = s.rawX n := rawX_of_x_eq (retire_x s) n

/-- A register written and the instruction retired. -/
theorem retired_writeX (s : State) (rd : Nat) (w : Word) :
    Retired s (s.writeX rd w).retire ∧ (s.writeX rd w).retire.sansProgress.sansX = s.sansProgress.sansX := by
  rw [sansProgress_retire]
  obtain ⟨x, hx⟩ := writeX_eq s rd w
  rw [hx]
  exact ⟨retired_of_eq rfl rfl, rfl⟩

theorem rawX_writeX {s : State} {rd : Nat} (hrd : rd < 32) (hr : s.hasReg rd = true) (w : Word) :
    (s.writeX rd w).rawX rd = if rd = 0 then 0 else s.toReg s.xlen w := by
  split
  · next h => subst h; rfl
  · next h => exact rawX_writeX_same h hrd hr w

/-- Settles O33: the load reads the bytes and leaves the state alone (`memRead_bare`); then the register is written. -/
theorem hlvLoads : Obligations.HlvLoads := by
  intro s rd rs1 hrd f hf hH hv hx hu hb ha hg
  obtain ⟨hret, hframe⟩ := retired_writeX s rd (f.value (assemble
    (if s.hst.spvp then s.hst.vsbe else s.vst.ube) (Memory.bytes s.mem (s.hlsvAddr rs1).toNat f.bytes)))
  refine ⟨_, exec_load_bare hf hH hv hx hu hb ha hg, hret, ?_, fun n _ hn => ?_, hframe⟩
  · rw [retire_rawX]
    exact rawX_writeX hrd (hasReg_of_hasH hH rd) _
  · rw [retire_rawX]
    exact rawX_writeX_other hn _

theorem mem_storeMem (s : State) (a : Nat) (l : List Byte) : (s.storeMem a l).mem = Memory.writeAll s.mem a l := by
  rw [storeMem_eq]

/-- Bytes stored and the instruction retired. -/
theorem retired_storeMem (s : State) (a : Nat) (l : List Byte) :
    Retired s (s.storeMem a l).retire ∧ (s.storeMem a l).retire.sansProgress.sansMemory = s.sansProgress.sansMemory := by
  rw [sansProgress_retire, storeMem_eq]
  exact ⟨retired_of_eq rfl rfl, rfl⟩

/-- Settles O34: the store writes the bytes at the address (`memWrite_bare`); then by the laws of memory. -/
theorem hsvStores : Obligations.HsvStores := by
  intro s rs2 rs1 f hf hwf hH hv hx hu hb ha hg
  generalize hl : disassemble (if s.hst.spvp then s.hst.vsbe else s.vst.ube) f.bytes (s.readX rs2).toNat = l
  have hlen : l.length = f.bytes := by rw [← hl, disassemble_length]
  have hexec := exec_store_bare hf hH hv hx hu hb ha hg
  rw [hl] at hexec
  obtain ⟨hret, hframe⟩ := retired_storeMem s (s.hlsvAddr rs1).toNat l
  refine ⟨_, hexec, hret, ?_, fun k hk => ?_, ?_, ?_, hframe⟩
  · rw [retire_mem, mem_storeMem, ← hlen]
    exact bytes_writeAll l s.mem _ hwf
  · rw [retire_mem, mem_storeMem]
    exact read_writeAll_other l s.mem _ k hwf (hlen ▸ hk)
  · rw [retire_timer, storeMem_timer]
  · rw [retire_xlat, storeMem_tlb]

/-! ### A store and then a load -/

/-- A store adds at most itself to the changes that translation may still see. -/
theorem changes_storeMem (s : State) (a : Nat) (l : List Byte) :
    (s.storeMem a l).changes = s.changes ∨ ∃ b, (s.storeMem a l).changes = (.store a b, []) :: s.changes := by
  unfold State.storeMem
  dsimp only
  split
  · exact .inl rfl
  · exact .inr ⟨_, rfl⟩

theorem pmps_storeMem (s : State) (a : Nat) (l : List Byte) (guest : Bool) : (s.storeMem a l).pmps guest = s.pmps guest := by
  unfold State.pmps
  rw [storeMem_pmp]
  obtain h | ⟨b, h⟩ := changes_storeMem s a l <;> rw [h]
  rfl

theorem wasBare_storeMem (s : State) (a : Nat) (l : List Byte) : (s.storeMem a l).wasBare = s.wasBare := by
  have hx : (s.storeMem a l).sxlen = s.sxlen := by rw [storeMem_eq]; rfl
  unfold State.wasBare
  rw [storeMem_h, hx]
  obtain h | ⟨b, h⟩ := changes_storeMem s a l <;> rw [h]
  rfl

theorem guestBare_storeMem {s : State} (h : s.guestBare) (a : Nat) (l : List Byte) : (s.storeMem a l).guestBare := by
  obtain ⟨hvs, hg, hwas, htlb, hpmps⟩ := h
  have hx : (s.storeMem a l).sxlen = s.sxlen := by rw [storeMem_eq]; rfl
  have hvx : (s.storeMem a l).vsxlen = s.vsxlen := by rw [storeMem_eq]; rfl
  have hvmid : (s.storeMem a l).vmid = s.vmid := by rw [storeMem_eq]; rfl
  refine ⟨?_, ?_, ?_, ?_, ?_⟩
  · rw [hvx, storeMem_vs]; exact hvs
  · rw [hx, storeMem_h]; exact hg
  · rw [wasBare_storeMem]; exact hwas
  · rw [storeMem_tlb, hvmid]; exact htlb
  · rw [pmps_storeMem, storeMem_pmp]; exact hpmps

/-- What a store leaves for the next instruction to execute with. -/
structure SameForLoads (s t : State) : Prop where
  hasH : t.hasH = s.hasH
  v : t.v = s.v
  xlen : t.xlen = s.xlen
  priv : t.priv = s.priv
  hst : t.hst = s.hst
  vst : t.vst = s.vst
  addr : ∀ rs1, t.hlsvAddr rs1 = s.hlsvAddr rs1
  access : ∀ acc a n, t.guestAccessible acc a n ↔ s.guestAccessible acc a n
  toReg : t.toReg = s.toReg

theorem sameForLoads_storeMem_retire (s : State) (a : Nat) (l : List Byte) : SameForLoads s (s.storeMem a l).retire := by
  rw [retire_eq, storeMem_eq]
  exact ⟨rfl, rfl, rfl, rfl, rfl, rfl, fun _ => rfl, fun _ _ _ => .rfl, rfl⟩

/-- A doubleword stored and read back. -/
theorem ofNat_assemble_disassemble (big : Bool) (w : Word) :
    BitVec.ofNat 64 (assemble big (disassemble big 8 w.toNat)) = w := by
  rw [assemble_disassemble, Nat.mod_eq_of_lt (b := 256 ^ 8) w.isLt, BitVec.ofNat_toNat, BitVec.setWidth_eq]

/-- The load of a doubleword in a state that a store has left. -/
theorem exec_hlvD_after {s t : State} (same : SameForLoads s t) {rd rs1 : Nat} {w : Word} (h0 : 0 < rd) (hrd : rd < 32)
    (hH : s.hasH = true) (hv : s.v = false) (hx : s.xlen = .x64) (hu : s.priv = .u → s.hst.hu = true) (hb : t.guestBare)
    (ha : s.hlsvAligned rs1 8) (hg : s.guestAccessible .load (s.hlsvAddr rs1).toNat 8)
    (hmem : Memory.bytes t.mem (s.hlsvAddr rs1).toNat 8 =
      disassemble (if s.hst.spvp then s.hst.vsbe else s.vst.ube) 8 w.toNat) :
    ∃ u, exec (.hlvD rd rs1) t = .next u ∧ u.rawX rd = s.toReg .x64 w := by
  have hload : (⟨.hlvD rd rs1, 8, .load, true, fun d => BitVec.ofNat 64 d⟩ : LoadForm) ∈ loadForms rd rs1 := by
    simp [loadForms]
  refine ⟨_, exec_load_bare hload (same.hasH.trans hH) (same.v.trans hv) (fun _ => same.xlen.trans hx) ?_ hb ?_ ?_, ?_⟩
  · rw [same.priv, same.hst]; exact hu
  · rw [State.hlsvAligned, same.addr]; exact ha
  · rw [same.addr, same.access]; exact hg
  · dsimp only
    rw [retire_rawX, rawX_writeX hrd (hasReg_of_hasH (same.hasH.trans hH) rd), if_neg (by omega), same.toReg, same.xlen, hx,
      same.addr, same.hst, same.vst, hmem, ofNat_assemble_disassemble]

/-- Settles O37: the state that the store leaves meets the conditions of the load, which reads back what was written. -/
theorem storeThenLoad : Obligations.StoreThenLoad := by
  intro s rs2 rs1 rd h0 hrd hwf hH hv hx hu hb ha hgs hgl
  have hstore : (⟨.hsvD rs2 rs1, 8, true⟩ : StoreForm) ∈ storeForms rs2 rs1 := by simp [storeForms]
  have hexec := exec_store_bare hstore hH hv (fun _ => hx) hu hb ha hgs
  dsimp only at hexec
  generalize hl : disassemble (if s.hst.spvp then s.hst.vsbe else s.vst.ube) 8 (s.readX rs2).toNat = l at hexec
  have hlen : l.length = 8 := by rw [← hl, disassemble_length]
  have hbare : (s.storeMem (s.hlsvAddr rs1).toNat l).retire.guestBare := by
    rw [retire_eq]; exact guestBare_storeMem hb _ _
  have hmem : Memory.bytes (s.storeMem (s.hlsvAddr rs1).toNat l).retire.mem (s.hlsvAddr rs1).toNat 8 = l := by
    rw [retire_mem, mem_storeMem, ← hlen]
    exact bytes_writeAll l s.mem _ hwf
  obtain ⟨u, hu', hreg⟩ := exec_hlvD_after (sameForLoads_storeMem_retire s _ l) h0 hrd hH hv hx hu hbare ha hgl
    (hmem.trans hl.symm)
  exact ⟨_, u, hexec, hu', hreg⟩

end Sys2Proof.Proofs.HypervisorAccess
end

section
/-!
SUPPORT. How an access ends, with any translation: a property that no draw, no cached translation and no write of an allowed
kind breaks is kept, and an exception is one of the four that an access of its type raises (`60_exceptions.md` R812).
-/

namespace Sys2Proof.Proofs.AccessEnds

open Sys2Proof Sys2Proof.Machine Sys2Proof.Laws Sys2Proof.Proofs.Endings Sys2Proof.Proofs.HypervisorAccess
  Sys2Proof.Proofs.MachineCsrs

/-! ### Results -/

/-- The exceptions that an access raises: misaligned address, access fault, page fault, guest-page fault of its type. -/
def Faults (acc : Acc) (e : Exc) : Prop :=
  e.cause ∈ [acc.misaligned, acc.accessFault, acc.pageFault, acc.guestPageFault]

/-- A result whose state has the property, and whose exception is one of the access type. -/
def Safe {α : Type} (P : State → Prop) (acc : Acc) : Res α → Prop
  | .ok _ t => P t
  | .trap e t => P t ∧ Faults acc e
  | .fault _ => True

theorem Safe.bind {α β : Type} {P : State → Prop} {acc : Acc} {r : Res α} {k : α → State → Res β} (h : Safe P acc r)
    (hk : ∀ a t, P t → Safe P acc (k a t)) : Safe P acc (r.bind k) := by
  cases r with
  | ok a t => exact hk a t h
  | trap e t => exact h
  | fault f => trivial

/-- A property that translation keeps, where `ad` is what an access may do about A and D bits. -/
structure Lasting (P : State → Prop) (ad : AdMode) : Prop where
  draws : ∀ {s : State} (n : Nat), P s → P { s with draws := n }
  xlat : ∀ {s : State} (x : Xlat), P s → P { s with xlat := x }
  mode : ∀ {s : State}, P s → s.adMode = ad
  update : ∀ {s t : State} {a : Nat} {l : List Byte}, ad ≠ .fault → P s → s.physWrite a l = .ok t → P t

theorem faults_misaligned (o : Origin) : Faults o.acc o.misaligned := by simp [Faults, Origin.misaligned]
theorem faults_accessFault (o : Origin) : Faults o.acc o.accessFault := by simp [Faults, Origin.accessFault]
theorem faults_pageFault (o : Origin) : Faults o.acc o.pageFault := by simp [Faults, Origin.pageFault]
theorem faults_guestPageFault (x : Xlen) (o : Origin) (gpa : Nat) (i w : Bool) :
    Faults o.acc (guestPageFault x o gpa i w) := by simp [Faults, guestPageFault]

/-- Reporting the instruction leaves the cause. -/
theorem faults_withInst {acc : Acc} {e : Exc} (h : Faults acc e) (s : State) (i : AccessInst) (va : Word) :
    Faults acc (s.withInst i va e) := by
  have hc : (s.withInst i va e).cause = e.cause := (congrArg Exc.cause (withInst_else s i va e) :)
  unfold Faults
  rw [hc]
  exact h

theorem cfg_physWrite {s t : State} {a : Nat} {l : List Byte} (h : s.physWrite a l = .ok t) : t.cfg = s.cfg :=
  (congrArg State.cfg (quiet_physWrite h).1 :)

section
variable {P : State → Prop} {ad : AdMode} (L : Lasting P ad)
include L

/-! ### Draws -/

theorem Lasting.choose {s : State} (h : P s) (n : Nat) : P (s.choose n).2 := by
  unfold State.choose
  split
  · exact h
  · exact L.draws _ h

theorem Lasting.pick {α : Type} [BEq α] {s : State} (h : P s) (d : α) (l : List α) : P (s.pick d l).2 := L.choose h _

/-! ### Walks -/

variable {acc : Acc}

theorem safe_readPtePhys {e : Exc} (he : Faults acc e) (size : Nat) (k : Walker) (pbmt a : Nat) {s : State} (h : P s) :
    Safe P acc (readPtePhys size k e pbmt a s) := by
  have hd : P (s.pmpOk k.guest .load .s a size).2 := L.pick h _ _
  unfold readPtePhys
  dsimp only
  split
  · split
    · exact hd
    · trivial
  · exact ⟨hd, he⟩

theorem safe_locatePtePhys {e : Exc} (he : Faults acc e) (size : Nat) (k : Walker) (pbmt a : Nat) {s : State} (h : P s) :
    Safe P acc (locatePtePhys size k e pbmt a s) := by
  have hd : P (s.pmpOk k.guest .store .s a size).2 := L.pick h _ _
  unfold locatePtePhys
  dsimp only
  split
  · exact hd
  · exact ⟨hd, he⟩

omit L in
/-- How a walk reads and updates entries is safe, and its page fault is one of the access type. -/
structure SafeWalk (P : State → Prop) (ad : AdMode) (acc : Acc) (w : Walk) : Prop where
  mode : w.ad = ad
  fault : Faults acc w.pageFault
  read : ∀ a s, P s → Safe P acc (w.readMem a s)
  locate : ∀ a s, P s → Safe P acc (w.locate a s)
  readAt : ∀ a s, P s → Safe P acc (w.readAt a s)

theorem safe_readFresh {w : Walk} (hw : SafeWalk P ad acc w) (i key : Nat) (g : Bool) {s : State} (h : P s) :
    Safe P acc (w.readFresh i key g s) :=
  (hw.read key s h).bind fun _ _ ht => L.xlat _ ht

theorem safe_readPte {w : Walk} (hw : SafeWalk P ad acc w) (i key : Nat) (g : Bool) {s : State} (h : P s) :
    Safe P acc (w.readPte i key g s) := by
  unfold Walk.readPte
  dsimp only
  split
  · exact safe_readFresh L hw i key g h
  · split
    · exact safe_readFresh L hw i key g (L.choose h _)
    · exact L.choose h _

theorem safe_leaf {w : Walk} (hw : SafeWalk P ad acc w) (i raw src : Nat) {s : State} (h : P s) :
    Safe P acc (w.leaf i raw src s) := by
  unfold Walk.leaf
  dsimp only
  split
  · exact ⟨h, hw.fault⟩
  · split
    · exact ⟨h, hw.fault⟩
    · split
      · exact h
      · split
        · exact ⟨h, hw.fault⟩
        · next hset =>
          have hne : ad ≠ .fault := by
            rintro rfl
            simp [Walk.maySet, hw.mode] at hset
          refine (hw.locate src s h).bind fun phys t ht => ?_
          split
          · trivial
          · split
            · split
              · trivial
              · exact L.update hne ht (by assumption)
            · exact ht

theorem safe_entry {w : Walk} (hw : SafeWalk P ad acc w) (i raw src : Nat) (g : Bool) {s : State} (h : P s) :
    Safe P acc (w.entry i raw src g s) := by
  unfold Walk.entry
  dsimp only
  split
  · exact ⟨h, hw.fault⟩
  · split
    · exact h
    · exact (safe_leaf L hw _ _ _ h).bind fun _ _ ht => ht

theorem safe_settle {w : Walk} (hw : SafeWalk P ad acc w) (i key : Nat) (g : Bool) {s : State} (h : P s) :
    Safe P acc (w.settle i key g s) :=
  (hw.locate key s h).bind fun phys t ht => (hw.readAt phys t ht).bind fun r u hu =>
    (safe_entry L (w := { w with locate := fun _ v => .ok phys v })
      ⟨hw.mode, hw.fault, hw.read, fun _ _ hv => hv, hw.readAt⟩ _ _ _ _ hu).bind fun o v hv => by
        cases o with
        | some f => exact hv
        | none => exact ⟨hv, hw.fault⟩

theorem safe_retry {w : Walk} (hw : SafeWalk P ad acc w) (i key : Nat) (g : Bool) {s : State} (h : P s) :
    Safe P acc (w.retry i key g s) :=
  (safe_readFresh L hw _ _ _ h).bind fun _ _ ht => (safe_entry L hw _ _ _ _ ht).bind fun o u hu => by
    cases o with
    | some f => exact hu
    | none => exact safe_settle L hw _ _ _ hu

theorem safe_level {w : Walk} (hw : SafeWalk P ad acc w) (i base : Nat) (g : Bool) {s : State} (h : P s) :
    Safe P acc (w.level i base g s) :=
  (safe_readPte L hw _ _ _ h).bind fun _ _ ht => (safe_entry L hw _ _ _ _ ht).bind fun o u hu => by
    cases o with
    | some f => exact hu
    | none => exact safe_retry L hw _ _ _ hu

theorem safe_from {w : Walk} (hw : SafeWalk P ad acc w) (i base : Nat) (g : Bool) {s : State} (h : P s) :
    Safe P acc (w.from i base g s) := by
  induction i generalizing base g s with
  | zero =>
    exact (safe_level L hw _ _ _ h).bind fun f t ht => by
      cases f with
      | done p => exact ht
      | down b g => exact ⟨ht, hw.fault⟩
  | succ j ih =>
    exact (safe_level L hw _ _ _ h).bind fun f t ht => by
      cases f with
      | done p => exact ht
      | down b g => exact ih b g ht

theorem safe_run {w : Walk} (hw : SafeWalk P ad acc w) (ppn : Nat) {s : State} (h : P s) : Safe P acc (w.run ppn s) :=
  safe_from L hw _ _ _ h

theorem safe_hit {w : Walk} (hw : SafeWalk P ad acc w) (r : TlbRec) {s : State} (h : P s) : Safe P acc (w.hit r s) :=
  (safe_entry L hw _ _ _ _ h).bind fun o t ht => by
    match o with
    | some (.done p) => exact ht
    | some (.down _ _) => exact ⟨ht, hw.fault⟩
    | none => exact ⟨ht, hw.fault⟩

theorem safe_orCached {l : List TlbRec} {hit : TlbRec → State → Res Target} {walk : State → Res Target}
    (hh : ∀ r t, P t → Safe P acc (hit r t)) (hw : ∀ t, P t → Safe P acc (walk t)) {s : State} (h : P s) :
    Safe P acc (orCached l hit walk s) := by
  obtain ⟨n, e | ⟨r, -, e⟩⟩ := orCached_cases l hit walk s
  · rw [e]; exact hw _ (L.draws n h)
  · rw [e]; exact hh r _ (L.draws n h)

/-! ### Translations -/

theorem safeWalk_gatp (u : State) (o : Origin) (a : Acc) (imp spec : Bool) (gpa : Nat) (c : Scheme) (b p : Bool) :
    SafeWalk P ad o.acc (u.gatpWalk o a imp spec ad gpa c b p) :=
  ⟨rfl, faults_guestPageFault .., fun _ _ h => safe_readPtePhys L (faults_accessFault o) _ _ _ _ h,
    fun _ _ h => safe_locatePtePhys L (faults_accessFault o) _ _ _ _ h,
    fun _ _ h => safe_readPtePhys L (faults_accessFault o) _ _ _ _ h⟩

theorem safe_gWalk (o : Origin) (a : Acc) (imp spec : Bool) (gpa : Nat) {s : State} (h : P s) :
    Safe P o.acc (gWalk o a imp spec ad gpa s) := by
  unfold gWalk
  dsimp only
  split
  · exact h
  · split
    · exact ⟨h, faults_guestPageFault ..⟩
    · exact safe_run L (safeWalk_gatp L ..) _ (L.pick (L.pick h _ _) _ _)

theorem safe_gStage (o : Origin) (a : Acc) (imp spec : Bool) (gpa : Nat) {s : State} (h : P s) :
    Safe P o.acc (gStage o a imp spec ad gpa s) := by
  have hd := L.pick h false (if s.wasBare then [false, true] else [false])
  unfold gStage
  dsimp only
  generalize s.pick false (if s.wasBare then [false, true] else [false]) = d at hd ⊢
  split
  · exact hd
  · exact safe_orCached L (fun r t ht => safe_hit L (safeWalk_gatp L ..) r (L.pick ht _ _))
      (fun t ht => safe_gWalk L o a imp spec gpa ht) hd

theorem safeWalk_satp (u : State) (o : Origin) (q : Nat → Bool) (spec : Bool) (c : Scheme) (b p : Bool) :
    SafeWalk P ad o.acc (u.satpWalk o q spec ad c b p) :=
  ⟨rfl, faults_pageFault o, fun _ _ h => safe_readPtePhys L (faults_accessFault o) _ _ _ _ h,
    fun _ _ h => safe_locatePtePhys L (faults_accessFault o) _ _ _ _ h,
    fun _ _ h => safe_readPtePhys L (faults_accessFault o) _ _ _ _ h⟩

theorem safe_singleStage (o : Origin) (q : Nat → Bool) (spec : Bool) {s : State} (h : P s) :
    Safe P o.acc (singleStage o q spec ad s) := by
  unfold singleStage
  dsimp only
  split
  · exact h
  · split
    · exact ⟨h, faults_pageFault o⟩
    · exact safe_orCached L (fun r t ht => safe_hit L (safeWalk_satp L ..) r (L.pick ht _ _))
        (fun t ht => safe_run L (safeWalk_satp L ..) _ (L.pick (L.pick ht _ _) _ _)) h

theorem safeWalk_vsatp (u : State) (o : Origin) (q : Nat → Bool) (spec : Bool) (c : Scheme) (b p : Bool) :
    SafeWalk P ad o.acc (u.vsatpWalk o q spec ad ad c b p) :=
  ⟨rfl, faults_pageFault o,
    fun _ _ h => (safe_gStage L o _ _ _ _ h).bind fun _ _ ht => safe_readPtePhys L (faults_accessFault o) _ _ _ _ ht,
    fun _ _ h => (safe_gStage L o _ _ _ _ h).bind fun _ _ ht => safe_locatePtePhys L (faults_accessFault o) _ _ _ _ ht,
    fun _ _ h => safe_readPtePhys L (faults_accessFault o) _ _ _ _ h⟩

theorem safe_vsStage (o : Origin) (q : Nat → Bool) (spec : Bool) {s : State} (h : P s) :
    Safe P o.acc (vsStage o q spec ad ad s) := by
  unfold vsStage
  dsimp only
  split
  · exact h
  · split
    · exact ⟨h, faults_pageFault o⟩
    · exact safe_orCached L (fun r t ht => safe_hit L (safeWalk_vsatp L ..) r (L.pick ht _ _))
        (fun t ht => safe_run L (safeWalk_vsatp L ..) _ (L.pick (L.pick ht _ _) _ _)) h

theorem safe_twoStage (o : Origin) (q : Nat → Bool) (spec : Bool) {s : State} (h : P s) :
    Safe P o.acc (twoStage o q spec ad ad s) :=
  (safe_vsStage L o q spec h).bind fun _ _ ht => (safe_gStage L o _ _ _ _ ht).bind fun _ _ hu => hu

theorem safe_translateAddr (o : Origin) (p : Priv) (v : Bool) {s : State} (h : P s) :
    Safe P o.acc (translateAddr o p v s) := by
  unfold translateAddr
  rw [L.mode h]
  split
  · exact h
  · split
    · exact safe_twoStage L o _ _ h
    · split
      · exact h
      · exact safe_singleStage L o _ _ h

/-! ### Accesses -/

theorem safe_checkPart (o : Origin) (p : Priv) (v : Bool) (len n : Nat) {s : State} (h : P s) :
    Safe P o.acc (checkPart o p v len n s) := by
  refine (safe_translateAddr L o p v h).bind fun a t ht => ?_
  have hd : P (t.pmpOk v o.acc p a.addr len).2 := L.pick ht _ _
  dsimp only
  split
  · exact hd
  · exact ⟨hd, faults_accessFault o⟩

/-- A load keeps what lasts, and faults as a load of its type. -/
theorem safe_memRead (p : Priv) (v : Bool) (va : Word) (n : Nat) {s : State} (h : P s) :
    Safe P acc (memRead acc p v va n s) := by
  have hmis := faults_misaligned ⟨acc, va, v⟩
  unfold memRead
  dsimp only
  split
  · exact ⟨h, hmis⟩
  · split
    · refine (safe_checkPart L ⟨acc, va, v⟩ p v n n h).bind fun pa t ht => ?_
      split
      · exact ⟨ht, hmis⟩
      · split
        · exact ht
        · trivial
    · next k _ =>
      refine (safe_checkPart L ⟨acc, va, v⟩ p v k n h).bind fun pa t ht =>
        (safe_checkPart L (Origin.second ⟨acc, va, v⟩ (s.xlenOf p v) k) p v (n - k) n ht).bind fun pb u hu => ?_
      split
      · split
        · exact hu
        · trivial
        · trivial
      · exact ⟨hu, hmis⟩

variable (hw : ∀ {s t : State} {a : Nat} {l : List Byte}, P s → s.physWrite a l = .ok t → P t)
include hw

theorem safe_maybeVisible (va : Word) (n pa : Nat) (l : List Byte) {e : Exc} (he : Faults acc e) {s : State} (h : P s) :
    Safe P acc (maybeVisible va n pa l e s) := by
  unfold maybeVisible
  split
  · have hd : P (s.pick false [false, true]).2 := L.pick h _ _
    dsimp only
    split
    · split
      · exact ⟨hw hd (by assumption), he⟩
      · trivial
    · exact ⟨hd, he⟩
  · exact ⟨h, he⟩

/-- A store keeps what lasts and no write breaks, and faults as a store. -/
theorem safe_memWrite (p : Priv) (v : Bool) (va : Word) (n value : Nat) {s : State} (h : P s) :
    Safe P .store (memWrite p v va n value s) := by
  have hmis := faults_misaligned ⟨.store, va, v⟩
  unfold memWrite
  dsimp only
  split
  · exact ⟨h, hmis⟩
  · split
    · refine (safe_checkPart L ⟨.store, va, v⟩ p v n n h).bind fun pa t ht => ?_
      split
      · exact ⟨ht, hmis⟩
      · split
        · exact hw ht (by assumption)
        · trivial
    · next k _ =>
      have first := safe_checkPart L ⟨.store, va, v⟩ p v k n h
      have second {t : State} (ht : P t) :=
        safe_checkPart L (Origin.second ⟨.store, va, v⟩ (s.xlenOf p v) k) p v (n - k) n ht
      split
      · trivial
      · next e s1 h1 =>
        rw [h1] at first
        obtain ⟨hs1, he⟩ := first
        split
        · next pb s2 h2 =>
          have hs2 := second hs1
          rw [h2] at hs2
          exact safe_maybeVisible L hw _ _ _ _ he hs2
        · exact ⟨hs1, he⟩
      · next pa s1 h1 =>
        rw [h1] at first
        have hs2 := second first
        split
        · trivial
        · next e s2 h2 =>
          rw [h2] at hs2
          exact safe_maybeVisible L hw _ _ _ _ hs2.2 hs2.1
        · next pb s2 h2 =>
          rw [h2] at hs2
          split
          · split
            · trivial
            · next s3 h3 =>
              split
              · next t h4 => exact hw (hw hs2 h3) h4
              · trivial
          · exact ⟨hs2, hmis⟩

end

/-! ### The loads and stores of the hypervisor extension -/

/-- What a load form does, from what its access does: it retires with the register written, or raises an exception. -/
theorem exec_load_ends {P : State → Prop} {ad : AdMode} (L : Lasting P ad) {s t : State} (hs : P s) {rd rs1 : Nat}
    {f : LoadForm} (hf : f ∈ loadForms rd rs1) (hok : s.hlsvVerdict f.wide = .ok) (h : exec f.instr s = .next t) :
    (∃ u w, P u ∧ Quiet s u ∧ t = (u.writeX rd w).retire) ∨
      ∃ u e, P u ∧ Quiet s u ∧ t = u.raise e ∧ Faults f.acc e := by
  obtain ⟨-, -, conv, -, hexec⟩ := exec_loadForm hf
  rw [hexec, hlvOp, hok] at h
  have hsafe := safe_memRead L (acc := f.acc) (privOfSpp s.hst.spvp) true (s.hlsvAddr rs1) f.bytes hs
  obtain ⟨d, u, hr, hq, rfl⟩ | ⟨e, u, hr, hq, rfl⟩ := finishAccess_next (still_memRead ..) h
  · rw [hr] at hsafe
    exact .inl ⟨u, _, hsafe, hq, rfl⟩
  · rw [hr] at hsafe
    exact .inr ⟨u, _, hsafe.1, hq, rfl, faults_withInst hsafe.2 _ _ _⟩

/-- The same of a store form, which writes no register. -/
theorem exec_store_ends {P : State → Prop} {ad : AdMode} (L : Lasting P ad)
    (hw : ∀ {s t : State} {a : Nat} {l : List Byte}, P s → s.physWrite a l = .ok t → P t) {s t : State} (hs : P s)
    {rs2 rs1 : Nat} {f : StoreForm} (hf : f ∈ storeForms rs2 rs1) (hok : s.hlsvVerdict f.wide = .ok)
    (h : exec f.instr s = .next t) :
    (∃ u, Quiet s u ∧ t = u.retire) ∨ ∃ u e, Quiet s u ∧ t = u.raise e ∧ Faults .store e := by
  rw [(exec_storeForm hf).2, hsvOp, hok] at h
  have hsafe := safe_memWrite L hw (privOfSpp s.hst.spvp) true (s.hlsvAddr rs1) f.bytes (s.readX rs2).toNat hs
  obtain ⟨d, u, -, hq, rfl⟩ | ⟨e, u, hr, hq, rfl⟩ := finishAccess_next (still_memWrite ..) h
  · exact .inl ⟨u, hq, rfl⟩
  · rw [hr] at hsafe
    exact .inr ⟨u, _, hq, rfl, faults_withInst hsafe.2 _ _ _⟩

/-- Retiring after an access and a register written. -/
theorem retired_writeX_of_quiet {s u : State} (hq : Quiet s u) (rd : Nat) (w : Word) :
    Retired s (u.writeX rd w).retire ∧ (∀ n, n < 32 → n ≠ rd → (u.writeX rd w).retire.rawX n = s.rawX n) ∧
      (u.writeX rd w).retire.sansProgress.sansX.sansMemory = s.sansProgress.sansX.sansMemory := by
  refine ⟨?_, fun n _ hn => ?_, ?_⟩
  · obtain ⟨x, hx⟩ := writeX_eq u rd w
    rw [hx]
    exact retired_of_eq (congrArg State.nextPc hq.1 :) (congrArg State.cnt hq.1 :)
  · rw [retire_rawX, rawX_writeX_other hn]
    exact rawX_of_x_eq (congrArg State.x hq.1 :) n
  · rw [sansProgress_retire]
    obtain ⟨x, hx⟩ := writeX_eq u rd w
    rw [hx]
    exact (congrArg (fun v => v.sansProgress.sansX) hq.1 :)

theorem retired_of_quiet {s u : State} (hq : Quiet s u) :
    Retired s u.retire ∧ u.retire.sansProgress.sansMemory = s.sansProgress.sansMemory := by
  rw [sansProgress_retire]
  exact ⟨retired_of_eq (congrArg State.nextPc hq.1 :) (congrArg State.cnt hq.1 :),
    (congrArg State.sansProgress hq.1 :)⟩

/-- The configuration lasts through any access. -/
theorem lasting_cfg (s : State) : Lasting (fun u => u.cfg = s.cfg) s.adMode :=
  ⟨fun _ h => h, fun _ h => h, fun h => by unfold State.adMode; rw [h], fun _ h hw => (cfg_physWrite hw).trans h⟩

/-- Settles O35: the access ends with success or one of its exceptions, and is quiet. -/
theorem hlsvEnds : Obligations.HlsvEnds := by
  intro s t rd rs2 rs1 hH hv hx hu
  refine ⟨fun f hf h => ?_, fun f hf h => ?_⟩
  · have hok := hlsvVerdict_ok (wide := f.wide) hH hv (fun _ => hx) hu
    obtain ⟨u, w, -, hq, rfl⟩ | ⟨u, e, -, hq, rfl, he⟩ := exec_load_ends (lasting_cfg s) rfl hf hok h
    · exact .inl (retired_writeX_of_quiet hq rd w)
    · refine .inr ⟨u, e, rfl, hq.1, ?_⟩
      obtain hacc | hacc := (exec_loadForm hf).2.1 <;> rw [hacc] at he <;> exact he
  · have hok := hlsvVerdict_ok (wide := f.wide) hH hv (fun _ => hx) hu
    obtain ⟨u, hq, rfl⟩ | ⟨u, e, hq, rfl, he⟩ :=
      exec_store_ends (lasting_cfg s) (fun h hw => (cfg_physWrite hw).trans h) rfl hf hok h
    · exact .inl (retired_of_quiet hq)
    · exact .inr ⟨u, e, rfl, hq.1, he⟩

/-- Without hardware updating of A and D, memory lasts through a load. -/
theorem lasting_memory {s : State} (h : s.cfg.adHardware = false) :
    Lasting (fun u => u.mem = s.mem ∧ u.timer = s.timer ∧ u.cfg = s.cfg) .fault :=
  ⟨fun _ h => h, fun _ h => h, fun hu => by simp [State.adMode, hu.2.2, h], fun hne => absurd rfl hne⟩

/-- Settles O36: a load then writes nothing, and neither does retiring nor taking a trap. -/
theorem hlvLeavesMemory : Obligations.HlvLeavesMemory := by
  intro s t rd rs1 had f hf h
  by_cases hok : s.hlsvVerdict f.wide = .ok
  · obtain ⟨u, w, ⟨hm, ht, -⟩, -, rfl⟩ | ⟨u, e, ⟨hm, ht, -⟩, -, rfl, -⟩ :=
      exec_load_ends (lasting_memory had) ⟨rfl, rfl, rfl⟩ hf hok h
    · rw [retire_mem, retire_timer, writeX_mem, writeX_timer]
      exact ⟨hm, ht⟩
    · rw [raise_mem, raise_timer]
      exact ⟨hm, ht⟩
  · obtain ⟨-, -, conv, -, hexec⟩ := exec_loadForm hf
    rw [hexec] at h
    obtain ⟨hv, -⟩ | ⟨e, rfl⟩ := guarded_next h
    · exact absurd hv hok
    · exact ⟨raise_mem s e, raise_timer s e⟩

end Sys2Proof.Proofs.AccessEnds
end

section
/-!
SUPPORT. Sv39 from the root down to its entry (`21_virtual_memory.md` section 4): without cached translations and changes to
fence, the entry is what memory holds.
-/

namespace Sys2Proof.Proofs.RootEntry

open Sys2Proof Sys2Proof.Machine Sys2Proof.Laws Sys2Proof.Proofs.Steps

/-! ### The scheme (`21_virtual_memory.md` R512) -/

/-- Sv39. -/
def sv39 : Scheme := ⟨3, 9, 8, 0⟩

theorem sv39_canonical (va : Word) :
    sv39.canonical va = true ↔ va.toNat / 2 ^ 38 = 0 ∨ va.toNat / 2 ^ 38 = 2 ^ 26 - 1 := by
  simp only [Scheme.canonical, Bool.or_eq_true, decide_eq_true_eq]
  exact ⟨fun h => h.imp_left fun h => h.resolve_left (by decide), fun h => h.imp_left .inr⟩

theorem sv39_vpn (va : Nat) : sv39.vpn (va % 2 ^ sv39.addrBits) 2 = va / 2 ^ 30 % 512 := by
  show va % 2 ^ 39 / 2 ^ 30 % 2 ^ 9 = _
  omega

theorem translateAddr_single {s : State} {priv : Priv} (hp : priv ≠ .m) (hS : s.hasS = true) (o : Origin) :
    translateAddr o priv false s = singleStage o (permitted o.acc priv s.mst.sum s.mst.mxr) false s.adMode s := by
  cases priv with
  | m => exact absurd rfl hp
  | s | u => simp only [translateAddr, hS, Bool.not_true, Bool.false_eq_true, if_false]

/-! ### Nothing cached and nothing to fence -/

theorem changes_noXlat {s : State} (h : s.xlat = noXlat) : s.changes = [] := by
  unfold State.changes
  rw [h]
  rfl

theorem staleSince_noXlat {s : State} (h : s.xlat = noXlat) (k : Hist) (f : Scope → Bool) : s.staleSince k f = false := by
  unfold State.staleSince
  rw [changes_noXlat h]
  rfl

theorem walkSbe_noXlat {s : State} (h : s.xlat = noXlat) (g : Bool) : s.walkSbe g = (s.mst.sbe, s) := by
  simp only [State.walkSbe, State.maybeStale, staleSince_noXlat h, Bool.false_eq_true, if_false, pick_one]

theorem walkPbmte_noXlat {s : State} (h : s.xlat = noXlat) (g : Bool) : s.walkPbmte g = (s.m.pbmte, s) := by
  simp only [State.walkPbmte, State.maybeStale, staleSince_noXlat h, Bool.false_eq_true, if_false, pick_one]

theorem pmps_noXlat {s : State} (h : s.xlat = noXlat) (guest : Bool) : s.pmps guest = [s.pmp] := by
  unfold State.pmps
  rw [changes_noXlat h]
  rfl

/-- An entry that a walk may read is what memory holds. -/
theorem readPtePhys_noXlat {s : State} (h : s.xlat = noXlat) {a n : Nat} {k : Walker} (hk : k.spec = false)
    (hpmp : s.pmpCheck s.pmp .load .s a n = true) (hpma : s.pmaOk .load a n = true) (hmain : s.mainMemory a n) (e : Exc)
    (pbmt : Nat) : readPtePhys n k e pbmt a s = .ok (leNat (Memory.bytes s.mem a n), a) s := by
  have hpmps : ∀ p ∈ s.pmps k.guest, p = s.pmp := by
    rw [pmps_noXlat h]
    exact fun p hp => List.mem_singleton.mp hp
  simp only [readPtePhys, pmpOk_settled hpmps, hpmp, hpma, hk, Bool.not_false, Bool.true_or, Bool.and_self, if_true,
    physRead_main hmain]

/-- A read of an entry can give nothing but what memory holds. -/
theorem others_noXlat {s : State} (h : s.xlat = noXlat) (w : Walk) (i key : Nat) (g : Bool) : w.others i key g s = [] := by
  have hc : w.cached key s = [] := by
    unfold Walk.cached
    rw [h]
    rfl
  have hp (phys : Nat) : w.past i key phys g s = [] := by
    simp [Walk.past, changes_noXlat h, pastEntries]
  unfold Walk.others
  rw [hc]
  split
  · rw [hp]; rfl
  · rfl

theorem readPte_noXlat {s : State} (h : s.xlat = noXlat) {w : Walk} {i key raw phys : Nat} {g : Bool}
    (hr : w.readMem key s = .ok (raw, phys) s) : ∃ x, w.readPte i key g s = .ok (raw, key) { s with xlat := x } := by
  unfold Walk.readPte
  dsimp only
  rw [others_noXlat h, Walk.readFresh, hr]
  exact ⟨_, rfl⟩

/-! ### The value of an entry -/

theorem leBytes_leNat (l : List Byte) : leBytes l.length (leNat l) = l := by
  induction l with
  | nil => rfl
  | cons b l ih =>
    have hb := b.isLt
    have hlow : BitVec.ofNat 8 (b.toNat + 256 * leNat l) = b := by
      apply BitVec.eq_of_toNat_eq
      rw [BitVec.toNat_ofNat]
      omega
    rw [List.length_cons, leNat, leBytes, hlow, show (b.toNat + 256 * leNat l) / 256 = leNat l by omega, ih]

/-- An entry's value is its bytes in the byte order of the walk. -/
theorem pteOf_leNat (big : Bool) (m : List Host.Cell) (a n : Nat) :
    pteOf big n (leNat (Memory.bytes m a n)) = assemble big (Memory.bytes m a n) := by
  cases big with
  | false => rfl
  | true =>
    have := leBytes_leNat (Memory.bytes m a n)
    rw [bytes_length] at this
    simp only [pteOf, swapPte, this, if_true]

/-- Above level 0 no sound entry has the N bit. -/
theorem pteN_of_sound {i : Nat} {svnapot svpbmt : Bool} {p : Nat} (hi : i ≠ 0) (h : pteBad 8 i svnapot svpbmt p = false) :
    pteN p = false := by
  unfold pteBad at h
  simp only [Bool.or_eq_false_iff, decide_true, Bool.true_and] at h
  obtain ⟨-, ⟨⟨-, hn⟩, -⟩, -⟩ := h
  simpa [pteNapotOk, hi] using hn

/-! ### The entry at a level -/

section
variable {w : Walk} {i raw src : Nat} {global : Bool} {s : State}

theorem entry_bad (h : pteBad w.scheme.pteSize i s.cfg.hasSvnapot w.svpbmt (pteOf w.big w.scheme.pteSize raw) = true) :
    w.entry i raw src global s = .trap w.pageFault s := by
  simp only [Walk.entry, h, if_true]

/-- A sound, permitted, aligned leaf with A, and for a store D, set gives its target. -/
theorem entry_leaf {pte : Nat} (hpte : pteOf w.big w.scheme.pteSize raw = pte)
    (hbad : pteBad w.scheme.pteSize i s.cfg.hasSvnapot w.svpbmt pte = false) (hleaf : ptePointer pte = false)
    (hperm : w.permits pte = true) (hal : ptePpn w.scheme.pteSize pte % 2 ^ (w.scheme.vpnBits * i) = 0)
    (hA : pteA pte = true) (hD : w.setD = true → pteD pte = true) :
    w.entry i raw src global s =
      .ok (some (.done { addr := w.target i pte, pbmt := if w.scheme.pteSize = 8 then ptePbmt pte else 0
                         global := w.useG && (global || pteG pte) })) s := by
  have hAD : (pteA pte && (pteD pte || !w.setD)) = true := by
    cases hd : w.setD with
    | false => simp [hA]
    | true => simp [hA, hD hd]
  have hl : w.leaf i raw src s = .ok (some (w.target i pte)) s := by
    simp only [Walk.leaf, hpte, hperm, hal, hAD, Bool.not_true, Bool.false_eq_true, if_false, ne_eq, not_true_eq_false,
      decide_false, Bool.and_false, if_true]
  simp only [Walk.entry, hpte, hbad, hleaf, hl, Res.bind, Option.map, Bool.false_eq_true, if_false]

end

/-! ### The walk through the root entry -/

/-- The Sv39 walk of a state with nothing cached. -/
def rootWalk (s : State) (o : Origin) (priv : Priv) : Walk :=
  s.satpWalk o (permitted o.acc priv s.mst.sum s.mst.mxr) false s.adMode sv39 s.mst.sbe s.m.pbmte

theorem translateAddr_root {s : State} {o : Origin} {priv : Priv} (hp : priv ≠ .m) (hS : s.hasS = true)
    (hx : s.sxlen = .x64) (hmode : atpMode .x64 s.sc.atp = 8)
    (hva : o.va.toNat / 2 ^ 38 = 0 ∨ o.va.toNat / 2 ^ 38 = 2 ^ 26 - 1) (h : s.xlat = noXlat) :
    translateAddr o priv false s = (rootWalk s o priv).run (atpPpn .x64 s.sc.atp) s := by
  have hscheme : schemeOf s.sxlen 0 (atpMode s.sxlen s.sc.atp) = some sv39 := by rw [hx, hmode]; rfl
  have htlb : ∀ r ∈ s.xlat.tlb, r.space ≠ .hs := by
    rw [h]
    exact fun r hr => absurd hr List.not_mem_nil
  rw [translateAddr_single hp hS, singleStage_walk hscheme ((sv39_canonical _).mpr hva) htlb, walkSbe_noXlat h,
    walkPbmte_noXlat h, hx]
  rfl

/-- The root entry is the one in memory at its address. -/
theorem level_root {s : State} {o : Origin} {priv : Priv} (h : s.xlat = noXlat) {base a : Nat}
    (ha : a = base + o.va.toNat / 2 ^ 30 % 512 * 8) (hpmp : s.pmpCheck s.pmp .load .s a 8 = true)
    (hpma : s.pmaOk .load a 8 = true) (hmain : s.mainMemory a 8) :
    ∃ x, ∀ r, (rootWalk s o priv).entry 2 (leNat (Memory.bytes s.mem a 8)) a false { s with xlat := x } = r →
      (∀ e t, r = .trap e t → (rootWalk s o priv).from 2 base false s = .trap e t) ∧
      (∀ p t, r = .ok (some (.done p)) t → (rootWalk s o priv).from 2 base false s = .ok p t) := by
  have hkey : base + (rootWalk s o priv).scheme.vpn (rootWalk s o priv).addr 2 * (rootWalk s o priv).scheme.pteSize = a := by
    rw [ha, ← sv39_vpn]
    rfl
  have hread : (rootWalk s o priv).readMem a s = .ok (leNat (Memory.bytes s.mem a 8), a) s :=
    readPtePhys_noXlat h rfl hpmp hpma hmain _ _
  obtain ⟨x, hpte⟩ := readPte_noXlat (i := 2) (g := false) h hread
  refine ⟨x, fun r hr => ⟨?_, ?_⟩⟩
  · rintro e t rfl
    simp only [Walk.from, Walk.level, hkey, hpte, Res.bind, hr]
  · rintro p t rfl
    simp only [Walk.from, Walk.level, hkey, hpte, Res.bind, hr]

theorem target_gigapage {s : State} {o : Origin} {priv : Priv} {pte : Nat} (hn : pteN pte = false) :
    (rootWalk s o priv).target 2 pte = ptePpn 8 pte / 2 ^ 18 * 2 ^ 30 + o.va.toNat % 2 ^ 30 := by
  have haddr : (rootWalk s o priv).addr = o.va.toNat % 2 ^ 39 := rfl
  have hscheme : (rootWalk s o priv).scheme = ⟨3, 9, 8, 0⟩ := rfl
  simp only [Walk.target, hn, Bool.and_false, Bool.false_eq_true, if_false, haddr, hscheme]
  omega

/-- Settles O52: the walk reads the root entry from memory (`level_root`), which is malformed or a leaf. -/
theorem sv39RootEntry : Obligations.Sv39RootEntry := by
  intro s o priv a pte hp hS hx hmode
  refine ⟨fun hva => ?_, fun hva h ha hpmp hpma hmain hpte => ?_⟩
  · have hc : sv39.canonical o.va = false := by
      rw [← Bool.not_eq_true, sv39_canonical]
      exact hva
    have hscheme : schemeOf s.sxlen 0 (atpMode s.sxlen s.sc.atp) = some sv39 := by rw [hx, hmode]; rfl
    rw [translateAddr_single hp hS]
    simp only [singleStage, hscheme, hc, Bool.not_false, if_true]
  · obtain ⟨x, hfrom⟩ := level_root (o := o) (priv := priv) h ha hpmp hpma hmain
    have hval : pteOf (rootWalk s o priv).big (rootWalk s o priv).scheme.pteSize (leNat (Memory.bytes s.mem a 8)) = pte :=
      (pteOf_leNat s.mst.sbe s.mem a 8).trans hpte.symm
    rw [translateAddr_root hp hS hx hmode hva h]
    refine ⟨fun hbad => ⟨{ s with xlat := x }, ?_, rfl⟩, fun hbad hleaf hperm hal hA hD => ⟨{ s with xlat := x }, ?_, rfl⟩⟩
    · exact (hfrom _ (entry_bad (by rw [hval]; exact hbad))).1 _ _ rfl
    · have hentry := entry_leaf (w := rootWalk s o priv) (i := 2) (src := a) (global := false) (s := { s with xlat := x })
        hval hbad hleaf hperm hal hA fun hd => hD (of_decide_eq_true hd)
      rw [target_gigapage (pteN_of_sound (by decide) hbad)] at hentry
      exact (hfrom _ hentry).2 _ _ rfl

end Sys2Proof.Proofs.RootEntry
end
